-- ==== Sys2Proof/Word.lean ====
section
/-! DEFINITION. Word.lean: the widths of the machine (00_scope.md R9), as plain abbreviations of bit vectors. -/

namespace Sys2Proof

/-- A byte of data space. -/
abbrev Byte := BitVec 8

/-- A 16-bit data word, the width of every working register (R20). -/
abbrev Word := BitVec 16

/-- A 24-bit instruction word (R140). -/
abbrev ProgWord := BitVec 24

/-- A program address as the program counter holds it, `pc[22:0]` (R31). -/
abbrev ProgAddr := BitVec 23

/-- Address bits 22:1 of a program address, as DOSTART and DOEND store them (R70, R71). -/
abbrev LoopAddr := BitVec 22

/-- A 40-bit accumulator (R60). -/
abbrev Acc40 := BitVec 40

/-- The number of a working register, the four-bit field of an instruction that names W0 to W15. -/
abbrev Reg := BitVec 4

end Sys2Proof
end

