-- ==== Sys2Proof/Config.lean ====
section
/-! DEFINITION. Config.lean: the device parameters of 00_scope.md R10, and the free values: constants without a body,
so that no proof can use what they are (93_implementation_defined.md, treatment `any value`). -/

namespace Sys2Proof

/-- `SFR_ADDR(name)`: the data address of each memory-mapped register, in the SFR space (R10, R93). The working registers
are not listed: Wn is at 2n (R115). The accumulators exist only with `HAS_DSP`, MSTRPR only with `HAS_MSTRPR`. -/
structure SfrMap where
  splim : BitVec 12
  accal : BitVec 12
  accah : BitVec 12
  accau : BitVec 12
  accbl : BitVec 12
  accbh : BitVec 12
  accbu : BitVec 12
  pcl : BitVec 12
  pch : BitVec 12
  dsrpag : BitVec 12
  dswpag : BitVec 12
  rcount : BitVec 12
  dcount : BitVec 12
  dostartl : BitVec 12
  dostarth : BitVec 12
  doendl : BitVec 12
  doendh : BitVec 12
  sr : BitVec 12
  corcon : BitVec 12
  modcon : BitVec 12
  xmodsrt : BitVec 12
  xmodend : BitVec 12
  ymodsrt : BitVec 12
  ymodend : BitVec 12
  xbrev : BitVec 12
  disicnt : BitVec 12
  tblpag : BitVec 12
  mstrpr : BitVec 12
  ctxtstat : BitVec 12
  intcon1 : BitVec 12
  intcon3 : BitVec 12
  deriving DecidableEq, Repr

/-- The default addresses of R93. -/
def SfrMap.suggested : SfrMap where
  splim := 0x020
  accal := 0x022
  accah := 0x024
  accau := 0x026
  accbl := 0x028
  accbh := 0x02A
  accbu := 0x02C
  pcl := 0x02E
  pch := 0x030
  dsrpag := 0x032
  dswpag := 0x034
  rcount := 0x036
  dcount := 0x038
  dostartl := 0x03A
  dostarth := 0x03C
  doendl := 0x03E
  doendh := 0x040
  sr := 0x042
  corcon := 0x044
  modcon := 0x046
  xmodsrt := 0x048
  xmodend := 0x04A
  ymodsrt := 0x04C
  ymodend := 0x04E
  xbrev := 0x050
  disicnt := 0x052
  tblpag := 0x054
  mstrpr := 0x058
  ctxtstat := 0x05A
  intcon1 := 0x8C0
  intcon3 := 0x8C4

/-- `VECTOR(t)` and `LEVEL(t)` of a trap (R10, R372). A level is 8 to 15; `levelAbove8` is how far it lies above 8. -/
structure TrapParam where
  vector : ProgAddr
  levelAbove8 : Fin 8
  deriving DecidableEq, Repr

/-- `VECTOR` and `LEVEL` of the seven traps (R10, R372). -/
structure TrapTable where
  oscFail : TrapParam
  addressError : TrapParam
  genericHard : TrapParam
  stackError : TrapParam
  mathError : TrapParam
  dmaError : TrapParam
  softTrap : TrapParam
  deriving DecidableEq, Repr

/-- The default vectors and levels of R372: the levels are 14, 13, 15, 12, 11, 10 and 9. -/
def TrapTable.suggested : TrapTable where
  oscFail := { vector := 0x04, levelAbove8 := 6 }
  addressError := { vector := 0x06, levelAbove8 := 5 }
  genericHard := { vector := 0x08, levelAbove8 := 7 }
  stackError := { vector := 0x0A, levelAbove8 := 4 }
  mathError := { vector := 0x0C, levelAbove8 := 3 }
  dmaError := { vector := 0x0E, levelAbove8 := 2 }
  softTrap := { vector := 0x10, levelAbove8 := 1 }

/-- `VECTOR` of the interrupt sources (R10, R372): the address listed for a source in `other`, and `base + 2 * k` for every
source k that is not listed, so that any table of vectors can be given. -/
structure IrqTable where
  base : ProgAddr
  other : List (Nat × ProgAddr)
  deriving DecidableEq, Repr

/-- The default vectors of R372: 0x14 + 2 * k. -/
def IrqTable.suggested : IrqTable where
  base := 0x14
  other := []

/-- The parameters the spec leaves to the device, every row of R10's table. They are plain data of the state, so that
every statement quantifies over them; no step changes them. Log entries 1 and 2. -/
structure Device where
  /-- `NUM_ALT_CONTEXTS`: how many alternate register sets exist, 0 to 4 (R22). -/
  numAlt : Fin 5
  /-- `CTXT_IPL[n]` for n = 1..4 (index n - 1): the priority level assigned to alternate set n, or none (R81). -/
  ctxtIpl : Vector (Option (Fin 8)) 4
  /-- `HAS_DSP` (R11). -/
  hasDsp : Bool
  /-- `CTX_NOMATCH_TO_DEFAULT` (R381). -/
  ctxNomatchToDefault : Bool
  /-- `DSP_CONTEXTS`: the DSP state exists once per context (R63). -/
  dspContexts : Bool
  /-- `HAS_DIVF` (R230). -/
  hasDivf : Bool
  /-- `HAS_MSTRPR` (R79). -/
  hasMstrpr : Bool
  /-- `HAS_DUAL_PARTITION`: `BOOTSWP` is refused whether or not it is set (R343). -/
  hasDualPartition : Bool
  /-- `HAS_PFU_3CYCLE`: a table or PSV read as the first instruction of a `DO` loop is then outside the spec's guarantee;
  the model's reads do not depend on it (R330). -/
  hasPfu3Cycle : Bool
  /-- `XY_BOUNDARY`: the first data address of Y space (R137). -/
  xyBoundary : Nat
  /-- `RAM_END`: the last implemented address of the base data space (R108). -/
  ramEnd : Nat
  /-- The last implemented address of Extended Data Space beyond the base 64 Kbytes; below 0x10000 there is none (R109). -/
  edsEnd : Nat
  /-- `PROG_WORDS`: how many program words are implemented (R104). -/
  progWords : Nat
  /-- `SFR_ADDR` (R93). -/
  sfrMap : SfrMap
  /-- `VECTOR` and `LEVEL` of the traps (R372). -/
  traps : TrapTable
  /-- `VECTOR` of the interrupt sources (R372). -/
  irqVectors : IrqTable
  deriving DecidableEq, Repr

/-- The defaults R10 suggests; for the parameters it leaves OPEN the whole address range is implemented
(DESIGN CHOICE, log entry 2). -/
def Device.suggested : Device where
  numAlt := 4
  ctxtIpl := #v[none, none, none, none]
  hasDsp := true
  ctxNomatchToDefault := false
  dspContexts := false
  hasDivf := true
  hasMstrpr := false
  hasDualPartition := false
  hasPfu3Cycle := false
  xyBoundary := 0x2000
  ramEnd := 0xFFFF
  edsEnd := 0xFFFFFF
  progWords := 0x400000
  sfrMap := SfrMap.suggested
  traps := TrapTable.suggested
  irqVectors := IrqTable.suggested

/-- An `any` value of width `w`: the `n`-th draw of a run. It has no body that a proof could see. Log entry 3. -/
opaque Config.anyBits (w : Nat) (n : Nat) : BitVec w

/-- An `any` bit: the `n`-th draw of a run. Log entry 3. -/
opaque Config.anyBit (n : Nat) : Bool

/-- What a byte of data RAM that nothing has written holds: `any` at the start of a run, and the same on every read
(R111, U17). Log entry 4. -/
opaque Config.ramInit (addr : Nat) : Byte

/-- What a word of program memory that the loaded image does not hold reads as: `any`, and the same on every read.
The spec's program memory is a finite map and says nothing of the words outside it (R104). Log entry 8. -/
opaque Config.progInit (addr : Nat) : ProgWord

end Sys2Proof
end

