-- ==== Sys2Proof/Syntax.lean ====
section
/-! DEFINITION. Syntax.lean: the instructions, one constructor per row of spec/opcode_table.json, over the operand
forms of 20_memory.md R118 and 42_dsp.md R246. -/

namespace Sys2Proof

/-- Addressing modes of a register operand (R118): the codes 000 to 101 of the encoding's mode field and the
register-offset form `[Wn+Wb]` (codes 110 and 111, R149). -/
inductive Mode where
  /-- `Wn`, register direct -/
  | direct
  /-- `[Wn]` -/
  | indirect
  /-- `[Wn--]` -/
  | postDec
  /-- `[Wn++]` -/
  | postInc
  /-- `[--Wn]` -/
  | preDec
  /-- `[++Wn]` -/
  | preInc
  /-- `[Wn+Wb]`, where Wb is the instruction's offset register -/
  | offset
  deriving DecidableEq, Repr

/-- A register operand: its addressing mode and the register it names. -/
structure Operand where
  mode : Mode
  reg : Reg
  deriving DecidableEq, Repr

/-- The conditions of `BRA cond, Expr` (R288). -/
inductive Cond where
  | ov | c | z | n | le | lt | leu | nov | nc | nz | nn | gt | ge | gtu
  deriving DecidableEq, Repr

/-- The two accumulators (R60). -/
inductive AccId where
  | a | b
  deriving DecidableEq, Repr

/-- The register pair of a DSP multiply (R246). -/
inductive MulPair where
  | w4w5 | w4w6 | w4w7 | w5w6 | w5w7 | w6w7
  deriving DecidableEq, Repr

/-- The pointer update of a DSP prefetch, in bytes (R246). -/
inductive PfStep where
  | none | plus2 | plus4 | plus6 | minus6 | minus4 | minus2
  deriving DecidableEq, Repr

/-- The address of a DSP prefetch: through the first or second pointer of its space (W8 or W9 in X, W10 or W11 in Y)
with an update, or the second pointer plus W12 (R246). -/
inductive PfAddr where
  | pointer (second : Bool) (step : PfStep)
  | offset
  deriving DecidableEq, Repr

/-- A DSP prefetch: absent, or an address and the destination W4 to W7 (0 to 3). -/
inductive Prefetch where
  | off
  | on (addr : PfAddr) (dest : BitVec 2)
  deriving DecidableEq, Repr

/-- The accumulator write-back of `MAC` and `MSC` (R255). -/
inductive Awb where
  /-- `W13` -/
  | w13
  /-- `[W13]+=2` -/
  | indirect
  /-- absent -/
  | none
  deriving DecidableEq, Repr

/-- The signedness of the two factors of an MCU multiply, the first factor's letter first (R216 to R219). -/
inductive Signs where
  | ss | su | us | uu
  deriving DecidableEq, Repr

/-- The second factor of a multiply into an accumulator (R222). -/
inductive MulSrc where
  | op (src : Operand)
  | lit5 (k : BitVec 5)
  deriving DecidableEq, Repr

/-- The instructions the spec names (R146), in the order of the opcode table. `byte` selects byte mode; `f13` is a
13-bit data address, `f15` the bits 15:1 of a data address, `toFile` the file register as destination (otherwise
WREG); `off` is a signed offset in instruction words. -/
inductive Instr where
  /-- `MOV{.B} Ws, Wd`, also `PUSH Ws` and `POP Wd` (R171, R178, R179) -/
  | movReg (byte : Bool) (wb : Reg) (src dst : Operand)
  /-- `MOV #lit16, Wn` (R172) -/
  | movLit (lit : BitVec 16) (wd : Reg)
  /-- `MOV f, Wn` (R173) -/
  | movFileToW (f15 : BitVec 15) (wd : Reg)
  /-- `MOV Wn, f` (R174) -/
  | movWToFile (ws : Reg) (f15 : BitVec 15)
  /-- `MOV{.B} WREG, f` (R175) -/
  | movWregToFile (byte : Bool) (f13 : BitVec 13)
  /-- `MOV{.B} f {,WREG}` (R175) -/
  | movFile (byte toFile : Bool) (f13 : BitVec 13)
  /-- `MOV.D Ws, Wnd` (R176) -/
  | movDLoad (src : Operand) (wd : Reg)
  /-- `MOV.D Wns, Wd` (R177) -/
  | movDStore (ws : Reg) (dst : Operand)
  /-- `PUSH f` (R180) -/
  | pushFile (f15 : BitVec 15)
  /-- `POP f` (R181) -/
  | popFile (f15 : BitVec 15)
  /-- `PUSH.S` (R182) -/
  | pushS
  /-- `POP.S` (R183) -/
  | popS
  /-- `LNK #lit14` (R184) -/
  | lnk (lit : BitVec 14)
  /-- `ULNK` (R185) -/
  | ulnk
  /-- `SE Ws, Wnd` (R186) -/
  | se (src : Operand) (wd : Reg)
  /-- `ZE Ws, Wnd` (R187) -/
  | ze (src : Operand) (wd : Reg)
  /-- `TBLRDL{.B} Ws, Wd` (R190) -/
  | tblrdl (byte : Bool) (src dst : Operand)
  /-- `TBLRDH{.B} Ws, Wd` (R190) -/
  | tblrdh (byte : Bool) (src dst : Operand)
  /-- `TBLWTL{.B} Ws, Wd` (R191) -/
  | tblwtl (byte : Bool) (src dst : Operand)
  /-- `TBLWTH{.B} Ws, Wd` (R191) -/
  | tblwth (byte : Bool) (src dst : Operand)
  /-- `ADD{.B} Wb, Ws, Wd` (R203) -/
  | addReg (byte : Bool) (wb : Reg) (src dst : Operand)
  /-- `ADD{.B} Wb, #lit5, Wd` (R203) -/
  | addLit5 (byte : Bool) (wb : Reg) (lit : BitVec 5) (dst : Operand)
  /-- `ADD{.B} f {,WREG}` (R204) -/
  | addFile (byte toFile : Bool) (f13 : BitVec 13)
  /-- `ADD{.B} #lit10, Wn` (R205) -/
  | addLit10 (byte : Bool) (lit : BitVec 10) (wn : Reg)
  /-- `SL{.B} f {,WREG}` (R206) -/
  | slFile (byte toFile : Bool) (f13 : BitVec 13)
  /-- `SL{.B} Ws, Wd` (R206) -/
  | slReg (byte : Bool) (src dst : Operand)
  /-- `SL Wb, #lit4, Wnd` (R209) -/
  | slLit4 (wb : Reg) (lit : BitVec 4) (wd : Reg)
  /-- `SL Wb, Wns, Wnd` (R209) -/
  | slW (wb wns wd : Reg)
  /-- `LSR{.B} f {,WREG}` (R207) -/
  | lsrFile (byte toFile : Bool) (f13 : BitVec 13)
  /-- `LSR{.B} Ws, Wd` (R207) -/
  | lsrReg (byte : Bool) (src dst : Operand)
  /-- `LSR Wb, #lit4, Wnd` (R210) -/
  | lsrLit4 (wb : Reg) (lit : BitVec 4) (wd : Reg)
  /-- `LSR Wb, Wns, Wnd` (R210) -/
  | lsrW (wb wns wd : Reg)
  /-- `ASR{.B} f {,WREG}` (R208) -/
  | asrFile (byte toFile : Bool) (f13 : BitVec 13)
  /-- `ASR{.B} Ws, Wd` (R208) -/
  | asrReg (byte : Bool) (src dst : Operand)
  /-- `ASR Wb, #lit4, Wnd` (R211) -/
  | asrLit4 (wb : Reg) (lit : BitVec 4) (wd : Reg)
  /-- `ASR Wb, Wns, Wnd` (R211) -/
  | asrW (wb wns wd : Reg)
  /-- `BSET{.B} f, #bit4` (R213) -/
  | bsetFile (byte : Bool) (f13 : BitVec 13) (bit : BitVec 4)
  /-- `BTSC{.B} f, #bit4` (R214) -/
  | btscFile (byte : Bool) (f13 : BitVec 13) (bit : BitVec 4)
  /-- `BSET{.B} Ws, #bit4` (R213) -/
  | bsetReg (byte : Bool) (bit : BitVec 4) (ws : Operand)
  /-- `BTSC Ws, #bit4` (R214) -/
  | btscReg (bit : BitVec 4) (ws : Operand)
  /-- `MUL.UU Wb, Ws, Wnd` (R219) -/
  | mulUU (wb : Reg) (src : Operand) (wd : Reg)
  /-- `MUL.UU Wb, #lit5, Wnd` (R219) -/
  | mulUULit5 (wb : Reg) (lit : BitVec 5) (wd : Reg)
  /-- `MUL.US Wb, Ws, Wnd` (R218) -/
  | mulUS (wb : Reg) (src : Operand) (wd : Reg)
  /-- `MUL.SU Wb, Ws, Wnd` (R217) -/
  | mulSU (wb : Reg) (src : Operand) (wd : Reg)
  /-- `MUL.SU Wb, #lit5, Wnd` (R217) -/
  | mulSULit5 (wb : Reg) (lit : BitVec 5) (wd : Reg)
  /-- `MUL.SS Wb, Ws, Wnd` (R216) -/
  | mulSS (wb : Reg) (src : Operand) (wd : Reg)
  /-- `MUL{.B} f` (R220) -/
  | mulFile (byte : Bool) (f13 : BitVec 13)
  /-- `MULW.SS Wb, Ws, Wnd` (R221; no encoding offered) -/
  | mulwSS (wb : Reg) (src : Operand) (wd : Reg)
  /-- `MULW.SU Wb, Ws, Wnd` (R221; no encoding offered) -/
  | mulwSU (wb : Reg) (src : Operand) (wd : Reg)
  /-- `MULW.US Wb, Ws, Wnd` (R221; no encoding offered) -/
  | mulwUS (wb : Reg) (src : Operand) (wd : Reg)
  /-- `MULW.UU Wb, Ws, Wnd` (R221; no encoding offered) -/
  | mulwUU (wb : Reg) (src : Operand) (wd : Reg)
  /-- `MUL.xx Wb, Ws, Acc` and the `#lit5` forms (R222; no encoding offered) -/
  | mulAcc (signs : Signs) (wb : Reg) (src : MulSrc) (acc : AccId)
  /-- `DIV.SW Wm, Wn` (R225) -/
  | divSW (wm wn : Reg)
  /-- `DIV.SD Wm, Wn` (R226); `hi` is the register the encoding names for the high word, Wm+1 (R155) -/
  | divSD (hi wm wn : Reg)
  /-- `DIV.UW Wm, Wn` (R227) -/
  | divUW (wm wn : Reg)
  /-- `DIV.UD Wm, Wn` (R229); `hi` as in `divSD` -/
  | divUD (hi wm wn : Reg)
  /-- `DIVF Wm, Wn` (R230) -/
  | divF (wm wn : Reg)
  /-- `NOP` (R299) -/
  | nop
  /-- `NOPR` (R299) -/
  | nopr
  /-- `BRA Expr` (R285) -/
  | bra (off : BitVec 16)
  /-- `BRA cond, Expr` (R288) -/
  | braCond (cond : Cond) (off : BitVec 16)
  /-- `BRA OA, Expr` (R287) -/
  | braOA (off : BitVec 16)
  /-- `BRA OB, Expr` (R287) -/
  | braOB (off : BitVec 16)
  /-- `BRA SA, Expr` (R287) -/
  | braSA (off : BitVec 16)
  /-- `BRA SB, Expr` (R287) -/
  | braSB (off : BitVec 16)
  /-- `BRA Wn` (R286) -/
  | braW (wn : Reg)
  /-- `GOTO Expr` (R281); the target's bits 22:1 -/
  | goto (target : BitVec 22)
  /-- `GOTO Wn` (R282) -/
  | gotoW (wn : Reg)
  /-- `CALL Expr` (R290); the target's bits 22:1 -/
  | call (target : BitVec 22)
  /-- `CALL Wn`, CALLW (R292) -/
  | callW (wn : Reg)
  /-- `CALL.L Wn`, CALLWL (R293); `hi` is the register the encoding names for the high word, Wn+1 -/
  | callL (hi wn : Reg)
  /-- `RCALL Expr` (R294) -/
  | rcall (off : BitVec 16)
  /-- `RCALL Wn`, RCALLW (R295) -/
  | rcallW (wn : Reg)
  /-- `RETURN` (R296) -/
  | ret
  /-- `RETFIE` (R298, R385) -/
  | retfie
  /-- `RETLW{.B} #lit10, Wn` (R297) -/
  | retlw (byte : Bool) (lit : BitVec 10) (wn : Reg)
  /-- `REPEAT #lit15` (R311) -/
  | repeatLit (lit : BitVec 15)
  /-- `REPEAT Wn` (R312) -/
  | repeatW (wn : Reg)
  /-- `DO #lit15, Expr` (R320); `off` is the offset of the last instruction from the first (R319) -/
  | doLit (lit : BitVec 15) (off : BitVec 16)
  /-- `DO Wn, Expr` (R320) -/
  | doW (wn : Reg) (off : BitVec 16)
  /-- a "compare and skip" instruction (R300; no operands and no encoding offered) -/
  | compareSkip
  /-- `MAC Wm*Wn, Acc {,[Wx],Wxd} {,[Wy],Wyd} {,AWB}` (R258) -/
  | mac (pair : MulPair) (acc : AccId) (x y : Prefetch) (awb : Awb)
  /-- `MAC Wm*Wm, Acc {,[Wx],Wxd} {,[Wy],Wyd}` (R259); `wm` 0 to 3 is W4 to W7 -/
  | macSq (wm : BitVec 2) (acc : AccId) (x y : Prefetch)
  /-- `MSC Wm*Wn, Acc {,...} {,AWB}` (R260) -/
  | msc (pair : MulPair) (acc : AccId) (x y : Prefetch) (awb : Awb)
  /-- `MPY Wm*Wn, Acc {,...}` (R261) -/
  | mpy (pair : MulPair) (acc : AccId) (x y : Prefetch)
  /-- `MPY Wm*Wm, Acc {,...}` (R261) -/
  | mpySq (wm : BitVec 2) (acc : AccId) (x y : Prefetch)
  /-- `MPY.N Wm*Wn, Acc {,...}` (R262) -/
  | mpyN (pair : MulPair) (acc : AccId) (x y : Prefetch)
  /-- `ED Wm*Wm, Acc, [Wx], [Wy], Wxd` (R263) -/
  | ed (wm : BitVec 2) (acc : AccId) (x y : PfAddr) (xd : BitVec 2)
  /-- `EDAC Wm*Wm, Acc, [Wx], [Wy], Wxd` (R264) -/
  | edac (wm : BitVec 2) (acc : AccId) (x y : PfAddr) (xd : BitVec 2)
  /-- `ADD Acc` (R265) -/
  | addAcc (acc : AccId)
  /-- `ADD Ws, {#Slit4,} Acc` (R266) -/
  | addToAcc (wb : Reg) (src : Operand) (shift : BitVec 4) (acc : AccId)
  /-- `LAC Ws, {#Slit4,} Acc` (R267) -/
  | lac (wb : Reg) (src : Operand) (shift : BitVec 4) (acc : AccId)
  /-- `SAC Acc, {#Slit4,} Wd` (R268) -/
  | sac (acc : AccId) (shift : BitVec 4) (wb : Reg) (dst : Operand)
  /-- `SAC.R Acc, {#Slit4,} Wd` (R269) -/
  | sacR (acc : AccId) (shift : BitVec 4) (wb : Reg) (dst : Operand)
  /-- `SFTAC Acc, #Slit6` (R270) -/
  | sftacLit (acc : AccId) (shift : BitVec 6)
  /-- `SFTAC Acc, Wb` (R271) -/
  | sftacW (acc : AccId) (wb : Reg)
  /-- `RESET` (R347) -/
  | reset
  /-- `PWRSAV #lit1` (R346) -/
  | pwrsav (lit : Bool)
  /-- `DISI #lit14` (R344) -/
  | disi (lit : BitVec 14)
  /-- `CTXTSWP #lit3` (R341) -/
  | ctxtswpLit (lit : BitVec 3)
  /-- `CTXTSWP Wn` (R341) -/
  | ctxtswpW (wn : Reg)
  /-- `BOOTSWP` (R343) -/
  | bootswp
  /-- `TRAP` (R348; no encoding offered) -/
  | trap
  /-- `FEX` (R348; no encoding offered) -/
  | fex
  /-- `SSTEP` (R348; no encoding offered) -/
  | sstep
  /-- `URUN` (R348; no encoding offered) -/
  | urun
  deriving DecidableEq, Repr

/-- The number of program words an instruction occupies: two for `GOTO Expr`, `CALL Expr` and `DO`, one for every
other (R141). -/
def Instr.words : Instr → Nat
  | .goto _ | .call _ | .doLit _ _ | .doW _ _ => 2
  | .movReg .. | .movLit .. | .movFileToW .. | .movWToFile .. | .movWregToFile .. | .movFile .. | .movDLoad ..
  | .movDStore .. | .pushFile .. | .popFile .. | .pushS | .popS | .lnk .. | .ulnk | .se .. | .ze .. | .tblrdl ..
  | .tblrdh .. | .tblwtl .. | .tblwth .. | .addReg .. | .addLit5 .. | .addFile .. | .addLit10 .. | .slFile ..
  | .slReg .. | .slLit4 .. | .slW .. | .lsrFile .. | .lsrReg .. | .lsrLit4 .. | .lsrW .. | .asrFile .. | .asrReg ..
  | .asrLit4 .. | .asrW .. | .bsetFile .. | .btscFile .. | .bsetReg .. | .btscReg .. | .mulUU .. | .mulUULit5 ..
  | .mulUS .. | .mulSU .. | .mulSULit5 .. | .mulSS .. | .mulFile .. | .mulwSS .. | .mulwSU .. | .mulwUS ..
  | .mulwUU .. | .mulAcc .. | .divSW .. | .divSD .. | .divUW .. | .divUD .. | .divF .. | .nop | .nopr | .bra ..
  | .braCond .. | .braOA .. | .braOB .. | .braSA .. | .braSB .. | .braW .. | .gotoW .. | .callW .. | .callL ..
  | .rcall .. | .rcallW .. | .ret | .retfie | .retlw .. | .repeatLit .. | .repeatW .. | .compareSkip | .mac ..
  | .macSq .. | .msc .. | .mpy .. | .mpySq .. | .mpyN .. | .ed .. | .edac .. | .addAcc .. | .addToAcc .. | .lac ..
  | .sac .. | .sacR .. | .sftacLit .. | .sftacW .. | .reset | .pwrsav .. | .disi .. | .ctxtswpLit .. | .ctxtswpW ..
  | .bootswp | .trap | .fex | .sstep | .urun => 1

end Sys2Proof
end

