-- ==== Sys2Proof/WellFormed.lean ====
section
/-! DEFINITION. WellFormed.lean: which operand values an instruction admits (the constraints of 30_encoding.md R149 to
R160 and of the operand lists of files 40 to 45). -/

namespace Sys2Proof

/-- A register operand of the plain groups: every mode but register offset (R149: codes 110 and 111 are not used). -/
def Operand.plain (o : Operand) : Bool :=
  match o.mode with
  | .direct | .indirect | .postDec | .postInc | .preDec | .preInc => true
  | .offset => false

/-- A register operand that is an address: the operand form of a table read's source (R190). -/
def Operand.pointer (o : Operand) : Bool :=
  match o.mode with
  | .indirect | .postDec | .postInc | .preDec | .preInc => true
  | .direct | .offset => false

/-- An even register number. -/
def evenReg (r : Reg) : Bool := !r.getLsbD 0

/-- A plain operand that, register direct, names the even register of a pair (R176, R177). -/
def Operand.pairPlain (o : Operand) : Bool :=
  o.plain && (o.mode != .direct || evenReg o.reg)

/-- In word mode a 13-bit file register address has bit 0 clear (R160). -/
def fileOk (byte : Bool) (f13 : BitVec 13) : Bool := byte || !f13.getLsbD 0

/-- In byte mode a 10-bit literal fits eight bits (R160). -/
def lit10Ok (byte : Bool) (lit : BitVec 10) : Bool := !byte || decide (lit.toNat < 256)

/-- In byte mode a bit number is 0 to 7 (R160). -/
def bitOk (byte : Bool) (bit : BitVec 4) : Bool := !byte || decide (bit.toNat < 8)

/-- The destination of a 32-bit product: an even register W0 to W12 (R216). -/
def mulDestOk (wd : Reg) : Bool := evenReg wd && decide (wd.toNat ≤ 12)

/-- A register pair as the encoding names it: the low register even, the high register the next one (R155, R293). -/
def pairOk (hi lo : Reg) : Bool := evenReg lo && hi == lo + 1

/-- The operand constraints of every instruction. -/
def Instr.wf : Instr → Bool
  | .movReg _ _ _ _ => true
  | .movLit _ _ => true
  | .movFileToW _ _ => true
  | .movWToFile _ _ => true
  | .movWregToFile byte f13 => fileOk byte f13
  | .movFile byte _ f13 => fileOk byte f13
  | .movDLoad src wd => src.pairPlain && evenReg wd
  | .movDStore ws dst => evenReg ws && dst.pairPlain
  | .pushFile _ => true
  | .popFile _ => true
  | .pushS => true
  | .popS => true
  | .lnk lit => !lit.getLsbD 0
  | .ulnk => true
  | .se src _ => src.plain
  | .ze src _ => src.plain
  | .tblrdl _ src dst => src.pointer && dst.plain
  | .tblrdh _ src dst => src.pointer && dst.plain
  | .tblwtl _ src dst => src.plain && dst.plain
  | .tblwth _ src dst => src.plain && dst.plain
  | .addReg _ _ src dst => src.plain && dst.plain
  | .addLit5 _ _ _ dst => dst.plain
  | .addFile byte _ f13 => fileOk byte f13
  | .addLit10 byte lit _ => lit10Ok byte lit
  | .slFile byte _ f13 => fileOk byte f13
  | .slReg _ src dst => src.plain && dst.plain
  | .slLit4 _ _ _ => true
  | .slW _ _ _ => true
  | .lsrFile byte _ f13 => fileOk byte f13
  | .lsrReg _ src dst => src.plain && dst.plain
  | .lsrLit4 _ _ _ => true
  | .lsrW _ _ _ => true
  | .asrFile byte _ f13 => fileOk byte f13
  | .asrReg _ src dst => src.plain && dst.plain
  | .asrLit4 _ _ _ => true
  | .asrW _ _ _ => true
  | .bsetFile byte f13 bit => fileOk byte f13 && bitOk byte bit
  | .btscFile byte f13 bit => fileOk byte f13 && bitOk byte bit
  | .bsetReg byte bit ws => bitOk byte bit && ws.plain
  | .btscReg _ ws => ws.plain
  | .mulUU _ src wd => src.plain && mulDestOk wd
  | .mulUULit5 _ _ wd => mulDestOk wd
  | .mulUS _ src wd => src.plain && mulDestOk wd
  | .mulSU _ src wd => src.plain && mulDestOk wd
  | .mulSULit5 _ _ wd => mulDestOk wd
  | .mulSS _ src wd => src.plain && mulDestOk wd
  | .mulFile byte f13 => fileOk byte f13
  | .mulwSS _ src _ => src.plain
  | .mulwSU _ src _ => src.plain
  | .mulwUS _ src _ => src.plain
  | .mulwUU _ src _ => src.plain
  | .mulAcc _ _ (.op src) _ => src.plain
  | .mulAcc _ _ (.lit5 _) _ => true
  | .divSW _ _ => true
  | .divSD hi wm _ => pairOk hi wm
  | .divUW _ _ => true
  | .divUD hi wm _ => pairOk hi wm
  | .divF _ _ => true
  | .nop => true
  | .nopr => true
  | .bra _ => true
  | .braCond _ _ => true
  | .braOA _ => true
  | .braOB _ => true
  | .braSA _ => true
  | .braSB _ => true
  | .braW _ => true
  | .goto _ => true
  | .gotoW _ => true
  | .call _ => true
  | .callW _ => true
  | .callL hi wn => pairOk hi wn
  | .rcall _ => true
  | .rcallW _ => true
  | .ret => true
  | .retfie => true
  | .retlw byte lit _ => lit10Ok byte lit
  | .repeatLit _ => true
  | .repeatW _ => true
  | .doLit _ _ => true
  | .doW _ _ => true
  | .compareSkip => true
  | .mac _ _ _ _ _ => true
  | .macSq _ _ _ _ => true
  | .msc _ _ _ _ _ => true
  | .mpy _ _ _ _ => true
  | .mpySq _ _ _ _ => true
  | .mpyN _ _ _ _ => true
  | .ed _ _ _ _ _ => true
  | .edac _ _ _ _ _ => true
  | .addAcc _ => true
  | .addToAcc _ _ _ _ => true
  | .lac _ _ _ _ => true
  | .sac _ _ _ _ => true
  | .sacR _ _ _ _ => true
  | .sftacLit _ _ => true
  | .sftacW _ _ => true
  | .reset => true
  | .pwrsav _ => true
  | .disi _ => true
  | .ctxtswpLit _ => true
  | .ctxtswpW _ => true
  | .bootswp => true
  | .trap => true
  | .fex => true
  | .sstep => true
  | .urun => true

/-- The instructions of which the spec offers no encoding (30_encoding.md R146, column "encoding offered": none).
They run from the assembly-level program only (log entry 6). -/
def Instr.assemblyOnly : Instr → Bool
  | .mulwSS _ _ _ | .mulwSU _ _ _ | .mulwUS _ _ _ | .mulwUU _ _ _ | .mulAcc _ _ _ _
  | .compareSkip | .trap | .fex | .sstep | .urun => true
  | .bsetFile byte _ _ | .btscFile byte _ _ => byte
  | .movReg .. | .movLit .. | .movFileToW .. | .movWToFile .. | .movWregToFile .. | .movFile .. | .movDLoad ..
  | .movDStore .. | .pushFile .. | .popFile .. | .pushS | .popS | .lnk .. | .ulnk | .se .. | .ze .. | .tblrdl ..
  | .tblrdh .. | .tblwtl .. | .tblwth .. | .addReg .. | .addLit5 .. | .addFile .. | .addLit10 .. | .slFile ..
  | .slReg .. | .slLit4 .. | .slW .. | .lsrFile .. | .lsrReg .. | .lsrLit4 .. | .lsrW .. | .asrFile .. | .asrReg ..
  | .asrLit4 .. | .asrW .. | .bsetReg .. | .btscReg .. | .mulUU .. | .mulUULit5 .. | .mulUS .. | .mulSU ..
  | .mulSULit5 .. | .mulSS .. | .mulFile .. | .divSW .. | .divSD .. | .divUW .. | .divUD .. | .divF .. | .nop
  | .nopr | .bra .. | .braCond .. | .braOA .. | .braOB .. | .braSA .. | .braSB .. | .braW .. | .goto .. | .gotoW ..
  | .call .. | .callW .. | .callL .. | .rcall .. | .rcallW .. | .ret | .retfie | .retlw .. | .repeatLit ..
  | .repeatW .. | .doLit .. | .doW .. | .mac .. | .macSq .. | .msc .. | .mpy .. | .mpySq .. | .mpyN .. | .ed ..
  | .edac .. | .addAcc .. | .addToAcc .. | .lac .. | .sac .. | .sacR .. | .sftacLit .. | .sftacW .. | .reset
  | .pwrsav .. | .disi .. | .ctxtswpLit .. | .ctxtswpW .. | .bootswp => false

end Sys2Proof
end

