-- ==== Sys2Proof/Decode.lean ====
section
/-! DEFINITION. Decode.lean: the decoder from 24-bit words, total on every pair of words and refusing by name, and the
encoder, both written from the patterns of 30_encoding.md R149 to R160 (general knowledge of the spec, log entry 5).
The decoder reads a word that matches a row's fixed bits as that row's instruction; the operand constraints are
`Instr.wf`. -/

namespace Sys2Proof

/-- Why a word is no instruction of the opcode table (R161: refused). -/
inductive DecodeError where
  /-- no row of the table has these fixed bits -/
  | noRow
  /-- condition field 1111 of `BRA cond`, which R156 does not list -/
  | reservedCondition
  /-- multiplicand codes 011 and 111, which "select other instructions" (R157) -/
  | reservedMultiplicand
  /-- the "no prefetch" code in `ED` or `EDAC`, whose prefetches are not optional (R263) -/
  | missingPrefetch
  /-- the register field of a 32-bit dividend's high word is not 0 in a 16-bit divide (R155) -/
  | reservedField
  /-- the second word of `GOTO`, `CALL` or `DO` does not match its pattern (R156) -/
  | badSecondWord
  deriving DecidableEq, Repr

/-- The field of `n` bits whose least significant bit is bit `lo`. -/
def field (w : ProgWord) (lo n : Nat) : BitVec n := w.extractLsb' lo n

/-- One bit as a field. -/
def bitField (b : Bool) : BitVec 1 := BitVec.ofBool b

/-- Addressing-mode codes of R149; 110 and 111 are the register-offset form. -/
def modeOfCode (c : BitVec 3) : Mode :=
  if c = 0b000#3 then .direct
  else if c = 0b001#3 then .indirect
  else if c = 0b010#3 then .postDec
  else if c = 0b011#3 then .postInc
  else if c = 0b100#3 then .preDec
  else if c = 0b101#3 then .preInc
  else .offset

/-- The code of an addressing mode (R149). -/
def Mode.code : Mode → BitVec 3
  | .direct => 0b000#3
  | .indirect => 0b001#3
  | .postDec => 0b010#3
  | .postInc => 0b011#3
  | .preDec => 0b100#3
  | .preInc => 0b101#3
  | .offset => 0b110#3

/-- The operand whose mode field starts at bit `mlo` and whose register field starts at bit `rlo`. -/
def operandAt (w : ProgWord) (mlo rlo : Nat) : Operand :=
  { mode := modeOfCode (field w mlo 3), reg := field w rlo 4 }

/-- Condition codes of `BRA cond` (R156); 0111 is the unconditional branch. -/
def condOfCode (c : BitVec 4) : Option Cond :=
  if c = 0#4 then some .ov
  else if c = 1#4 then some .c
  else if c = 2#4 then some .z
  else if c = 3#4 then some .n
  else if c = 4#4 then some .le
  else if c = 5#4 then some .lt
  else if c = 6#4 then some .leu
  else if c = 8#4 then some .nov
  else if c = 9#4 then some .nc
  else if c = 10#4 then some .nz
  else if c = 11#4 then some .nn
  else if c = 12#4 then some .gt
  else if c = 13#4 then some .ge
  else if c = 14#4 then some .gtu
  else none

/-- The code of a condition (R156). -/
def Cond.code : Cond → BitVec 4
  | .ov => 0#4
  | .c => 1#4
  | .z => 2#4
  | .n => 3#4
  | .le => 4#4
  | .lt => 5#4
  | .leu => 6#4
  | .nov => 8#4
  | .nc => 9#4
  | .nz => 10#4
  | .nn => 11#4
  | .gt => 12#4
  | .ge => 13#4
  | .gtu => 14#4

/-- Accumulator bit A of the patterns: 0 is ACCA, 1 is ACCB (R149). -/
def accOfBit (b : Bool) : AccId := if b then .b else .a

/-- The bit of an accumulator (R149). -/
def AccId.code : AccId → BitVec 1
  | .a => 0#1
  | .b => 1#1

/-- Multiplicand codes `mmm` (R157). -/
def mulPairOfCode (c : BitVec 3) : Option MulPair :=
  if c = 0#3 then some .w4w5
  else if c = 1#3 then some .w4w6
  else if c = 2#3 then some .w4w7
  else if c = 4#3 then some .w5w6
  else if c = 5#3 then some .w5w7
  else if c = 6#3 then some .w6w7
  else none

/-- The code of a multiplicand pair (R157). -/
def MulPair.code : MulPair → BitVec 3
  | .w4w5 => 0#3
  | .w4w6 => 1#3
  | .w4w7 => 2#3
  | .w5w6 => 4#3
  | .w5w7 => 5#3
  | .w6w7 => 6#3

/-- The address of a prefetch code `iiii` or `jjjj` (R157); none is "no prefetch" (0100). -/
def pfAddrOfCode (c : BitVec 4) : Option PfAddr :=
  let second := c.getLsbD 3
  let low := c.extractLsb' 0 3
  if low = 0#3 then some (.pointer second .none)
  else if low = 1#3 then some (.pointer second .plus2)
  else if low = 2#3 then some (.pointer second .plus4)
  else if low = 3#3 then some (.pointer second .plus6)
  else if low = 5#3 then some (.pointer second .minus6)
  else if low = 6#3 then some (.pointer second .minus4)
  else if low = 7#3 then some (.pointer second .minus2)
  else if second then some .offset
  else none

/-- The low three bits of the code of a pointer update (R157). -/
def PfStep.code : PfStep → BitVec 3
  | .none => 0#3
  | .plus2 => 1#3
  | .plus4 => 2#3
  | .plus6 => 3#3
  | .minus6 => 5#3
  | .minus4 => 6#3
  | .minus2 => 7#3

/-- The code of a prefetch address (R157). -/
def PfAddr.code : PfAddr → BitVec 4
  | .pointer second step => bitField second ++ step.code
  | .offset => 0b1100#4

/-- The prefetch of an address code and a destination field. -/
def prefetchOf (c : BitVec 4) (dest : BitVec 2) : Prefetch :=
  match pfAddrOfCode c with
  | some a => .on a dest
  | none => .off

/-- The address code of a prefetch; 0100 is "no prefetch" (R157). -/
def Prefetch.code : Prefetch → BitVec 4
  | .off => 0b0100#4
  | .on a _ => a.code

/-- The destination field of a prefetch. -/
def Prefetch.dest : Prefetch → BitVec 2
  | .off => 0#2
  | .on _ d => d

/-- Write-back codes `aa` (R149); 11 selects another instruction. -/
def awbOfCode (c : BitVec 2) : Awb :=
  if c = 0#2 then .w13 else if c = 1#2 then .indirect else .none

/-- The code of a write-back (R149). -/
def Awb.code : Awb → BitVec 2
  | .w13 => 0#2
  | .indirect => 1#2
  | .none => 2#2

/-- Top byte 0x01: the register-indirect flow forms (R156). -/
def decodeFlowReg (w : ProgWord) : Except DecodeError Instr :=
  if w.getLsbD 15 then
    if field w 4 7 = 0#7 then .ok (.callL (field w 11 4) (field w 0 4)) else .error .noRow
  else if field w 4 11 = 0x060#11 then .ok (.braW (field w 0 4))
  else if field w 4 11 = 0x040#11 then .ok (.gotoW (field w 0 4))
  else if field w 4 11 = 0x000#11 then .ok (.callW (field w 0 4))
  else if field w 4 11 = 0x020#11 then .ok (.rcallW (field w 0 4))
  else .error .noRow

/-- The 23-bit target of `GOTO` and `CALL`, bits 22:1, from their two words (R156). -/
def decodeTarget (w w2 : ProgWord) (mk : BitVec 22 → Instr) : Except DecodeError Instr :=
  if w.getLsbD 0 then .error .noRow
  else if field w2 7 17 = 0#17 then .ok (mk (field w2 0 7 ++ field w 1 15))
  else .error .badSecondWord

/-- Top byte 0x08: `DO` (R156). -/
def decodeDo (w w2 : ProgWord) : Except DecodeError Instr :=
  if w.getLsbD 15 = true ∧ field w 4 11 ≠ 0#11 then .error .noRow
  else if field w2 16 8 ≠ 0#8 then .error .badSecondWord
  else if w.getLsbD 15 then .ok (.doW (field w 0 4) (field w2 0 16))
  else .ok (.doLit (field w 0 15) (field w2 0 16))

/-- Top nibble 0: program flow and loops (R156). -/
def decode0 (w w2 : ProgWord) : Except DecodeError Instr :=
  let op := field w 16 4
  if op = 0x0#4 then .ok .nop
  else if op = 0x1#4 then decodeFlowReg w
  else if op = 0x2#4 then decodeTarget w w2 .call
  else if op = 0x4#4 then decodeTarget w w2 .goto
  else if op = 0x5#4 then
    if w.getLsbD 15 then .error .noRow
    else .ok (.retlw (w.getLsbD 14) (field w 4 10) (field w 0 4))
  else if op = 0x6#4 then
    if field w 0 16 = 0x0000#16 then .ok .ret
    else if field w 0 16 = 0x4000#16 then .ok .retfie
    else .error .noRow
  else if op = 0x7#4 then .ok (.rcall (field w 0 16))
  else if op = 0x8#4 then decodeDo w w2
  else if op = 0x9#4 then
    if w.getLsbD 15 then
      if field w 4 11 = 0#11 then .ok (.repeatW (field w 0 4)) else .error .noRow
    else .ok (.repeatLit (field w 0 15))
  else if op = 0xC#4 then .ok (.braOA (field w 0 16))
  else if op = 0xD#4 then .ok (.braOB (field w 0 16))
  else if op = 0xE#4 then .ok (.braSA (field w 0 16))
  else if op = 0xF#4 then .ok (.braSB (field w 0 16))
  else .error .noRow

/-- Top nibble 3: the relative branches (R156). -/
def decode3 (w : ProgWord) : Except DecodeError Instr :=
  if field w 16 4 = 7#4 then .ok (.bra (field w 0 16))
  else match condOfCode (field w 16 4) with
    | some cond => .ok (.braCond cond (field w 0 16))
    | none => .error .reservedCondition

/-- Top nibble A: bit instructions (R153). -/
def decodeA (w : ProgWord) : Except DecodeError Instr :=
  let op := field w 16 4
  if op = 0x0#4 then
    if w.getLsbD 11 = true ∨ field w 7 3 ≠ 0#3 then .error .noRow
    else .ok (.bsetReg (w.getLsbD 10) (field w 12 4) (operandAt w 4 0))
  else if op = 0x7#4 then
    if field w 7 5 ≠ 0#5 then .error .noRow
    else .ok (.btscReg (field w 12 4) (operandAt w 4 0))
  else if op = 0x8#4 then .ok (.bsetFile false (field w 1 12 ++ 0#1) (field w 0 1 ++ field w 13 3))
  else if op = 0xF#4 then .ok (.btscFile false (field w 1 12 ++ 0#1) (field w 0 1 ++ field w 13 3))
  else .error .noRow

/-- Top byte 0xBE: `MOV.D` (R150). -/
def decodeMovD (w : ProgWord) : Except DecodeError Instr :=
  if field w 11 5 = 0#5 ∧ w.getLsbD 7 = false then
    .ok (.movDLoad (operandAt w 4 0) (field w 8 3 ++ 0#1))
  else if field w 14 2 = 0b10#2 ∧ field w 4 3 = 0#3 ∧ w.getLsbD 0 = false then
    .ok (.movDStore (field w 1 3 ++ 0#1) (operandAt w 11 7))
  else .error .noRow

/-- Top nibble B: file register forms, multiplies and table instructions (R150, R151, R154). -/
def decodeB (w : ProgWord) : Except DecodeError Instr :=
  let op := field w 16 4
  let top := w.getLsbD 15
  let byte := w.getLsbD 14
  let toFile := w.getLsbD 13
  let f13 := field w 0 13
  let wb := field w 11 4
  let wd := field w 7 4
  let isLit := field w 5 2 = 0b11#2
  let lit := field w 0 5
  let src := operandAt w 4 0
  let dst := operandAt w 11 7
  if op = 0x0#4 then
    if top then .error .noRow else .ok (.addLit10 byte (field w 4 10) (field w 0 4))
  else if op = 0x4#4 then
    if top then .error .noRow else .ok (.addFile byte toFile f13)
  else if op = 0x7#4 then
    if top = true ∧ toFile = true then .ok (.movWregToFile byte f13) else .error .noRow
  else if op = 0x8#4 then
    if top then .ok (.mulUS wb src wd)
    else if isLit then .ok (.mulUULit5 wb lit wd)
    else .ok (.mulUU wb src wd)
  else if op = 0x9#4 then
    if top then .ok (.mulSS wb src wd)
    else if isLit then .ok (.mulSULit5 wb lit wd)
    else .ok (.mulSU wb src wd)
  else if op = 0xA#4 then
    if top then .ok (.tblrdh byte src dst) else .ok (.tblrdl byte src dst)
  else if op = 0xB#4 then
    if top then .ok (.tblwth byte src dst) else .ok (.tblwtl byte src dst)
  else if op = 0xC#4 then
    if top = false ∧ toFile = false then .ok (.mulFile byte f13) else .error .noRow
  else if op = 0xE#4 then decodeMovD w
  else if op = 0xF#4 then
    if top then .ok (.movFile byte toFile f13) else .error .noRow
  else .error .noRow

/-- Top bits 1100 0: the DSP multiplies of a register pair (R157). -/
def decodeMac (w : ProgWord) : Except DecodeError Instr :=
  let acc := accOfBit (w.getLsbD 15)
  let x := prefetchOf (field w 6 4) (field w 12 2)
  let y := prefetchOf (field w 2 4) (field w 10 2)
  let aa := field w 0 2
  match mulPairOfCode (field w 16 3) with
  | none => .error .reservedMultiplicand
  | some pair =>
    if aa = 3#2 then
      if w.getLsbD 14 then .ok (.mpyN pair acc x y) else .ok (.mpy pair acc x y)
    else if w.getLsbD 14 then .ok (.msc pair acc x y (awbOfCode aa))
    else .ok (.mac pair acc x y (awbOfCode aa))

/-- Top byte 0xC8: `SFTAC` (R158). -/
def decodeSftac (w : ProgWord) : Except DecodeError Instr :=
  let acc := accOfBit (w.getLsbD 15)
  if field w 6 9 = 1#9 then .ok (.sftacLit acc (field w 0 6))
  else if field w 4 11 = 0#11 then .ok (.sftacW acc (field w 0 4))
  else .error .noRow

/-- Top nibble C: the DSP multiplies and the accumulator instructions (R157, R158). -/
def decodeC (w : ProgWord) : Except DecodeError Instr :=
  let op := field w 16 4
  let acc := accOfBit (w.getLsbD 15)
  let wb := field w 11 4
  let shift := field w 7 4
  let operand := operandAt w 4 0
  if w.getLsbD 19 = false then decodeMac w
  else if op = 0x8#4 then decodeSftac w
  else if op = 0x9#4 then .ok (.addToAcc wb operand shift acc)
  else if op = 0xA#4 then .ok (.lac wb operand shift acc)
  else if op = 0xB#4 then
    if field w 0 15 = 0#15 then .ok (.addAcc acc) else .error .noRow
  else if op = 0xC#4 then .ok (.sac acc shift wb operand)
  else if op = 0xD#4 then .ok (.sacR acc shift wb operand)
  else .error .noRow

/-- Top bytes 0xD8 and 0xD9: the divides (R155). -/
def decodeDiv (w : ProgWord) : Except DecodeError Instr :=
  let hi := field w 11 4
  let wm := field w 7 4
  let wn := field w 0 4
  if field w 4 2 ≠ 0#2 then .error .noRow
  else if w.getLsbD 16 then
    if w.getLsbD 15 = false ∧ field w 4 7 = 0#7 then .ok (.divF hi wn) else .error .noRow
  else if w.getLsbD 6 then
    if w.getLsbD 15 then .ok (.divUD hi wm wn) else .ok (.divSD hi wm wn)
  else if hi ≠ 0#4 then .error .reservedField
  else if w.getLsbD 15 then .ok (.divUW wm wn)
  else .ok (.divSW wm wn)

/-- Top nibble D: shifts and divides (R152, R155). -/
def decodeD (w : ProgWord) : Except DecodeError Instr :=
  let op := field w 16 4
  let top := w.getLsbD 15
  let byte := w.getLsbD 14
  let toFile := w.getLsbD 13
  let f13 := field w 0 13
  let wb := field w 11 4
  let wd := field w 7 4
  let low := field w 0 4
  let src := operandAt w 4 0
  let dst := operandAt w 11 7
  if op = 0x0#4 then
    if top then .error .noRow else .ok (.slReg byte src dst)
  else if op = 0x1#4 then
    if top then .ok (.asrReg byte src dst) else .ok (.lsrReg byte src dst)
  else if op = 0x4#4 then
    if top then .error .noRow else .ok (.slFile byte toFile f13)
  else if op = 0x5#4 then
    if top then .ok (.asrFile byte toFile f13) else .ok (.lsrFile byte toFile f13)
  else if op = 0x8#4 ∨ op = 0x9#4 then decodeDiv w
  else if op = 0xD#4 then
    if top then .error .noRow
    else if field w 4 3 = 0b100#3 then .ok (.slLit4 wb low wd)
    else if field w 4 3 = 0b000#3 then .ok (.slW wb low wd)
    else .error .noRow
  else if op = 0xE#4 then
    if field w 4 3 = 0b100#3 then
      if top then .ok (.asrLit4 wb low wd) else .ok (.lsrLit4 wb low wd)
    else if field w 4 3 = 0b000#3 then
      if top then .ok (.asrW wb low wd) else .ok (.lsrW wb low wd)
    else .error .noRow
  else .error .noRow

/-- Top bits 1111 00: the DSP squares and Euclidean distances (R157). -/
def decodeSquare (w : ProgWord) : Except DecodeError Instr :=
  let wm := field w 16 2
  let acc := accOfBit (w.getLsbD 15)
  let x := prefetchOf (field w 6 4) (field w 12 2)
  let y := prefetchOf (field w 2 4) (field w 10 2)
  let low := field w 0 2
  if w.getLsbD 14 then
    if field w 10 2 ≠ 0#2 then .error .noRow
    else match pfAddrOfCode (field w 6 4), pfAddrOfCode (field w 2 4) with
      | some xa, some ya =>
        if low = 3#2 then .ok (.ed wm acc xa ya (field w 12 2))
        else if low = 2#2 then .ok (.edac wm acc xa ya (field w 12 2))
        else .error .noRow
      | _, _ => .error .missingPrefetch
  else if low = 0#2 then .ok (.macSq wm acc x y)
  else if low = 1#2 then .ok (.mpySq wm acc x y)
  else .error .noRow

/-- Top byte 0xFE: shadow, system and context instructions (R150, R159). -/
def decodeFE (w : ProgWord) : Except DecodeError Instr :=
  let low := field w 0 16
  if low = 0x0000#16 then .ok .reset
  else if low = 0x2000#16 then .ok .bootswp
  else if field w 1 15 = 0x2000#15 then .ok (.pwrsav (w.getLsbD 0))
  else if low = 0x8000#16 then .ok .popS
  else if low = 0xA000#16 then .ok .pushS
  else if field w 3 13 = 0x1C00#13 then .ok (.ctxtswpLit (field w 0 3))
  else if field w 4 12 = 0xF00#12 then .ok (.ctxtswpW (field w 0 4))
  else .error .noRow

/-- Top nibble F (R150, R157, R159). -/
def decodeF (w : ProgWord) : Except DecodeError Instr :=
  let op := field w 16 4
  if field w 18 2 = 0#2 then decodeSquare w
  else if op = 0x8#4 then
    if w.getLsbD 0 then .error .noRow else .ok (.pushFile (field w 1 15))
  else if op = 0x9#4 then
    if w.getLsbD 0 then .error .noRow else .ok (.popFile (field w 1 15))
  else if op = 0xA#4 then
    if field w 0 16 = 0x8000#16 then .ok .ulnk
    else if field w 14 2 = 0#2 ∧ w.getLsbD 0 = false then .ok (.lnk (field w 0 14))
    else .error .noRow
  else if op = 0xB#4 then
    if field w 11 4 ≠ 0#4 then .error .noRow
    else if w.getLsbD 15 then .ok (.ze (operandAt w 4 0) (field w 7 4))
    else .ok (.se (operandAt w 4 0) (field w 7 4))
  else if op = 0xC#4 then
    if field w 14 2 = 0#2 then .ok (.disi (field w 0 14)) else .error .noRow
  else if op = 0xE#4 then decodeFE w
  else if op = 0xF#4 then .ok .nopr
  else .error .noRow

/-- The instruction of a program word `w`, with `w2` the word after it (read by the two-word instructions only). -/
def decode (w w2 : ProgWord) : Except DecodeError Instr :=
  let nib := field w 20 4
  if nib = 0x0#4 then decode0 w w2
  else if nib = 0x2#4 then .ok (.movLit (field w 4 16) (field w 0 4))
  else if nib = 0x3#4 then decode3 w
  else if nib = 0x4#4 then
    if w.getLsbD 19 then .error .noRow
    else if field w 5 2 = 0b11#2 then
      .ok (.addLit5 (w.getLsbD 14) (field w 15 4) (field w 0 5) (operandAt w 11 7))
    else .ok (.addReg (w.getLsbD 14) (field w 15 4) (operandAt w 4 0) (operandAt w 11 7))
  else if nib = 0x7#4 then
    if w.getLsbD 19 then .ok (.movReg (w.getLsbD 14) (field w 15 4) (operandAt w 4 0) (operandAt w 11 7))
    else .error .noRow
  else if nib = 0x8#4 then
    if w.getLsbD 19 then .ok (.movWToFile (field w 0 4) (field w 4 15))
    else .ok (.movFileToW (field w 4 15) (field w 0 4))
  else if nib = 0xA#4 then decodeA w
  else if nib = 0xB#4 then decodeB w
  else if nib = 0xC#4 then decodeC w
  else if nib = 0xD#4 then decodeD w
  else if nib = 0xF#4 then decodeF w
  else .error .noRow

/-- The host's reading of a table row's word: the first program word is bits 23:0 of `w`, the second bits 47:24. -/
def decodeTableWord (nbits w : Nat) : Option Instr :=
  let bits := w % 2 ^ nbits
  match decode (BitVec.ofNat 24 bits) (BitVec.ofNat 24 (bits / 2 ^ 24)) with
  | .ok i => some i
  | .error _ => none

/-! The encoder. -/

/-- Fields `mode register` of a plain source, bits 6:0. -/
def Operand.srcCode (o : Operand) : BitVec 7 := o.mode.code ++ o.reg

/-- `B qqq dddd ppp ssss`, bits 14:0 of the register forms. -/
def regForm (byte : Bool) (src dst : Operand) : BitVec 15 :=
  bitField byte ++ dst.mode.code ++ dst.reg ++ src.srcCode

/-- `B D f`, bits 14:0 of the file register forms. -/
def fileForm (byte toFile : Bool) (f13 : BitVec 13) : BitVec 15 :=
  bitField byte ++ bitField toFile ++ f13

/-- `bbb f b`, bits 15:0 of the file register bit forms: in byte mode the address's bit 0 takes the place of the bit
number's bit 3 (R153). -/
def bitForm (byte : Bool) (f13 : BitVec 13) (bit : BitVec 4) : BitVec 16 :=
  bit.extractLsb' 0 3 ++ f13.extractLsb' 1 12 ++ bitField (if byte then f13.getLsbD 0 else bit.getLsbD 3)

/-- `A 0/1 xx yy iiii jjjj`, bits 15:2 of the DSP multiplies. -/
def dspForm (acc : AccId) (b14 : BitVec 1) (x y : Prefetch) : BitVec 14 :=
  acc.code ++ b14 ++ x.dest ++ y.dest ++ x.code ++ y.code

/-- The words of an instruction (R150 to R159), none for the instructions the spec offers no encoding of. -/
def encode : Instr → List ProgWord
  | .movReg byte wb src dst => [0b01111#5 ++ wb ++ regForm byte src dst]
  | .movLit lit wd => [0x2#4 ++ lit ++ wd]
  | .movFileToW f15 wd => [0b10000#5 ++ f15 ++ wd]
  | .movWToFile ws f15 => [0b10001#5 ++ f15 ++ ws]
  | .movWregToFile byte f13 => [0xB7#8 ++ 1#1 ++ fileForm byte true f13]
  | .movFile byte toFile f13 => [0xBF#8 ++ 1#1 ++ fileForm byte toFile f13]
  | .movDLoad src wd => [0xBE#8 ++ 0#5 ++ wd.extractLsb' 1 3 ++ 0#1 ++ src.srcCode]
  | .movDStore ws dst => [0xBE#8 ++ 0b10#2 ++ dst.mode.code ++ dst.reg ++ 0#3 ++ ws.extractLsb' 1 3 ++ 0#1]
  | .pushFile f15 => [0xF8#8 ++ f15 ++ 0#1]
  | .popFile f15 => [0xF9#8 ++ f15 ++ 0#1]
  | .pushS => [0xFEA000#24]
  | .popS => [0xFE8000#24]
  | .lnk lit => [0xFA#8 ++ 0#2 ++ lit]
  | .ulnk => [0xFA8000#24]
  | .se src wd => [0xFB#8 ++ 0#5 ++ wd ++ src.srcCode]
  | .ze src wd => [0xFB#8 ++ 0b10000#5 ++ wd ++ src.srcCode]
  | .tblrdl byte src dst => [0xBA#8 ++ 0#1 ++ regForm byte src dst]
  | .tblrdh byte src dst => [0xBA#8 ++ 1#1 ++ regForm byte src dst]
  | .tblwtl byte src dst => [0xBB#8 ++ 0#1 ++ regForm byte src dst]
  | .tblwth byte src dst => [0xBB#8 ++ 1#1 ++ regForm byte src dst]
  | .addReg byte wb src dst => [0b01000#5 ++ wb ++ regForm byte src dst]
  | .addLit5 byte wb lit dst => [0b01000#5 ++ wb ++ bitField byte ++ dst.mode.code ++ dst.reg ++ 0b11#2 ++ lit]
  | .addFile byte toFile f13 => [0xB4#8 ++ 0#1 ++ fileForm byte toFile f13]
  | .addLit10 byte lit wn => [0xB0#8 ++ 0#1 ++ bitField byte ++ lit ++ wn]
  | .slFile byte toFile f13 => [0xD4#8 ++ 0#1 ++ fileForm byte toFile f13]
  | .slReg byte src dst => [0xD0#8 ++ 0#1 ++ regForm byte src dst]
  | .slLit4 wb lit wd => [0xDD#8 ++ 0#1 ++ wb ++ wd ++ 0b100#3 ++ lit]
  | .slW wb wns wd => [0xDD#8 ++ 0#1 ++ wb ++ wd ++ 0b000#3 ++ wns]
  | .lsrFile byte toFile f13 => [0xD5#8 ++ 0#1 ++ fileForm byte toFile f13]
  | .lsrReg byte src dst => [0xD1#8 ++ 0#1 ++ regForm byte src dst]
  | .lsrLit4 wb lit wd => [0xDE#8 ++ 0#1 ++ wb ++ wd ++ 0b100#3 ++ lit]
  | .lsrW wb wns wd => [0xDE#8 ++ 0#1 ++ wb ++ wd ++ 0b000#3 ++ wns]
  | .asrFile byte toFile f13 => [0xD5#8 ++ 1#1 ++ fileForm byte toFile f13]
  | .asrReg byte src dst => [0xD1#8 ++ 1#1 ++ regForm byte src dst]
  | .asrLit4 wb lit wd => [0xDE#8 ++ 1#1 ++ wb ++ wd ++ 0b100#3 ++ lit]
  | .asrW wb wns wd => [0xDE#8 ++ 1#1 ++ wb ++ wd ++ 0b000#3 ++ wns]
  | .bsetFile byte f13 bit => [0xA8#8 ++ bitForm byte f13 bit]
  | .btscFile byte f13 bit => [0xAF#8 ++ bitForm byte f13 bit]
  | .bsetReg byte bit ws => [0xA0#8 ++ bit ++ 0#1 ++ bitField byte ++ 0#3 ++ ws.srcCode]
  | .btscReg bit ws => [0xA7#8 ++ bit ++ 0#5 ++ ws.srcCode]
  | .mulUU wb src wd => [0xB8#8 ++ 0#1 ++ wb ++ wd ++ src.srcCode]
  | .mulUULit5 wb lit wd => [0xB8#8 ++ 0#1 ++ wb ++ wd ++ 0b11#2 ++ lit]
  | .mulUS wb src wd => [0xB8#8 ++ 1#1 ++ wb ++ wd ++ src.srcCode]
  | .mulSU wb src wd => [0xB9#8 ++ 0#1 ++ wb ++ wd ++ src.srcCode]
  | .mulSULit5 wb lit wd => [0xB9#8 ++ 0#1 ++ wb ++ wd ++ 0b11#2 ++ lit]
  | .mulSS wb src wd => [0xB9#8 ++ 1#1 ++ wb ++ wd ++ src.srcCode]
  | .mulFile byte f13 => [0xBC#8 ++ 0#1 ++ fileForm byte false f13]
  | .mulwSS _ _ _ => []
  | .mulwSU _ _ _ => []
  | .mulwUS _ _ _ => []
  | .mulwUU _ _ _ => []
  | .mulAcc _ _ _ _ => []
  | .divSW wm wn => [0xD8#8 ++ 0#1 ++ 0#4 ++ wm ++ 0#3 ++ wn]
  | .divSD hi wm wn => [0xD8#8 ++ 0#1 ++ hi ++ wm ++ 0b100#3 ++ wn]
  | .divUW wm wn => [0xD8#8 ++ 1#1 ++ 0#4 ++ wm ++ 0#3 ++ wn]
  | .divUD hi wm wn => [0xD8#8 ++ 1#1 ++ hi ++ wm ++ 0b100#3 ++ wn]
  | .divF wm wn => [0xD9#8 ++ 0#1 ++ wm ++ 0#7 ++ wn]
  | .nop => [0x000000#24]
  | .nopr => [0xFF0000#24]
  | .bra off => [0x37#8 ++ off]
  | .braCond cond off => [0x3#4 ++ cond.code ++ off]
  | .braOA off => [0x0C#8 ++ off]
  | .braOB off => [0x0D#8 ++ off]
  | .braSA off => [0x0E#8 ++ off]
  | .braSB off => [0x0F#8 ++ off]
  | .braW wn => [0x01060#20 ++ wn]
  | .goto target => [0x04#8 ++ target.extractLsb' 0 15 ++ 0#1, 0#17 ++ target.extractLsb' 15 7]
  | .gotoW wn => [0x01040#20 ++ wn]
  | .call target => [0x02#8 ++ target.extractLsb' 0 15 ++ 0#1, 0#17 ++ target.extractLsb' 15 7]
  | .callW wn => [0x01000#20 ++ wn]
  | .callL hi wn => [0x01#8 ++ 1#1 ++ hi ++ 0#7 ++ wn]
  | .rcall off => [0x07#8 ++ off]
  | .rcallW wn => [0x01020#20 ++ wn]
  | .ret => [0x060000#24]
  | .retfie => [0x064000#24]
  | .retlw byte lit wn => [0x05#8 ++ 0#1 ++ bitField byte ++ lit ++ wn]
  | .repeatLit lit => [0x09#8 ++ 0#1 ++ lit]
  | .repeatW wn => [0x09800#20 ++ wn]
  | .doLit lit off => [0x08#8 ++ 0#1 ++ lit, 0x00#8 ++ off]
  | .doW wn off => [0x08800#20 ++ wn, 0x00#8 ++ off]
  | .compareSkip => []
  | .mac pair acc x y awb => [0b11000#5 ++ pair.code ++ dspForm acc 0#1 x y ++ awb.code]
  | .macSq wm acc x y => [0b111100#6 ++ wm ++ dspForm acc 0#1 x y ++ 0b00#2]
  | .msc pair acc x y awb => [0b11000#5 ++ pair.code ++ dspForm acc 1#1 x y ++ awb.code]
  | .mpy pair acc x y => [0b11000#5 ++ pair.code ++ dspForm acc 0#1 x y ++ 0b11#2]
  | .mpySq wm acc x y => [0b111100#6 ++ wm ++ dspForm acc 0#1 x y ++ 0b01#2]
  | .mpyN pair acc x y => [0b11000#5 ++ pair.code ++ dspForm acc 1#1 x y ++ 0b11#2]
  | .ed wm acc x y xd => [0b111100#6 ++ wm ++ acc.code ++ 1#1 ++ xd ++ 0#2 ++ x.code ++ y.code ++ 0b11#2]
  | .edac wm acc x y xd => [0b111100#6 ++ wm ++ acc.code ++ 1#1 ++ xd ++ 0#2 ++ x.code ++ y.code ++ 0b10#2]
  | .addAcc acc => [0xCB#8 ++ acc.code ++ 0#15]
  | .addToAcc wb src shift acc => [0xC9#8 ++ acc.code ++ wb ++ shift ++ src.srcCode]
  | .lac wb src shift acc => [0xCA#8 ++ acc.code ++ wb ++ shift ++ src.srcCode]
  | .sac acc shift wb dst => [0xCC#8 ++ acc.code ++ wb ++ shift ++ dst.srcCode]
  | .sacR acc shift wb dst => [0xCD#8 ++ acc.code ++ wb ++ shift ++ dst.srcCode]
  | .sftacLit acc shift => [0xC8#8 ++ acc.code ++ 1#9 ++ shift]
  | .sftacW acc wb => [0xC8#8 ++ acc.code ++ 0#11 ++ wb]
  | .reset => [0xFE0000#24]
  | .pwrsav lit => [0xFE#8 ++ 0x2000#15 ++ bitField lit]
  | .disi lit => [0xFC#8 ++ 0#2 ++ lit]
  | .ctxtswpLit lit => [0xFE#8 ++ 0x1C00#13 ++ lit]
  | .ctxtswpW wn => [0xFEF00#20 ++ wn]
  | .bootswp => [0xFE2000#24]
  | .trap => []
  | .fex => []
  | .sstep => []
  | .urun => []

/-- The decoder applied to an encoding: the first word, and the second or 0. -/
def decodeWords : List ProgWord → Except DecodeError Instr
  | [] => .error .noRow
  | [w] => decode w 0#24
  | w :: w2 :: _ => decode w w2

end Sys2Proof
end

