-- ==== Sys2Proof/Machine/State.lean ====
section
/-! DEFINITION. State.lean: the state of the machine, every component of 10_state.md R94 and the model's own fields,
the reasons a step can stop, and the state after reset. -/

namespace Sys2Proof.Machine

/-- One register context: W0 to W14 and their initialization flags (R23, R29). -/
structure WCtx where
  w : Vector Word 15
  init : Vector Bool 15
  deriving DecidableEq, Repr

/-- The MCU ALU flags of SR (R38 to R42). -/
structure Flags where
  /-- half carry, SR[8] -/
  dc : Bool
  /-- negative, SR[3] -/
  n : Bool
  /-- overflow, SR[2] -/
  ov : Bool
  /-- zero, SR[1] -/
  z : Bool
  /-- carry, SR[0] -/
  c : Bool
  deriving DecidableEq, Repr

/-- The DSP state that exists once, or once per context (R60, R63): accumulators, the CORCON fields US, SATA, SATB,
SATDW, ACCSAT, RND, IF, and the SR bits OA, OB, SA, SB. -/
structure DspCtx where
  acca : Acc40
  accb : Acc40
  us : BitVec 2
  sata : Bool
  satb : Bool
  satdw : Bool
  accsat : Bool
  rnd : Bool
  intMode : Bool
  oa : Bool
  ob : Bool
  sa : Bool
  sb : Bool
  deriving DecidableEq, Repr

/-- The interrupt-controller bits the CPU reads or writes: INTCON1[15:6] and INTCON3[4] (R80). -/
structure IntBits where
  nstdis : Bool
  ovaerr : Bool
  ovberr : Bool
  covaerr : Bool
  covberr : Bool
  ovate : Bool
  ovbte : Bool
  covte : Bool
  sftacerr : Bool
  div0err : Bool
  doovr : Bool
  deriving DecidableEq, Repr

/-- MODCON (R75): the two unimplemented bits are not stored. -/
structure Modcon where
  xmoden : Bool
  ymoden : Bool
  bwm : BitVec 4
  ywm : BitVec 4
  xwm : BitVec 4
  deriving DecidableEq, Repr

/-- MSTRPR (R79). -/
structure Mstrpr where
  dmapr : Bool
  usbpr : Bool
  nvmpr : Bool
  deriving DecidableEq, Repr

/-- The exception kinds that are traps, those of R363 and those only R372's table names. -/
inductive TrapKind where
  | oscFail | addressError | genericHard | stackError | mathError | dmaError | softTrap
  deriving DecidableEq, Repr

/-- `pending_traps`, a set of trap kinds (R87). -/
structure Pending where
  oscFail : Bool
  addressError : Bool
  genericHard : Bool
  stackError : Bool
  mathError : Bool
  dmaError : Bool
  softTrap : Bool
  deriving DecidableEq, Repr

/-- One entry of the DO stack (R83). -/
structure DoEntry where
  start : LoopAddr
  stop : LoopAddr
  count : Word
  deriving DecidableEq, Repr

/-- The latch `edt_pending` (R85). -/
inductive Edt where
  | clear | armed | late
  deriving DecidableEq, Repr

/-- What a complete divide leaves (R225 to R231): the quotient and remainder with N and Z, or an overflow (OV = 1 and
no other value given), or nothing that is given. -/
inductive DivResult where
  | value (q r : Word) (n z : Bool)
  | overflow
  | unknown
  deriving DecidableEq, Repr

/-- A divide in progress (R228): the address of the divide instruction, the executions its REPEAT still owes, and the
result the last one delivers: `unknown` for an ill-formed divide. -/
structure DivRun where
  at_ : ProgAddr
  remaining : Nat
  result : DivResult
  deriving DecidableEq, Repr

/-- What an exception entry interrupted (log entry 29): the stack pointer above its frame and the two words of the frame,
the CPU priority level, whether its REPEAT loop had still to execute its target, and whether it was in the middle of a
divide. -/
structure Suspended where
  frame : Word
  low : Word
  high : Word
  level : Nat
  repeatNew : Bool
  divides : Bool
  deriving DecidableEq, Repr

/-- Why the device was reset: the causes of R410 but for the start of a run. -/
inductive ResetCause where
  /-- the instruction `RESET` (R347) -/
  | instruction
  /-- `UninitializedWReset` (R368) -/
  | uninitializedW
  /-- a hard trap that could not be taken (R373) -/
  | hardTrap (k : TrapKind)
  deriving DecidableEq, Repr

/-- A trap or device Reset that was taken (R19). -/
inductive Taken where
  | trap (k : TrapKind)
  | reset (cause : ResetCause)
  deriving DecidableEq, Repr

/-- Whether the CPU runs or has stopped at `PWRSAV` (R346, R405). -/
inductive Power where
  | run | sleep | idle
  deriving DecidableEq, Repr

/-- An interrupt request (k, p): the source and its assigned priority (R375). -/
structure Irq where
  source : Fin 246
  prio : Fin 8
  deriving DecidableEq, Repr

/-- The two read hazards, live for one instruction: the SPLIM value before a write to SPLIM (R421), and that DOEND was
just written (R424). -/
structure Hazard where
  splimOld : Option Word
  doend : Bool
  deriving DecidableEq, Repr

/-- No hazard. -/
def Hazard.none : Hazard := { splimOld := Option.none, doend := false }

/-- The machine state (R94). Fields after `mem` and `prog` are the model's own, INVENTORY.md says which. -/
structure State where
  /-- the device parameters (R10); constant -/
  dev : Device
  /-- `Wbank` and `Winit`, contexts 0 to 4 (R23, R29) -/
  ctx : Vector WCtx 5
  /-- W15, shared by every context (R22, R27) -/
  w15 : Word
  /-- the program counter (R31) -/
  pc : ProgAddr
  /-- SR: DC, N, OV, Z, C -/
  flags : Flags
  /-- SR.RA (R43) -/
  ra : Bool
  /-- SR.IPL[2:0] (R44) -/
  ipl : BitVec 3
  /-- CORCON.IPL3 (R57) -/
  ipl3 : Bool
  /-- CORCON.SFA (R58) -/
  sfa : Bool
  /-- CORCON.DL (R54) -/
  dl : BitVec 3
  /-- the DSP state, one copy per context when `DSP_CONTEXTS`, otherwise copy 0 (R63) -/
  dsp : Vector DspCtx 5
  /-- CTXTSTAT.CCTXI (R65) -/
  cctxi : Fin 5
  /-- CTXTSTAT.MCTXI (R66) -/
  mctxi : Fin 5
  /-- SPLIM (R67) -/
  splim : Word
  /-- RCOUNT (R68) -/
  rcount : Word
  /-- DCOUNT (R69) -/
  dcount : Word
  /-- DOSTART, address bits 22:1 (R70) -/
  dostart : LoopAddr
  /-- DOEND, address bits 22:1 (R71) -/
  doend : LoopAddr
  /-- DSRPAG (R72) -/
  dsrpag : BitVec 10
  /-- DSWPAG (R73) -/
  dswpag : BitVec 9
  /-- TBLPAG (R74) -/
  tblpag : BitVec 8
  /-- MODCON (R75) -/
  modcon : Modcon
  /-- XMODSRT[15:1] (R76) -/
  xmodsrt : BitVec 15
  /-- XMODEND[15:1] (R76) -/
  xmodend : BitVec 15
  /-- YMODSRT[15:1] (R76) -/
  ymodsrt : BitVec 15
  /-- YMODEND[15:1] (R76) -/
  ymodend : BitVec 15
  /-- XBREV.BREN (R77) -/
  bren : Bool
  /-- XBREV.XB (R77) -/
  xb : BitVec 15
  /-- DISICNT (R78) -/
  disicnt : BitVec 14
  /-- MSTRPR (R79) -/
  mstrpr : Mstrpr
  /-- the named bits of INTCON1 and INTCON3 (R80) -/
  intcon : IntBits
  /-- shadows of W0 to W3 (R82) -/
  shadowW : Vector Word 4
  /-- shadow of DC, N, OV, Z, C (R82) -/
  shadowFlags : Flags
  /-- `dostack[1..3]`, index k - 1 (R83) -/
  dostack : Vector DoEntry 3
  /-- `splim_enabled` (R84) -/
  splimEnabled : Bool
  /-- `corcon_replicate` (R86) -/
  corconReplicate : Bool
  /-- `edt_pending` (R85) -/
  edt : Edt
  /-- `pending_traps` (R87) -/
  pending : Pending
  /-- `div_state` (R228) -/
  div : Option DivRun
  /-- what the exception handlers entered and not left interrupted, the latest first; log entry 29 -/
  nest : List Suspended
  /-- the REPEAT loop in progress has not executed its target yet; log entry 29 -/
  repeatNew : Bool
  /-- the traps and device Resets taken since the start of the run, the latest first (R19); log entry 49 -/
  taken : List Taken
  /-- data memory: the bytes written so far, addresses rising (R111) -/
  mem : List Host.Cell
  /-- program memory: the words of the loaded image, even addresses rising (R104) -/
  prog : List (Nat × ProgWord)
  /-- the assembly-level program: instructions held as instructions (R17, R104) -/
  asm : List (Nat × Instr)
  /-- running, or stopped by `PWRSAV` (R346) -/
  power : Power
  /-- the environment's interrupt request input, one sample per boundary (R375) -/
  irqs : List (Option Irq)
  /-- the hazards that apply to the instruction now executing (R421, R424) -/
  haz : Hazard
  /-- the hazards that will apply to the next instruction -/
  hazNext : Hazard
  /-- how many free values have been drawn -/
  free : Nat
  deriving DecidableEq, Repr

/-- The faults: there are none. What goes wrong in this machine is a trap or a device Reset, and both go on to a next
state (R361, R368); what the spec leaves out of its model it calls `refuse` (R13), and that is a `Refusal`. Safe. -/
inductive Fault where
  deriving DecidableEq, Repr

/-- The refusals. Every one is safe: the model makes no claim about the hardware from there on. -/
inductive Refusal where
  /-- An instruction without a meaning yet; raised by `exec`. Safe. -/
  | notModelled (mnemonic : String)
  /-- A word that is no instruction of the table (R161); raised by `step`. Safe. -/
  | undecodable (e : DecodeError)
  /-- An instruction whose operands its operand list does not admit (R149 to R160); raised by `step`. Safe. -/
  | illFormed (i : Instr)
  /-- A fetch, table read, PSV read or vector read of a program address at or beyond 2 * `PROG_WORDS` (R34, R104);
  raised by `checkProg`. Safe. -/
  | progUnimplemented (addr : Nat)
  /-- An access to an SFR address the map does not assign (R114); raised by `sfrRead` and `sfrWrite`. Safe. -/
  | unassignedSfr (addr : Nat)
  /-- A data write to PCL or PCH (R35); raised by `sfrWrite`. Safe. -/
  | pcWrite
  /-- An indirect access while modulo or bit-reversed addressing is enabled (R122); raised by `checkCircular`. Safe. -/
  | circularAddressing
  /-- A DSP multiply with CORCON.US = 11 (R52, R242); raised by `opval`. Safe. -/
  | reservedMultiplierMode
  /-- `CTXTSWP` to a reserved or unimplemented context (R341); raised by `contextSwap`. Safe. -/
  | reservedContext (n : Nat)
  /-- A DSP instruction, or `DO`, on a device without the DSP engine (R11); raised by `requireDsp`. Safe. -/
  | noDsp
  /-- `DIVF` on a device without it (R230); raised by `execDivF`. Safe. -/
  | noDivf
  /-- A forbidden instruction as REPEAT target (R317); raised by `step`. Safe. -/
  | repeatTarget
  /-- A forbidden instruction among the last two of an active DO loop (R328); raised by `step`. Safe. -/
  | doLoopEnd
  /-- A `DO` with loop length -1, 0 or 1 (R329); raised by `doLoop`. Safe. -/
  | doLoopLength
  /-- A table read with program address bit 23 set (R190); raised by `tableWord`. Safe. -/
  | configSpace
  /-- A table write (R191); raised by `execTblwtl` and `execTblwth`. Safe. -/
  | tableWrite
  /-- `BOOTSWP` (R343); raised by `execBootswp`. Safe. -/
  | partitionSwap
  /-- `TRAP` (R348); raised by `execTrap`. Safe. -/
  | trapUndescribed
  /-- `FEX` (R348); raised by `execFex`. Safe. -/
  | fexUndescribed
  /-- `SSTEP` (R348); raised by `execSstep`. Safe. -/
  | sstepUndescribed
  /-- `URUN` (R348); raised by `execUrun`. Safe. -/
  | urunUndescribed
  deriving DecidableEq, Repr

/-- A cleared register context (R30). -/
def WCtx.cleared : WCtx := { w := Vector.replicate 15 0#16, init := Vector.replicate 15 false }

/-- All five MCU flags 0. -/
def Flags.cleared : Flags := { dc := false, n := false, ov := false, z := false, c := false }

/-- The DSP state after reset: CORCON = 0x0020, so only SATDW is set (R51, R63, R411). -/
def DspCtx.atReset : DspCtx where
  acca := 0#40
  accb := 0#40
  us := 0#2
  sata := false
  satb := false
  satdw := true
  accsat := false
  rnd := false
  intMode := false
  oa := false
  ob := false
  sa := false
  sb := false

/-- The interrupt-controller bits after reset (R80). -/
def IntBits.cleared : IntBits where
  nstdis := false
  ovaerr := false
  ovberr := false
  covaerr := false
  covberr := false
  ovate := false
  ovbte := false
  covte := false
  sftacerr := false
  div0err := false
  doovr := false

/-- No trap pending. -/
def Pending.empty : Pending where
  oscFail := false
  addressError := false
  genericHard := false
  stackError := false
  mathError := false
  dmaError := false
  softTrap := false

/-- The machine right after reset (R90, R92, R410, R411). The registers whose reset value the spec gives as unknown
hold 0 here (DESIGN CHOICE, log entry 7). -/
def State.reset : State where
  dev := Device.suggested
  ctx := Vector.replicate 5 WCtx.cleared
  w15 := 0x1000#16
  pc := 0#23
  flags := Flags.cleared
  ra := false
  ipl := 0#3
  ipl3 := false
  sfa := false
  dl := 0#3
  dsp := Vector.replicate 5 DspCtx.atReset
  cctxi := 0
  mctxi := 0
  splim := 0#16
  rcount := 0#16
  dcount := 0#16
  dostart := 0#22
  doend := 0#22
  dsrpag := 1#10
  dswpag := 1#9
  tblpag := 0#8
  modcon := { xmoden := false, ymoden := false, bwm := 0#4, ywm := 0#4, xwm := 0#4 }
  xmodsrt := 0#15
  xmodend := 0#15
  ymodsrt := 0#15
  ymodend := 0#15
  bren := false
  xb := 0#15
  disicnt := 0#14
  mstrpr := { dmapr := false, usbpr := false, nvmpr := false }
  intcon := IntBits.cleared
  shadowW := Vector.replicate 4 0#16
  shadowFlags := Flags.cleared
  dostack := Vector.replicate 3 { start := 0#22, stop := 0#22, count := 0#16 }
  splimEnabled := false
  corconReplicate := true
  edt := .clear
  pending := Pending.empty
  div := none
  nest := []
  repeatNew := false
  taken := []
  mem := []
  prog := []
  asm := []
  power := .run
  irqs := []
  haz := Hazard.none
  hazNext := Hazard.none
  free := 0

end Sys2Proof.Machine
end

