-- ==== Sys2Proof/Machine/Memory.lean ====
section
/-! DEFINITION. Memory.lean: sparse memory as a list of address and value pairs with rising addresses, and the reads of
data RAM and program memory. -/

namespace Sys2Proof.Machine

/-- The value listed at an address, if one is. -/
def assocGet {β : Type} : List (Nat × β) → Nat → Option β
  | [], _ => none
  | (a, b) :: rest, x => if a = x then some b else assocGet rest x

/-- Set the value at an address, keeping the addresses rising. -/
def assocSet {β : Type} : List (Nat × β) → Nat → β → List (Nat × β)
  | [], x, v => [(x, v)]
  | (a, b) :: rest, x, v =>
    if x < a then (x, v) :: (a, b) :: rest
    else if a = x then (x, v) :: rest
    else (a, b) :: assocSet rest x v

/-- Remove the entries of an address. -/
def assocErase {β : Type} : List (Nat × β) → Nat → List (Nat × β)
  | [], _ => []
  | (a, b) :: rest, x => if a = x then assocErase rest x else (a, b) :: assocErase rest x

/-- The addresses of a list are strictly rising and all above a bound. -/
def risingFrom {β : Type} : Nat → List (Nat × β) → Bool
  | _, [] => true
  | lo, (a, _) :: rest => decide (lo ≤ a) && risingFrom (a + 1) rest

/-- The canonical form of data memory: strictly rising addresses. What an unlisted byte reads as is a free value of
Config, so no entry can be told equal to it (log entry 4). -/
def Memory.wf (mem : List Host.Cell) : Bool := risingFrom 0 mem

/-- The canonical form of program memory: strictly rising even addresses of the 23-bit range (R102, R104). -/
def Memory.progWf (prog : List (Nat × ProgWord)) : Bool :=
  risingFrom 0 prog && prog.all fun e => e.1 % 2 == 0 && decide (e.1 < 2 ^ 23)

/-- One byte of data RAM, by its linear address (R111). -/
def State.ramByte (s : State) (lin : Nat) : Byte := (assocGet s.mem lin).getD (Config.ramInit lin)

/-- One word of data RAM: the low byte at the lower address (R106). -/
def State.ramWord (s : State) (lin : Nat) : Word := s.ramByte (lin + 1) ++ s.ramByte lin

/-- Write one byte of data RAM. -/
def State.setRamByte (s : State) (lin : Nat) (b : Byte) : State := { s with mem := assocSet s.mem lin b }

/-- Write one word of data RAM (R106, R113). -/
def State.setRamWord (s : State) (lin : Nat) (v : Word) : State :=
  (s.setRamByte lin (v.extractLsb' 0 8)).setRamByte (lin + 1) (v.extractLsb' 8 8)

/-- The word of program memory at an even address (R104). -/
def State.progWord (s : State) (addr : Nat) : ProgWord := (assocGet s.prog addr).getD (Config.progInit addr)

end Sys2Proof.Machine
end

