-- ==== Sys2Proof/Machine/Effect.lean ====
section
/-! DEFINITION. Effect.lean: the effects an instruction's meaning is written with: reading and updating the state,
drawing a free value, requesting a trap, and ending the instruction early. -/

namespace Sys2Proof.Machine

/-- How an instruction ends early: the device Reset of R368 or R347, or a refusal. -/
inductive Stop where
  | reset (cause : ResetCause)
  | refuse (r : Refusal)
  deriving DecidableEq, Repr

/-- A computation over the machine state that may end early. -/
abbrev M := StateT State (Except Stop)

/-- Read from the state. -/
def ask {α : Type} (f : State → α) : M α := fun s => .ok (f s, s)

/-- Update the state. -/
def upd (f : State → State) : M Unit := fun s => .ok ((), f s)

/-- End with a device Reset. -/
def stopReset {α : Type} (cause : ResetCause) : M α := fun _ => .error (.reset cause)

/-- End with a refusal. -/
def refuse {α : Type} (r : Refusal) : M α := fun _ => .error (.refuse r)

/-- An `any` value of width `w` (R13). -/
def drawBits (w : Nat) : M (BitVec w) :=
  fun s => .ok (Config.anyBits w s.free, { s with free := s.free + 1 })

/-- An `any` bit. -/
def drawBit : M Bool :=
  fun s => .ok (Config.anyBit s.free, { s with free := s.free + 1 })

/-- Whether a trap kind is pending. -/
def Pending.has (p : Pending) : TrapKind → Bool
  | .oscFail => p.oscFail
  | .addressError => p.addressError
  | .genericHard => p.genericHard
  | .stackError => p.stackError
  | .mathError => p.mathError
  | .dmaError => p.dmaError
  | .softTrap => p.softTrap

/-- Set or clear a trap kind. -/
def Pending.put (p : Pending) (k : TrapKind) (b : Bool) : Pending :=
  match k with
  | .oscFail => { p with oscFail := b }
  | .addressError => { p with addressError := b }
  | .genericHard => { p with genericHard := b }
  | .stackError => { p with stackError := b }
  | .mathError => { p with mathError := b }
  | .dmaError => { p with dmaError := b }
  | .softTrap => { p with softTrap := b }

/-- The state with a trap kind added to `pending_traps`. -/
def State.addPending (s : State) (k : TrapKind) : State := { s with pending := s.pending.put k true }

/-- `raise K` for a trap without a status bit: the trap is requested and the instruction goes on (R361). -/
def raiseTrap (k : TrapKind) : M Unit := upd fun s => s.addPending k

/-- `raise MathError(div0)` (R366). -/
def raiseDiv0 : M Unit := do
  upd fun s => { s with intcon := { s.intcon with div0err := true } }
  raiseTrap .mathError

/-- `raise MathError(sftac_range)` (R367). -/
def raiseSftac : M Unit := do
  upd fun s => { s with intcon := { s.intcon with sftacerr := true } }
  raiseTrap .mathError

/-- `raise SoftTrap(do_stack_overflow)` (R367). -/
def raiseDoOverflow : M Unit := do
  upd fun s => { s with intcon := { s.intcon with doovr := true } }
  raiseTrap .softTrap

end Sys2Proof.Machine
end

