-- ==== Sys2Proof/Machine/Sfr.lean ====
section
/-! DEFINITION. Sfr.lean: the registers: working registers of the active context, the words the memory-mapped registers
read as, and what a data write to each of them does (10_state.md, 20_memory.md R114, R115). -/

namespace Sys2Proof.Machine

/-! Working registers. -/

/-- The visible register context, selected by CCTXI (R24). -/
def State.curCtx (s : State) : WCtx := s.ctx[s.cctxi]

/-- `W[i]` of the active context; W15 is shared (R24). -/
def State.wreg (s : State) (r : Reg) : Word :=
  if h : r.toNat < 15 then s.curCtx.w[r.toNat] else s.w15

/-- Whether `W[i]` may be used as an address: it was written by a word write; W15 always (R29). -/
def State.winit (s : State) (r : Reg) : Bool :=
  if h : r.toNat < 15 then s.curCtx.init[r.toNat] else true

/-- `W[i] <- v`: marks Wi initialized; W15 bit 0 is forced to 0 (R13, R27, R29). -/
def State.setWreg (s : State) (r : Reg) (v : Word) : State :=
  if h : r.toNat < 15 then
    let c : WCtx := { w := s.curCtx.w.set r.toNat v, init := s.curCtx.init.set r.toNat true }
    { s with ctx := s.ctx.set s.cctxi c }
  else { s with w15 := v &&& 0xFFFE#16 }

/-- Replace a register's value without marking it initialized, as byte writes do (R29). -/
def State.setWregKeep (s : State) (r : Reg) (v : Word) : State :=
  if h : r.toNat < 15 then
    let c : WCtx := { s.curCtx with w := s.curCtx.w.set r.toNat v }
    { s with ctx := s.ctx.set s.cctxi c }
  else { s with w15 := v &&& 0xFFFE#16 }

/-- `W[i].b <- v`: only bits 7:0 change (R26). -/
def State.setWregLow (s : State) (r : Reg) (b : Byte) : State :=
  s.setWregKeep r ((s.wreg r).extractLsb' 8 8 ++ b)

/-- A byte write of bits 15:8 of a register through its mapped address (R115). -/
def State.setWregHigh (s : State) (r : Reg) (b : Byte) : State :=
  s.setWregKeep r (b ++ (s.wreg r).extractLsb' 0 8)

/-! DSP state. -/

/-- Which copy of the DSP state is visible (R63). -/
def State.dspIdx (s : State) : Fin 5 := if s.dev.dspContexts then s.cctxi else 0

/-- The visible DSP state. -/
def State.dspCur (s : State) : DspCtx := s.dsp[s.dspIdx]

/-- Replace the visible DSP state. -/
def State.setDsp (s : State) (d : DspCtx) : State := { s with dsp := s.dsp.set s.dspIdx d }

/-- `ACC[x]` (R60). -/
def State.acc (s : State) : AccId → Acc40
  | .a => s.dspCur.acca
  | .b => s.dspCur.accb

/-- `ACC[x] <- v`. -/
def State.setAcc (s : State) (x : AccId) (v : Acc40) : State :=
  match x with
  | .a => s.setDsp { s.dspCur with acca := v }
  | .b => s.setDsp { s.dspCur with accb := v }

/-! Status and control words. -/

/-- SRL: IPL[2:0], RA, N, OV, Z, C (R36). -/
def State.srl (s : State) : Byte :=
  s.ipl ++ BitVec.ofBool s.ra ++ BitVec.ofBool s.flags.n ++ BitVec.ofBool s.flags.ov
    ++ BitVec.ofBool s.flags.z ++ BitVec.ofBool s.flags.c

/-- DA: a DO loop is active (R45). -/
def State.da (s : State) : Bool := s.dl != 0#3

/-- SRH: OA, OB, SA, SB, OAB, SAB, DA, DC; bits 15 to 9 read 0 without the DSP engine (R36, R45, R48). -/
def State.srh (s : State) : Byte :=
  let d := s.dspCur
  let dsp (b : Bool) : BitVec 1 := BitVec.ofBool (s.dev.hasDsp && b)
  dsp d.oa ++ dsp d.ob ++ dsp d.sa ++ dsp d.sb ++ dsp (d.oa || d.ob) ++ dsp (d.sa || d.sb) ++ dsp s.da
    ++ BitVec.ofBool s.flags.dc

/-- CORCON; EDT reads 0 (R51, R53). -/
def State.corcon (s : State) : Word :=
  let d := s.dspCur
  let dsp (b : Bool) : BitVec 1 := BitVec.ofBool (s.dev.hasDsp && b)
  0#2 ++ (if s.dev.hasDsp then d.us else 0#2) ++ 0#1 ++ (if s.dev.hasDsp then s.dl else 0#3)
    ++ dsp d.sata ++ dsp d.satb ++ dsp d.satdw ++ dsp d.accsat
    ++ BitVec.ofBool s.ipl3 ++ BitVec.ofBool s.sfa ++ dsp d.rnd ++ dsp d.intMode

/-- The 4-bit CPU priority level {IPL3, IPL[2:0]} (R57). -/
def State.level (s : State) : Nat := (BitVec.ofBool s.ipl3 ++ s.ipl).toNat

/-! The register map. -/

/-- The memory-mapped registers of Table 2-1, and the two interrupt-controller registers (R80, R90). -/
inductive Sfr where
  | w (r : Reg)
  | splim | accal | accah | accau | accbl | accbh | accbu | pcl | pch | dsrpag | dswpag | rcount | dcount
  | dostartl | dostarth | doendl | doendh | sr | corcon | modcon | xmodsrt | xmodend | ymodsrt | ymodend | xbrev
  | disicnt | tblpag | mstrpr | ctxtstat | intcon1 | intcon3
  deriving DecidableEq, Repr

/-- The registers that `SFR_ADDR` places (R93). -/
def Sfr.mapped : List Sfr :=
  [.splim, .accal, .accah, .accau, .accbl, .accbh, .accbu, .pcl, .pch, .dsrpag, .dswpag, .rcount, .dcount, .dostartl,
   .dostarth, .doendl, .doendh, .sr, .corcon, .modcon, .xmodsrt, .xmodend, .ymodsrt, .ymodend, .xbrev, .disicnt, .tblpag,
   .mstrpr, .ctxtstat, .intcon1, .intcon3]

/-- `SFR_ADDR(name)`, and 2n for Wn (R93, R115). -/
def sfrAddr (m : SfrMap) : Sfr → Nat
  | .w r => 2 * r.toNat
  | .splim => m.splim.toNat
  | .accal => m.accal.toNat
  | .accah => m.accah.toNat
  | .accau => m.accau.toNat
  | .accbl => m.accbl.toNat
  | .accbh => m.accbh.toNat
  | .accbu => m.accbu.toNat
  | .pcl => m.pcl.toNat
  | .pch => m.pch.toNat
  | .dsrpag => m.dsrpag.toNat
  | .dswpag => m.dswpag.toNat
  | .rcount => m.rcount.toNat
  | .dcount => m.dcount.toNat
  | .dostartl => m.dostartl.toNat
  | .dostarth => m.dostarth.toNat
  | .doendl => m.doendl.toNat
  | .doendh => m.doendh.toNat
  | .sr => m.sr.toNat
  | .corcon => m.corcon.toNat
  | .modcon => m.modcon.toNat
  | .xmodsrt => m.xmodsrt.toNat
  | .xmodend => m.xmodend.toNat
  | .ymodsrt => m.ymodsrt.toNat
  | .ymodend => m.ymodend.toNat
  | .xbrev => m.xbrev.toNat
  | .disicnt => m.disicnt.toNat
  | .tblpag => m.tblpag.toNat
  | .mstrpr => m.mstrpr.toNat
  | .ctxtstat => m.ctxtstat.toNat
  | .intcon1 => m.intcon1.toNat
  | .intcon3 => m.intcon3.toNat

/-- Whether the device has a register: MSTRPR exists only with `HAS_MSTRPR` (R79), the accumulators only with `HAS_DSP`
(R60). -/
def hasSfr (dev : Device) : Sfr → Bool
  | .accal | .accah | .accau | .accbl | .accbh | .accbu => dev.hasDsp
  | .mstrpr => dev.hasMstrpr
  | .w _ | .splim | .pcl | .pch | .dsrpag | .dswpag | .rcount | .dcount | .dostartl | .dostarth | .doendl | .doendh | .sr
  | .corcon | .modcon | .xmodsrt | .xmodend | .ymodsrt | .ymodend | .xbrev | .disicnt | .tblpag | .ctxtstat | .intcon1
  | .intcon3 => true

/-- The register at an even data address: the working registers from 0x0000 on (R115), then the register that `SFR_ADDR`
places there (R93, R114). Of two registers that a map places at one address the first of `Sfr.mapped` counts; a
well-formed map (`sfrMapWf`) has no such pair. Log entry 9. -/
def sfrAt (dev : Device) (addr : Nat) : Option Sfr :=
  if addr < 0x20 then some (.w (BitVec.ofNat 4 (addr / 2)))
  else Sfr.mapped.find? fun r => hasSfr dev r && sfrAddr dev.sfrMap r == addr

/-- The addresses of a map are even, above those of the working registers, and no two are equal. -/
def sfrMapWf (m : SfrMap) : Bool :=
  Sfr.mapped.all fun r => sfrAddr m r % 2 == 0 && decide (0x20 ≤ sfrAddr m r) &&
    Sfr.mapped.all fun q => r == q || sfrAddr m r != sfrAddr m q

/-- The stored bits of a register as the word it reads as. The registers whose read is `any` (PCL, PCH) or has `any`
bits (INTCON1, INTCON3) show here the bits the CPU holds. -/
def State.sfrWord (s : State) : Sfr → Word
  | .w r => s.wreg r
  | .splim => s.splim
  | .accal => (s.acc .a).extractLsb' 0 16
  | .accah => (s.acc .a).extractLsb' 16 16
  | .accau => ((s.acc .a).extractLsb' 32 8).signExtend 16
  | .accbl => (s.acc .b).extractLsb' 0 16
  | .accbh => (s.acc .b).extractLsb' 16 16
  | .accbu => ((s.acc .b).extractLsb' 32 8).signExtend 16
  | .pcl => s.pc.extractLsb' 0 16
  | .pch => (s.pc.extractLsb' 16 7).zeroExtend 16
  | .dsrpag => s.dsrpag.zeroExtend 16
  | .dswpag => s.dswpag.zeroExtend 16
  | .rcount => s.rcount
  | .dcount => s.dcount
  | .dostartl => s.dostart.extractLsb' 0 15 ++ 0#1
  | .dostarth => (s.dostart.extractLsb' 15 7).zeroExtend 16
  | .doendl => s.doend.extractLsb' 0 15 ++ 0#1
  | .doendh => (s.doend.extractLsb' 15 7).zeroExtend 16
  | .sr => s.srh ++ s.srl
  | .corcon => s.corcon
  | .modcon => BitVec.ofBool s.modcon.xmoden ++ BitVec.ofBool s.modcon.ymoden ++ 0#2
      ++ s.modcon.bwm ++ s.modcon.ywm ++ s.modcon.xwm
  | .xmodsrt => s.xmodsrt ++ 0#1
  | .xmodend => s.xmodend ++ 1#1
  | .ymodsrt => s.ymodsrt ++ 0#1
  | .ymodend => s.ymodend ++ 1#1
  | .xbrev => BitVec.ofBool s.bren ++ s.xb
  | .disicnt => s.disicnt.zeroExtend 16
  | .tblpag => s.tblpag.zeroExtend 16
  | .mstrpr => 0#10 ++ BitVec.ofBool s.mstrpr.dmapr ++ 0#1 ++ BitVec.ofBool s.mstrpr.usbpr ++ 0#2
      ++ BitVec.ofBool s.mstrpr.nvmpr
  | .ctxtstat => 0#5 ++ BitVec.ofNat 3 s.cctxi.val ++ 0#5 ++ BitVec.ofNat 3 s.mctxi.val
  | .intcon1 => BitVec.ofBool s.intcon.nstdis ++ BitVec.ofBool s.intcon.ovaerr ++ BitVec.ofBool s.intcon.ovberr
      ++ BitVec.ofBool s.intcon.covaerr ++ BitVec.ofBool s.intcon.covberr ++ BitVec.ofBool s.intcon.ovate
      ++ BitVec.ofBool s.intcon.ovbte ++ BitVec.ofBool s.intcon.covte ++ BitVec.ofBool s.intcon.sftacerr
      ++ BitVec.ofBool s.intcon.div0err ++ 0#6
  | .intcon3 => 0#11 ++ BitVec.ofBool s.intcon.doovr ++ 0#4

/-- A data read of a register, 16 bits wide. PCL and PCH read `any` (R35), DOENDL and DOENDH read `any` right after
`DO` or a write to DOEND (R424), and the bits of INTCON1 and INTCON3 outside R80 read `any` (log entry 10). -/
def sfrRead (r : Sfr) : M Word :=
  match r with
  | .pcl | .pch => drawBits 16
  | .doendl | .doendh => do
    if ← ask fun s => s.haz.doend then drawBits 16 else ask fun s => s.sfrWord r
  | .intcon1 => do
    let other ← drawBits 6
    ask fun s => (s.sfrWord .intcon1).extractLsb' 6 10 ++ other
  | .intcon3 => do
    let other ← drawBits 15
    ask fun s => other.extractLsb' 4 11 ++ BitVec.ofBool s.intcon.doovr ++ other.extractLsb' 0 4
  | .w _ | .splim | .accal | .accah | .accau | .accbl | .accbh | .accbu | .dsrpag | .dswpag | .rcount | .dcount
  | .dostartl | .dostarth | .sr | .corcon | .modcon | .xmodsrt | .xmodend | .ymodsrt | .ymodend | .xbrev | .disicnt
  | .tblpag | .mstrpr | .ctxtstat => ask fun s => s.sfrWord r

/-- Which byte lanes of a register a data write covers (R114). -/
inductive Lanes where
  | word | low | high
  deriving DecidableEq, Repr

/-- Whether bits 7:0 are written. -/
def Lanes.hasLow : Lanes → Bool
  | .word | .low => true
  | .high => false

/-- Whether bits 15:8 are written. -/
def Lanes.hasHigh : Lanes → Bool
  | .word | .high => true
  | .low => false

/-- The word that results when the written lanes of `v` replace those of `old`. -/
def Lanes.merge (l : Lanes) (old v : Word) : Word :=
  match l with
  | .word => v
  | .low => old.extractLsb' 8 8 ++ v.extractLsb' 0 8
  | .high => v.extractLsb' 8 8 ++ old.extractLsb' 0 8

/-- A data write to bits 7:0 of SR (R49): C, Z, OV, N, and IPL[2:0] unless NSTDIS; RA is read-only. -/
def State.writeSrl (s : State) (v : Word) : State :=
  { s with
    flags := { s.flags with c := v.getLsbD 0, z := v.getLsbD 1, ov := v.getLsbD 2, n := v.getLsbD 3 }
    ipl := if s.intcon.nstdis then s.ipl else v.extractLsb' 5 3 }

/-- A data write to SR.DC (R49). -/
def State.writeDc (s : State) (v : Word) : State := { s with flags := { s.flags with dc := v.getLsbD 8 } }

/-- SA and SB set to given values. -/
def State.setSat (s : State) (sa sb : Bool) : State := s.setDsp { s.dspCur with sa := sa, sb := sb }

/-- OA and OB set to given values. -/
def State.setOvf (s : State) (oa ob : Bool) : State := s.setDsp { s.dspCur with oa := oa, ob := ob }

/-- Writing `v` to SRH clears the combined bit SAB, and with it SA and SB (R48, R49). -/
def State.clearsSab (s : State) (v : Word) : Bool := (s.dspCur.sa || s.dspCur.sb) && !v.getLsbD 10

/-- Writing `v` to SRH clears the combined bit OAB, and with it OA and OB (R48, R49). -/
def State.clearsOab (s : State) (v : Word) : Bool := (s.dspCur.oa || s.dspCur.ob) && !v.getLsbD 11

/-- SA and SB after a data write to SRH that does not race (R49). -/
def State.writeSat (s : State) (v : Word) : State :=
  s.setSat (v.getLsbD 13 && !s.clearsSab v) (v.getLsbD 12 && !s.clearsSab v)

/-- OA and OB after a data write to SRH that does not race (R49). -/
def State.writeOvf (s : State) (v : Word) : State :=
  s.setOvf (v.getLsbD 15 && !s.clearsOab v) (v.getLsbD 14 && !s.clearsOab v)

/-- Clearing SAB races with a 1 written to SA or SB (R49, U12). -/
def State.satRace (s : State) (v : Word) : Bool := s.clearsSab v && (v.getLsbD 13 || v.getLsbD 12)

/-- Clearing OAB races with a 1 written to OA or OB (R49, U12). -/
def State.ovfRace (s : State) (v : Word) : Bool := s.clearsOab v && (v.getLsbD 15 || v.getLsbD 14)

/-- SA and SB become `any`. -/
def drawSat : M Unit := do
  let sa ← drawBit
  let sb ← drawBit
  upd fun s => s.setSat sa sb

/-- OA and OB become `any`. -/
def drawOvf : M Unit := do
  let oa ← drawBit
  let ob ← drawBit
  upd fun s => s.setOvf oa ob

/-- A data write to bits 15:8 of SR (R49): DC, and the accumulator status bits, where clearing a combined bit clears
both of its bits and races with a 1 written to either: both bits are then `any`. -/
def writeSrh (v : Word) : M Unit := do
  upd fun s => s.writeDc v
  if ← ask fun s => s.dev.hasDsp then
    if ← ask fun s => s.satRace v then drawSat else upd fun s => s.writeSat v
    if ← ask fun s => s.ovfRace v then drawOvf else upd fun s => s.writeOvf v

/-- Copy the eight DSP control bits of `d` into a context's copy (R63). -/
def DspCtx.withControl (c d : DspCtx) : DspCtx :=
  { c with us := d.us, sata := d.sata, satb := d.satb, satdw := d.satdw, accsat := d.accsat, rnd := d.rnd,
           intMode := d.intMode }

/-- The control bits of `d` in every context's copy (R63). -/
def State.replicateControl (s : State) (d : DspCtx) : State :=
  { s with dsp := #v[s.dsp[0].withControl d, s.dsp[1].withControl d, s.dsp[2].withControl d, s.dsp[3].withControl d,
                     s.dsp[4].withControl d] }

/-- The DSP control bits after a data write to CORCON, lane by lane (R51). -/
def DspCtx.writeControl (d : DspCtx) (l : Lanes) (v : Word) : DspCtx :=
  let d := if l.hasLow then
      { d with sata := v.getLsbD 7, satb := v.getLsbD 6, satdw := v.getLsbD 5, accsat := v.getLsbD 4,
               rnd := v.getLsbD 1, intMode := v.getLsbD 0 }
    else d
  if l.hasHigh then { d with us := v.extractLsb' 12 2 } else d

/-- DOEND as a 23-bit program address. -/
def State.doendPc (s : State) : ProgAddr := s.doend ++ 0#1

/-- A 1 written to CORCON.EDT by the instruction at `s.pc` (R85, R326): no effect with no loop active; `late` from the
last or penultimate instruction of the loop. The spec does not say whether a push of an exception entry that lands on
CORCON is such a write: here it is, with the entry's return address for the instruction's address (DESIGN CHOICE,
unsafe, log entry 51). -/
def State.writeEdt (s : State) : State :=
  if s.da then
    { s with edt := if s.pc = s.doendPc ∨ s.pc = s.doendPc - 2#23 then .late else .armed }
  else s

/-- A data write to CORCON (R51, R53, R57, R63): DL and SFA are read-only, IPL3 can be cleared only, bit 11 feeds EDT,
and the DSP control bits replicate into every context until the first write outside context 0. -/
def State.writeCorcon (s : State) (l : Lanes) (v : Word) : State :=
  let s := if l.hasLow then { s with ipl3 := s.ipl3 && v.getLsbD 3 } else s
  if s.dev.hasDsp then
    let s := if l.hasHigh && v.getLsbD 11 then s.writeEdt else s
    let d := s.dspCur.writeControl l v
    if s.dev.dspContexts then
      if s.cctxi = 0 then
        if s.corconReplicate then s.replicateControl d else s.setDsp d
      else { s.setDsp d with corconReplicate := false }
    else s.setDsp d
  else s

/-- A data write to INTCON1 or INTCON3: the four enables are written, the status bits can be cleared only (R80;
log entry 10). -/
def IntBits.writeIntcon1 (b : IntBits) (l : Lanes) (v : Word) : IntBits :=
  let b := if l.hasHigh then
      { b with nstdis := v.getLsbD 15, ovaerr := b.ovaerr && v.getLsbD 14, ovberr := b.ovberr && v.getLsbD 13,
               covaerr := b.covaerr && v.getLsbD 12, covberr := b.covberr && v.getLsbD 11, ovate := v.getLsbD 10,
               ovbte := v.getLsbD 9, covte := v.getLsbD 8 }
    else b
  if l.hasLow then
    { b with sftacerr := b.sftacerr && v.getLsbD 7, div0err := b.div0err && v.getLsbD 6 }
  else b

/-- Store a whole word into a register, with its fixed and unimplemented bits ignored (R67 to R79, R89). Registers
that are read-only or have a write rule of their own are not changed here. -/
def State.sfrStore (s : State) (r : Sfr) (v : Word) : State :=
  match r with
  | .splim => { s with splim := v &&& 0xFFFE#16 }
  | .accal => s.setAcc .a ((s.acc .a).extractLsb' 16 24 ++ v)
  | .accah => s.setAcc .a ((s.acc .a).extractLsb' 32 8 ++ v ++ (s.acc .a).extractLsb' 0 16)
  | .accau => s.setAcc .a (v.extractLsb' 0 8 ++ (s.acc .a).extractLsb' 0 32)
  | .accbl => s.setAcc .b ((s.acc .b).extractLsb' 16 24 ++ v)
  | .accbh => s.setAcc .b ((s.acc .b).extractLsb' 32 8 ++ v ++ (s.acc .b).extractLsb' 0 16)
  | .accbu => s.setAcc .b (v.extractLsb' 0 8 ++ (s.acc .b).extractLsb' 0 32)
  | .dsrpag => { s with dsrpag := v.extractLsb' 0 10 }
  | .dswpag => { s with dswpag := v.extractLsb' 0 9 }
  | .rcount => { s with rcount := v }
  | .dcount => { s with dcount := v }
  | .doendl => { s with doend := s.doend.extractLsb' 15 7 ++ v.extractLsb' 1 15 }
  | .doendh => { s with doend := v.extractLsb' 0 7 ++ s.doend.extractLsb' 0 15 }
  | .modcon => { s with modcon := { xmoden := v.getLsbD 15, ymoden := v.getLsbD 14, bwm := v.extractLsb' 8 4,
                                    ywm := v.extractLsb' 4 4, xwm := v.extractLsb' 0 4 } }
  | .xmodsrt => { s with xmodsrt := v.extractLsb' 1 15 }
  | .xmodend => { s with xmodend := v.extractLsb' 1 15 }
  | .ymodsrt => { s with ymodsrt := v.extractLsb' 1 15 }
  | .ymodend => { s with ymodend := v.extractLsb' 1 15 }
  | .xbrev => { s with bren := v.getLsbD 15, xb := v.extractLsb' 0 15 }
  | .disicnt => { s with disicnt := v.extractLsb' 0 14 }
  | .tblpag => { s with tblpag := v.extractLsb' 0 8 }
  | .mstrpr => { s with mstrpr := { dmapr := v.getLsbD 5, usbpr := v.getLsbD 3, nvmpr := v.getLsbD 0 } }
  | .w _ | .pcl | .pch | .dostartl | .dostarth | .sr | .corcon | .ctxtstat | .intcon1 | .intcon3 => s

/-- A data write to a working register through its mapped address (R115). -/
def State.writeWreg (s : State) (r : Reg) (l : Lanes) (v : Word) : State :=
  match l with
  | .word => s.setWreg r v
  | .low => s.setWregLow r (v.extractLsb' 0 8)
  | .high => s.setWregHigh r (v.extractLsb' 8 8)

/-- A data write to SPLIM: a word write enables the overflow check; every write starts the read hazard (R84, R421). -/
def State.writeSplim (s : State) (l : Lanes) (v : Word) : State :=
  { s.sfrStore .splim (l.merge s.splim v) with
    splimEnabled := s.splimEnabled || l == .word
    hazNext := { s.hazNext with splimOld := some s.splim } }

/-- A data write to DOENDL or DOENDH; it starts the read hazard of R424. -/
def State.writeDoend (s : State) (r : Sfr) (l : Lanes) (v : Word) : State :=
  { s.sfrStore r (l.merge (s.sfrWord r) v) with hazNext := { s.hazNext with doend := true } }

/-- A data write to a register; `v` holds the written byte in its own lane (R114). -/
def sfrWrite (r : Sfr) (l : Lanes) (v : Word) : M Unit :=
  match r with
  | .w n => upd fun s => s.writeWreg n l v
  | .splim => upd fun s => s.writeSplim l v
  | .pcl | .pch => refuse .pcWrite
  | .doendl | .doendh => upd fun s => s.writeDoend r l v
  | .sr => do
    if l.hasLow then upd fun s => s.writeSrl v
    if l.hasHigh then writeSrh v
  | .corcon => upd fun s => s.writeCorcon l v
  | .intcon1 => upd fun s => { s with intcon := s.intcon.writeIntcon1 l v }
  | .intcon3 => upd fun s =>
      { s with intcon := { s.intcon with doovr := if l.hasLow then s.intcon.doovr && v.getLsbD 4 else s.intcon.doovr } }
  | .dostartl | .dostarth | .ctxtstat => pure ()
  | .accal | .accah | .accau | .accbl | .accbh | .accbu | .dsrpag | .dswpag | .rcount | .dcount | .modcon | .xmodsrt
  | .xmodend | .ymodsrt | .ymodend | .xbrev | .disicnt | .tblpag | .mstrpr =>
    upd fun s => s.sfrStore r (l.merge (s.sfrWord r) v)

end Sys2Proof.Machine
end

