-- ==== Sys2Proof/Machine/Ops.lean ====
section
/-! DEFINITION. Ops.lean: the shared operations: program and data memory access (20_memory.md), the software stack, the
device Reset (R410), taking an exception and returning from one (60_exceptions.md), and how a meaning's result becomes
an outcome. -/

namespace Sys2Proof.Machine

/-! Program memory. -/

/-- A program address outside the implemented range is refused (R34, R104). -/
def checkProg (addr : Nat) : M Unit := do
  if addr < 2 * (← ask fun s => s.dev.progWords) then pure () else refuse (.progUnimplemented addr)

/-- `ProgRead(addr)` of an even address (R104). -/
def progRead (addr : Nat) : M ProgWord := do
  checkProg addr
  ask fun s => s.progWord addr

/-- The assembly-level program's instruction at an address; the second word of a two-word instruction is a `NOP`
(R17, R142). The spec does not say where a two-word instruction listed at 0x7FFFFE has its second word: its fetch takes
0x000000 for it, where the pc wraps to, but no `NOP` is read there (DESIGN CHOICE, unsafe, log entry 48). -/
def State.asmAt (s : State) (addr : Nat) : Option Instr :=
  match assocGet s.asm addr with
  | some i => some i
  | none =>
    if addr < 2 then none
    else match assocGet s.asm (addr - 2) with
      | some i => if i.words = 2 then some .nop else none
      | none => none

/-! Data memory. -/

/-- Which register formed a data address, as far as paging and the stack checks depend on it (R116, R126). -/
inductive Via where
  /-- any other register, or an address in the instruction: paged -/
  | paged
  /-- W14 while SFA = 1: not paged -/
  | frame
  /-- W15: not paged, stack checked -/
  | stack
  deriving DecidableEq, Repr

/-- Where a data address leads. -/
inductive Target where
  /-- the SFR space, an address below 0x1000 -/
  | sfr (addr : Nat)
  /-- data RAM, a linear address of the base data space or of EDS -/
  | ram (lin : Nat)
  /-- the low word of a program word, a program byte address (R109) -/
  | psvLow (addr : Nat)
  /-- the most significant byte of a program word (R109) -/
  | psvHigh (addr : Nat)
  /-- unimplemented: `AddressError` (R111) -/
  | absent
  deriving DecidableEq, Repr

/-- Whether a linear data address is implemented RAM (R108, R109). -/
def State.implemented (s : State) (lin : Nat) : Bool :=
  decide (0x1000 ≤ lin) && (if lin < 0x10000 then decide (lin ≤ s.dev.ramEnd) else decide (lin ≤ s.dev.edsEnd))

/-- RAM at a linear address, or nothing there. -/
def State.ramTarget (s : State) (lin : Nat) : Target :=
  if s.implemented lin then .ram lin else .absent

/-- Whether an access goes through the paged window (R116). -/
def windowed (via : Via) (ea : Word) : Bool := ea.getLsbD 15 && via == .paged

/-- Where a read of data address `ea` goes (R108, R109, R112, R116; the window formulas of R109, log entry 11). -/
def State.readTarget (s : State) (via : Via) (ea : Word) : Target :=
  if ea.toNat < 0x1000 then .sfr ea.toNat
  else if windowed via ea then
    let off := ea.toNat % 0x8000
    let page := s.dsrpag.toNat
    if page = 0 then .absent
    else if page < 0x200 then s.ramTarget (page * 0x8000 + off)
    else if page < 0x300 then .psvLow ((page - 0x200) * 0x8000 + off)
    else .psvHigh ((page - 0x300) * 0x8000 + off)
  else s.ramTarget ea.toNat

/-- Where a write to data address `ea` goes (R110, R113, R116). -/
def State.writeTarget (s : State) (via : Via) (ea : Word) : Target :=
  if ea.toNat < 0x1000 then .sfr ea.toNat
  else if windowed via ea then
    if s.dswpag.toNat = 0 then .absent
    else s.ramTarget (s.dswpag.toNat * 0x8000 + ea.toNat % 0x8000)
  else s.ramTarget ea.toNat

/-- The low byte of a word, zero-extended: how a byte operand is carried in a word. -/
def lowByte (v : Word) : Word := (v.extractLsb' 0 8).zeroExtend 16

/-- The byte of a word at an even or odd address (R106). -/
def byteLane (addr : Nat) (v : Word) : Word :=
  if addr % 2 = 0 then lowByte v else (v.extractLsb' 8 8).zeroExtend 16

/-- An `any` operand of the access width. -/
def drawOperand (byte : Bool) : M Word := do
  let v ← drawBits 16
  pure (if byte then lowByte v else v)

/-- `SfrRead` (R114). An address the map does not assign is refused, except through W15, whose access below 0x1000 has
already raised the stack error: it reads `any` (R128, log entry 12). -/
def sfrReadAt (via : Via) (addr : Nat) (byte : Bool) : M Word := do
  match sfrAt (← ask fun s => s.dev) (addr - addr % 2) with
  | some r => do
    let v ← sfrRead r
    pure (if byte then byteLane addr v else v)
  | none => if via = .stack then drawOperand byte else refuse (.unassignedSfr addr)

/-- `SfrWrite` (R114); the exception for W15 as in `sfrReadAt`: the write is lost. -/
def sfrWriteAt (via : Via) (addr : Nat) (byte : Bool) (v : Word) : M Unit := do
  match sfrAt (← ask fun s => s.dev) (addr - addr % 2) with
  | some r =>
    if byte then
      if addr % 2 = 0 then sfrWrite r .low v else sfrWrite r .high (v <<< 8)
    else sfrWrite r .word v
  | none => if via = .stack then pure () else refuse (.unassignedSfr addr)

/-- `MemRead(addr, n)`: a byte (zero-extended) or a word. A misaligned word access and an absent address raise
`AddressError`, access nothing and deliver `any` (R107, R112, R369). -/
def memRead (via : Via) (ea : Word) (byte : Bool) : M Word := do
  if !byte && ea.getLsbD 0 then
    raiseTrap .addressError
    drawOperand byte
  else
    match ← ask fun s => s.readTarget via ea with
    | .sfr a => sfrReadAt via a byte
    | .ram lin => ask fun s => if byte then (s.ramByte lin).zeroExtend 16 else s.ramWord lin
    | .psvLow a => do
      let p ← progRead (a - a % 2)
      pure (if byte then byteLane a (p.extractLsb' 0 16) else p.extractLsb' 0 16)
    | .psvHigh a => do
      let p ← progRead (a - a % 2)
      let v : Word := (p.extractLsb' 16 8).zeroExtend 16
      pure (if byte then byteLane a v else v)
    | .absent => do
      raiseTrap .addressError
      drawOperand byte

/-- `MemWrite(addr, n, v)` (R107, R113, R369). -/
def memWrite (via : Via) (ea : Word) (byte : Bool) (v : Word) : M Unit := do
  if !byte && ea.getLsbD 0 then raiseTrap .addressError
  else
    match ← ask fun s => s.writeTarget via ea with
    | .sfr a => sfrWriteAt via a byte v
    | .ram lin => upd fun s => if byte then s.setRamByte lin (v.extractLsb' 0 8) else s.setRamWord lin v
    | .psvLow _ | .psvHigh _ | .absent => raiseTrap .addressError

/-! The software stack. -/

/-- Whether an address formed from W15 fails the overflow check against a limit (R127): it exceeds the limit by more
than two, or its computation carried out of bit 15. -/
def overLimit (limit ea : Word) (carry : Bool) : Bool := decide (limit.toNat + 2 < ea.toNat) || carry

/-- The state after an address formed from W15 is checked against a limit: below 0x1000 or, with the overflow check
enabled, beyond the limit, a `StackError` is pending (R127, R128). -/
def State.checkedAgainst (s : State) (limit ea : Word) (carry : Bool) : State :=
  if decide (ea.toNat < 0x1000) || (s.splimEnabled && overLimit limit ea carry) then s.addPending .stackError else s

/-- `StackCheck(ea)` (R127, R128). `carry` says that the address calculation carried out of bit 15, `read` that the
access is a read, which right after a write to SPLIM compares with the old or the new limit (R421). -/
def stackCheck (ea : Word) (carry read : Bool) : M Unit := do
  match ← ask fun s => if read && s.splimEnabled then s.haz.splimOld else none with
  | none => upd fun s => s.checkedAgainst s.splim ea carry
  | some old => do
    let useOld ← drawBit
    upd fun s => s.checkedAgainst (if useOld then old else s.splim) ea carry

/-- Modulo or bit-reversed addressing is enabled (R122). -/
def State.circular (s : State) : Bool := s.modcon.xmoden || s.modcon.ymoden || s.bren

/-- No indirect access while modulo or bit-reversed addressing is enabled (R122), those of `push16` and `pop16` among
them (log entry 26). -/
def checkCircular : M Unit := do
  if ← ask State.circular then refuse .circularAddressing else pure ()

/-- `push16(v)` (R124), the access `[W15++]`; the increment of W15 counts as part of its address calculation (log entry
19). -/
def push16 (v : Word) : M Unit := do
  checkCircular
  let ea ← ask fun s => s.w15
  stackCheck ea (decide (0x10000 ≤ ea.toNat + 2)) false
  memWrite .stack ea false v
  upd fun s => s.setWreg 15#4 (s.w15 + 2#16)

/-- `pop16()` (R124), the access `[--W15]`. -/
def pop16 : M Word := do
  checkCircular
  upd fun s => s.setWreg 15#4 (s.w15 - 2#16)
  let ea ← ask fun s => s.w15
  stackCheck ea false true
  memRead .stack ea false

/-- The first word a return address is pushed as: {ret[15:1], SFA} (R125). -/
def State.retLow (s : State) (ret : ProgAddr) : Word := ret.extractLsb' 1 15 ++ BitVec.ofBool s.sfa

/-- `pushPC_call(ret)` (R125). -/
def pushPcCall (ret : ProgAddr) : M Unit := do
  push16 (← ask fun s => s.retLow ret)
  push16 ((ret.extractLsb' 16 7).zeroExtend 16)

/-- The second word of an exception frame: {SRL, IPL3, ret[22:16]} (R125). -/
def State.excHigh (s : State) (ret : ProgAddr) : Word :=
  s.srl ++ BitVec.ofBool s.ipl3 ++ ret.extractLsb' 16 7

/-- `pushPC_exc(ret)` (R125). -/
def pushPcExc (ret : ProgAddr) : M Unit := do
  push16 (← ask fun s => s.retLow ret)
  push16 (← ask fun s => s.excHigh ret)

/-- The program address of a popped pair: {h[6:0], l[15:1], 0} (R296, R385). -/
def retTarget (h l : Word) : ProgAddr := h.extractLsb' 0 7 ++ l.extractLsb' 1 15 ++ 0#1

/-! Reset. -/

/-- The device Reset (R410, R92): every register takes its reset value, the unknown ones are chosen afresh (free values),
XBREV's enable bit is 0 (R416; log entry 13); data RAM, the program and the environment stay. What was taken is
recorded with its cause (R19). -/
def deviceReset (cause : ResetCause) (s : State) : State :=
  let f := s.free
  { State.reset with
    dev := s.dev
    mem := s.mem
    prog := s.prog
    asm := s.asm
    irqs := s.irqs
    taken := .reset cause :: s.taken
    rcount := Config.anyBits 16 f
    dcount := Config.anyBits 16 (f + 1)
    dostart := Config.anyBits 22 (f + 2)
    doend := Config.anyBits 22 (f + 3)
    xmodsrt := Config.anyBits 15 (f + 4)
    xmodend := Config.anyBits 15 (f + 5)
    ymodsrt := Config.anyBits 15 (f + 6)
    ymodend := Config.anyBits 15 (f + 7)
    xb := Config.anyBits 15 (f + 8)
    shadowW := #v[Config.anyBits 16 (f + 9), Config.anyBits 16 (f + 10), Config.anyBits 16 (f + 11),
      Config.anyBits 16 (f + 12)]
    shadowFlags :=
      { dc := Config.anyBit (f + 13), n := Config.anyBit (f + 14), ov := Config.anyBit (f + 15),
        z := Config.anyBit (f + 16), c := Config.anyBit (f + 17) }
    dostack := #v[
      { start := Config.anyBits 22 (f + 18), stop := Config.anyBits 22 (f + 19), count := Config.anyBits 16 (f + 20) },
      { start := Config.anyBits 22 (f + 21), stop := Config.anyBits 22 (f + 22), count := Config.anyBits 16 (f + 23) },
      { start := Config.anyBits 22 (f + 24), stop := Config.anyBits 22 (f + 25), count := Config.anyBits 16 (f + 26) }]
    free := f + 27 }

/-! How a meaning ends. -/

/-- The outcome of a meaning run from `s`. A device Reset happens in place of all the instruction's effects (R368). -/
def runInstr (m : M Unit) (s : State) : Host.Outcome State Fault Refusal :=
  match m s with
  | .ok (_, t) => .next t
  | .error (.reset cause) => .next (deviceReset cause s)
  | .error (.refuse r) => .refused r

/-- The sequential advance over `n` instruction words (R33). -/
def advance (n : Nat) : M Unit := upd fun s => { s with pc := s.pc + BitVec.ofNat 23 (2 * n) }

/-- `pc <- target`; bit 0 is fixed to 0 (R31). -/
def jump (target : ProgAddr) : M Unit := upd fun s => { s with pc := target &&& 0x7FFFFE#23 }

/-- DSP instructions and `DO` exist only with `HAS_DSP` (R11). -/
def requireDsp : M Unit := do
  if ← ask fun s => s.dev.hasDsp then pure () else refuse .noDsp

/-! Exceptions. -/

/-- `VECTOR` and `LEVEL` of a trap on a device (R10, R372). -/
def TrapKind.param (k : TrapKind) (dev : Device) : TrapParam :=
  match k with
  | .oscFail => dev.traps.oscFail
  | .addressError => dev.traps.addressError
  | .genericHard => dev.traps.genericHard
  | .stackError => dev.traps.stackError
  | .mathError => dev.traps.mathError
  | .dmaError => dev.traps.dmaError
  | .softTrap => dev.traps.softTrap

/-- `LEVEL` of a trap, 8 to 15 (R372). -/
def TrapKind.level (k : TrapKind) (dev : Device) : Nat := 8 + (k.param dev).levelAbove8.val

/-- `VECTOR` of a trap (R372). -/
def TrapKind.vector (k : TrapKind) (dev : Device) : Nat := (k.param dev).vector.toNat

/-- Hard traps must be taken at once (R372, R373). -/
def TrapKind.hard : TrapKind → Bool
  | .oscFail | .addressError | .genericHard => true
  | .stackError | .mathError | .dmaError | .softTrap => false

/-- The trap kinds. -/
def TrapKind.all : List TrapKind :=
  [.genericHard, .oscFail, .addressError, .stackError, .mathError, .dmaError, .softTrap]

/-- The pending trap of the greatest level (R376). Of pending traps to which the device gives one level, the one that
stands first in `TrapKind.all` (DESIGN CHOICE, log entry 20). -/
def Pending.highest (p : Pending) (dev : Device) : Option TrapKind :=
  TrapKind.all.find? fun k => p.has k && TrapKind.all.all fun j => !p.has j || decide (j.level dev ≤ k.level dev)

/-- `VECTOR` of interrupt source k (R372). -/
def Irq.vector (q : Irq) (dev : Device) : Nat :=
  let t := dev.irqVectors
  ((assocGet t.other q.source.val).getD (t.base + BitVec.ofNat 23 (2 * q.source.val))).toNat

/-- Whether alternate set `n` (1 to 4) exists and is assigned the priority level `level` (R81, R381). -/
def State.contextAt (s : State) (n : Fin 5) (level : Nat) : Bool :=
  decide (1 ≤ n.val) && decide (n.val ≤ s.dev.numAlt.val) &&
    (match s.dev.ctxtIpl[n.val - 1]? with
     | some (some l) => l.val == level && l.val != 0
     | _ => false)

/-- The lowest-numbered alternate set assigned a level (R381). -/
def State.contextFor (s : State) (level : Nat) : Option (Fin 5) :=
  if s.contextAt 1 level then some 1
  else if s.contextAt 2 level then some 2
  else if s.contextAt 3 level then some 3
  else if s.contextAt 4 level then some 4
  else none

/-- `SelectContextOnEntry` (R381); a trap never matches. -/
def State.contextOnEntry (s : State) (irqLevel : Option Nat) : Fin 5 :=
  match irqLevel.bind s.contextFor with
  | some n => n
  | none => if s.dev.ctxNomatchToDefault then 0 else s.cctxi

/-- `SelectContextOnReturn` (R386). -/
def State.contextOnReturn (s : State) : Fin 5 :=
  match s.contextFor s.level with
  | some n => n
  | none => s.mctxi

/-- The handler's address: the vector's word with bit 0 and bit 23 dropped (R380). -/
def handlerAddr (w : ProgWord) : ProgAddr := w.extractLsb' 1 22 ++ 0#1

/-- What is entered: a trap, or an interrupt of a priority. -/
inductive Entry where
  | trap (k : TrapKind)
  | irq (q : Irq)
  deriving DecidableEq, Repr

/-- `VECTOR(e)`. -/
def Entry.vector (e : Entry) (dev : Device) : Nat :=
  match e with
  | .trap k => k.vector dev
  | .irq q => q.vector dev

/-! What exception handlers interrupt, as far as divides depend on it (R228, U8; log entry 29). -/

/-- The divide in progress of which the instruction at the pc is the next execution. -/
def State.divNow (s : State) : Option DivRun :=
  if s.repeatNew then none else s.div.filter fun r => r.at_ == s.pc && r.remaining == s.rcount.toNat + 1

/-- The divides (R225 to R230). -/
def isDivide : Instr → Bool
  | .divSW _ _ | .divSD _ _ _ | .divUW _ _ | .divUD _ _ _ | .divF _ _ => true
  | _ => false

/-- The instruction at the pc is a divide. -/
def State.atDivide (s : State) : Bool :=
  match s.asmAt s.pc.toNat with
  | some i => isDivide i
  | none =>
    match decode (s.progWord s.pc.toNat) 0#24 with
    | .ok i => isDivide i
    | .error _ => false

/-- The pc stands in the middle of a divide: at the target of a `REPEAT` loop that has executed it at least once, and the
target is a divide, whatever has become of its result (R228). -/
def State.dividing (s : State) : Bool := s.ra && !s.repeatNew && s.atDivide

/-- What an entry at the pc interrupts, in the state after its two pushes. -/
def State.interrupted (s : State) : Suspended :=
  { frame := s.w15, low := s.retLow s.pc, high := s.excHigh s.pc, level := s.level, repeatNew := s.repeatNew,
    divides := s.dividing }

/-- What the handlers interrupted, but for the one whose frame ends at `frame`. -/
def State.nestBut (s : State) (frame : Word) : List Suspended := s.nest.filter fun f => f.frame != frame

/-- The status, priority and context changes of an entry after the two pushes (R380, R381), with the record of what it
interrupted. -/
def State.enterMode (s : State) (e : Entry) : State :=
  let t := { s with sfa := false, ra := false, repeatNew := false, nest := s.interrupted :: s.nestBut s.w15 }
  match e with
  | .trap k => { t with ipl3 := true, ipl := BitVec.ofNat 3 (k.level s.dev - 8), cctxi := s.contextOnEntry none }
  | .irq q => { t with ipl := if s.intcon.nstdis then 7#3 else BitVec.ofNat 3 q.prio.val,
                       cctxi := s.contextOnEntry (some q.prio.val) }

/-- The read hazards after an entry. The hazards stay for the handler's first instruction (log entry 31). Whether the
entry's own pushes are the writes that R421 and R424 speak of is open: a push that wrote SPLIM counts, for that first
instruction only, and one that wrote DOEND does not (DESIGN CHOICE, unsafe, log entry 50). `later` is what `hazNext` was
before the pushes. -/
def State.entryHazards (s : State) (later : Hazard) : State :=
  { s with haz := { s.haz with splimOld := s.hazNext.splimOld <|> s.haz.splimOld }, hazNext := later }

/-- `Enter(e, level)`: taking an exception (R380). The return address is the pc, that of the instruction that would have
run next. -/
def enter (e : Entry) : M Unit := do
  let later ← ask State.hazNext
  upd fun s => { s with hazNext := Hazard.none }
  pushPcExc (← ask fun s => s.pc)
  upd fun s => (s.enterMode e).entryHazards later
  let h ← progRead (← ask fun s => e.vector s.dev)
  jump (handlerAddr h)

/-- Restore SRL and IPL3 from the popped high word of a frame (R385). -/
def State.restoreStatus (s : State) (h : Word) : State :=
  { s with
    flags := { s.flags with c := h.getLsbD 8, z := h.getLsbD 9, ov := h.getLsbD 10, n := h.getLsbD 11 }
    ra := h.getLsbD 12
    ipl := h.extractLsb' 13 3
    ipl3 := h.getLsbD 7 }

/-- A return through the frame that ends at `frame` and holds the words `h` and `l`: the handler that pushed it is left,
and what it interrupted goes on as it was (log entry 29). -/
def State.leaveHandler (s : State) (frame h l : Word) : State :=
  { s with
    repeatNew := s.nest.any fun f => f.repeatNew && f.frame == frame && f.high == h && f.low == l
    nest := s.nestBut frame }

/-- Return from an exception (R385, R386). -/
def exceptionReturn : M Unit := do
  let frame ← ask State.w15
  let h ← pop16
  let l ← pop16
  upd fun s => (s.restoreStatus h).leaveHandler frame h l
  upd fun s => { s with sfa := l.getLsbD 0 }
  jump (retTarget h l)
  upd fun s => { s with cctxi := s.contextOnReturn }

/-- Return from a subroutine (R296). -/
def subroutineReturn : M Unit := do
  let h ← pop16
  let l ← pop16
  upd fun s => { s with sfa := l.getLsbD 0 }
  jump (retTarget h l)

/-- `DoCall(target)` with return address `next` (R289). -/
def doCall (next target : ProgAddr) : M Unit := do
  pushPcCall next
  upd fun s => { s with sfa := false }
  jump target

/-- `CTXTSWP` to context number `n` (R341). -/
def contextSwap (n : Nat) : M Unit := do
  if n ≤ (← ask fun s => s.dev.numAlt.val) then
    if h : n < 5 then upd fun s => { s with cctxi := ⟨n, h⟩, mctxi := ⟨n, h⟩ }
    else refuse (.reservedContext n)
  else refuse (.reservedContext n)

/-- Whether the head of a DO stack applies at loop level `k`: entry `k` of `dostack[1..3]` (R83). -/
def State.doSaved (s : State) (k : BitVec 3) : Option DoEntry :=
  if k = 0#3 then none else s.dostack[k.toNat - 1]?

/-- `TerminateDo()` without its pc (R323): the level falls, and the registers come back from the DO stack unless the
outermost loop ended. -/
def State.terminateDo (s : State) : State :=
  let k := s.dl - 1#3
  match s.doSaved k with
  | some e => { s with dl := k, edt := .clear, dostart := e.start, doend := e.stop, dcount := e.count }
  | none => { s with dl := k, edt := .clear }

end Sys2Proof.Machine
end

