-- ==== Sys2Proof/Machine/Operands.lean ====
section
/-! DEFINITION. Operands.lean: the operand forms of 20_memory.md R118 to R122, evaluated in the order of R119: check,
pre-modify, address, access, post-modify. -/

namespace Sys2Proof.Machine

/-- `step`: 2 in word mode, 1 in byte mode (R118). -/
def stepOf (byte : Bool) : Word := if byte then 1#16 else 2#16

/-- The pointer registers of an operand are initialized (R29); `wb` is the instruction's offset register. -/
def State.pointerReady (s : State) (op : Operand) (wb : Reg) : Bool :=
  s.winit op.reg && (op.mode != .offset || s.winit wb)

/-- The state after the pointer's pre-modification. -/
def State.preModified (s : State) (op : Operand) (step : Word) : State :=
  match op.mode with
  | .preInc => s.setWreg op.reg (s.wreg op.reg + step)
  | .preDec => s.setWreg op.reg (s.wreg op.reg - step)
  | .direct | .indirect | .postDec | .postInc | .offset => s

/-- `EA(op)` in the state after the pre-modification (R118). -/
def State.eaOf (s : State) (op : Operand) (wb : Reg) : Word :=
  match op.mode with
  | .offset => s.wreg op.reg + s.wreg wb
  | .direct | .indirect | .postDec | .postInc | .preDec | .preInc => s.wreg op.reg

/-- Whether computing the address, or the increment of its pointer, carries out of bit 15 (R127; log entry 19), in the
state before the pre-modification. -/
def State.eaCarry (s : State) (op : Operand) (wb : Reg) (step : Word) : Bool :=
  match op.mode with
  | .offset => decide (0x10000 ≤ (s.wreg op.reg).toNat + (s.wreg wb).toNat)
  | .preInc | .postInc => decide (0x10000 ≤ (s.wreg op.reg).toNat + step.toNat)
  | .direct | .indirect | .postDec | .preDec => false

/-- The state after the pointer's post-modification, which starts from the register's value after the access
(Example 4-4, R119). -/
def State.postModified (s : State) (op : Operand) (step : Word) : State :=
  match op.mode with
  | .postInc => s.setWreg op.reg (s.wreg op.reg + step)
  | .postDec => s.setWreg op.reg (s.wreg op.reg - step)
  | .direct | .indirect | .preDec | .preInc | .offset => s

/-- How the address of an operand reaches memory: through W15, through W14 with an active frame, or paged (R126). R116
speaks of the pointer register, R126 of an EA formed from W15 or W14; whether `[Wn+Wb]` is formed from a W15 (or W14)
that is only the offset register Wb is open, and the model says it is: such an address is not paged, and through W15 it
is stack checked (DESIGN CHOICE, unsafe, log entry 43). -/
def State.viaOf (s : State) (op : Operand) (wb : Reg) : Via :=
  if op.reg = 15#4 ∨ (op.mode = .offset ∧ wb = 15#4) then .stack
  else if s.sfa = true ∧ (op.reg = 14#4 ∨ (op.mode = .offset ∧ wb = 14#4)) then .frame
  else .paged

/-- A pointer register must be initialized (R29). -/
def checkInit (op : Operand) (wb : Reg) : M Unit := do
  if ← ask fun s => s.pointerReady op wb then pure () else stopReset .uninitializedW

/-- The stack checks of an access to `ea`, when it goes through W15 (R129). -/
def checkVia (via : Via) (ea : Word) (carry read : Bool) : M Unit :=
  if via = .stack then stackCheck ea carry read else pure ()

/-- Access memory through an indirect operand: the checks, the pre-modification, the access at the effective address,
the post-modification (R118, R119). -/
def withEA {α : Type} (op : Operand) (wb : Reg) (step : Word) (read : Bool) (access : Via → Word → M α) : M α := do
  checkInit op wb
  checkCircular
  let carry ← ask fun s => s.eaCarry op wb step
  upd fun s => s.preModified op step
  let via ← ask fun s => s.viaOf op wb
  let ea ← ask fun s => s.eaOf op wb
  checkVia via ea carry read
  let r ← access via ea
  upd fun s => s.postModified op step
  pure r

/-- `W[n]` as a source: the word, or its low byte (R26, R120). -/
def State.regSource (s : State) (byte : Bool) (r : Reg) : Word :=
  if byte then lowByte (s.wreg r) else s.wreg r

/-- `W[n] <- v`, or `W[n].b <- v` in byte mode (R26, R120). -/
def State.regDest (s : State) (byte : Bool) (r : Reg) (v : Word) : State :=
  if byte then s.setWregLow r (v.extractLsb' 0 8) else s.setWreg r v

/-- A source operand; a byte is delivered zero-extended (R120). -/
def readOp (byte : Bool) (wb : Reg) (op : Operand) : M Word :=
  if op.mode = .direct then ask fun s => s.regSource byte op.reg
  else withEA op wb (stepOf byte) true fun via ea => memRead via ea byte

/-- Whether a write at a data address reaches SR (R202, U16): a word write at its address, a byte write at one of its two
bytes. -/
def hitsSr (dev : Device) (byte : Bool) (ea : Word) : Bool :=
  (byte || !ea.getLsbD 0) && sfrAt dev (ea.toNat - ea.toNat % 2) == some .sr

/-- A destination operand (R120). Answers whether the write reached SR's mapped address. -/
def writeOp (byte : Bool) (wb : Reg) (op : Operand) (v : Word) : M Bool :=
  if op.mode = .direct then do
    upd fun s => s.regDest byte op.reg v
    pure false
  else withEA op wb (stepOf byte) false fun via ea => do
    let hit ← ask fun s => hitsSr s.dev byte ea
    memWrite via ea byte v
    pure hit

/-- The address of a file register instruction's 13-bit field (R121). -/
def nearAddr (f13 : BitVec 13) : Word := f13.zeroExtend 16

/-- The word-aligned address of a 15-bit field (R121). -/
def wordAddr (f15 : BitVec 15) : Word := f15 ++ 0#1

/-- Read a file register (R121). -/
def readFile (byte : Bool) (addr : Word) : M Word := memRead .paged addr byte

/-- The destination of a file register instruction: the file register, or WREG (R204). Answers whether the write
reached SR. -/
def writeFileOrWreg (byte toFile : Bool) (addr : Word) (v : Word) : M Bool := do
  if toFile then
    let hit ← ask fun s => hitsSr s.dev byte addr
    memWrite .paged addr byte v
    pure hit
  else
    upd fun s => s.regDest byte 0#4 v
    pure false

end Sys2Proof.Machine
end

