-- ==== Sys2Proof/Machine/Flags.lean ====
section
/-! DEFINITION. Flags.lean: the flag computations of 41_alu_mul_div.md R201 to R211 and the one way flags are written. -/

namespace Sys2Proof.Machine

/-- The operation width in bits (R201). -/
def width (byte : Bool) : Nat := if byte then 8 else 16

/-- The most significant bit of an operand or result (R201). -/
def msb (byte : Bool) (v : Word) : Bool := if byte then v.getLsbD 7 else v.getLsbD 15

/-- The result of an addition: 16 bits, or 8 bits zero-extended (R203). -/
def addResult (byte : Bool) (a b : Word) : Word := BitVec.ofNat 16 ((a.toNat + b.toNat) % 2 ^ width byte)

/-- The five flags of an addition of two operands of the operation width (R203, R38 to R42). -/
def addFlags (byte : Bool) (a b : Word) : Flags :=
  let r := addResult byte a b
  let half := 2 ^ (width byte / 2)
  { c := decide (2 ^ width byte ≤ a.toNat + b.toNat)
    z := r == 0#16
    n := msb byte r
    ov := (msb byte a == msb byte b) && (msb byte r != msb byte a)
    dc := decide (half ≤ a.toNat % half + b.toNat % half) }

/-- A single-bit shift, its result and the bit shifted out (R206 to R208). -/
structure ShiftResult where
  value : Word
  carry : Bool
  deriving DecidableEq, Repr

/-- Shift left by one (R206). -/
def shiftLeft1 (byte : Bool) (v : Word) : ShiftResult :=
  { value := BitVec.ofNat 16 (v.toNat * 2 % 2 ^ width byte), carry := msb byte v }

/-- Logical shift right by one (R207). -/
def shiftRight1 (v : Word) : ShiftResult := { value := v >>> 1, carry := v.getLsbD 0 }

/-- Arithmetic shift right by one (R208). -/
def shiftArith1 (byte : Bool) (v : Word) : ShiftResult :=
  { value := (v >>> 1) ||| (if msb byte v then (if byte then 0x80#16 else 0x8000#16) else 0#16)
    carry := v.getLsbD 0 }

/-- Set N and Z from a result (R39, R40). -/
def Flags.withNZ (fl : Flags) (byte : Bool) (r : Word) : Flags := { fl with n := msb byte r, z := r == 0#16 }

/-- Five free flags (U16). -/
def drawFlags : M Flags := do
  let dc ← drawBit
  let n ← drawBit
  let ov ← drawBit
  let z ← drawBit
  let c ← drawBit
  pure { dc := dc, n := n, ov := ov, z := z, c := c }

/-- Write the flags of an instruction, last of its effects (R119). When its destination was SR's own address the five
flags are `any` instead (R202, U16). -/
def writeFlags (hitSr : Bool) (f : Flags → Flags) : M Unit := do
  if hitSr then
    let fl ← drawFlags
    upd fun s => { s with flags := fl }
  else upd fun s => { s with flags := f s.flags }

/-- The flags of a single-bit shift: C, N, Z from the shift, OV `any` (R206, U14). -/
def shiftFlags (byte : Bool) (r : ShiftResult) (ov : Bool) (fl : Flags) : Flags :=
  { fl.withNZ byte r.value with c := r.carry, ov := ov }

/-- The flags of `SE` and `ZE` (R186, R187): C is the complement of N. -/
def extendFlags (r : Word) (fl : Flags) : Flags :=
  { fl.withNZ false r with c := !msb false r }

end Sys2Proof.Machine
end

