-- ==== Sys2Proof/Machine/Alu.lean ====
section
/-! DEFINITION. Alu.lean: the meanings of `ADD`, the shifts and the bit instructions (41_alu_mul_div.md R203 to R214). -/

namespace Sys2Proof.Machine

/-! ADD. -/

/-- `ADD{.B} Wb, Ws, Wd` (R203). -/
def execAddReg (byte : Bool) (wb : Reg) (src dst : Operand) (s : State) : Host.Outcome State Fault Refusal :=
  runInstr (do
    let a ← ask fun s => s.regSource byte wb
    let b ← readOp byte 0#4 src
    let hit ← writeOp byte 0#4 dst (addResult byte a b)
    writeFlags hit fun _ => addFlags byte a b
    advance 1) s

/-- `ADD{.B} Wb, #lit5, Wd` (R203). -/
def execAddLit5 (byte : Bool) (wb : Reg) (lit : BitVec 5) (dst : Operand) (s : State) :
    Host.Outcome State Fault Refusal :=
  runInstr (do
    let a ← ask fun s => s.regSource byte wb
    let b : Word := lit.zeroExtend 16
    let hit ← writeOp byte 0#4 dst (addResult byte a b)
    writeFlags hit fun _ => addFlags byte a b
    advance 1) s

/-- `ADD{.B} f {,WREG}` (R204). -/
def execAddFile (byte toFile : Bool) (f13 : BitVec 13) (s : State) : Host.Outcome State Fault Refusal :=
  runInstr (do
    let a ← readFile byte (nearAddr f13)
    let b ← ask fun s => s.regSource byte 0#4
    let hit ← writeFileOrWreg byte toFile (nearAddr f13) (addResult byte a b)
    writeFlags hit fun _ => addFlags byte a b
    advance 1) s

/-- `ADD{.B} #lit10, Wn` (R205); in byte mode the literal's low eight bits (R160). -/
def execAddLit10 (byte : Bool) (lit : BitVec 10) (wn : Reg) (s : State) : Host.Outcome State Fault Refusal :=
  runInstr (do
    let a ← ask fun s => s.regSource byte wn
    let b : Word := if byte then lowByte (lit.zeroExtend 16) else lit.zeroExtend 16
    upd fun s => s.regDest byte wn (addResult byte a b)
    writeFlags false fun _ => addFlags byte a b
    advance 1) s

/-! Single-bit shifts. -/

/-- A single-bit shift of a file register (R206 to R208): OV is `any` (U14). -/
def shiftFile (byte toFile : Bool) (f13 : BitVec 13) (f : Word → ShiftResult) : M Unit := do
  let v ← readFile byte (nearAddr f13)
  let r := f v
  let hit ← writeFileOrWreg byte toFile (nearAddr f13) r.value
  let ov ← drawBit
  writeFlags hit (shiftFlags byte r ov)
  advance 1

/-- A single-bit shift of a register operand (R206 to R208): OV is `any` (U14). -/
def shiftReg (byte : Bool) (src dst : Operand) (f : Word → ShiftResult) : M Unit := do
  let v ← readOp byte 0#4 src
  let r := f v
  let hit ← writeOp byte 0#4 dst r.value
  let ov ← drawBit
  writeFlags hit (shiftFlags byte r ov)
  advance 1

/-- `SL{.B} f {,WREG}` (R206). -/
def execSlFile (byte toFile : Bool) (f13 : BitVec 13) (s : State) : Host.Outcome State Fault Refusal :=
  runInstr (shiftFile byte toFile f13 (shiftLeft1 byte)) s

/-- `SL{.B} Ws, Wd` (R206). -/
def execSlReg (byte : Bool) (src dst : Operand) (s : State) : Host.Outcome State Fault Refusal :=
  runInstr (shiftReg byte src dst (shiftLeft1 byte)) s

/-- `LSR{.B} f {,WREG}` (R207). -/
def execLsrFile (byte toFile : Bool) (f13 : BitVec 13) (s : State) : Host.Outcome State Fault Refusal :=
  runInstr (shiftFile byte toFile f13 shiftRight1) s

/-- `LSR{.B} Ws, Wd` (R207). -/
def execLsrReg (byte : Bool) (src dst : Operand) (s : State) : Host.Outcome State Fault Refusal :=
  runInstr (shiftReg byte src dst shiftRight1) s

/-- `ASR{.B} f {,WREG}` (R208). -/
def execAsrFile (byte toFile : Bool) (f13 : BitVec 13) (s : State) : Host.Outcome State Fault Refusal :=
  runInstr (shiftFile byte toFile f13 (shiftArith1 byte)) s

/-- `ASR{.B} Ws, Wd` (R208). -/
def execAsrReg (byte : Bool) (src dst : Operand) (s : State) : Host.Outcome State Fault Refusal :=
  runInstr (shiftReg byte src dst (shiftArith1 byte)) s

/-! Multi-bit shifts: registers only, word mode, N and Z (R209 to R211). -/

/-- A multi-bit shift by a count read from the state. -/
def shiftMulti (wb wd : Reg) (count : State → Nat) (f : Word → Nat → Word) : M Unit := do
  let v ← ask fun s => s.wreg wb
  let n ← ask count
  let r := f v n
  upd fun s => s.setWreg wd r
  writeFlags false fun fl => fl.withNZ false r
  advance 1

/-- Left shift; counts above 15 give 0 (R209). -/
def shiftLeftN (v : Word) (n : Nat) : Word := v <<< n

/-- Logical right shift; counts above 15 give 0 (R210). -/
def shiftRightN (v : Word) (n : Nat) : Word := v >>> n

/-- Arithmetic right shift; counts above 15 give the sign in every bit (R211). -/
def shiftArithN (v : Word) (n : Nat) : Word := v.sshiftRight n

/-- The count of a shift by register: `W[ns][4:0]` (R209). -/
def State.shiftCount (s : State) (wns : Reg) : Nat := ((s.wreg wns).extractLsb' 0 5).toNat

/-- `SL Wb, #lit4, Wnd` (R209). -/
def execSlLit4 (wb : Reg) (lit : BitVec 4) (wd : Reg) (s : State) : Host.Outcome State Fault Refusal :=
  runInstr (shiftMulti wb wd (fun _ => lit.toNat) shiftLeftN) s

/-- `SL Wb, Wns, Wnd` (R209). -/
def execSlW (wb wns wd : Reg) (s : State) : Host.Outcome State Fault Refusal :=
  runInstr (shiftMulti wb wd (fun s => s.shiftCount wns) shiftLeftN) s

/-- `LSR Wb, #lit4, Wnd` (R210). -/
def execLsrLit4 (wb : Reg) (lit : BitVec 4) (wd : Reg) (s : State) : Host.Outcome State Fault Refusal :=
  runInstr (shiftMulti wb wd (fun _ => lit.toNat) shiftRightN) s

/-- `LSR Wb, Wns, Wnd` (R210). -/
def execLsrW (wb wns wd : Reg) (s : State) : Host.Outcome State Fault Refusal :=
  runInstr (shiftMulti wb wd (fun s => s.shiftCount wns) shiftRightN) s

/-- `ASR Wb, #lit4, Wnd` (R211). -/
def execAsrLit4 (wb : Reg) (lit : BitVec 4) (wd : Reg) (s : State) : Host.Outcome State Fault Refusal :=
  runInstr (shiftMulti wb wd (fun _ => lit.toNat) shiftArithN) s

/-- `ASR Wb, Wns, Wnd` (R211). -/
def execAsrW (wb wns wd : Reg) (s : State) : Host.Outcome State Fault Refusal :=
  runInstr (shiftMulti wb wd (fun s => s.shiftCount wns) shiftArithN) s

/-! Bit instructions. -/

/-- The word with bit `bit` set (R213). -/
def setBit (v : Word) (bit : BitVec 4) : Word := v ||| (1#16 <<< bit.toNat)

/-- The location of a bit instruction is the byte of SR that holds SA, SB and SAB (R422): the byte at the odd address of
SR, or in word mode bits 15:8 of the word at its address. -/
def bitInSrh (dev : Device) (byte : Bool) (ea : Word) (bit : BitVec 4) : Bool :=
  hitsSr dev byte ea && if byte then ea.getLsbD 0 else decide (8 ≤ bit.toNat)

/-- The write race of a bit instruction on that byte: SA and SB become `any` (R422, U12). -/
def bitRace (byte : Bool) (ea : Word) (bit : BitVec 4) : M Unit := do
  if ← ask fun s => bitInSrh s.dev byte ea bit && s.dev.hasDsp then drawSat

/-- Set a bit of a memory location: one read, one write, then the race (R213, R422). -/
def bsetMem (byte : Bool) (via : Via) (ea : Word) (bit : BitVec 4) : M Unit := do
  let v ← memRead via ea byte
  memWrite via ea byte (setBit v bit)
  bitRace byte ea bit

/-- `BSET{.B} f, #bit4` (R213). -/
def execBsetFile (byte : Bool) (f13 : BitVec 13) (bit : BitVec 4) (s : State) : Host.Outcome State Fault Refusal :=
  runInstr (do
    bsetMem byte .paged (nearAddr f13) bit
    advance 1) s

/-- The skip of R300: pass over one program word, or go to the next. -/
def skipIf (cond : Bool) : M Unit := if cond then advance 2 else advance 1

/-- `BTSC{.B} f, #bit4` (R214). -/
def execBtscFile (byte : Bool) (f13 : BitVec 13) (bit : BitVec 4) (s : State) : Host.Outcome State Fault Refusal :=
  runInstr (do
    let v ← readFile byte (nearAddr f13)
    skipIf (!v.getLsbD bit.toNat)) s

/-- `BSET{.B} Ws, #bit4` (R213). The location is read and written at one effective address. -/
def execBsetReg (byte : Bool) (bit : BitVec 4) (ws : Operand) (s : State) : Host.Outcome State Fault Refusal :=
  runInstr (do
    if ws.mode = .direct then
      upd fun s => s.regDest byte ws.reg (setBit (s.regSource byte ws.reg) bit)
    else withEA ws 0#4 (stepOf byte) true fun via ea => bsetMem byte via ea bit
    advance 1) s

/-- `BTSC Ws, #bit4` (R214), word mode. -/
def execBtscReg (bit : BitVec 4) (ws : Operand) (s : State) : Host.Outcome State Fault Refusal :=
  runInstr (do
    let v ← readOp false 0#4 ws
    skipIf (!v.getLsbD bit.toNat)) s

end Sys2Proof.Machine
end

