-- ==== Sys2Proof/Machine/MulDiv.lean ====
section
/-! DEFINITION. MulDiv.lean: the meanings of the MCU multiplies and the divides (41_alu_mul_div.md R215 to R231). -/

namespace Sys2Proof.Machine

/-! Multiplies. -/

/-- A factor as an integer, signed or unsigned (R215). -/
def factor (signed : Bool) (v : Word) : Int := if signed then v.toInt else (v.toNat : Int)

/-- Whether the first factor is signed. -/
def firstSigned : Signs → Bool
  | .ss | .su => true
  | .us | .uu => false

/-- Whether the second factor is signed. -/
def secondSigned : Signs → Bool
  | .ss | .us => true
  | .su | .uu => false

/-- The exact integer product of two words (R215). -/
def product (signs : Signs) (a b : Word) : Int :=
  factor (firstSigned signs) a * factor (secondSigned signs) b

/-- The 32-bit product to the pair Wnd (low word) and Wnd+1 (high word) (R216). -/
def State.setPair (s : State) (wd : Reg) (p : BitVec 32) : State :=
  (s.setWreg wd (p.extractLsb' 0 16)).setWreg (wd + 1#4) (p.extractLsb' 16 16)

/-- A 16 by 16 multiply of Wb and an operand into a register pair (R216 to R219). -/
def mulToPair (signs : Signs) (wb : Reg) (src : Operand) (wd : Reg) : M Unit := do
  let a ← ask fun s => s.wreg wb
  let b ← readOp false 0#4 src
  upd fun s => s.setPair wd (BitVec.ofInt 32 (product signs a b))
  advance 1

/-- A multiply of Wb and a five-bit unsigned literal into a register pair (R217, R219). -/
def mulLitToPair (signs : Signs) (wb : Reg) (lit : BitVec 5) (wd : Reg) : M Unit := do
  let a ← ask fun s => s.wreg wb
  upd fun s => s.setPair wd (BitVec.ofInt 32 (product signs a (lit.zeroExtend 16)))
  advance 1

/-- A multiply that keeps the low 16 bits in one register (R221). -/
def mulToWord (signs : Signs) (wb : Reg) (src : Operand) (wd : Reg) : M Unit := do
  let a ← ask fun s => s.wreg wb
  let b ← readOp false 0#4 src
  upd fun s => s.setWreg wd (BitVec.ofInt 16 (product signs a b))
  advance 1

/-- `MUL.UU Wb, Ws, Wnd` (R219). -/
def execMulUU (wb : Reg) (src : Operand) (wd : Reg) (s : State) : Host.Outcome State Fault Refusal :=
  runInstr (mulToPair .uu wb src wd) s

/-- `MUL.UU Wb, #lit5, Wnd` (R219). -/
def execMulUULit5 (wb : Reg) (lit : BitVec 5) (wd : Reg) (s : State) : Host.Outcome State Fault Refusal :=
  runInstr (mulLitToPair .uu wb lit wd) s

/-- `MUL.US Wb, Ws, Wnd` (R218). -/
def execMulUS (wb : Reg) (src : Operand) (wd : Reg) (s : State) : Host.Outcome State Fault Refusal :=
  runInstr (mulToPair .us wb src wd) s

/-- `MUL.SU Wb, Ws, Wnd` (R217). -/
def execMulSU (wb : Reg) (src : Operand) (wd : Reg) (s : State) : Host.Outcome State Fault Refusal :=
  runInstr (mulToPair .su wb src wd) s

/-- `MUL.SU Wb, #lit5, Wnd` (R217). -/
def execMulSULit5 (wb : Reg) (lit : BitVec 5) (wd : Reg) (s : State) : Host.Outcome State Fault Refusal :=
  runInstr (mulLitToPair .su wb lit wd) s

/-- `MUL.SS Wb, Ws, Wnd` (R216). -/
def execMulSS (wb : Reg) (src : Operand) (wd : Reg) (s : State) : Host.Outcome State Fault Refusal :=
  runInstr (mulToPair .ss wb src wd) s

/-- `MUL{.B} f` (R220): unsigned; W3:W2 in word mode, W2 in byte mode. -/
def execMulFile (byte : Bool) (f13 : BitVec 13) (s : State) : Host.Outcome State Fault Refusal :=
  runInstr (do
    let a ← ask fun s => s.regSource byte 0#4
    let b ← readFile byte (nearAddr f13)
    let p := BitVec.ofInt 32 (product .uu a b)
    upd fun s => if byte then s.setWreg 2#4 (p.extractLsb' 0 16) else s.setPair 2#4 p
    advance 1) s

/-- `MULW.SS Wb, Ws, Wnd` (R221). -/
def execMulwSS (wb : Reg) (src : Operand) (wd : Reg) (s : State) : Host.Outcome State Fault Refusal :=
  runInstr (mulToWord .ss wb src wd) s

/-- `MULW.SU Wb, Ws, Wnd` (R221). -/
def execMulwSU (wb : Reg) (src : Operand) (wd : Reg) (s : State) : Host.Outcome State Fault Refusal :=
  runInstr (mulToWord .su wb src wd) s

/-- `MULW.US Wb, Ws, Wnd` (R221). -/
def execMulwUS (wb : Reg) (src : Operand) (wd : Reg) (s : State) : Host.Outcome State Fault Refusal :=
  runInstr (mulToWord .us wb src wd) s

/-- `MULW.UU Wb, Ws, Wnd` (R221). -/
def execMulwUU (wb : Reg) (src : Operand) (wd : Reg) (s : State) : Host.Outcome State Fault Refusal :=
  runInstr (mulToWord .uu wb src wd) s

/-- The second factor of a multiply into an accumulator (R222). -/
def readMulSrc : MulSrc → M Word
  | .op src => readOp false 0#4 src
  | .lit5 k => pure (k.zeroExtend 16)

/-- The status bits of accumulator x become `any` (R222, U15). -/
def drawAccStatus (x : AccId) : M Unit := do
  let o ← drawBit
  let t ← drawBit
  upd fun s => match x with
    | .a => s.setDsp { s.dspCur with oa := o, sa := t }
    | .b => s.setDsp { s.dspCur with ob := o, sb := t }

/-- `MUL.xx Wb, Ws, Acc` (R222): the product, sign- or zero-extended to 40 bits, not saturated. -/
def execMulAcc (signs : Signs) (wb : Reg) (src : MulSrc) (acc : AccId) (s : State) :
    Host.Outcome State Fault Refusal :=
  runInstr (do
    requireDsp
    let a ← ask fun s => s.wreg wb
    let b ← readMulSrc src
    upd fun s => s.setAcc acc (BitVec.ofInt 40 (product signs a b))
    drawAccStatus acc
    advance 1) s

/-! Divides. -/

/-- The result of a division of integers whose divisor is not 0: quotient truncated toward zero, remainder with the
sign of the dividend; an overflow when the quotient is outside `lo` to `hi` (R225 to R230). -/
def divResult (n d lo hi : Int) : DivResult :=
  let q := n.tdiv d
  let r := n - q * d
  if q < lo ∨ hi < q then .overflow
  else .value (BitVec.ofInt 16 q) (BitVec.ofInt 16 r) (decide (r < 0)) (decide (r = 0))

/-- A signed division with a 16-bit quotient. -/
def divSigned (n d : Int) : DivResult := divResult n d (-32768) 32767

/-- An unsigned division with a 16-bit quotient. -/
def divUnsigned (n d : Int) : DivResult := divResult n d 0 65535

/-- The 32-bit dividend of a register pair (R226, R229). -/
def State.dividend (s : State) (hi lo : Reg) : BitVec 32 := s.wreg hi ++ s.wreg lo

/-- W0, W1, N, OV, Z and C become `any` (R228). -/
def drawDivide : M Unit := do
  let w0 ← drawBits 16
  let w1 ← drawBits 16
  let fl ← drawFlags
  upd fun s => { (s.setWreg 0#4 w0).setWreg 1#4 w1 with
    flags := { s.flags with n := fl.n, ov := fl.ov, z := fl.z, c := fl.c } }

/-- The last execution of a divide: W0, W1 and the flags from the result; what the result does not give, and C, is
`any` (R225 to R230). -/
def writeDivide (r : DivResult) : M Unit := do
  drawDivide
  match r with
  | .value q rem n z => upd fun s => { (s.setWreg 0#4 q).setWreg 1#4 rem with
      flags := { s.flags with n := n, z := z, ov := false } }
  | .overflow => upd fun s => { s with flags := { s.flags with ov := true } }
  | .unknown => pure ()

/-- A divide that another one interrupts loses its result (R228, R426, U8). -/
def DivRun.spoiled (r : DivRun) : DivRun := { r with result := .unknown }

/-- A divide that starts now finds another one: one that the handlers running interrupted (U8), or one that was left
unfinished and holds `div_state` (R228). -/
def State.divBlocked (s : State) : Bool :=
  s.nest.any Suspended.divides || s.div.any fun r => r.result != .unknown

/-- The result a divide executed under REPEAT delivers with its last execution: the one found at its first execution,
which is well-formed with RCOUNT = 17 and no other divide in progress (R228). -/
def State.divFinal (s : State) (result : DivResult) : DivResult :=
  match s.divNow with
  | some r => r.result
  | none => if s.repeatNew = true ∧ s.rcount = 17#16 ∧ s.divBlocked = false then result else .unknown

/-- `div_state` after an execution under REPEAT of a divide that is to deliver `final` (R228). There is one: a divide that
starts takes the place of another, whose executions then find none and deliver `any`. -/
def State.divAfter (s : State) (final : DivResult) : Option DivRun :=
  if s.rcount = 0#16 then none else some { at_ := s.pc, remaining := s.rcount.toNat, result := final }

/-- One execution, under REPEAT, of a divide that is to deliver `final`: the last one delivers it, the others `any`
(R228). -/
def divideStep (final : DivResult) : M Unit := do
  let last ← ask fun s => s.rcount == 0#16
  upd fun s => { s with div := s.divAfter final }
  writeDivide (if last then final else .unknown)

/-- A divide executed with SR.RA = 0: its result is `any`, and so is that of the divide it interrupts (R228, R426). -/
def divideOnce : M Unit := do
  upd fun s => { s with div := s.div.map DivRun.spoiled }
  drawDivide

/-- One execution of a divide that delivers `final` if it is executed as R228 asks. -/
def divideRun (final : State → DivResult) : M Unit := do
  if ← ask State.ra then divideStep (← ask final) else divideOnce

/-- One execution of a divide. A divisor of 0 sets DIV0ERR, raises the math error trap and leaves no result (R231). A
divisor held in W0 or W1 is overwritten as the division proceeds: the result is then `any` (R224). -/
def divide (wn : Reg) (result : State → DivResult) : M Unit := do
  if (← ask fun s => s.wreg wn) = 0#16 then
    raiseDiv0
    divideRun fun _ => .unknown
  else divideRun fun s => s.divFinal (if wn = 0#4 ∨ wn = 1#4 then .unknown else result s)
  advance 1

/-- `DIV.SW Wm, Wn` (R225, R228). -/
def execDivSW (wm wn : Reg) (s : State) : Host.Outcome State Fault Refusal :=
  runInstr (divide wn fun s => divSigned (s.wreg wm).toInt (s.wreg wn).toInt) s

/-- `DIV.SD Wm, Wn` (R226, R228). -/
def execDivSD (hi wm wn : Reg) (s : State) : Host.Outcome State Fault Refusal :=
  runInstr (divide wn fun s => divSigned (s.dividend hi wm).toInt (s.wreg wn).toInt) s

/-- `DIV.UW Wm, Wn` (R227, R228). -/
def execDivUW (wm wn : Reg) (s : State) : Host.Outcome State Fault Refusal :=
  runInstr (divide wn fun s => divUnsigned (s.wreg wm).toNat (s.wreg wn).toNat) s

/-- `DIV.UD Wm, Wn` (R229, R228). -/
def execDivUD (hi wm wn : Reg) (s : State) : Host.Outcome State Fault Refusal :=
  runInstr (divide wn fun s => divUnsigned (s.dividend hi wm).toNat (s.wreg wn).toNat) s

/-- `DIVF Wm, Wn` (R230, R228). -/
def execDivF (wm wn : Reg) (s : State) : Host.Outcome State Fault Refusal :=
  runInstr (do
    if ← ask fun s => s.dev.hasDivf then
      divide wn fun s => divSigned ((s.wreg wm).toInt * 32768) (s.wreg wn).toInt
    else refuse .noDivf) s

end Sys2Proof.Machine
end

