-- ==== Sys2Proof/Machine/Dsp.lean ====
section
/-! DEFINITION. Dsp.lean: the DSP engine: multiplier, accumulator update with saturation and overflow, rounding, write
saturation, shifter, prefetch and write-back (42_dsp.md R240 to R256). -/

namespace Sys2Proof.Machine

/-- The working register of a two-bit field: W4 to W7. -/
def dspReg (k : BitVec 2) : Reg := 0b01#2 ++ k

/-- The two registers of a multiply (R246). -/
def pairRegs : MulPair → Reg × Reg
  | .w4w5 => (4#4, 5#4)
  | .w4w6 => (4#4, 6#4)
  | .w4w7 => (4#4, 7#4)
  | .w5w6 => (5#4, 6#4)
  | .w5w7 => (5#4, 7#4)
  | .w6w7 => (6#4, 7#4)

/-- `opval(n)`: a multiplier operand as an integer under US (R242); none under the reserved mode 11. -/
def State.opval (s : State) (r : Reg) : Option Int :=
  let us := s.dspCur.us
  if us = 0#2 then some (factor true (s.wreg r))
  else if us = 1#2 then some (factor false (s.wreg r))
  else if us = 2#2 then some (factor (r.getLsbD 0) (s.wreg r))
  else none

/-- `prod(m, n)` (R243): doubled in fractional mode. -/
def State.prod (s : State) (m n : Reg) : Option Int :=
  match s.opval m, s.opval n with
  | some a, some b => some (if s.dspCur.intMode then a * b else 2 * (a * b))
  | _, _ => none

/-- The product, or a refusal under the reserved multiplier mode (R52). -/
def multiply (m n : Reg) : M Int := do
  match ← ask fun s => s.prod m n with
  | some p => pure p
  | none => refuse .reservedMultiplierMode

/-- What an accumulator update stores and reports (R247). -/
structure AccOut where
  value : Acc40
  /-- saturated, or with saturation off the sign was lost -/
  s : Bool
  /-- overflowed into the guard bits -/
  o : Bool
  deriving DecidableEq, Repr

/-- Bits 39:31 are not all equal (R247, R250). -/
def guardInUse (v : Acc40) : Bool := v.extractLsb' 31 9 != 0#9 && v.extractLsb' 31 9 != BitVec.allOnes 9

/-- The 40-bit adder's saturation block (R247 to R249). `sat` is SATx, `wide` is ACCSAT. -/
def accResult (sat wide : Bool) (r : Int) : AccOut :=
  if sat && wide then
    let v : AccOut :=
      if 2 ^ 39 - 1 < r then { value := 0x7FFFFFFFFF#40, s := true, o := false }
      else if r < -(2 ^ 39) then { value := 0x8000000000#40, s := true, o := false }
      else { value := BitVec.ofInt 40 r, s := false, o := false }
    { v with o := guardInUse v.value }
  else if sat then
    if 2 ^ 31 - 1 < r then { value := 0x007FFFFFFF#40, s := true, o := false }
    else if r < -(2 ^ 31) then { value := 0xFF80000000#40, s := true, o := false }
    else { value := BitVec.ofInt 40 r, s := false, o := false }
  else
    { value := BitVec.ofInt 40 r, s := decide (2 ^ 39 - 1 < r) || decide (r < -(2 ^ 39)),
      o := guardInUse (BitVec.ofInt 40 r) }

/-- SATx. -/
def State.satOf (s : State) : AccId → Bool
  | .a => s.dspCur.sata
  | .b => s.dspCur.satb

/-- The accumulator and its status bits after an update (R247, R250, R251): O written, S only set. -/
def State.storeAcc (s : State) (x : AccId) (out : AccOut) : State :=
  match x with
  | .a => s.setDsp { s.dspCur with acca := out.value, oa := out.o, sa := s.dspCur.sa || out.s }
  | .b => s.setDsp { s.dspCur with accb := out.value, ob := out.o, sb := s.dspCur.sb || out.s }

/-- The traps of an update (R365): the error bits with their enabled traps; all enter as one MathError. -/
def State.accTraps (s : State) (x : AccId) (sat : Bool) (out : AccOut) : State :=
  let i := s.intcon
  let ovf := out.o && (match x with | .a => i.ovate | .b => i.ovbte)
  let cat := !sat && out.s && i.covte
  let i := match x with
    | .a => { i with ovaerr := i.ovaerr || ovf, covaerr := i.covaerr || cat }
    | .b => { i with ovberr := i.ovberr || ovf, covberr := i.covberr || cat }
  let s := { s with intcon := i }
  if ovf || cat then s.addPending .mathError else s

/-- The state after `AccUpdate(x, r)` (R247). -/
def State.accUpdated (s : State) (x : AccId) (r : Int) : State :=
  let sat := s.satOf x
  let out := accResult sat s.dspCur.accsat r
  (s.storeAcc x out).accTraps x sat out

/-- `AccUpdate(x, r)` (R247). -/
def accUpdate (x : AccId) (r : Int) : M Unit := upd fun s => s.accUpdated x r

/-- The other accumulator. -/
def otherAcc : AccId → AccId
  | .a => .b
  | .b => .a

/-- `Trunc(v)`: bits 39:16 as an integer (R253). -/
def truncAcc (v : Acc40) : Int := v.toInt / 2 ^ 16

/-- `Round(v)`: conventional when RND = 1, convergent when RND = 0 (R253). -/
def roundAcc (conventional : Bool) (v : Acc40) : Int :=
  let lsw := (v.extractLsb' 0 16).toNat
  let inc := if conventional then decide (0x8000 ≤ lsw)
    else decide (0x8000 < lsw) || (decide (lsw = 0x8000) && v.getLsbD 16)
  truncAcc v + (if inc then 1 else 0)

/-- Data space write saturation (R254). -/
def saturateWrite (satdw : Bool) (u : Int) : Word :=
  if satdw && decide (0x7FFF < u) then 0x7FFF#16
  else if satdw && decide (u < -0x8000) then 0x8000#16
  else BitVec.ofInt 16 u

/-- `ShiftExact(v, n)` as an integer: right for a positive count, left for a negative one (R256). -/
def shiftExact (v : Int) (n : Int) : Int := if 0 ≤ n then v / 2 ^ n.toNat else v * 2 ^ (-n).toNat

/-- `StoreValue(v, shift, rounded)` (R254, R256). -/
def State.storeValue (s : State) (v : Acc40) (shift : Int) (rounded : Bool) : Word :=
  let t : Acc40 := BitVec.ofInt 40 (shiftExact v.toInt shift)
  saturateWrite s.dspCur.satdw (if rounded then roundAcc s.dspCur.rnd t else truncAcc t)

/-- The pointer update of a prefetch, modulo 2^16 (R246). -/
def pfAmount : PfStep → Word
  | .none => 0#16
  | .plus2 => 2#16
  | .plus4 => 4#16
  | .plus6 => 6#16
  | .minus6 => 0#16 - 6#16
  | .minus4 => 0#16 - 4#16
  | .minus2 => 0#16 - 2#16

/-- The pointer register of a prefetch: W8 or W9 in X space, W10 or W11 in Y space (R246). -/
def pfReg (ySpace : Bool) : PfAddr → Reg
  | .pointer second _ =>
    if ySpace then (if second then 11#4 else 10#4) else (if second then 9#4 else 8#4)
  | .offset => if ySpace then 11#4 else 9#4

/-- The prefetch address as an operand: indirect, or offset by W12 (R246). -/
def pfOperand (ySpace : Bool) (a : PfAddr) : Operand :=
  { mode := (match a with | .pointer _ _ => Mode.indirect | .offset => Mode.offset), reg := pfReg ySpace a }

/-- A data address lies in Y space: at or above `XY_BOUNDARY` in the base data space, not seen through a page (R137; log
entry 15). -/
def State.inYSpace (s : State) (ea : Word) : Bool :=
  decide (s.dev.xyBoundary ≤ ea.toNat) && !(ea.getLsbD 15 && s.dsrpag != 1#10)

/-- Read one prefetched word; from the wrong space it is `any` (R137, U2). The spec does not say whether a prefetch from
the wrong space at an address whose read is refused (a register address the map does not assign, R114, U23) delivers
`any` or is refused; here the read comes first, and the prefetch is refused (DESIGN CHOICE, safe, log entry 52). -/
def prefetchRead (ySpace : Bool) (via : Via) (ea : Word) : M Word := do
  let v ← memRead via ea false
  if (← ask fun s => s.inYSpace ea) = ySpace then pure v else drawBits 16

/-- The pointer after a prefetch (R246). -/
def State.pfAdvance (s : State) (ySpace : Bool) (a : PfAddr) : State :=
  match a with
  | .pointer _ .none => s
  | .pointer _ step => s.setWreg (pfReg ySpace a) (s.wreg (pfReg ySpace a) + pfAmount step)
  | .offset => s

/-- The word at a prefetch address (R246): the checks, the read. -/
def prefetchWord (ySpace : Bool) (a : PfAddr) : M Word :=
  withEA (pfOperand ySpace a) 12#4 2#16 true (prefetchRead ySpace)

/-- `Prefetch(X or Y)` (R246): the read into its register, then the pointer update. -/
def prefetch (ySpace : Bool) : Prefetch → M Unit
  | .off => pure ()
  | .on a dest => do
    let v ← prefetchWord ySpace a
    upd fun s => s.setWreg (dspReg dest) v
    upd fun s => s.pfAdvance ySpace a

/-- `WriteBack(AWB)` of the accumulator that is not the target (R255). -/
def writeBack (x : AccId) : Awb → M Unit
  | .none => pure ()
  | .w13 => upd fun s => s.setWreg 13#4 (s.storeValue (s.acc (otherAcc x)) 0 true)
  | .indirect => do
    let d ← ask fun s => s.storeValue (s.acc (otherAcc x)) 0 true
    withEA { mode := .postInc, reg := 13#4 } 0#4 2#16 false fun via ea => memWrite via ea false d

/-- A 16-bit source placed in bits 31:16 of the adder's input and shifted (R266). -/
def accOperand (v : Word) (shift : BitVec 4) : Int := shiftExact (v.toInt * 2 ^ 16) shift.toInt

end Sys2Proof.Machine
end

