-- ==== Sys2Proof/Machine/DspInstr.lean ====
section
/-! DEFINITION. DspInstr.lean: the meanings of the DSP instructions (42_dsp.md R258 to R271). The steps of a multiply
come in the order of that file's section 4: product, accumulator update, X prefetch, Y prefetch, write-back. -/

namespace Sys2Proof.Machine

/-- A multiply-class instruction: `combine old product` is the value for the accumulator. -/
def mulClass (m n : Reg) (x : AccId) (combine : Int → Int → Int) (px py : Prefetch) (awb : Awb) : M Unit := do
  requireDsp
  let p ← multiply m n
  let old ← ask fun s => (s.acc x).toInt
  accUpdate x (combine old p)
  prefetch false px
  prefetch true py
  writeBack x awb
  advance 1

/-- `MAC Wm*Wn, Acc {,X} {,Y} {,AWB}` (R258). -/
def execMac (pair : MulPair) (acc : AccId) (x y : Prefetch) (awb : Awb) (s : State) :
    Host.Outcome State Fault Refusal :=
  runInstr (mulClass (pairRegs pair).1 (pairRegs pair).2 acc (fun old p => old + p) x y awb) s

/-- `MAC Wm*Wm, Acc {,X} {,Y}` (R259). -/
def execMacSq (wm : BitVec 2) (acc : AccId) (x y : Prefetch) (s : State) : Host.Outcome State Fault Refusal :=
  runInstr (mulClass (dspReg wm) (dspReg wm) acc (fun old p => old + p) x y .none) s

/-- `MSC Wm*Wn, Acc {,X} {,Y} {,AWB}` (R260). -/
def execMsc (pair : MulPair) (acc : AccId) (x y : Prefetch) (awb : Awb) (s : State) :
    Host.Outcome State Fault Refusal :=
  runInstr (mulClass (pairRegs pair).1 (pairRegs pair).2 acc (fun old p => old - p) x y awb) s

/-- `MPY Wm*Wn, Acc {,X} {,Y}` (R261). -/
def execMpy (pair : MulPair) (acc : AccId) (x y : Prefetch) (s : State) : Host.Outcome State Fault Refusal :=
  runInstr (mulClass (pairRegs pair).1 (pairRegs pair).2 acc (fun _ p => p) x y .none) s

/-- `MPY Wm*Wm, Acc {,X} {,Y}` (R261). -/
def execMpySq (wm : BitVec 2) (acc : AccId) (x y : Prefetch) (s : State) : Host.Outcome State Fault Refusal :=
  runInstr (mulClass (dspReg wm) (dspReg wm) acc (fun _ p => p) x y .none) s

/-- `MPY.N Wm*Wn, Acc {,X} {,Y}` (R262). -/
def execMpyN (pair : MulPair) (acc : AccId) (x y : Prefetch) (s : State) : Host.Outcome State Fault Refusal :=
  runInstr (mulClass (pairRegs pair).1 (pairRegs pair).2 acc (fun _ p => -p) x y .none) s

/-- A Euclidean distance instruction (R263, R264): square the held difference, then form the next difference from the
two prefetched words, with the pointer updates of R246. -/
def distance (wm : BitVec 2) (acc : AccId) (combine : Int → Int → Int) (x y : PfAddr) (xd : BitVec 2) : M Unit := do
  requireDsp
  let p ← multiply (dspReg wm) (dspReg wm)
  let old ← ask fun s => (s.acc acc).toInt
  accUpdate acc (combine old p)
  let a ← prefetchWord false x
  upd fun s => s.pfAdvance false x
  let b ← prefetchWord true y
  upd fun s => s.pfAdvance true y
  upd fun s => s.setWreg (dspReg xd) (a - b)
  advance 1

/-- `ED Wm*Wm, Acc, [Wx], [Wy], Wxd` (R263). -/
def execEd (wm : BitVec 2) (acc : AccId) (x y : PfAddr) (xd : BitVec 2) (s : State) :
    Host.Outcome State Fault Refusal :=
  runInstr (distance wm acc (fun _ p => p) x y xd) s

/-- `EDAC Wm*Wm, Acc, [Wx], [Wy], Wxd` (R264). -/
def execEdac (wm : BitVec 2) (acc : AccId) (x y : PfAddr) (xd : BitVec 2) (s : State) :
    Host.Outcome State Fault Refusal :=
  runInstr (distance wm acc (fun old p => old + p) x y xd) s

/-- `ADD Acc`: add the other accumulator (R265). -/
def execAddAcc (acc : AccId) (s : State) : Host.Outcome State Fault Refusal :=
  runInstr (do
    requireDsp
    let r ← ask fun s => (s.acc acc).toInt + (s.acc (otherAcc acc)).toInt
    accUpdate acc r
    advance 1) s

/-- `ADD Ws, {#Slit4,} Acc` (R266). -/
def execAddToAcc (wb : Reg) (src : Operand) (shift : BitVec 4) (acc : AccId) (s : State) :
    Host.Outcome State Fault Refusal :=
  runInstr (do
    requireDsp
    let v ← readOp false wb src
    let old ← ask fun s => (s.acc acc).toInt
    accUpdate acc (old + accOperand v shift)
    advance 1) s

/-- `LAC Ws, {#Slit4,} Acc` (R267). -/
def execLac (wb : Reg) (src : Operand) (shift : BitVec 4) (acc : AccId) (s : State) :
    Host.Outcome State Fault Refusal :=
  runInstr (do
    requireDsp
    let v ← readOp false wb src
    accUpdate acc (accOperand v shift)
    advance 1) s

/-- `SAC Acc, {#Slit4,} Wd` (R268). -/
def execSac (acc : AccId) (shift : BitVec 4) (wb : Reg) (dst : Operand) (s : State) :
    Host.Outcome State Fault Refusal :=
  runInstr (do
    requireDsp
    let v ← ask fun s => s.storeValue (s.acc acc) shift.toInt false
    let _ ← writeOp false wb dst v
    advance 1) s

/-- `SAC.R Acc, {#Slit4,} Wd` (R269). -/
def execSacR (acc : AccId) (shift : BitVec 4) (wb : Reg) (dst : Operand) (s : State) :
    Host.Outcome State Fault Refusal :=
  runInstr (do
    requireDsp
    let v ← ask fun s => s.storeValue (s.acc acc) shift.toInt true
    let _ ← writeOp false wb dst v
    advance 1) s

/-- Shift an accumulator by a signed count (R270): beyond 16 bits either way, the arithmetic error trap and no update. -/
def shiftAcc (acc : AccId) (n : Int) : M Unit := do
  if 16 < n ∨ n < -16 then raiseSftac
  else
    let v ← ask fun s => (s.acc acc).toInt
    accUpdate acc (shiftExact v n)

/-- `SFTAC Acc, #Slit6` (R270). -/
def execSftacLit (acc : AccId) (shift : BitVec 6) (s : State) : Host.Outcome State Fault Refusal :=
  runInstr (do
    requireDsp
    shiftAcc acc shift.toInt
    advance 1) s

/-- `SFTAC Acc, Wb` (R271): the whole register as a signed count. -/
def execSftacW (acc : AccId) (wb : Reg) (s : State) : Host.Outcome State Fault Refusal :=
  runInstr (do
    requireDsp
    let n ← ask fun s => (s.wreg wb).toInt
    shiftAcc acc n
    advance 1) s

end Sys2Proof.Machine
end

