-- ==== Sys2Proof/Machine/Flow.lean ====
section
/-! DEFINITION. Flow.lean: the meanings of the program flow instructions (43_control_flow.md). -/

namespace Sys2Proof.Machine

/-- The address after the current instruction of `n` words (R280). -/
def State.nextPc (s : State) (n : Nat) : ProgAddr := s.pc + BitVec.ofNat 23 (2 * n)

/-- `RelTarget(s)`: a signed word offset from the address after a one-word instruction (R283). -/
def State.relTarget (s : State) (off : Word) : ProgAddr := s.pc + 2#23 + (off.signExtend 23 <<< 1)

/-- `RegTarget(n)`: a 16-bit target, upper bits zero (R283). -/
def State.regTarget (s : State) (r : Reg) : ProgAddr := (s.wreg r).zeroExtend 23 &&& 0x7FFFFE#23

/-- `RegTargetLong(n)`: a 23-bit target from a register pair (R283). -/
def State.regTargetLong (s : State) (hi lo : Reg) : ProgAddr :=
  (s.wreg hi).extractLsb' 0 7 ++ (s.wreg lo).extractLsb' 1 15 ++ 0#1

/-- The 23-bit address of a target's bits 22:1 (R281). -/
def absTarget (t : BitVec 22) : ProgAddr := t ++ 0#1

/-- Whether a branch condition holds (R288). -/
def Flags.holds (fl : Flags) : Cond → Bool
  | .ov => fl.ov
  | .c => fl.c
  | .z => fl.z
  | .n => fl.n
  | .le => fl.z || (fl.n != fl.ov)
  | .lt => fl.n != fl.ov
  | .leu => !fl.c || fl.z
  | .nov => !fl.ov
  | .nc => !fl.c
  | .nz => !fl.z
  | .nn => !fl.n
  | .gt => !fl.z && (fl.n == fl.ov)
  | .ge => fl.n == fl.ov
  | .gtu => fl.c && !fl.z

/-- A relative branch taken or not (R288). -/
def branchIf (taken : Bool) (off : Word) : M Unit := do
  if taken then jump (← ask fun s => s.relTarget off) else advance 1

/-- A branch on an accumulator status bit (R287); it needs the DSP engine. -/
def branchAcc (bit : DspCtx → Bool) (off : Word) : M Unit := do
  requireDsp
  branchIf (← ask fun s => bit s.dspCur) off

/-- `NOP` (R299). -/
def execNop (s : State) : Host.Outcome State Fault Refusal := runInstr (advance 1) s

/-- `NOPR` (R299). -/
def execNopr (s : State) : Host.Outcome State Fault Refusal := runInstr (advance 1) s

/-- `BRA Expr` (R285). -/
def execBra (off : BitVec 16) (s : State) : Host.Outcome State Fault Refusal := runInstr (branchIf true off) s

/-- `BRA cond, Expr` (R288). -/
def execBraCond (cond : Cond) (off : BitVec 16) (s : State) : Host.Outcome State Fault Refusal :=
  runInstr (do
    branchIf (← ask fun s => s.flags.holds cond) off) s

/-- `BRA OA, Expr` (R287). -/
def execBraOA (off : BitVec 16) (s : State) : Host.Outcome State Fault Refusal := runInstr (branchAcc DspCtx.oa off) s

/-- `BRA OB, Expr` (R287). -/
def execBraOB (off : BitVec 16) (s : State) : Host.Outcome State Fault Refusal := runInstr (branchAcc DspCtx.ob off) s

/-- `BRA SA, Expr` (R287). -/
def execBraSA (off : BitVec 16) (s : State) : Host.Outcome State Fault Refusal := runInstr (branchAcc DspCtx.sa off) s

/-- `BRA SB, Expr` (R287). -/
def execBraSB (off : BitVec 16) (s : State) : Host.Outcome State Fault Refusal := runInstr (branchAcc DspCtx.sb off) s

/-- `BRA Wn` (R286). -/
def execBraW (wn : Reg) (s : State) : Host.Outcome State Fault Refusal :=
  runInstr (do
    jump (← ask fun s => s.relTarget (s.wreg wn))) s

/-- `GOTO Expr` (R281). -/
def execGoto (target : BitVec 22) (s : State) : Host.Outcome State Fault Refusal := runInstr (jump (absTarget target)) s

/-- `GOTO Wn` (R282). -/
def execGotoW (wn : Reg) (s : State) : Host.Outcome State Fault Refusal :=
  runInstr (do
    jump (← ask fun s => s.regTarget wn)) s

/-- `CALL Expr` (R290): two words, so the return address is pc + 4. -/
def execCall (target : BitVec 22) (s : State) : Host.Outcome State Fault Refusal :=
  runInstr (doCall (s.nextPc 2) (absTarget target)) s

/-- `CALL Wn` (R292). -/
def execCallW (wn : Reg) (s : State) : Host.Outcome State Fault Refusal :=
  runInstr (doCall (s.nextPc 1) (s.regTarget wn)) s

/-- `CALL.L Wn` (R293). -/
def execCallL (hi wn : Reg) (s : State) : Host.Outcome State Fault Refusal :=
  runInstr (doCall (s.nextPc 1) (s.regTargetLong hi wn)) s

/-- `RCALL Expr` (R294). -/
def execRcall (off : BitVec 16) (s : State) : Host.Outcome State Fault Refusal :=
  runInstr (doCall (s.nextPc 1) (s.relTarget off)) s

/-- `RCALL Wn` (R295). -/
def execRcallW (wn : Reg) (s : State) : Host.Outcome State Fault Refusal :=
  runInstr (doCall (s.nextPc 1) (s.relTarget (s.wreg wn))) s

/-- `RETURN` (R296). -/
def execRet (s : State) : Host.Outcome State Fault Refusal := runInstr subroutineReturn s

/-- `RETFIE` (R298, R385). -/
def execRetfie (s : State) : Host.Outcome State Fault Refusal := runInstr exceptionReturn s

/-- `RETLW{.B} #lit10, Wn` (R297). -/
def execRetlw (byte : Bool) (lit : BitVec 10) (wn : Reg) (s : State) : Host.Outcome State Fault Refusal :=
  runInstr (do
    upd fun s => s.regDest byte wn (lit.zeroExtend 16)
    subroutineReturn) s

/-- A "compare and skip" instruction (R300). The spec gives the class its skip mechanism and names no comparison, so
whether it skips is a free value (log entry 16). -/
def execCompareSkip (s : State) : Host.Outcome State Fault Refusal :=
  runInstr (do
    skipIf (← drawBit)) s

end Sys2Proof.Machine
end

