-- ==== Sys2Proof/Machine/Loops.lean ====
section
/-! DEFINITION. Loops.lean: `REPEAT` and `DO`, the restrictions on what they repeat, and what happens at the end of an
instruction because of them (44_loops.md). -/

namespace Sys2Proof.Machine

/-- `REPEAT` with a count (R311, R312); the loop has still to execute its target (log entry 29). -/
def repeatLoop (count : Word) : M Unit := do
  upd fun s => { s with rcount := count, ra := s.ra || count != 0#16, repeatNew := count != 0#16 }
  advance 1

/-- `REPEAT #lit15` (R311). -/
def execRepeatLit (lit : BitVec 15) (s : State) : Host.Outcome State Fault Refusal :=
  runInstr (repeatLoop (lit.zeroExtend 16)) s

/-- `REPEAT Wn` (R312). -/
def execRepeatW (wn : Reg) (s : State) : Host.Outcome State Fault Refusal :=
  runInstr (do
    repeatLoop (← ask fun s => s.wreg wn)) s

/-- The address of the first loop instruction (R319). -/
def State.doFirst (s : State) : ProgAddr := s.pc + 4#23

/-- The address of the last loop instruction (R319). -/
def State.doLast (s : State) (off : Word) : ProgAddr := s.doFirst + (off.signExtend 23 <<< 1)

/-- The three forbidden loop lengths 1, 0 and -1 (R329). -/
def State.badLoopLength (s : State) (off : Word) : Bool :=
  let last := s.doLast off
  last == s.doFirst || last == s.doFirst - 2#23 || last == s.doFirst - 4#23

/-- The current loop registers go to `dostack[DL]`; at DL = 0 to the null entry (R320). -/
def State.doSave (s : State) : State :=
  let e : DoEntry := { start := s.dostart, stop := s.doend, count := s.dcount }
  if s.dl = 0#3 then s
  else { s with dostack := s.dostack.setIfInBounds (s.dl.toNat - 1) e }

/-- The loop registers of a started `DO` loop (R320). -/
def State.doStart (s : State) (count : Word) (off : Word) : State :=
  { s.doSave with
    dl := s.dl + 1#3
    dostart := s.doFirst.extractLsb' 1 22
    doend := (s.doLast off).extractLsb' 1 22
    dcount := count }

/-- `DO` with a count (R320): at DL = 4 only DOOVR and the generic soft trap. DOEND may not be read by the next
instruction (R424). R320 gives the trap at DL = 4 and R329 the refusal of a forbidden length, not which comes first for
a `DO` with both; here the length is looked at first (DESIGN CHOICE, safe, log entry 46). -/
def doLoop (count : Word) (off : Word) : M Unit := do
  requireDsp
  if ← ask fun s => s.badLoopLength off then refuse .doLoopLength
  if (← ask State.dl) = 4#3 then raiseDoOverflow
  else upd fun s => s.doStart count off
  upd fun s => { s with hazNext := { s.hazNext with doend := true } }
  advance 2

/-- `DO #lit15, Expr` (R320). -/
def execDoLit (lit : BitVec 15) (off : BitVec 16) (s : State) : Host.Outcome State Fault Refusal :=
  runInstr (doLoop (lit.zeroExtend 16) off) s

/-- `DO Wn, Expr` (R320): all 16 bits of Wn. -/
def execDoW (wn : Reg) (off : BitVec 16) (s : State) : Host.Outcome State Fault Refusal :=
  runInstr (do
    doLoop (← ask fun s => s.wreg wn) off) s

/-- The forbidden `REPEAT` targets (R317): everything in 43_control_flow.md except `NOP`, and the others it lists. Whether
`NOPR` counts as that `NOP` is open (R299 calls it the second-word form of `NOP`); here it does, and may be repeated
(DESIGN CHOICE, unsafe, log entry 44). -/
def repeatForbidden : Instr → Bool
  | .bra _ | .braCond _ _ | .braOA _ | .braOB _ | .braSA _ | .braSB _ | .braW _ | .goto _ | .gotoW _ | .call _
  | .callW _ | .callL _ _ | .rcall _ | .rcallW _ | .ret | .retfie | .retlw _ _ _ | .compareSkip
  | .btscFile _ _ _ | .btscReg _ _ | .repeatLit _ | .repeatW _ | .doLit _ _ | .doW _ _
  | .disi _ | .ulnk | .lnk _ | .pwrsav _ | .reset | .movDLoad _ _ | .movDStore _ _ | .trap => true
  | .movReg .. | .movLit .. | .movFileToW .. | .movWToFile .. | .movWregToFile .. | .movFile .. | .pushFile ..
  | .popFile .. | .pushS | .popS | .se .. | .ze .. | .tblrdl .. | .tblrdh .. | .tblwtl .. | .tblwth .. | .addReg ..
  | .addLit5 .. | .addFile .. | .addLit10 .. | .slFile .. | .slReg .. | .slLit4 .. | .slW .. | .lsrFile .. | .lsrReg ..
  | .lsrLit4 .. | .lsrW .. | .asrFile .. | .asrReg .. | .asrLit4 .. | .asrW .. | .bsetFile .. | .bsetReg .. | .mulUU ..
  | .mulUULit5 .. | .mulUS .. | .mulSU .. | .mulSULit5 .. | .mulSS .. | .mulFile .. | .mulwSS .. | .mulwSU ..
  | .mulwUS .. | .mulwUU .. | .mulAcc .. | .divSW .. | .divSD .. | .divUW .. | .divUD .. | .divF .. | .nop | .nopr
  | .mac .. | .macSq .. | .msc .. | .mpy .. | .mpySq .. | .mpyN .. | .ed .. | .edac .. | .addAcc .. | .addToAcc ..
  | .lac .. | .sac .. | .sacR .. | .sftacLit .. | .sftacW .. | .ctxtswpLit .. | .ctxtswpW .. | .bootswp | .fex | .sstep
  | .urun => false

/-- The instructions forbidden as one of the last two of a `DO` loop (R328); the returns are allowed. R328 names "compare
and skip" among its examples of flow control and does not name `BTSC`, which R317 does; here `BTSC` is such an instruction
(DESIGN CHOICE, safe, log entry 45). -/
def doEndForbidden : Instr → Bool
  | .bra _ | .braCond _ _ | .braOA _ | .braOB _ | .braSA _ | .braSB _ | .braW _ | .goto _ | .gotoW _ | .call _
  | .callW _ | .callL _ _ | .rcall _ | .rcallW _ | .compareSkip | .btscFile _ _ _ | .btscReg _ _
  | .repeatLit _ | .repeatW _ | .doLit _ _ | .doW _ _ | .disi _ | .trap => true
  | .ret | .retfie | .retlw .. | .ulnk | .lnk .. | .pwrsav .. | .reset | .movDLoad .. | .movDStore ..
  | .movReg .. | .movLit .. | .movFileToW .. | .movWToFile .. | .movWregToFile .. | .movFile .. | .pushFile ..
  | .popFile .. | .pushS | .popS | .se .. | .ze .. | .tblrdl .. | .tblrdh .. | .tblwtl .. | .tblwth .. | .addReg ..
  | .addLit5 .. | .addFile .. | .addLit10 .. | .slFile .. | .slReg .. | .slLit4 .. | .slW .. | .lsrFile .. | .lsrReg ..
  | .lsrLit4 .. | .lsrW .. | .asrFile .. | .asrReg .. | .asrLit4 .. | .asrW .. | .bsetFile .. | .bsetReg .. | .mulUU ..
  | .mulUULit5 .. | .mulUS .. | .mulSU .. | .mulSULit5 .. | .mulSS .. | .mulFile .. | .mulwSS .. | .mulwSU ..
  | .mulwUS .. | .mulwUU .. | .mulAcc .. | .divSW .. | .divSD .. | .divUW .. | .divUD .. | .divF .. | .nop | .nopr
  | .mac .. | .macSq .. | .msc .. | .mpy .. | .mpySq .. | .mpyN .. | .ed .. | .edac .. | .addAcc .. | .addToAcc ..
  | .lac .. | .sac .. | .sacR .. | .sftacLit .. | .sftacW .. | .ctxtswpLit .. | .ctxtswpW .. | .bootswp | .fex | .sstep
  | .urun => false

/-- The instructions that always end with a flow change (R280): the unconditional branches, the calls and the returns. -/
def isJump (i : Instr) : Bool :=
  match i with
  | .bra _ | .braW _ | .goto _ | .gotoW _ | .call _ | .callW _ | .callL _ _ | .rcall _ | .rcallW _ | .ret | .retfie
  | .retlw _ _ _ => true
  | _ => false

/-- The instruction `i` that started in `s` and left `t` ended by sequential advance (R280, R322). -/
def endsSequentially (i : Instr) (s t : State) : Bool := !isJump i && t.pc == s.nextPc i.words

/-- `DISI` does not count itself (R344). -/
def isDisi (i : Instr) : Bool :=
  match i with
  | .disi _ => true
  | _ => false

/-- The program counter stands at one of the last two instructions of the active loop (R328). -/
def State.atLoopEnd (s : State) : Bool := s.pc == s.doendPc || s.pc == s.doendPc - 2#23

/-- The loops forbid this instruction here (R317, R328). -/
def State.loopRefusal (s : State) (i : Instr) : Option Refusal :=
  if s.ra && repeatForbidden i then some .repeatTarget
  else if s.da && (doEndForbidden i || s.ra) && s.atLoopEnd then some .doLoopEnd
  else none

/-- The `REPEAT` action at the end of an instruction that started in `s` and left `t` (R314). -/
def repeatEnd (s t : State) : State :=
  if s.ra && t.ra then
    if t.rcount = 0#16 then { t with ra := false, repeatNew := false }
    else { t with rcount := t.rcount - 1#16, pc := s.pc, repeatNew := false }
  else t

/-- Whether `REPEAT` holds the program counter (R314). -/
def repeatHeld (s t : State) : Bool := s.ra && t.ra && t.rcount != 0#16

/-- The `DO` action at DOEND (R322, R323). -/
def State.doLoopAction (t : State) : State :=
  if t.dcount = 0#16 ∨ t.edt = .armed then t.terminateDo
  else
    { t with
      dcount := t.dcount - 1#16
      pc := t.dostart ++ 0#1
      edt := if t.edt = .late then .armed else t.edt }

/-- Whether the `DO` action applies to the instruction `i` that started in `s` and left `t` (R322): not where it is held
by `REPEAT` or took a flow change, also when the instruction itself, a call whose push lands on DOENDL, made DOEND its own
address. -/
def doActs (i : Instr) (s t : State) : Bool :=
  s.da && t.da && !repeatHeld s t && endsSequentially i s t && s.pc == t.doendPc

/-- The `DISI` count-down, one per instruction (R344; log entry 17). -/
def State.disiTick (t : State) (i : Instr) : State :=
  if isDisi i || t.disicnt == 0#14 then t else { t with disicnt := t.disicnt - 1#14 }

/-- The read hazards move on by one instruction (R421, R424). -/
def State.hazardTick (t : State) : State := { t with haz := t.hazNext, hazNext := Hazard.none }

/-- The handler that interrupted `f` still runs, as far as the machine shows it: its frame is on the stack, or the CPU
priority level is above that of what it interrupted (DESIGN CHOICE, unsafe, log entry 29). -/
def State.inHandlerOf (s : State) (f : Suspended) : Bool :=
  decide (f.frame.toNat ≤ s.w15.toNat) || decide (f.level < s.level)

/-- What handlers interrupted, after an instruction: of a handler that was left without `RETFIE` the divide counts no
more, and a record that says nothing any more is dropped (log entry 29). -/
def State.nestKept (s : State) : List Suspended :=
  (s.nest.map fun f => { f with divides := f.divides && s.inHandlerOf f }).filter fun f => f.divides || f.repeatNew

/-- The handlers left are forgotten. -/
def State.handlerTick (t : State) : State := { t with nest := t.nestKept }

/-- Everything that happens at the end of an instruction: `REPEAT`, `DO`, `DISI`, the hazards (R376), and the record of
the handlers. -/
def finish (i : Instr) (s t : State) : State :=
  let u := repeatEnd s t
  let u := if doActs i s t then u.doLoopAction else u
  (u.disiTick i).hazardTick.handlerTick

end Sys2Proof.Machine
end

