-- ==== Sys2Proof/Machine/Move.lean ====
section
/-! DEFINITION. Move.lean: the meanings of 40_move_stack.md: moves, stack, shadow registers, frames, byte conversion and
table reads. -/

namespace Sys2Proof.Machine

/-- `MOV{.B} Ws, Wd` (R171); `PUSH Ws` and `POP Wd` are its forms through W15 (R178, R179). -/
def execMovReg (byte : Bool) (wb : Reg) (src dst : Operand) (s : State) : Host.Outcome State Fault Refusal :=
  runInstr (do
    let v ← readOp byte wb src
    let _ ← writeOp byte wb dst v
    advance 1) s

/-- `MOV #lit16, Wn` (R172). -/
def execMovLit (lit : BitVec 16) (wd : Reg) (s : State) : Host.Outcome State Fault Refusal :=
  runInstr (do
    upd fun s => s.setWreg wd lit
    advance 1) s

/-- `MOV f, Wn` (R173). -/
def execMovFileToW (f15 : BitVec 15) (wd : Reg) (s : State) : Host.Outcome State Fault Refusal :=
  runInstr (do
    let v ← readFile false (wordAddr f15)
    upd fun s => s.setWreg wd v
    advance 1) s

/-- `MOV Wn, f` (R174). -/
def execMovWToFile (ws : Reg) (f15 : BitVec 15) (s : State) : Host.Outcome State Fault Refusal :=
  runInstr (do
    let v ← ask fun s => s.wreg ws
    memWrite .paged (wordAddr f15) false v
    advance 1) s

/-- `MOV{.B} WREG, f` (R175). -/
def execMovWregToFile (byte : Bool) (f13 : BitVec 13) (s : State) : Host.Outcome State Fault Refusal :=
  runInstr (do
    let v ← ask fun s => s.regSource byte 0#4
    memWrite .paged (nearAddr f13) byte v
    advance 1) s

/-- `MOV{.B} f {,WREG}` (R175): N and Z. -/
def execMovFile (byte toFile : Bool) (f13 : BitVec 13) (s : State) : Host.Outcome State Fault Refusal :=
  runInstr (do
    let v ← readFile byte (nearAddr f13)
    let hit ← writeFileOrWreg byte toFile (nearAddr f13) v
    writeFlags hit fun fl => fl.withNZ byte v
    advance 1) s

/-- The two words of a double-word source: a register pair, or two words of memory, the low word first (R176). Both
words are read before any destination is written (R119; log entry 14). -/
def readDouble (src : Operand) : M (Word × Word) :=
  if src.mode = .direct then ask fun s => (s.wreg src.reg, s.wreg (src.reg + 1#4))
  else withEA src 0#4 4#16 true fun via ea => do
    let lo ← memRead via ea false
    checkVia via (ea + 2#16) (decide (0x10000 ≤ ea.toNat + 2)) true
    let hi ← memRead via (ea + 2#16) false
    pure (lo, hi)

/-- The two words to a double-word destination (R177). -/
def writeDouble (dst : Operand) (lo hi : Word) : M Unit :=
  if dst.mode = .direct then upd fun s => (s.setWreg dst.reg lo).setWreg (dst.reg + 1#4) hi
  else withEA dst 0#4 4#16 false fun via ea => do
    memWrite via ea false lo
    checkVia via (ea + 2#16) (decide (0x10000 ≤ ea.toNat + 2)) false
    memWrite via (ea + 2#16) false hi

/-- `MOV.D Ws, Wnd` (R176). -/
def execMovDLoad (src : Operand) (wd : Reg) (s : State) : Host.Outcome State Fault Refusal :=
  runInstr (do
    let v ← readDouble src
    upd fun s => (s.setWreg wd v.1).setWreg (wd + 1#4) v.2
    advance 1) s

/-- `MOV.D Wns, Wd` (R177). -/
def execMovDStore (ws : Reg) (dst : Operand) (s : State) : Host.Outcome State Fault Refusal :=
  runInstr (do
    let lo ← ask fun s => s.wreg ws
    let hi ← ask fun s => s.wreg (ws + 1#4)
    writeDouble dst lo hi
    advance 1) s

/-- `PUSH f` (R180). -/
def execPushFile (f15 : BitVec 15) (s : State) : Host.Outcome State Fault Refusal :=
  runInstr (do
    let v ← readFile false (wordAddr f15)
    push16 v
    advance 1) s

/-- `POP f` (R181). -/
def execPopFile (f15 : BitVec 15) (s : State) : Host.Outcome State Fault Refusal :=
  runInstr (do
    let v ← pop16
    memWrite .paged (wordAddr f15) false v
    advance 1) s

/-- The state after `PUSH.S` (R182): W0 to W3 of the active context and DC, N, OV, Z, C go to the shadows. -/
def State.saveShadows (s : State) : State :=
  { s with shadowW := #v[s.wreg 0#4, s.wreg 1#4, s.wreg 2#4, s.wreg 3#4], shadowFlags := s.flags }

/-- The state after `POP.S` (R183); the register writes are word writes (D14). -/
def State.restoreShadows (s : State) : State :=
  let s := (((s.setWreg 0#4 s.shadowW[0]).setWreg 1#4 s.shadowW[1]).setWreg 2#4 s.shadowW[2]).setWreg 3#4 s.shadowW[3]
  { s with flags := s.shadowFlags }

/-- `PUSH.S` (R182). -/
def execPushS (s : State) : Host.Outcome State Fault Refusal :=
  runInstr (do
    upd State.saveShadows
    advance 1) s

/-- `POP.S` (R183). -/
def execPopS (s : State) : Host.Outcome State Fault Refusal :=
  runInstr (do
    upd State.restoreShadows
    advance 1) s

/-- `LNK #lit14` (R184). -/
def execLnk (lit : BitVec 14) (s : State) : Host.Outcome State Fault Refusal :=
  runInstr (do
    if ← ask State.sfa then raiseTrap .stackError
    push16 (← ask fun s => s.wreg 14#4)
    upd fun s => s.setWreg 14#4 s.w15
    upd fun s => s.setWreg 15#4 (s.w15 + lit.zeroExtend 16)
    upd fun s => { s with sfa := true }
    advance 1) s

/-- `ULNK` (R185). -/
def execUlnk (s : State) : Host.Outcome State Fault Refusal :=
  runInstr (do
    if !(← ask State.sfa) then raiseTrap .stackError
    upd fun s => s.setWreg 15#4 (s.wreg 14#4)
    let v ← pop16
    upd fun s => s.setWreg 14#4 v
    upd fun s => { s with sfa := false }
    advance 1) s

/-- `SE Ws, Wnd` (R186). -/
def execSe (src : Operand) (wd : Reg) (s : State) : Host.Outcome State Fault Refusal :=
  runInstr (do
    let b ← readOp true 0#4 src
    let r : Word := (b.extractLsb' 0 8).signExtend 16
    upd fun s => s.setWreg wd r
    writeFlags false (extendFlags r)
    advance 1) s

/-- `ZE Ws, Wnd` (R187). -/
def execZe (src : Operand) (wd : Reg) (s : State) : Host.Outcome State Fault Refusal :=
  runInstr (do
    let r ← readOp true 0#4 src
    upd fun s => s.setWreg wd r
    writeFlags false (extendFlags r)
    advance 1) s

/-- The 24-bit program address of a table instruction (R139). -/
def State.tableAddr (s : State) (ea : Word) : BitVec 24 := s.tblpag ++ ea

/-- The program word a table read reads, with the byte-select bit of its address (R190): a word access at an odd address
raises `AddressError` and delivers `any`; addresses with bit 23 set, and unimplemented ones, are refused. R190 does not
say which comes first for a word access at an odd address that is also one of these; here `AddressError` does, and the
instruction goes on (DESIGN CHOICE, unsafe, log entry 47). -/
def tableRead (byte : Bool) (src : Operand) (pick : Bool → ProgWord → Word) : M Word :=
  withEA src 0#4 (stepOf byte) true fun _ ea => do
    if !byte && ea.getLsbD 0 then
      raiseTrap .addressError
      drawOperand byte
    else
      let a ← ask fun s => s.tableAddr ea
      if a.getLsbD 23 then refuse .configSpace
      else
        let p ← progRead (a.toNat - a.toNat % 2)
        pure (pick (a.getLsbD 0) p)

/-- What `TBLRDL` delivers of a program word (R190). -/
def tableLow (byte odd : Bool) (p : ProgWord) : Word :=
  if byte then
    if odd then (p.extractLsb' 8 8).zeroExtend 16 else (p.extractLsb' 0 8).zeroExtend 16
  else p.extractLsb' 0 16

/-- What `TBLRDH` delivers of a program word (R190). -/
def tableHigh (byte odd : Bool) (p : ProgWord) : Word :=
  if byte && odd then 0#16 else (p.extractLsb' 16 8).zeroExtend 16

/-- `TBLRDL{.B} Ws, Wd` (R190). -/
def execTblrdl (byte : Bool) (src dst : Operand) (s : State) : Host.Outcome State Fault Refusal :=
  runInstr (do
    let v ← tableRead byte src (tableLow byte)
    let _ ← writeOp byte 0#4 dst v
    advance 1) s

/-- `TBLRDH{.B} Ws, Wd` (R190). -/
def execTblrdh (byte : Bool) (src dst : Operand) (s : State) : Host.Outcome State Fault Refusal :=
  runInstr (do
    let v ← tableRead byte src (tableHigh byte)
    let _ ← writeOp byte 0#4 dst v
    advance 1) s

/-- `TBLWTL{.B} Ws, Wd` (R191): refused, no source describes the Flash programming sequence it is a step of. -/
def execTblwtl (_byte : Bool) (_src _dst : Operand) (s : State) : Host.Outcome State Fault Refusal :=
  runInstr (refuse .tableWrite) s

/-- `TBLWTH{.B} Ws, Wd` (R191): refused as `TBLWTL`. -/
def execTblwth (_byte : Bool) (_src _dst : Operand) (s : State) : Host.Outcome State Fault Refusal :=
  runInstr (refuse .tableWrite) s

end Sys2Proof.Machine
end

