-- ==== Sys2Proof/Machine/System.lean ====
section
/-! DEFINITION. System.lean: the meanings of the system instructions (45_system.md). -/

namespace Sys2Proof.Machine

/-- `RESET` (R347). -/
def execReset (s : State) : Host.Outcome State Fault Refusal := runInstr (stopReset .instruction) s

/-- `PWRSAV #lit1` (R346): the pc moves on and the CPU stops, in Sleep (0) or Idle (1); a request wakes it (log
entry 18). -/
def execPwrsav (lit : Bool) (s : State) : Host.Outcome State Fault Refusal :=
  runInstr (do
    upd fun s => { s with power := if lit then .idle else .sleep }
    advance 1) s

/-- `DISI #lit14` (R344). -/
def execDisi (lit : BitVec 14) (s : State) : Host.Outcome State Fault Refusal :=
  runInstr (do
    upd fun s => { s with disicnt := lit }
    advance 1) s

/-- `CTXTSWP #lit3` (R341). -/
def execCtxtswpLit (lit : BitVec 3) (s : State) : Host.Outcome State Fault Refusal :=
  runInstr (do
    contextSwap lit.toNat
    advance 1) s

/-- `CTXTSWP Wn` (R341): the register's low three bits, read in the old context. -/
def execCtxtswpW (wn : Reg) (s : State) : Host.Outcome State Fault Refusal :=
  runInstr (do
    contextSwap ((← ask fun s => s.wreg wn).extractLsb' 0 3).toNat
    advance 1) s

/-- `BOOTSWP` (R343): refused, the partitions and their swap are not described. -/
def execBootswp (s : State) : Host.Outcome State Fault Refusal := runInstr (refuse .partitionSwap) s

/-- `TRAP` (R348): named only, refused. -/
def execTrap (s : State) : Host.Outcome State Fault Refusal := runInstr (refuse .trapUndescribed) s

/-- `FEX` (R348): named only, refused. -/
def execFex (s : State) : Host.Outcome State Fault Refusal := runInstr (refuse .fexUndescribed) s

/-- `SSTEP` (R348): named only, refused. -/
def execSstep (s : State) : Host.Outcome State Fault Refusal := runInstr (refuse .sstepUndescribed) s

/-- `URUN` (R348): named only, refused. -/
def execUrun (s : State) : Host.Outcome State Fault Refusal := runInstr (refuse .urunUndescribed) s

end Sys2Proof.Machine
end

