-- ==== Sys2Proof/Machine/Dispatch.lean ====
section
/-! DEFINITION. Dispatch.lean: one arm per instruction, each one direct call of its meaning. -/

namespace Sys2Proof.Machine

def exec (i : Instr) (s : State) : Host.Outcome State Fault Refusal :=
  match i with
  | .movReg byte wb src dst => Sys2Proof.Machine.execMovReg byte wb src dst s
  | .movLit lit wd => Sys2Proof.Machine.execMovLit lit wd s
  | .movFileToW f15 wd => Sys2Proof.Machine.execMovFileToW f15 wd s
  | .movWToFile ws f15 => Sys2Proof.Machine.execMovWToFile ws f15 s
  | .movWregToFile byte f13 => Sys2Proof.Machine.execMovWregToFile byte f13 s
  | .movFile byte toFile f13 => Sys2Proof.Machine.execMovFile byte toFile f13 s
  | .movDLoad src wd => Sys2Proof.Machine.execMovDLoad src wd s
  | .movDStore ws dst => Sys2Proof.Machine.execMovDStore ws dst s
  | .pushFile f15 => Sys2Proof.Machine.execPushFile f15 s
  | .popFile f15 => Sys2Proof.Machine.execPopFile f15 s
  | .pushS => Sys2Proof.Machine.execPushS s
  | .popS => Sys2Proof.Machine.execPopS s
  | .lnk lit => Sys2Proof.Machine.execLnk lit s
  | .ulnk => Sys2Proof.Machine.execUlnk s
  | .se src wd => Sys2Proof.Machine.execSe src wd s
  | .ze src wd => Sys2Proof.Machine.execZe src wd s
  | .tblrdl byte src dst => Sys2Proof.Machine.execTblrdl byte src dst s
  | .tblrdh byte src dst => Sys2Proof.Machine.execTblrdh byte src dst s
  | .tblwtl byte src dst => Sys2Proof.Machine.execTblwtl byte src dst s
  | .tblwth byte src dst => Sys2Proof.Machine.execTblwth byte src dst s
  | .addReg byte wb src dst => Sys2Proof.Machine.execAddReg byte wb src dst s
  | .addLit5 byte wb lit dst => Sys2Proof.Machine.execAddLit5 byte wb lit dst s
  | .addFile byte toFile f13 => Sys2Proof.Machine.execAddFile byte toFile f13 s
  | .addLit10 byte lit wn => Sys2Proof.Machine.execAddLit10 byte lit wn s
  | .slFile byte toFile f13 => Sys2Proof.Machine.execSlFile byte toFile f13 s
  | .slReg byte src dst => Sys2Proof.Machine.execSlReg byte src dst s
  | .slLit4 wb lit wd => Sys2Proof.Machine.execSlLit4 wb lit wd s
  | .slW wb wns wd => Sys2Proof.Machine.execSlW wb wns wd s
  | .lsrFile byte toFile f13 => Sys2Proof.Machine.execLsrFile byte toFile f13 s
  | .lsrReg byte src dst => Sys2Proof.Machine.execLsrReg byte src dst s
  | .lsrLit4 wb lit wd => Sys2Proof.Machine.execLsrLit4 wb lit wd s
  | .lsrW wb wns wd => Sys2Proof.Machine.execLsrW wb wns wd s
  | .asrFile byte toFile f13 => Sys2Proof.Machine.execAsrFile byte toFile f13 s
  | .asrReg byte src dst => Sys2Proof.Machine.execAsrReg byte src dst s
  | .asrLit4 wb lit wd => Sys2Proof.Machine.execAsrLit4 wb lit wd s
  | .asrW wb wns wd => Sys2Proof.Machine.execAsrW wb wns wd s
  | .bsetFile byte f13 bit => Sys2Proof.Machine.execBsetFile byte f13 bit s
  | .btscFile byte f13 bit => Sys2Proof.Machine.execBtscFile byte f13 bit s
  | .bsetReg byte bit ws => Sys2Proof.Machine.execBsetReg byte bit ws s
  | .btscReg bit ws => Sys2Proof.Machine.execBtscReg bit ws s
  | .mulUU wb src wd => Sys2Proof.Machine.execMulUU wb src wd s
  | .mulUULit5 wb lit wd => Sys2Proof.Machine.execMulUULit5 wb lit wd s
  | .mulUS wb src wd => Sys2Proof.Machine.execMulUS wb src wd s
  | .mulSU wb src wd => Sys2Proof.Machine.execMulSU wb src wd s
  | .mulSULit5 wb lit wd => Sys2Proof.Machine.execMulSULit5 wb lit wd s
  | .mulSS wb src wd => Sys2Proof.Machine.execMulSS wb src wd s
  | .mulFile byte f13 => Sys2Proof.Machine.execMulFile byte f13 s
  | .mulwSS wb src wd => Sys2Proof.Machine.execMulwSS wb src wd s
  | .mulwSU wb src wd => Sys2Proof.Machine.execMulwSU wb src wd s
  | .mulwUS wb src wd => Sys2Proof.Machine.execMulwUS wb src wd s
  | .mulwUU wb src wd => Sys2Proof.Machine.execMulwUU wb src wd s
  | .mulAcc signs wb src acc => Sys2Proof.Machine.execMulAcc signs wb src acc s
  | .divSW wm wn => Sys2Proof.Machine.execDivSW wm wn s
  | .divSD hi wm wn => Sys2Proof.Machine.execDivSD hi wm wn s
  | .divUW wm wn => Sys2Proof.Machine.execDivUW wm wn s
  | .divUD hi wm wn => Sys2Proof.Machine.execDivUD hi wm wn s
  | .divF wm wn => Sys2Proof.Machine.execDivF wm wn s
  | .nop => Sys2Proof.Machine.execNop s
  | .nopr => Sys2Proof.Machine.execNopr s
  | .bra off => Sys2Proof.Machine.execBra off s
  | .braCond cond off => Sys2Proof.Machine.execBraCond cond off s
  | .braOA off => Sys2Proof.Machine.execBraOA off s
  | .braOB off => Sys2Proof.Machine.execBraOB off s
  | .braSA off => Sys2Proof.Machine.execBraSA off s
  | .braSB off => Sys2Proof.Machine.execBraSB off s
  | .braW wn => Sys2Proof.Machine.execBraW wn s
  | .goto target => Sys2Proof.Machine.execGoto target s
  | .gotoW wn => Sys2Proof.Machine.execGotoW wn s
  | .call target => Sys2Proof.Machine.execCall target s
  | .callW wn => Sys2Proof.Machine.execCallW wn s
  | .callL hi wn => Sys2Proof.Machine.execCallL hi wn s
  | .rcall off => Sys2Proof.Machine.execRcall off s
  | .rcallW wn => Sys2Proof.Machine.execRcallW wn s
  | .ret => Sys2Proof.Machine.execRet s
  | .retfie => Sys2Proof.Machine.execRetfie s
  | .retlw byte lit wn => Sys2Proof.Machine.execRetlw byte lit wn s
  | .repeatLit lit => Sys2Proof.Machine.execRepeatLit lit s
  | .repeatW wn => Sys2Proof.Machine.execRepeatW wn s
  | .doLit lit off => Sys2Proof.Machine.execDoLit lit off s
  | .doW wn off => Sys2Proof.Machine.execDoW wn off s
  | .compareSkip => Sys2Proof.Machine.execCompareSkip s
  | .mac pair acc x y awb => Sys2Proof.Machine.execMac pair acc x y awb s
  | .macSq wm acc x y => Sys2Proof.Machine.execMacSq wm acc x y s
  | .msc pair acc x y awb => Sys2Proof.Machine.execMsc pair acc x y awb s
  | .mpy pair acc x y => Sys2Proof.Machine.execMpy pair acc x y s
  | .mpySq wm acc x y => Sys2Proof.Machine.execMpySq wm acc x y s
  | .mpyN pair acc x y => Sys2Proof.Machine.execMpyN pair acc x y s
  | .ed wm acc x y xd => Sys2Proof.Machine.execEd wm acc x y xd s
  | .edac wm acc x y xd => Sys2Proof.Machine.execEdac wm acc x y xd s
  | .addAcc acc => Sys2Proof.Machine.execAddAcc acc s
  | .addToAcc wb src shift acc => Sys2Proof.Machine.execAddToAcc wb src shift acc s
  | .lac wb src shift acc => Sys2Proof.Machine.execLac wb src shift acc s
  | .sac acc shift wb dst => Sys2Proof.Machine.execSac acc shift wb dst s
  | .sacR acc shift wb dst => Sys2Proof.Machine.execSacR acc shift wb dst s
  | .sftacLit acc shift => Sys2Proof.Machine.execSftacLit acc shift s
  | .sftacW acc wb => Sys2Proof.Machine.execSftacW acc wb s
  | .reset => Sys2Proof.Machine.execReset s
  | .pwrsav lit => Sys2Proof.Machine.execPwrsav lit s
  | .disi lit => Sys2Proof.Machine.execDisi lit s
  | .ctxtswpLit lit => Sys2Proof.Machine.execCtxtswpLit lit s
  | .ctxtswpW wn => Sys2Proof.Machine.execCtxtswpW wn s
  | .bootswp => Sys2Proof.Machine.execBootswp s
  | .trap => Sys2Proof.Machine.execTrap s
  | .fex => Sys2Proof.Machine.execFex s
  | .sstep => Sys2Proof.Machine.execSstep s
  | .urun => Sys2Proof.Machine.execUrun s

end Sys2Proof.Machine
end

