-- ==== Sys2Proof/Machine/Run.lean ====
section
/-! DEFINITION. Run.lean: fetching an instruction, running it with the loops' end actions, and what happens at an
instruction boundary (60_exceptions.md R376), one entry or one instruction a step. -/

namespace Sys2Proof.Machine

/-- The first words of the two-word instructions `CALL`, `GOTO` and `DO` (R141). -/
def twoWords (w : ProgWord) : Bool :=
  field w 16 8 == 0x02#8 || field w 16 8 == 0x04#8 || field w 16 8 == 0x08#8

/-- The instruction a state's program holds at `pc` as words, when both words are implemented (R104, R140). -/
def fetchWords (pc : ProgAddr) : M (Except DecodeError Instr) := do
  let w ← progRead pc.toNat
  if twoWords w then
    let w2 ← progRead (pc + 2#23).toNat
    pure (decode w w2)
  else pure (decode w 0#24)

/-- An instruction of the assembly-level program at `pc`, when the words it takes are implemented (R17, R104). -/
def fetchAsm (pc : ProgAddr) (i : Instr) : M (Except DecodeError Instr) := do
  checkProg pc.toNat
  if i.words = 2 then checkProg (pc + 2#23).toNat
  pure (.ok i)

/-- Fetch the instruction at the program counter (R104, R161). -/
def fetch : M Instr := do
  let pc ← ask State.pc
  let i ← (do
    match ← ask fun s => s.asmAt pc.toNat with
    | some i => fetchAsm pc i
    | none => fetchWords pc)
  match i with
  | .ok i => if i.wf then pure i else refuse (.illFormed i)
  | .error e => refuse (.undecodable e)

/-- Run the instruction at the program counter (R376). -/
def runOne (s : State) : Host.Outcome State Fault Refusal :=
  match fetch s with
  | .error (.reset cause) => .next (deviceReset cause s)
  | .error (.refuse r) => .refused r
  | .ok (i, _) =>
    match s.loopRefusal i with
    | some r => .refused r
    | none =>
      match exec i s with
      | .next t => .next (finish i s t)
      | .fault f => .fault f
      | .refused r => .refused r

/-- Enter the handler of a pending trap (R19, R376, R380). -/
def takeTrap (k : TrapKind) (s : State) : Host.Outcome State Fault Refusal :=
  runInstr (do
    upd fun s => { s with pending := s.pending.put k false, taken := .trap k :: s.taken }
    enter (.trap k)) s

/-- `Accept(p)` (R377). -/
def State.accepts (s : State) (q : Irq) : Bool :=
  decide (s.level < q.prio.val) && (s.disicnt == 0#14 || q.prio == 7)

/-- Sample the interrupt request input: accept the request, or run the instruction at the pc (R375, R376). -/
def sampleAndRun (s : State) : Host.Outcome State Fault Refusal :=
  match s.irqs with
  | [] => runOne s
  | none :: rest => runOne { s with irqs := rest }
  | some q :: rest =>
    if s.accepts q then runInstr (enter (.irq q)) { s with irqs := rest }
    else runOne { s with irqs := rest }

/-- The pending trap that the boundary takes or that resets the device: one above the current level, or a hard one
(R373, R376). -/
def State.urgentTrap (s : State) : Option TrapKind :=
  match s.pending.highest s.dev with
  | some k => if decide (s.level < k.level s.dev) || k.hard then some k else none
  | none => none

/-- A stopped CPU waits until a trap must be taken or an interrupt source requests; the request stays for the boundary
that follows (R346; log entry 18). -/
def sleepStep (s : State) : Host.Outcome State Fault Refusal :=
  match s.urgentTrap with
  | some _ => .next { s with power := .run }
  | none =>
    match s.irqs with
    | [] => .next s
    | none :: rest => .next { s with irqs := rest }
    | some q :: rest => if q.prio = 0 then .next { s with irqs := rest } else .next { s with power := .run }

/-- One pass of the boundary (R376): a trap above the current level is entered; a hard trap that is not above it resets
the device (R373); otherwise the request input is sampled, and if nothing is entered the instruction runs. -/
def boundary (s : State) : Host.Outcome State Fault Refusal :=
  match s.urgentTrap with
  | some k => if s.level < k.level s.dev then takeTrap k s else .next (deviceReset (.hardTrap k) s)
  | none => sampleAndRun s

/-- One step of the machine. -/
def stepState (s : State) : Host.Outcome State Fault Refusal :=
  if s.power = .run then boundary s else sleepStep s

/-- The state with the words of an instruction placed at the program counter: program words `w1` and `w2`, and no
assembly-level instruction over them. -/
def State.placeWords (s : State) (w1 w2 : ProgWord) : State :=
  let here := s.pc.toNat
  { s with
    prog := assocSet (assocSet s.prog here w1) (s.pc + 2#23).toNat w2
    asm := assocErase (if here < 2 then s.asm else assocErase s.asm (here - 2)) here }

end Sys2Proof.Machine
end

