-- ==== Sys2Proof/Machine/Step.lean ====
section
/-! DEFINITION. Step.lean: the step, and placing an instruction where it is fetched. -/

namespace Sys2Proof.Machine

/-- One step: one exception entry, one device Reset, one sample while stopped, or one instruction (R376). -/
def step (s : State) : Host.Outcome State Fault Refusal := stepState s

/-- The instruction whose bits are `w` stored at the program counter: bits 23:0 are the first program word, bits 47:24
the second (R140). -/
def State.withFetchWord (s : State) (nbits w : Nat) : State :=
  let bits := w % 2 ^ nbits
  s.placeWords (BitVec.ofNat 24 bits) (BitVec.ofNat 24 (bits / 2 ^ 24))

end Sys2Proof.Machine
end

