-- ==== Sys2Proof/Safety.lean ====
section
/-! DEFINITION. Safety.lean: the terms the statements use: the invariant of the machine, accesses that raise no trap and
leave nothing open, as functions of the state, and what it means that an instruction leaves the rest unchanged. -/

namespace Sys2Proof.Machine

/-! The invariant. -/

/-- What holds at reset and what every step keeps: memory and program in canonical form and in range (R102, R104,
R111), W15, SPLIM and the program counter even (R27, R67, R31), at most four active `DO` loops (R54), and context
numbers that exist (R22, R65, R66). -/
structure MachineInv (s : State) : Prop where
  memory : Memory.wf s.mem = true
  memoryRange : (s.mem.all fun c => decide (0x1000 ≤ c.1) && decide (c.1 < 2 ^ 24)) = true
  program : Memory.progWf s.prog = true
  stackEven : s.w15.getLsbD 0 = false
  limitEven : s.splim.getLsbD 0 = false
  pcEven : s.pc.getLsbD 0 = false
  loopLevel : s.dl.toNat ≤ 4
  currentContext : s.cctxi.val ≤ s.dev.numAlt.val
  manualContext : s.mctxi.val ≤ s.dev.numAlt.val

/-! Accesses without a trap and without an open value. -/

/-- The pc moved on over `n` instruction words (R33). -/
def State.advanced (s : State) (n : Nat) : State := { s with pc := s.pc + BitVec.ofNat 23 (2 * n) }

/-- The state with other flags. -/
def State.withFlags (s : State) (fl : Flags) : State := { s with flags := fl }

/-- The state after an address formed from W15 is checked against SPLIM (R127, R128). -/
def State.stackChecked (s : State) (ea : Word) (carry : Bool) : State := s.checkedAgainst s.splim ea carry

/-- The check of an access that goes through W15 (R129). -/
def State.viaChecked (s : State) (via : Via) (ea : Word) (carry : Bool) : State :=
  if via = .stack then s.stackChecked ea carry else s

/-- A register whose read has open bits now (R35, R424, and the other bits of INTCON1 and INTCON3). -/
def State.opensOnRead (s : State) : Sfr → Bool
  | .pcl | .pch | .intcon1 | .intcon3 => true
  | .doendl | .doendh => s.haz.doend
  | .w _ | .splim | .accal | .accah | .accau | .accbl | .accbh | .accbu | .dsrpag | .dswpag | .rcount | .dcount
  | .dostartl | .dostarth | .sr | .corcon | .modcon | .xmodsrt | .xmodend | .ymodsrt | .ymodend | .xbrev | .disicnt
  | .tblpag | .mstrpr | .ctxtstat => false

/-- What a word, or the byte at an address, delivers. -/
def laneOf (byte : Bool) (addr : Nat) (v : Word) : Word := if byte then byteLane addr v else v

/-- The value of a data read that raises no trap and leaves nothing open (R106 to R116). -/
def State.dataRead? (s : State) (via : Via) (ea : Word) (byte : Bool) : Option Word :=
  if !byte && ea.getLsbD 0 then none
  else match s.readTarget via ea with
    | .sfr a => match sfrAt s.dev (a - a % 2) with
      | some r => if s.opensOnRead r then none else some (laneOf byte a (s.sfrWord r))
      | none => none
    | .ram lin => some (if byte then (s.ramByte lin).zeroExtend 16 else s.ramWord lin)
    | .psvLow a =>
      if a - a % 2 < 2 * s.dev.progWords then
        some (laneOf byte a ((s.progWord (a - a % 2)).extractLsb' 0 16))
      else none
    | .psvHigh a =>
      if a - a % 2 < 2 * s.dev.progWords then
        some (laneOf byte a (((s.progWord (a - a % 2)).extractLsb' 16 8).zeroExtend 16))
      else none
    | .absent => none

/-- A data write of `v` to SRH races on the accumulator status bits (R49). -/
def State.srhRace (s : State) (v : Word) : Bool := s.dev.hasDsp && (s.satRace v || s.ovfRace v)

/-- SRH after a data write without such a race (R49). -/
def State.srhWritten (s : State) (v : Word) : State :=
  if s.dev.hasDsp then ((s.writeDc v).writeSat v).writeOvf v else s.writeDc v

/-- The state after a data write to a register, when the write is admitted and nothing of it is open (R114). -/
def State.sfrWritten? (s : State) (r : Sfr) (l : Lanes) (v : Word) : Option State :=
  match r with
  | .pcl | .pch => none
  | .w n => some (s.writeWreg n l v)
  | .splim => some (s.writeSplim l v)
  | .doendl | .doendh => some (s.writeDoend r l v)
  | .sr =>
    let t := if l.hasLow then s.writeSrl v else s
    if l.hasHigh then (if t.srhRace v then none else some (t.srhWritten v)) else some t
  | .corcon => some (s.writeCorcon l v)
  | .intcon1 => some { s with intcon := s.intcon.writeIntcon1 l v }
  | .intcon3 =>
    some { s with intcon :=
      { s.intcon with doovr := if l.hasLow then s.intcon.doovr && v.getLsbD 4 else s.intcon.doovr } }
  | .dostartl | .dostarth | .ctxtstat => some s
  | .accal | .accah | .accau | .accbl | .accbh | .accbu | .dsrpag | .dswpag | .rcount | .dcount | .modcon | .xmodsrt
  | .xmodend | .ymodsrt | .ymodend | .xbrev | .disicnt | .tblpag | .mstrpr =>
    some (s.sfrStore r (l.merge (s.sfrWord r) v))

/-- The state after a data write that raises no trap, is admitted and leaves nothing open (R106 to R116). -/
def State.dataWrite? (s : State) (via : Via) (ea : Word) (byte : Bool) (v : Word) : Option State :=
  if !byte && ea.getLsbD 0 then none
  else match s.writeTarget via ea with
    | .sfr a => match sfrAt s.dev (a - a % 2) with
      | some r =>
        if byte then
          if a % 2 = 0 then s.sfrWritten? r .low v else s.sfrWritten? r .high (v <<< 8)
        else s.sfrWritten? r .word v
      | none => none
    | .ram lin => some (if byte then s.setRamByte lin (v.extractLsb' 0 8) else s.setRamWord lin v)
    | .psvLow _ | .psvHigh _ | .absent => none

/-- An indirect operand about to be accessed: how, where, and the state after the pre-modification and the stack
checks. -/
structure Access where
  via : Via
  ea : Word
  state : State

/-- The access of an indirect operand (R118, R119): its pointers are initialized, modulo and bit-reversed addressing are
off, and it is no read through W15 in the shadow of a write to SPLIM (R421). -/
def State.access? (s : State) (op : Operand) (wb : Reg) (step : Word) (read : Bool) : Option Access :=
  let t := s.preModified op step
  let via := t.viaOf op wb
  let ea := t.eaOf op wb
  if !s.pointerReady op wb || s.circular then none
  else if read && via == .stack && s.splimEnabled && s.haz.splimOld.isSome then none
  else some { via := via, ea := ea, state := t.viaChecked via ea (s.eaCarry op wb step) }

/-- A source operand and the state after it is read (R119, R120). -/
def State.source? (s : State) (byte : Bool) (wb : Reg) (op : Operand) : Option (Word × State) :=
  if op.mode = .direct then some (s.regSource byte op.reg, s)
  else match s.access? op wb (stepOf byte) true with
    | some a => match a.state.dataRead? a.via a.ea byte with
      | some v => some (v, a.state.postModified op (stepOf byte))
      | none => none
    | none => none

/-- The state after a destination operand is written (R119, R120). -/
def State.dest? (s : State) (byte : Bool) (wb : Reg) (op : Operand) (v : Word) : Option State :=
  if op.mode = .direct then some (s.regDest byte op.reg v)
  else match s.access? op wb (stepOf byte) false with
    | some a => match a.state.dataWrite? a.via a.ea byte v with
      | some t => some (t.postModified op (stepOf byte))
      | none => none
    | none => none

/-- The destination operand is SR at its data address (R202). -/
def State.destIsSr (s : State) (byte : Bool) (wb : Reg) (op : Operand) : Bool :=
  op.mode != .direct && hitsSr s.dev byte ((s.preModified op (stepOf byte)).eaOf op wb)

/-- The state after the destination of a file register instruction is written: the file register, or WREG (R204). -/
def State.fileDest? (s : State) (byte toFile : Bool) (addr : Word) (v : Word) : Option State :=
  if toFile then s.dataWrite? .paged addr byte v else some (s.regDest byte 0#4 v)

/-- The destination of a file register instruction is SR (R202). -/
def fileIsSr (dev : Device) (byte toFile : Bool) (addr : Word) : Bool := toFile && hitsSr dev byte addr

/-- A push can write the word at W15: modulo and bit-reversed addressing are off, W15 is even and lies in implemented RAM
(R122 to R124). -/
def State.canPush (s : State) : Bool := !s.circular && !s.w15.getLsbD 0 && s.implemented s.w15.toNat

/-- The state after a push that can write its word (R124, R127). -/
def State.pushed (s : State) (v : Word) : State :=
  let t := (s.stackChecked s.w15 (decide (0x10000 ≤ s.w15.toNat + 2))).setRamWord s.w15.toNat v
  t.setWreg 15#4 (s.w15 + 2#16)

/-- Two pushes can write their words. -/
def State.canPush2 (s : State) : Bool :=
  s.canPush && !(s.w15 + 2#16).getLsbD 0 && s.implemented (s.w15 + 2#16).toNat

/-- A pop can read the word below W15: modulo and bit-reversed addressing are off, W15 is even, the word lies in
implemented RAM, and it is not read in the shadow of a write to SPLIM (R122, R124, R421). -/
def State.canPop (s : State) : Bool :=
  !s.circular && !s.w15.getLsbD 0 && s.implemented (s.w15 - 2#16).toNat && !(s.splimEnabled && s.haz.splimOld.isSome)

/-- The word a pop reads. -/
def State.top (s : State) : Word := s.ramWord (s.w15 - 2#16).toNat

/-- The state after a pop that can read its word (R124, R127). -/
def State.popped (s : State) : State :=
  (s.setWreg 15#4 (s.w15 - 2#16)).stackChecked (s.w15 - 2#16) false

/-- Two pops can read their words. -/
def State.canPop2 (s : State) : Bool := s.canPop && s.implemented (s.w15 - 4#16).toNat

/-! DSP accesses. -/

/-- A prefetched word and the state after its address is formed (R246). -/
def State.prefetchWord? (s : State) (ySpace : Bool) (a : PfAddr) : Option (Word × State) :=
  match s.access? (pfOperand ySpace a) 12#4 2#16 true with
  | some acc =>
    match acc.state.dataRead? acc.via acc.ea false with
    | some v => if acc.state.inYSpace acc.ea = ySpace then some (v, acc.state) else none
    | none => none
  | none => none

/-- The state after an optional prefetch (R246). -/
def State.prefetched? (s : State) (ySpace : Bool) : Prefetch → Option State
  | .off => some s
  | .on a dest =>
    match s.prefetchWord? ySpace a with
    | some (v, t) => some ((t.setWreg (dspReg dest) v).pfAdvance ySpace a)
    | none => none

/-- The state after a write-back (R255). -/
def State.wroteBack? (s : State) (x : AccId) : Awb → Option State
  | .none => some s
  | .w13 => some (s.setWreg 13#4 (s.storeValue (s.acc (otherAcc x)) 0 true))
  | .indirect => s.dest? false 0#4 { mode := .postInc, reg := 13#4 } (s.storeValue (s.acc (otherAcc x)) 0 true)

/-- The state after the transfers of a multiply: X prefetch, Y prefetch, write-back (R246, R255). -/
def State.transfers? (s : State) (acc : AccId) (x y : Prefetch) (awb : Awb) : Option State :=
  match s.prefetched? false x with
  | some t => match t.prefetched? true y with
    | some u => u.wroteBack? acc awb
    | none => none
  | none => none

/-! Frames. -/

/-- All that is neither a working register, a flag, the pc, data memory, a pending trap nor the count of free values is
unchanged. -/
def sameElsewhere (s t : State) : Prop :=
  t = { s with ctx := t.ctx, w15 := t.w15, flags := t.flags, pc := t.pc, mem := t.mem, pending := t.pending,
               free := t.free }

/-- Every working register but those listed is unchanged, and so is every other context. -/
def sameRegistersBut (s t : State) (written : List Reg) : Prop :=
  (∀ r, r ∉ written → t.wreg r = s.wreg r) ∧ ∀ c : Fin 5, c ≠ s.cctxi → t.ctx[c] = s.ctx[c]

/-- Every byte of data memory outside the `n` bytes at `lin` reads as before. -/
def sameMemoryBut (s t : State) (lin n : Nat) : Prop :=
  ∀ a, a < lin ∨ lin + n ≤ a → t.ramByte a = s.ramByte a

/-- Every byte of data memory reads as before. -/
def sameMemory (s t : State) : Prop := ∀ a, t.ramByte a = s.ramByte a

/-- The register an operand's addressing mode modifies. -/
def modifiedBy (op : Operand) : List Reg :=
  match op.mode with
  | .postDec | .postInc | .preDec | .preInc => [op.reg]
  | .direct | .indirect | .offset => []

/-- The register a destination operand changes: the register itself, or the pointer its mode modifies. -/
def changedBy (op : Operand) : List Reg := if op.mode = .direct then [op.reg] else modifiedBy op

/-! The instruction boundary. -/

/-- The next thing the machine does is the instruction at the pc: it runs, no trap must be taken, and the request input
brings nothing (R376). -/
def State.quiet (s : State) : Bool :=
  decide (s.power = .run) && s.urgentTrap.isNone &&
    (match s.irqs with | [] => true | r :: _ => r.isNone)

/-- The state with this boundary's sample of the request input consumed (R375). -/
def State.sampled (s : State) : State := { s with irqs := s.irqs.tail }

/-- The second word that the words at the pc have: data for `CALL`, `GOTO` and `DO`, not read for others (R141). -/
def State.secondWord (s : State) : ProgWord :=
  if twoWords (s.progWord s.pc.toNat) then s.progWord (s.pc + 2#23).toNat else 0#24

/-- The word at the pc, and with `two` the word after it, are implemented program memory (R34, R104). -/
def State.wordsThere (s : State) (two : Bool) : Bool :=
  decide (s.pc.toNat < 2 * s.dev.progWords) && (!two || decide ((s.pc + 2#23).toNat < 2 * s.dev.progWords))

/-- The words of the instruction at the pc are implemented program memory. -/
def State.fetchable (s : State) : Bool := s.wordsThere (twoWords (s.progWord s.pc.toNat))

/-- The instruction `i` stands at the pc, in implemented program memory: in the assembly-level program, or as words that
decode to it (R17, R104, R140). -/
def State.holds (s : State) (i : Instr) : Prop :=
  (s.asmAt s.pc.toNat = some i ∧ s.wordsThere (i.words == 2) = true) ∨
    (s.asmAt s.pc.toNat = none ∧ s.fetchable = true ∧
      decode (s.progWord s.pc.toNat) s.secondWord = .ok i)

end Sys2Proof.Machine
end

