-- ==== Sys2Proof/Certificates/Slice0/Obligations.lean ====
section
/-! DEFINITION. Obligations.lean: the statements for the provers, one `def Obligations.<Name> : Prop` each. -/

open Sys2Proof Sys2Proof.Machine

/-! Encoding. -/

/-- Words written out from the patterns of 30_encoding.md (R150 to R159, R162) decode to the instructions they stand
for, one or more of each family. It rests on the model's choices of log entry 5. -/
def Obligations.WrittenWordsDecode : Prop :=
  decode 0x781901#24 0#24 = .ok (.movReg false 0#4 ⟨.direct, 1#4⟩ ⟨.postInc, 2#4⟩) ∧
  decode 0x212340#24 0#24 = .ok (.movLit 0x1234#16 0#4) ∧
  decode 0xFA0004#24 0#24 = .ok (.lnk 4#14) ∧
  decode 0x400294#24 0#24 = .ok (.addReg false 0#4 ⟨.indirect, 4#4⟩ ⟨.direct, 5#4⟩) ∧
  decode 0xB43100#24 0#24 = .ok (.addFile false true 0x1100#13) ∧
  decode 0xDE80C4#24 0#24 = .ok (.asrLit4 0#4 4#4 1#4) ∧
  decode 0xA83103#24 0#24 = .ok (.bsetFile false 0x1102#13 9#4) ∧
  decode 0xB88101#24 0#24 = .ok (.mulUS 0#4 ⟨.direct, 1#4⟩ 2#4) ∧
  decode 0xD81944#24 0#24 = .ok (.divSD 3#4 2#4 4#4) ∧
  decode 0x3AFFFD#24 0#24 = .ok (.braCond .nz 0xFFFD#16) ∧
  decode 0x022400#24 0x000001#24 = .ok (.call 0x009200#22) ∧
  decode 0x064000#24 0#24 = .ok .retfie ∧
  decode 0x080002#24 0x000004#24 = .ok (.doLit 2#15 4#16) ∧
  decode 0xC00446#24 0#24 =
    .ok (.mac .w4w5 .a (.on (.pointer false .plus2) 0#2) (.on (.pointer false .plus2) 1#2) .none) ∧
  decode 0xCC0400#24 0#24 = .ok (.sac .a 8#4 0#4 ⟨.direct, 0#4⟩) ∧
  decode 0xFEE001#24 0#24 = .ok (.ctxtswpLit 1#3)

/-- Decoding the encoding of an instruction gives the instruction back, for every well-formed instruction that has an
encoding and every operand; the encoding has the instruction's length, and a second word decodes to `NOP` whatever
follows it (R140, R141, R142, R150 to R159). It rests on the model's choices of log entries 5 and 28. -/
def Obligations.DecodeOfEncode : Prop :=
  ∀ i : Instr, i.wf = true → i.assemblyOnly = false →
    decodeWords (encode i) = .ok i ∧ (encode i).length = i.words ∧
    ∀ w1 w2 w, encode i = [w1, w2] → decode w2 w = .ok .nop

/-! The step. -/

/-- When nothing is accepted at the boundary and the instruction `i` stands at the pc, a step is `exec i` on the state
with the boundary's sample consumed, followed by the end-of-instruction actions of the loops, `DISI` and the read
hazards; a refusal of `i` is the step's (R161, R376). It rests on the model's choices of log entry 23. -/
def Obligations.StepRunsTheInstruction : Prop :=
  ∀ (i : Instr) (s : State), s.quiet = true → s.holds i → i.wf = true → s.sampled.loopRefusal i = none →
    (∀ t, exec i s.sampled = .next t → step s = .next (finish i s.sampled t)) ∧
    (∀ r, exec i s.sampled = .refused r → step s = .refused r)

/-- The end of an instruction outside `DO`, or in the body of a `DO` loop but not at DOEND, with DISICNT at 0 (R314,
R322, R344, R421, R424): outside `REPEAT` nothing changes, the loop registers among the rest, but the read hazards,
which move on by one instruction; in `REPEAT` with RCOUNT not 0 the count goes down and the pc stays, and with RCOUNT 0
the loop ends and the pc goes on; either way the loop no longer counts as one that has still to execute its target. A
handler counts as left when its frame is no longer on the stack and the CPU priority level is no longer above that of
what it interrupted. It rests on the model's choices of log entries 29, 30 and 31. -/
def Obligations.EndOfInstruction : Prop :=
  ∀ (i : Instr) (s t : State), ((s.da && t.da) = false ∨ s.pc ≠ t.doendPc) → t.disicnt = 0#14 →
    ((s.ra && t.ra) = false → finish i s t =
      { t with nest := t.nestKept, haz := t.hazNext, hazNext := Hazard.none }) ∧
    (s.ra = true → t.ra = true → t.rcount ≠ 0#16 → finish i s t =
      { t with rcount := t.rcount - 1#16, pc := s.pc, repeatNew := false, nest := t.nestKept, haz := t.hazNext,
               hazNext := Hazard.none }) ∧
    (s.ra = true → t.ra = true → t.rcount = 0#16 → finish i s t =
      { t with ra := false, repeatNew := false, nest := t.nestKept, haz := t.hazNext, hazNext := Hazard.none }) ∧
    (∀ f, f ∈ t.nestKept ↔ (f.divides = true ∨ f.repeatNew = true) ∧ ∃ g ∈ t.nest,
      f = { g with divides := g.divides && (decide (g.frame.toNat ≤ t.w15.toNat) || decide (g.level < t.level)) })

/-- A word that no row of the table matches is refused by name, an instruction with operands its operand list does not
admit is refused by name, and so is an address beyond the implemented program memory (R34, R104, R161). The forbidden
`REPEAT` targets, and the instructions forbidden as one of the last two of an active `DO` loop, are refused when they
are reached (R317, R328). It rests on the model's choices of log entries 5, 30, 37, 44 and 45. -/
def Obligations.WhatIsNoInstructionStops : Prop :=
  ∀ s : State, s.quiet = true →
    (∀ i, s.holds i → i.wf = false → step s = .refused (.illFormed i)) ∧
    (∀ e, s.asmAt s.pc.toNat = none → s.fetchable = true →
      decode (s.progWord s.pc.toNat) s.secondWord = .error e → step s = .refused (.undecodable e)) ∧
    (2 * s.dev.progWords ≤ s.pc.toNat → step s = .refused (.progUnimplemented s.pc.toNat)) ∧
    (∀ i, s.holds i → i.wf = true → s.ra = true → repeatForbidden i = true → step s = .refused .repeatTarget) ∧
    (∀ i, s.holds i → i.wf = true → s.ra = false → s.da = true → s.atLoopEnd = true → doEndForbidden i = true →
      step s = .refused .doLoopEnd)

/-- The invariant holds of the state after reset. -/
def Obligations.ResetHasInvariant : Prop := MachineInv State.reset

/-- Every step keeps the invariant. -/
def Obligations.StepKeepsInvariant : Prop :=
  ∀ s t : State, MachineInv s → step s = .next t → MachineInv t

/-- No step changes program memory, the assembly-level program or a device parameter (R10, R135). -/
def Obligations.StepKeepsProgramAndDevice : Prop :=
  ∀ s t : State, step s = .next t → t.prog = s.prog ∧ t.asm = s.asm ∧ t.dev = s.dev

/-- The values the spec gives for reset (R411): the pc, the registers and status of every context, the copies of the DSP
state, SATDW set in each, and the latch that makes CORCON writes replicate (R63, R86). The device Reset of
`RESET` (R347), and that of every other cause (R368, R373, R410), leaves the same ones, and data memory, the program and
the parameters as they were; which Reset was taken is recorded (R19). It rests on the model's choices of log entries 13
and 49. -/
def Obligations.ResetValues : Prop :=
  ∀ (s : State) (cause : ResetCause),
    let asReset := fun t : State =>
      t.pc = 0#23 ∧ t.w15 = 0x1000#16 ∧ (∀ c : Fin 5, t.ctx[c] = WCtx.cleared) ∧
      t.sfrWord .sr = 0#16 ∧ t.corcon = (if t.dev.hasDsp then 0x0020#16 else 0#16) ∧ t.acc .a = 0#40 ∧
      t.acc .b = 0#40 ∧ t.level = 0 ∧
      t.sfrWord .dsrpag = 1#16 ∧ t.sfrWord .dswpag = 1#16 ∧ t.sfrWord .tblpag = 0#16 ∧ t.sfrWord .modcon = 0#16 ∧
      t.sfrWord .disicnt = 0#16 ∧ t.sfrWord .ctxtstat = 0#16 ∧ t.splim = 0#16 ∧ t.splimEnabled = false ∧
      t.pending = Pending.empty ∧ t.div = none ∧ t.edt = .clear ∧ t.corconReplicate = true ∧
      (∀ c : Fin 5, t.dsp[c] = DspCtx.atReset)
    let t := deviceReset cause s
    asReset State.reset ∧ State.reset.taken = [] ∧ exec .reset s = .next (deviceReset .instruction s) ∧ asReset t ∧
      t.mem = s.mem ∧ t.prog = s.prog ∧ t.dev = s.dev ∧ t.taken = .reset cause :: s.taken

/-! Exceptions. -/

/-- Taking a trap (R376, R378, R380, R381): when the pending trap of the greatest level is above the current level, the
step removes it from the pending traps, saves the pc, SFA, SRL and IPL3 in two words of the stack, clears SFA and RA,
sets IPL3 and IPL to the trap's level, and goes to the handler's address, all with the levels and vectors the device
gives its traps (R10, R372). Which trap was taken is recorded (R19, log entry 49), and what it interrupted: the `REPEAT`
loop that has still to execute its target, and whether the pc stood in the middle of a divide (R228, log entry 29): at a
divide that is the target of a `REPEAT` loop in progress and was executed at least once. It rests on the model's choices
of log entries 20, 22 and 35. -/
def Obligations.TrapEntry : Prop :=
  ∀ (s : State) (k : TrapKind), s.power = .run → s.pending.has k = true →
    (∀ j, s.pending.has j = true → j ≠ k → j.level s.dev < k.level s.dev) → s.level < k.level s.dev →
    s.canPush2 = true → k.vector s.dev < 2 * s.dev.progWords →
    let u := { s with pending := s.pending.put k false, taken := .trap k :: s.taken }
    let v := (u.pushed (u.retLow s.pc)).pushed (u.excHigh s.pc)
    (∀ i : Instr, s.holds i → (s.dividing = true ↔ s.ra = true ∧ s.repeatNew = false ∧
      ∃ hi wm wn : Reg, i ∈ [Instr.divSW wm wn, .divSD hi wm wn, .divUW wm wn, .divUD hi wm wn, .divF wm wn])) ∧
    step s = .next { v with
      sfa := false
      ra := false
      ipl3 := true
      ipl := BitVec.ofNat 3 (k.level s.dev - 8)
      cctxi := if s.dev.ctxNomatchToDefault then 0 else s.cctxi
      repeatNew := false
      nest := { frame := v.w15, low := u.retLow s.pc, high := u.excHigh s.pc, level := s.level,
                repeatNew := s.repeatNew, divides := s.dividing } ::
        s.nest.filter fun f => f.frame != v.w15
      pc := handlerAddr (s.progWord (k.vector s.dev)) }

/-- Taking an interrupt (R375 to R377, R380, R381): an accepted request is entered in the same way; IPL becomes its
priority, or 7 without nesting. The context selected is the least set that exists and is assigned the priority; if
there is none, the current one, or the default set on the devices that switch back. The model records what it
interrupted (log entry 29). It rests on the model's choices of log entries 20, 22, 23 and 40. -/
def Obligations.InterruptEntry : Prop :=
  ∀ (s : State) (q : Irq) (rest : List (Option Irq)), s.power = .run → s.urgentTrap = none →
    s.irqs = some q :: rest → s.level < q.prio.val → (s.disicnt = 0#14 ∨ q.prio = 7) →
    s.canPush2 = true → q.vector s.dev < 2 * s.dev.progWords →
    let u := { s with irqs := rest }
    let v := (u.pushed (u.retLow s.pc)).pushed (u.excHigh s.pc)
    ∃ c : Fin 5, step s = .next { v with
        sfa := false
        ra := false
        ipl := if s.intcon.nstdis then 7#3 else BitVec.ofNat 3 q.prio.val
        cctxi := c
        repeatNew := false
        nest := { frame := v.w15, low := u.retLow s.pc, high := u.excHigh s.pc, level := s.level,
                  repeatNew := s.repeatNew, divides := s.dividing } ::
          s.nest.filter fun f => f.frame != v.w15
        pc := handlerAddr (s.progWord (q.vector s.dev)) } ∧
      (∀ n : Fin 5, s.contextAt n q.prio.val = true →
        (∀ m : Fin 5, s.contextAt m q.prio.val = true → n.val ≤ m.val) → c = n) ∧
      ((∀ n : Fin 5, s.contextAt n q.prio.val = false) → c = if s.dev.ctxNomatchToDefault then 0 else s.cctxi)

/-- What the boundary does without an entry. A request that is not above the current level, or that `DISI` holds back,
is as no request (R377); a hard trap that is not above the current level resets the device (R373); a stopped CPU stays
as it is while nothing requests, and runs on when a source requests or a trap must be taken (R346, R405; how it wakes
is the model's choice, log entry 18). It rests on the model's choices of log entries 21 and 23. -/
def Obligations.BoundaryWithoutEntry : Prop :=
  ∀ s : State,
    (∀ q rest, s.power = .run → s.irqs = some q :: rest → s.urgentTrap = none →
      (q.prio.val ≤ s.level ∨ (s.disicnt ≠ 0#14 ∧ q.prio ≠ 7)) → step s = step { s with irqs := none :: rest }) ∧
    (∀ k : TrapKind, s.power = .run → s.pending.highest s.dev = some k → k.hard = true → k.level s.dev ≤ s.level →
      step s = .next (deviceReset (.hardTrap k) s)) ∧
    (s.power ≠ .run → s.urgentTrap = none → s.irqs = [] → step s = .next s) ∧
    (∀ rest, s.power ≠ .run → s.urgentTrap = none → s.irqs = none :: rest →
      step s = .next { s with irqs := rest }) ∧
    (∀ q rest, s.power ≠ .run → s.urgentTrap = none → s.irqs = some q :: rest → q.prio ≠ 0 →
      step s = .next { s with power := .run }) ∧
    (∀ k, s.power ≠ .run → s.urgentTrap = some k → step s = .next { s with power := .run })

/-- `RETFIE` undoes an entry (R380, R385, R386): executed in the state an interrupt entry left, with the frame below
the stack pointer as it was pushed, it gives back the pc, SFA, RA, IPL, N, OV, Z, C, IPL3 and the stack pointer,
selects the context of the restored level or the manually selected one, and leaves RCOUNT, the divide in progress,
whether its REPEAT loop has still to begin, and the record of the handlers entered before (R228, log entry 29) as they
were. It rests on the model's choices of log entries 22 and 40. -/
def Obligations.ReturnUndoesEntry : Prop :=
  ∀ (s u : State) (q : Irq), s.canPush2 = true → s.splimEnabled = false → s.pc.getLsbD 0 = false →
    q.vector s.dev < 2 * s.dev.progWords → runInstr (enter (.irq q)) s = .next u →
    ∃ t, exec .retfie u = .next t ∧ t.pc = s.pc ∧ t.sfa = s.sfa ∧ t.ra = s.ra ∧ t.ipl = s.ipl ∧ t.ipl3 = s.ipl3 ∧
      t.flags = s.flags ∧ t.w15 = s.w15 ∧ t.cctxi = s.contextOnReturn ∧ t.mctxi = s.mctxi ∧
      t.rcount = s.rcount ∧ t.div = s.div ∧ t.repeatNew = s.repeatNew ∧
      ((∀ f ∈ s.nest, f.frame ≠ s.w15 + 4#16) → t.nest = s.nest) ∧
      sameMemoryBut s t s.w15.toNat 4

/-! Data memory and registers. -/

/-- Data RAM returns what was written, byte and word, keeps every other byte, and keeps its canonical form; a word's
low byte is at the lower address (R106, R111). It rests on the model's choices of log entries 4 and 24. -/
def Obligations.RamReadsWhatWasWritten : Prop :=
  ∀ (s : State) (lin : Nat) (b : Byte) (v : Word),
    (s.setRamByte lin b).ramByte lin = b ∧
    (∀ a, a ≠ lin → (s.setRamByte lin b).ramByte a = s.ramByte a) ∧
    (s.setRamWord lin v).ramWord lin = v ∧
    (s.setRamWord lin v).ramByte lin = v.extractLsb' 0 8 ∧
    sameMemoryBut s (s.setRamWord lin v) lin 2 ∧
    (Memory.wf s.mem = true → Memory.wf (s.setRamWord lin v).mem = true)

/-- A word access at an odd address, or at an address where nothing is implemented, raises `AddressError`: nothing is
stored, and a load delivers an open value (R107, R111 to R113, R369). It rests on the model's choices of log entry 25.
-/
def Obligations.BadWordAccessRaisesAddressError : Prop :=
  ∀ (s : State) (op : Operand) (r : Reg) (a : Access), op.mode ≠ .direct →
    (s.access? op 0#4 2#16 false = some a → (a.ea.getLsbD 0 = true ∨ a.state.writeTarget a.via a.ea = .absent) →
      exec (.movReg false 0#4 ⟨.direct, r⟩ op) s =
        .next (((a.state.addPending .addressError).postModified op 2#16).advanced 1)) ∧
    (s.access? op 0#4 2#16 true = some a → (a.ea.getLsbD 0 = true ∨ a.state.readTarget a.via a.ea = .absent) →
      exec (.movReg false 0#4 op ⟨.direct, r⟩) s =
        .next (((({ a.state.addPending .addressError with free := s.free + 1 }).postModified op 2#16).setWreg r
          (Config.anyBits 16 s.free)).advanced 1))

/-- An instruction with an indirect operand whose pointer was never written by a word write resets the device in its
place (R29, R368); with the pointer initialized and modulo or bit-reversed addressing enabled it is refused (R122).
For every such instruction: the moves, the byte extensions, the table reads, `ADD`, the single-bit shifts, the bit
instructions, the multiplies, `LAC`, `ADD` to an accumulator and the accumulator stores, as source and as destination;
for the DSP multiplies and distances, the prefetches and the write-back. Behind a source that could be read, such a
destination gives that Reset too; behind any source, and for a prefetch or a write-back behind other transfers, that
Reset is the only next state there can be. The pushes and pops of calls, returns, `LNK`, `ULNK`, `PUSH f`, `POP f` and
exception entry are refused as well (R124). It rests on the model's choices of log entry 26. -/
def Obligations.PointerChecks : Prop :=
  ∀ (s : State) (op src : Operand) (wb r : Reg) (byte : Bool) (lit5 : BitVec 5) (b4 : BitVec 4) (acc : AccId)
    (signs : Signs) (pair : MulPair) (wm xd : BitVec 2) (x y : Prefetch) (a b : PfAddr) (awb : Awb), op.mode ≠ .direct →
    let d : Operand := ⟨.direct, r⟩
    let uninit := deviceReset .uninitializedW s
    let stops := fun (ready : Bool) (is : List Instr) => (ready = false ∨ s.circular = true) →
      ∀ i ∈ is, exec i s = if ready then .refused .circularAddressing else .next uninit
    let resets := fun (ready : Bool) (is : List Instr) => ready = false → ∀ i ∈ is, ∀ t, exec i s = .next t → t = uninit
    let mults := fun (x y : Prefetch) => [Instr.mac pair acc x y awb, .macSq wm acc x y, .msc pair acc x y awb,
      .mpy pair acc x y, .mpySq wm acc x y, .mpyN pair acc x y]
    stops (s.pointerReady op wb) [.movReg byte wb op d, .movReg byte wb d op] ∧
    stops (s.pointerReady op 0#4) [.movDLoad op r, .movDStore r op, .se op r, .ze op r, .tblrdl byte op d,
      .tblrdh byte op d, .addReg byte wb op d, .addReg byte wb d op, .addLit5 byte wb lit5 op, .slReg byte op d,
      .slReg byte d op, .lsrReg byte op d, .lsrReg byte d op, .asrReg byte op d, .asrReg byte d op, .bsetReg byte b4 op,
      .btscReg b4 op, .mulUU wb op r, .mulUS wb op r, .mulSU wb op r, .mulSS wb op r, .mulwSS wb op r, .mulwSU wb op r,
      .mulwUS wb op r, .mulwUU wb op r] ∧
    (∀ t v, s.source? byte wb src = some (v, t) → t.pointerReady op wb = false →
      exec (.movReg byte wb src op) s = .next uninit) ∧
    (∀ t v, s.source? byte 0#4 src = some (v, t) → t.pointerReady op 0#4 = false →
      ∀ i ∈ [Instr.addReg byte wb src op, .slReg byte src op, .lsrReg byte src op, .asrReg byte src op],
        exec i s = .next uninit) ∧
    resets (s.pointerReady op wb) [.movReg byte wb src op] ∧
    resets (s.pointerReady op 0#4) [.addReg byte wb src op, .slReg byte src op, .lsrReg byte src op,
      .asrReg byte src op, .tblrdl byte src op, .tblrdh byte src op] ∧
    (s.dev.hasDsp = true →
      stops (s.pointerReady op wb) [.lac wb op b4 acc, .addToAcc wb op b4 acc, .sac acc b4 wb op, .sacR acc b4 wb op] ∧
      stops (s.pointerReady op 0#4) [.mulAcc signs wb (.op op) acc] ∧
      (s.dspCur.us ≠ 3#2 →
        stops (s.pointerReady (pfOperand false a) 12#4)
          (.ed wm acc a b xd :: .edac wm acc a b xd :: mults (.on a xd) y) ∧
        stops (s.pointerReady (pfOperand true b) 12#4) (mults .off (.on b xd)) ∧
        stops (s.winit 13#4) [.mac pair acc .off .off .indirect, .msc pair acc .off .off .indirect]) ∧
      resets (s.pointerReady (pfOperand true b) 12#4)
        (.ed wm acc a b xd :: .edac wm acc a b xd :: mults x (.on b xd)) ∧
      resets (s.winit 13#4) [.mac pair acc x y .indirect, .msc pair acc x y .indirect]) ∧
    (s.circular = true → ∀ (e : Entry) (a22 : BitVec 22) (off : BitVec 16) (hi : Reg) (lit : BitVec 14)
        (f15 : BitVec 15) (k : BitVec 10),
      runInstr (enter e) s = .refused .circularAddressing ∧
      (∀ i ∈ [Instr.call a22, .callW r, .callL hi r, .rcall off, .rcallW r, .ret, .retfie, .retlw byte k r, .lnk lit,
        .ulnk, .popFile f15], exec i s = .refused .circularAddressing) ∧
      (∀ t, exec (.pushFile f15) s ≠ .next t) ∧
      (∀ v, s.dataRead? .paged (wordAddr f15) false = some v → exec (.pushFile f15) s = .refused .circularAddressing))

/-- Which accesses are paged, and where they lead. Addresses from W15, and from W14 with an active frame, are never
paged (R126), nor are those below 0x8000 (R112, R113); with both page registers at their reset value the others lead
to the same address (R116). Through the window (R109, R110), page 0 leads nowhere; a read through page 0x001 to 0x1FF,
and a write through any page but 0, reach EDS at the page with the address's low 15 bits; a read through page 0x200 to
0x2FF reaches the low word of the program word there, and through 0x300 to 0x3FF its most significant byte. What a
load and a store of a word at a file register in the window deliver and leave follows. It rests on the model's choices
of log entry 11. It rests on the model's choices of log entry 11. -/
def Obligations.PagedWindow : Prop :=
  ∀ (s : State) (via : Via) (ea : Word), 0x1000 ≤ ea.toNat →
    s.readTarget .stack ea = s.ramTarget ea.toNat ∧ s.writeTarget .stack ea = s.ramTarget ea.toNat ∧
    s.readTarget .frame ea = s.ramTarget ea.toNat ∧ s.writeTarget .frame ea = s.ramTarget ea.toNat ∧
    (ea.toNat < 0x8000 → s.readTarget via ea = s.ramTarget ea.toNat ∧ s.writeTarget via ea = s.ramTarget ea.toNat) ∧
    (s.dsrpag = 1#10 → s.readTarget via ea = s.ramTarget ea.toNat) ∧
    (s.dswpag = 1#9 → s.writeTarget via ea = s.ramTarget ea.toNat) ∧
    (0x8000 ≤ ea.toNat →
      let off := ea.extractLsb' 0 15
      let edsRead := (s.dsrpag.extractLsb' 0 9 ++ off).toNat
      let edsWrite := (s.dswpag ++ off).toNat
      let psv := (s.dsrpag.extractLsb' 0 8 ++ off).toNat
      (s.dsrpag = 0#10 → s.readTarget .paged ea = .absent) ∧
      (s.dswpag = 0#9 → s.writeTarget .paged ea = .absent) ∧
      (s.dsrpag ≠ 0#10 → s.dsrpag.toNat < 0x200 → s.readTarget .paged ea = s.ramTarget edsRead) ∧
      (s.dswpag ≠ 0#9 → s.writeTarget .paged ea = s.ramTarget edsWrite) ∧
      (0x200 ≤ s.dsrpag.toNat → s.dsrpag.toNat < 0x300 → s.readTarget .paged ea = .psvLow psv) ∧
      (0x300 ≤ s.dsrpag.toNat → s.readTarget .paged ea = .psvHigh psv) ∧
      ∀ (f15 : BitVec 15) (q : Reg), wordAddr f15 = ea →
        (s.dsrpag ≠ 0#10 → s.dsrpag.toNat < 0x200 → s.implemented edsRead = true →
          exec (.movFileToW f15 q) s = .next ((s.setWreg q (s.ramWord edsRead)).advanced 1)) ∧
        (s.dswpag ≠ 0#9 → s.implemented edsWrite = true →
          exec (.movWToFile q f15) s = .next ((s.setRamWord edsWrite (s.wreg q)).advanced 1)) ∧
        (0x200 ≤ s.dsrpag.toNat → s.dsrpag.toNat < 0x300 → psv < 2 * s.dev.progWords →
          exec (.movFileToW f15 q) s = .next ((s.setWreg q ((s.progWord psv).extractLsb' 0 16)).advanced 1)) ∧
        (0x300 ≤ s.dsrpag.toNat → psv < 2 * s.dev.progWords →
          exec (.movFileToW f15 q) s =
            .next ((s.setWreg q (((s.progWord psv).extractLsb' 16 8).zeroExtend 16)).advanced 1)))

/-- A register holds a word written to it, W15 with bit 0 cleared, and is then initialized; the other registers, and the
other contexts, are unchanged (R23, R24, R27, R29). The registers of the active context are data addresses 0x0000 to
0x001E: a move to or from such an address is a move to or from the register (R115). -/
def Obligations.WorkingRegisters : Prop :=
  ∀ (s : State) (r k : Reg) (v : Word),
    (r ≠ 15#4 → (s.setWreg r v).wreg r = v) ∧
    (s.setWreg 15#4 v).wreg 15#4 = v &&& 0xFFFE#16 ∧
    (s.setWreg r v).winit r = true ∧
    sameRegistersBut s (s.setWreg r v) [r] ∧
    exec (.movWToFile r (k.zeroExtend 15)) s = .next ((s.setWreg k (s.wreg r)).advanced 1) ∧
    exec (.movFileToW (k.zeroExtend 15) r) s = .next ((s.setWreg r (s.wreg k)).advanced 1)

/-- A data write to SR (R49), by `MOV Wn, SR`, at the address the device gives SR (R93): C, Z, OV, N and DC take the
written bits, IPL does unless NSTDIS is set, RA and the loop level are read-only; without a race, SA and SB (OA and
OB) take the written bits unless the write clears the combined bit. It rests on the model's choices of log entries 9
and 39. -/
def Obligations.StatusWrite : Prop :=
  ∀ (s : State) (r : Reg) (f15 : BitVec 15), sfrAt s.dev (wordAddr f15).toNat = some .sr →
    s.srhRace (s.wreg r) = false →
    ∃ t, exec (.movWToFile r f15) s = .next t ∧
      let v := s.wreg r
      t.flags = { dc := v.getLsbD 8, n := v.getLsbD 3, ov := v.getLsbD 2, z := v.getLsbD 1, c := v.getLsbD 0 } ∧
      t.ipl = (if s.intcon.nstdis then s.ipl else v.extractLsb' 5 3) ∧ t.ra = s.ra ∧ t.dl = s.dl ∧ t.pc = s.pc + 2#23 ∧
      (s.dev.hasDsp = true →
        t.dspCur.sa = (v.getLsbD 13 && !((s.dspCur.sa || s.dspCur.sb) && !v.getLsbD 10)) ∧
        t.dspCur.sb = (v.getLsbD 12 && !((s.dspCur.sa || s.dspCur.sb) && !v.getLsbD 10)) ∧
        t.dspCur.oa = (v.getLsbD 15 && !((s.dspCur.oa || s.dspCur.ob) && !v.getLsbD 11)) ∧
        t.dspCur.ob = (v.getLsbD 14 && !((s.dspCur.oa || s.dspCur.ob) && !v.getLsbD 11)) ∧
        t.dspCur.acca = s.dspCur.acca ∧ t.dspCur.accb = s.dspCur.accb) ∧
      (s.dev.hasDsp = false → t.dsp = s.dsp) ∧ t.ctx = s.ctx ∧ t.w15 = s.w15 ∧ sameMemory s t

/-- A data write to CORCON (R51, R53, R54, R57, R58, R326), by `MOV Wn, CORCON` at the address the device gives CORCON
(R93): the eight DSP control bits take the written bits in the copy of the DSP state that is in use, IPL3 can only be
cleared, DL and SFA are read-only, the accumulators are unchanged. On a device with a copy of the DSP state for each
context the write in context 0 reaches every copy until the first write in another context, which turns this off and
stays in its own copy (R63, R86). A 1 written to EDT with a loop active arms the early termination, one iteration later
when it comes from one of the last two instructions of the loop; with none active it has no effect. It rests on the
model's choices of log entries 9 and 30. -/
def Obligations.CoreControlWrite : Prop :=
  ∀ (s : State) (r : Reg) (f15 : BitVec 15), sfrAt s.dev (wordAddr f15).toNat = some .corcon → s.dev.hasDsp = true →
    ∃ t, exec (.movWToFile r f15) s = .next t ∧
      let v := s.wreg r
      let written : DspCtx → DspCtx := fun c =>
        { c with us := v.extractLsb' 12 2, sata := v.getLsbD 7, satb := v.getLsbD 6, satdw := v.getLsbD 5,
                 accsat := v.getLsbD 4, rnd := v.getLsbD 1, intMode := v.getLsbD 0 }
      let here : Fin 5 := if s.dev.dspContexts then s.cctxi else 0
      s.dspCur = s.dsp[here] ∧ t.dspCur = t.dsp[here] ∧ t.dsp[here] = written s.dsp[here] ∧
      (∀ c : Fin 5, c ≠ here → t.dsp[c] =
        if s.dev.dspContexts = true ∧ s.cctxi = 0 ∧ s.corconReplicate = true then written s.dsp[c] else s.dsp[c]) ∧
      t.corconReplicate = (s.corconReplicate && !(s.dev.dspContexts && s.cctxi != 0)) ∧
      t.ipl3 = (s.ipl3 && v.getLsbD 3) ∧ t.dl = s.dl ∧ t.sfa = s.sfa ∧ t.ipl = s.ipl ∧ t.flags = s.flags ∧
      t.ctx = s.ctx ∧ t.cctxi = s.cctxi ∧ t.w15 = s.w15 ∧ t.pc = s.pc + 2#23 ∧ sameMemory s t ∧
      ((v.getLsbD 11 = false ∨ s.dl = 0#3) → t.edt = s.edt) ∧
      (v.getLsbD 11 = true → s.dl ≠ 0#3 →
        ((s.pc = s.doendPc ∨ s.pc + 2#23 = s.doendPc) → t.edt = .late) ∧
        (s.pc ≠ s.doendPc → s.pc + 2#23 ≠ s.doendPc → t.edt = .armed))

/-- The register map (R93, R114, R115): with the addresses of the device's map even, distinct and above the working
registers', every register the device has is found at its address, and what is found at an even address is the register
the map places there. SPLIM (R67, R84, R127): a word write stores bits 15:1 and enables the stack overflow check; a byte
write leaves the enable as it was. A data write to PCL or PCH is refused (R35); one to DOSTARTL, DOSTARTH or CTXTSTAT
changes nothing but the pc (R64 to R66, R70). It rests on the model's choices of log entries 9 and 34. -/
def Obligations.StackLimitAndReadOnly : Prop :=
  (∀ (dev : Device) (a : Nat) (q : Sfr), sfrMapWf dev.sfrMap = true →
    (hasSfr dev q = true → sfrAt dev (sfrAddr dev.sfrMap q) = some q) ∧
    (a % 2 = 0 → sfrAt dev a = some q → sfrAddr dev.sfrMap q = a ∧ hasSfr dev q = true)) ∧
  ∀ (s : State) (r : Reg) (f15 : BitVec 15) (f13 : BitVec 13),
    let target := sfrAt s.dev (wordAddr f15).toNat
    (target = some .splim → ∃ t, exec (.movWToFile r f15) s = .next t ∧ t.splim = s.wreg r &&& 0xFFFE#16 ∧
      t.splimEnabled = true ∧ t.pending = s.pending ∧ t.w15 = s.w15 ∧ t.ctx = s.ctx ∧ sameMemory s t) ∧
    (f13.getLsbD 0 = false → sfrAt s.dev (nearAddr f13).toNat = some .splim →
      ∃ t, exec (.movWregToFile true f13) s = .next t ∧
        t.splim = (s.splim.extractLsb' 8 8 ++ (s.wreg 0#4).extractLsb' 0 8) &&& 0xFFFE#16 ∧
        t.splimEnabled = s.splimEnabled) ∧
    (target = some .pcl ∨ target = some .pch → exec (.movWToFile r f15) s = .refused .pcWrite) ∧
    (target = some .dostartl ∨ target = some .dostarth ∨ target = some .ctxtstat →
      exec (.movWToFile r f15) s = .next (s.advanced 1))

/-- The registers that hold what is written to their implemented bits and read their fixed bits as fixed (R60, R67 to
R79), through the word a whole store leaves. That a data write to DISICNT is honoured is the model's choice, log entry
34 (R345 and U7 of 45_system.md section 3 leave it open); the write to ACCAU and ACCBU is the one R61 marks as
derived. A data write to INTCON1 or INTCON3 (R80), of the word or of one byte, at the address the device gives it: the
four enables take the written bits, the status bits can only be cleared, by a 0 (log entry 10). -/
def Obligations.RegistersHoldTheirBits : Prop :=
  ∀ (s : State) (v : Word),
    (∀ r ∈ [Sfr.rcount, .dcount, .xbrev, .accal, .accah, .accbl, .accbh], (s.sfrStore r v).sfrWord r = v) ∧
    (s.sfrStore .splim v).sfrWord .splim = v &&& 0xFFFE#16 ∧
    (s.sfrStore .accau v).sfrWord .accau = (v.extractLsb' 0 8).signExtend 16 ∧
    (s.sfrStore .accbu v).sfrWord .accbu = (v.extractLsb' 0 8).signExtend 16 ∧
    (s.sfrStore .dsrpag v).sfrWord .dsrpag = v &&& 0x03FF#16 ∧
    (s.sfrStore .dswpag v).sfrWord .dswpag = v &&& 0x01FF#16 ∧
    (s.sfrStore .tblpag v).sfrWord .tblpag = v &&& 0x00FF#16 ∧
    (s.sfrStore .doendl v).sfrWord .doendl = v &&& 0xFFFE#16 ∧
    (s.sfrStore .doendh v).sfrWord .doendh = v &&& 0x007F#16 ∧
    (s.sfrStore .modcon v).sfrWord .modcon = v &&& 0xCFFF#16 ∧
    (s.sfrStore .xmodsrt v).sfrWord .xmodsrt = v &&& 0xFFFE#16 ∧
    (s.sfrStore .xmodend v).sfrWord .xmodend = v ||| 1#16 ∧
    (s.sfrStore .ymodsrt v).sfrWord .ymodsrt = v &&& 0xFFFE#16 ∧
    (s.sfrStore .ymodend v).sfrWord .ymodend = v ||| 1#16 ∧
    (s.sfrStore .disicnt v).sfrWord .disicnt = v &&& 0x3FFF#16 ∧
    (s.sfrStore .mstrpr v).sfrWord .mstrpr = v &&& 0x0029#16 ∧
    ∀ (r : Reg) (f15 : BitVec 15) (f13 : BitVec 13),
      let b := s.intcon
      let high : Word → IntBits → IntBits := fun x b =>
        { b with nstdis := x.getLsbD 15, ovaerr := b.ovaerr && x.getLsbD 14, ovberr := b.ovberr && x.getLsbD 13,
                 covaerr := b.covaerr && x.getLsbD 12, covberr := b.covberr && x.getLsbD 11, ovate := x.getLsbD 10,
                 ovbte := x.getLsbD 9, covte := x.getLsbD 8 }
      let low : Word → IntBits → IntBits := fun x b =>
        { b with sftacerr := b.sftacerr && x.getLsbD 7, div0err := b.div0err && x.getLsbD 6 }
      let third : Word → IntBits → IntBits := fun x b => { b with doovr := b.doovr && x.getLsbD 4 }
      let becomes := fun (i : Instr) (n : IntBits) => exec i s = .next ({ s with intcon := n }.advanced 1)
      let w0 := s.wreg 0#4
      let even := (nearAddr f13).toNat - (nearAddr f13).toNat % 2
      (sfrAt s.dev (wordAddr f15).toNat = some .intcon1 →
        becomes (.movWToFile r f15) (low (s.wreg r) (high (s.wreg r) b))) ∧
      (sfrAt s.dev (wordAddr f15).toNat = some .intcon3 → becomes (.movWToFile r f15) (third (s.wreg r) b)) ∧
      (sfrAt s.dev even = some .intcon1 →
        becomes (.movWregToFile true f13) (if f13.getLsbD 0 then high (w0 <<< 8) b else low w0 b)) ∧
      (sfrAt s.dev even = some .intcon3 →
        becomes (.movWregToFile true f13) (if f13.getLsbD 0 then b else third w0 b))

/-! Moves and the stack. -/

/-- `MOV{.B} Ws, Wd` (R171), every addressing mode on either side: the source is read, the destination written, no flag
changes. The six indirect modes (R118, R119): the address is the pointer's value before or after its modification by the
step, 2 in word mode, 1 in byte mode and 4 for `MOV.D`, or the sum of two registers modulo 2^16; what the pointer holds
afterwards; and with the address in RAM, what a load delivers and a store leaves there. Bit 0 of W15 stays 0 (R27). -/
def Obligations.MoveOperands : Prop :=
  ∀ (byte : Bool) (wb : Reg) (src dst : Operand) (s t u : State) (v : Word),
    (s.source? byte wb src = some (v, t) → t.dest? byte wb dst v = some u →
      exec (.movReg byte wb src dst) s = .next (u.advanced 1)) ∧
    ∀ (m : Mode) (p q : Reg), m ≠ .direct →
      let op : Operand := ⟨m, p⟩
      let even : Word → Word := fun x => if p = 15#4 then x &&& 0xFFFE#16 else x
      let ea : Word → Word := fun step => match m with
        | .preInc => even (s.wreg p + step)
        | .preDec => even (s.wreg p - step)
        | .offset => BitVec.ofNat 16 ((s.wreg p).toNat + (s.wreg wb).toNat)
        | .direct | .indirect | .postInc | .postDec => s.wreg p
      let after : Word → Word := fun step => match m with
        | .preInc | .postInc => even (s.wreg p + step)
        | .preDec | .postDec => even (s.wreg p - step)
        | .direct | .indirect | .offset => s.wreg p
      (∀ step read a, s.access? op wb step read = some a →
        a.ea = ea step ∧ (a.state.postModified op step).wreg p = after step) ∧
      (s.pointerReady op wb = true → s.circular = false →
        let step : Word := if byte then 1#16 else 2#16
        (byte = false → (ea step).getLsbD 0 = false) →
        (∀ lin, s.readTarget (s.viaOf op wb) (ea step) = .ram lin →
          ∃ x, exec (.movReg byte wb op ⟨.direct, q⟩) s = .next x ∧ x.pc = s.pc + 2#23 ∧ x.flags = s.flags ∧
            (byte = false → q ≠ 15#4 → x.wreg q = s.ramWord lin) ∧
            (byte = true → q ≠ 15#4 → q ≠ p → x.wreg q = (s.wreg q).extractLsb' 8 8 ++ s.ramByte lin) ∧
            (q ≠ p → x.wreg p = after step) ∧ sameRegistersBut s x [p, q] ∧ sameMemory s x) ∧
        (∀ lin, s.writeTarget (s.viaOf op wb) (ea step) = .ram lin →
          ∃ x, exec (.movReg byte wb ⟨.direct, q⟩ op) s = .next x ∧ x.pc = s.pc + 2#23 ∧ x.flags = s.flags ∧
            (byte = false → x.ramWord lin = s.wreg q) ∧ (byte = true → x.ramByte lin = (s.wreg q).extractLsb' 0 8) ∧
            x.wreg p = after step ∧ sameRegistersBut s x [p] ∧ sameMemoryBut s x lin (if byte then 1 else 2)))

/-- What the instructions with a source and a destination operand leave unchanged, `MOV`, `ADD`, the single-bit shifts
and `MULW`: every register but the destination and the modified pointers, every byte of memory but those stored at the
destination's address, and everything that is neither a flag nor the pc nor a pending trap; `MOV` and `MULW` change no
flag. It rests on the model's choices of log entry 36. -/
def Obligations.OperandFrame : Prop :=
  ∀ (byte : Bool) (wb : Reg) (src dst : Operand) (s t u x : State) (v r : Word) (i : Instr),
    s.source? byte wb src = some (v, t) → t.dest? byte wb dst r = some u →
    (i = .movReg byte wb src dst ∧ r = v ∨
      wb = 0#4 ∧ (∃ wn, i = .addReg byte wn src dst ∧ r = addResult byte (s.regSource byte wn) v) ∨
      wb = 0#4 ∧ (i, r) ∈ [(Instr.slReg byte src dst, (shiftLeft1 byte v).value),
        (.lsrReg byte src dst, (shiftRight1 v).value), (.asrReg byte src dst, (shiftArith1 byte v).value)] ∨
      wb = 0#4 ∧ byte = false ∧ dst.mode = .direct ∧ (∃ wn, r = s.wreg wn * v ∧
        i ∈ [Instr.mulwSS wn src dst.reg, .mulwSU wn src dst.reg, .mulwUS wn src dst.reg, .mulwUU wn src dst.reg])) →
    exec i s = .next x →
    (dst.mode = .direct →
      sameRegistersBut s x (changedBy dst ++ modifiedBy src) ∧ sameMemory s x ∧ sameElsewhere s x ∧
      (byte = true → dst.reg ≠ 15#4 → dst.reg ∉ modifiedBy src →
        (x.wreg dst.reg).extractLsb' 8 8 = (s.wreg dst.reg).extractLsb' 8 8)) ∧
    (∀ a lin, dst.mode ≠ .direct → t.access? dst wb (stepOf byte) false = some a →
      a.state.writeTarget a.via a.ea = .ram lin →
      sameRegistersBut s x (changedBy dst ++ modifiedBy src) ∧ sameMemoryBut s x lin (if byte then 1 else 2) ∧
      sameElsewhere s x) ∧
    ((dst.mode = .direct ∨ ∃ a lin, t.access? dst wb (stepOf byte) false = some a ∧
        a.state.writeTarget a.via a.ea = .ram lin) →
      (i = .movReg byte wb src dst ∨ ∃ wn, i ∈ [Instr.mulwSS wn src dst.reg, .mulwSU wn src dst.reg,
        .mulwUS wn src dst.reg, .mulwUU wn src dst.reg]) → x.flags = s.flags)

/-- `MOV #lit16, Wn` (R172), and the file register moves (R173, R174, R175): `MOV f, Wn`, `MOV Wn, f` and `MOV WREG, f`
change no flag, `MOV f {,WREG}` sets N and Z from the value. -/
def Obligations.MoveFile : Prop :=
  ∀ (s t : State) (v : Word),
    (∀ (lit : BitVec 16) (wd : Reg), exec (.movLit lit wd) s = .next ((s.setWreg wd lit).advanced 1)) ∧
    (∀ f15 wd, s.dataRead? .paged (wordAddr f15) false = some v →
      exec (.movFileToW f15 wd) s = .next ((s.setWreg wd v).advanced 1)) ∧
    (∀ ws f15, s.dataWrite? .paged (wordAddr f15) false (s.wreg ws) = some t →
      exec (.movWToFile ws f15) s = .next (t.advanced 1)) ∧
    (∀ byte f13, s.dataWrite? .paged (nearAddr f13) byte (s.regSource byte 0#4) = some t →
      exec (.movWregToFile byte f13) s = .next (t.advanced 1)) ∧
    (∀ byte toFile f13, s.dataRead? .paged (nearAddr f13) byte = some v →
      s.fileDest? byte toFile (nearAddr f13) v = some t → fileIsSr s.dev byte toFile (nearAddr f13) = false →
      exec (.movFile byte toFile f13) s =
        .next ((t.withFlags { t.flags with n := msb byte v, z := v == 0#16 }).advanced 1))

/-- `MOV.D` between register pairs, and with two words of RAM, the low word at the lower address, with the pointer
modified by 4 (R176, R177). It rests on the model's choices of log entries 14 and 24. -/
def Obligations.MoveDouble : Prop :=
  ∀ (s : State) (r q : Reg),
    exec (.movDLoad ⟨.direct, r⟩ q) s =
      .next (((s.setWreg q (s.wreg r)).setWreg (q + 1#4) (s.wreg (r + 1#4))).advanced 1) ∧
    exec (.movDStore r ⟨.direct, q⟩) s =
      .next (((s.setWreg q (s.wreg r)).setWreg (q + 1#4) (s.wreg (r + 1#4))).advanced 1) ∧
    (∀ op a lo hi, op.mode ≠ .direct → s.access? op 0#4 4#16 true = some a →
      a.state.dataRead? a.via a.ea false = some lo →
      let t := a.state.viaChecked a.via (a.ea + 2#16) (decide (0x10000 ≤ a.ea.toNat + 2))
      t.dataRead? a.via (a.ea + 2#16) false = some hi →
      exec (.movDLoad op q) s = .next ((((t.postModified op 4#16).setWreg q lo).setWreg (q + 1#4) hi).advanced 1)) ∧
    (∀ op a t u, op.mode ≠ .direct → s.access? op 0#4 4#16 false = some a →
      a.state.dataWrite? a.via a.ea false (s.wreg r) = some t →
      (t.viaChecked a.via (a.ea + 2#16) (decide (0x10000 ≤ a.ea.toNat + 2))).dataWrite? a.via (a.ea + 2#16) false
        (s.wreg (r + 1#4)) = some u →
      exec (.movDStore r op) s = .next ((u.postModified op 4#16).advanced 1))

/-- `PUSH` and `POP` of a register are the moves through W15 (R178, R179), and after `PUSH Ws` a `POP Wd` gives the
value and the stack pointer back. `PUSH f` pushes the word of a file register (R180); `POP f` writes the popped word
to it (R181). -/
def Obligations.PushPop : Prop :=
  ∀ s : State,
    (∀ r q : Reg, s.canPush = true → s.circular = false → s.splimEnabled = false → r ≠ 15#4 → q ≠ 15#4 →
      let t := (s.pushed (s.wreg r)).advanced 1
      exec (.movReg false 0#4 ⟨.direct, r⟩ ⟨.postInc, 15#4⟩) s = .next t ∧
      ∃ u, exec (.movReg false 0#4 ⟨.preDec, 15#4⟩ ⟨.direct, q⟩) t = .next u ∧
        u.wreg q = s.wreg r ∧ u.w15 = s.w15 ∧ sameRegistersBut s u [q] ∧ sameMemoryBut s u s.w15.toNat 2 ∧
        u.flags = s.flags) ∧
    (∀ f15 v, s.dataRead? .paged (wordAddr f15) false = some v → s.canPush = true →
      exec (.pushFile f15) s = .next ((s.pushed v).advanced 1)) ∧
    (∀ f15 t, s.canPop = true → s.popped.dataWrite? .paged (wordAddr f15) false s.top = some t →
      exec (.popFile f15) s = .next (t.advanced 1))

/-- A push with the overflow check enabled, at an address that exceeds SPLIM by more than two or with the stack
pointer wrapping past 0xFFFF, leaves a `StackError` pending, and the word is stored all the same; a push that does
neither leaves the pending traps as they are (R127). A push below 0x1000 where no register is completes, stores nothing
and leaves one pending (R128). Every read and every write through W15, `POP`, `PUSH` and each other indirect mode: an
address below 0x1000 leaves a `StackError` pending whether the overflow check is enabled or not, and so do, with the
check enabled, an address beyond SPLIM + 2 and a computation that carries out of bit 15 (R127 to R129). It rests on the
model's choices of log entries 12 and 19. -/
def Obligations.StackErrors : Prop :=
  ∀ (s : State) (r : Reg), s.circular = false →
    let push : Instr := .movReg false 0#4 ⟨.direct, r⟩ ⟨.postInc, 15#4⟩
    (s.canPush = true →
      ∃ t, exec push s = .next t ∧ t.ramWord s.w15.toNat = s.wreg r ∧ t.w15 = s.w15 + 2#16 ∧
        (s.splimEnabled = true → (s.splim.toNat + 2 < s.w15.toNat ∨ 0x10000 ≤ s.w15.toNat + 2) →
          t.pending = s.pending.put .stackError true) ∧
        ((s.splimEnabled = false ∨ (s.w15.toNat ≤ s.splim.toNat + 2 ∧ s.w15.toNat + 2 < 0x10000)) →
          t.pending = s.pending)) ∧
    (s.w15.toNat < 0x1000 → s.w15.getLsbD 0 = false → sfrAt s.dev s.w15.toNat = none →
      ∃ t, exec push s = .next t ∧ t.pending = s.pending.put .stackError true ∧ t.w15 = s.w15 + 2#16 ∧
        sameMemory s t) ∧
    ∀ (op : Operand) (wb : Reg), op.mode ≠ .direct → op.reg = 15#4 → s.pointerReady op wb = true →
      let ea : Word := match op.mode with
        | .preInc => (s.w15 + 2#16) &&& 0xFFFE#16
        | .preDec => (s.w15 - 2#16) &&& 0xFFFE#16
        | .offset => s.w15 + s.wreg wb
        | .direct | .indirect | .postInc | .postDec => s.w15
      let carries : Prop := match op.mode with
        | .preInc | .postInc => 0x10000 ≤ s.w15.toNat + 2
        | .offset => 0x10000 ≤ s.w15.toNat + (s.wreg wb).toNat
        | .direct | .indirect | .preDec | .postDec => False
      let checked : State → Prop := fun t =>
        (s.splimEnabled = true → (s.splim.toNat + 2 < ea.toNat ∨ carries) → t.pending.stackError = true) ∧
        (0x1000 ≤ ea.toNat → (s.splimEnabled = false ∨ (ea.toNat ≤ s.splim.toNat + 2 ∧ ¬ carries)) →
          t.pending.stackError = s.pending.stackError)
      (∃ t, exec (.movReg false wb op ⟨.direct, r⟩) s = .next t ∧
        (ea.toNat < 0x1000 → t.pending.stackError = true) ∧
        ((s.splimEnabled = false ∨ s.haz.splimOld = none) → checked t)) ∧
      ∀ t, exec (.movReg false wb ⟨.direct, r⟩ op) s = .next t →
        (ea.toNat < 0x1000 → t.pending.stackError = true) ∧ checked t

/-- `PUSH.S` copies W0 to W3 and the five flags to the shadow registers and changes nothing else; `POP.S` restores them
(R182, R183); its writes to W0 to W3 are word writes, the spec's decision D14. -/
def Obligations.ShadowRegisters : Prop :=
  ∀ s : State,
    exec .pushS s = .next ({ s with
      shadowW := #v[s.wreg 0#4, s.wreg 1#4, s.wreg 2#4, s.wreg 3#4]
      shadowFlags := s.flags }.advanced 1) ∧
    ∃ t, exec .popS s = .next t ∧ t.flags = s.shadowFlags ∧ t.wreg 0#4 = s.shadowW[0] ∧ t.wreg 1#4 = s.shadowW[1] ∧
      t.wreg 2#4 = s.shadowW[2] ∧ t.wreg 3#4 = s.shadowW[3] ∧ sameRegistersBut s t [0#4, 1#4, 2#4, 3#4] ∧
      t.ipl = s.ipl ∧ t.ra = s.ra ∧ t.pc = s.pc + 2#23 ∧ sameMemory s t ∧ sameElsewhere s t ∧
      t.shadowFlags = s.shadowFlags

/-- `PUSH.S` (R182): it transfers W0 to W3 of the active context and the N, OV, Z, C and DC bits into the shadow
registers, changes no flag, no register and nothing of the software stack, and needs no register to be initialized;
what an earlier `PUSH.S` had saved, here `w` and `fl`, is overwritten and without influence. -/
def Obligations.ShadowOverwrite : Prop :=
  ∀ (s : State) (w : Vector Word 4) (fl : Flags),
    exec .pushS { s with shadowW := w, shadowFlags := fl } =
      .next { s with
        shadowW := #v[s.wreg 0#4, s.wreg 1#4, s.wreg 2#4, s.wreg 3#4]
        shadowFlags := { dc := s.flags.dc, n := s.flags.n, ov := s.flags.ov, z := s.flags.z, c := s.flags.c }
        pc := s.pc + 2#23 }

/-- `LNK #lit14` pushes W14, puts the stack pointer in it, allocates the frame and sets SFA, with a `StackError` when
SFA was set (R184); `ULNK` deallocates the frame, restores W14 and clears SFA, with a `StackError` when SFA was clear
(R185). -/
def Obligations.StackFrames : Prop :=
  ∀ s : State,
    (∀ lit : BitVec 14, s.canPush = true →
      let u := if s.sfa then s.addPending .stackError else s
      let t := u.pushed (s.wreg 14#4)
      exec (.lnk lit) s = .next ({ (t.setWreg 14#4 t.w15).setWreg 15#4 (t.w15 + lit.zeroExtend 16) with
        sfa := true }.advanced 1)) ∧
    (let u := (if s.sfa then s else s.addPending .stackError).setWreg 15#4 (s.wreg 14#4)
     u.canPop = true →
      exec .ulnk s = .next ({ u.popped.setWreg 14#4 u.top with sfa := false }.advanced 1))

/-- `SE` and `ZE` extend a byte to a word and set N, Z and C, C being the complement of N (R186, R187). -/
def Obligations.ByteExtension : Prop :=
  ∀ (src : Operand) (wd : Reg) (s t : State) (b : Word), s.source? true 0#4 src = some (b, t) →
    (let r : Word := (b.extractLsb' 0 8).signExtend 16
     exec (.se src wd) s = .next (((t.setWreg wd r).withFlags
       { t.flags with n := r.getLsbD 15, z := r == 0#16, c := !r.getLsbD 15 }).advanced 1)) ∧
    exec (.ze src wd) s = .next (((t.setWreg wd b).withFlags
      { t.flags with n := false, z := b == 0#16, c := true }).advanced 1)

/-- The table reads (R190), at the program address TBLPAG with the pointer's value, in the halves of the program word
and byte by byte. -/
def Obligations.TableReads : Prop :=
  ∀ (byte : Bool) (src dst : Operand) (s t : State) (a : Access), s.access? src 0#4 (stepOf byte) true = some a →
    let adr : BitVec 24 := a.state.tblpag ++ a.ea
    let p := s.progWord (adr.toNat - adr.toNat % 2)
    (byte = false → a.ea.getLsbD 0 = false) → adr.getLsbD 23 = false →
    adr.toNat - adr.toNat % 2 < 2 * s.dev.progWords →
    ((a.state.postModified src (stepOf byte)).dest? byte 0#4 dst
        (if byte then (if adr.getLsbD 0 then (p.extractLsb' 8 8).zeroExtend 16 else (p.extractLsb' 0 8).zeroExtend 16)
          else p.extractLsb' 0 16) = some t →
      exec (.tblrdl byte src dst) s = .next (t.advanced 1)) ∧
    ((a.state.postModified src (stepOf byte)).dest? byte 0#4 dst
        (if byte && adr.getLsbD 0 then 0#16 else (p.extractLsb' 16 8).zeroExtend 16) = some t →
      exec (.tblrdh byte src dst) s = .next (t.advanced 1))

/-! Arithmetic, shifts, bits, multiplies and divides. -/

/-- The flags of an addition, in integers (R203, R38 to R42): C is a sum of 2^w or more, OV a signed sum out of range,
DC a carry out of the low half, N and Z of the w-bit result. -/
def Obligations.AdditionFlags : Prop :=
  ∀ (byte : Bool) (a b : Word), (byte = true → a.toNat < 256 ∧ b.toNat < 256) →
    let w := if byte then 8 else 16
    let signed : Word → Int := fun v => if v.toNat < 2 ^ (w - 1) then (v.toNat : Int) else (v.toNat : Int) - 2 ^ w
    let r := addResult byte a b
    let fl := addFlags byte a b
    r.toNat = (a.toNat + b.toNat) % 2 ^ w ∧
    (fl.c = true ↔ 2 ^ w ≤ a.toNat + b.toNat) ∧
    (fl.z = true ↔ r.toNat = 0) ∧
    (fl.n = true ↔ 2 ^ (w - 1) ≤ r.toNat) ∧
    (fl.ov = true ↔ signed a + signed b < -2 ^ (w - 1) ∨ 2 ^ (w - 1) ≤ signed a + signed b) ∧
    (fl.dc = true ↔ 2 ^ (w / 2) ≤ a.toNat % 2 ^ (w / 2) + b.toNat % 2 ^ (w / 2))

/-- The four forms of `ADD` (R203, R204, R205), in byte and word mode: the sum goes to the destination and the five
flags are those of the addition. When the destination is SR itself, the five flags are left open and the rest is as
the data write leaves it (R202). It rests on the model's choices of log entries 27 and 36. -/
def Obligations.AddForms : Prop :=
  ∀ (byte : Bool) (s u : State),
    (∀ wb src dst t b, s.source? byte 0#4 src = some (b, t) →
      t.dest? byte 0#4 dst (addResult byte (s.regSource byte wb) b) = some u → t.destIsSr byte 0#4 dst = false →
      exec (.addReg byte wb src dst) s = .next ((u.withFlags (addFlags byte (s.regSource byte wb) b)).advanced 1)) ∧
    (∀ wb lit dst, s.dest? byte 0#4 dst (addResult byte (s.regSource byte wb) (lit.zeroExtend 16)) = some u →
      s.destIsSr byte 0#4 dst = false →
      exec (.addLit5 byte wb lit dst) s =
        .next ((u.withFlags (addFlags byte (s.regSource byte wb) (lit.zeroExtend 16))).advanced 1)) ∧
    (∀ toFile f13 a, s.dataRead? .paged (nearAddr f13) byte = some a →
      s.fileDest? byte toFile (nearAddr f13) (addResult byte a (s.regSource byte 0#4)) = some u →
      (fileIsSr s.dev byte toFile (nearAddr f13) = false →
        exec (.addFile byte toFile f13) s = .next ((u.withFlags (addFlags byte a (s.regSource byte 0#4))).advanced 1)) ∧
      (fileIsSr s.dev byte toFile (nearAddr f13) = true →
        exec (.addFile byte toFile f13) s = .next ({ u with
          free := u.free + 5
          flags := { dc := Config.anyBit u.free, n := Config.anyBit (u.free + 1), ov := Config.anyBit (u.free + 2),
                     z := Config.anyBit (u.free + 3), c := Config.anyBit (u.free + 4) } }.advanced 1))) ∧
    (∀ lit wn, (byte = true → lit.toNat < 256) →
      exec (.addLit10 byte lit wn) s =
        .next (((s.regDest byte wn (addResult byte (s.regSource byte wn) (lit.zeroExtend 16))).withFlags
          (addFlags byte (s.regSource byte wn) (lit.zeroExtend 16))).advanced 1))

/-- The single-bit shifts of an operand and of a file register (R206, R207, R208): the result goes to the destination;
C is the bit shifted out, N and Z are of the result, DC is unchanged and OV is left open. What they compute, in
integers, for a value of the operation width w: doubling modulo 2^w, halving, and halving of the signed value. It
rests on the model's choices of log entry 38. -/
def Obligations.SingleBitShifts : Prop :=
  ∀ (byte : Bool) (i : Instr) (f : Word → ShiftResult) (s t u : State) (v : Word),
    let leaves := fun hit => hit = false → exec i s = .next (({ u with free := u.free + 1 }.withFlags
      { u.flags with n := msb byte (f v).value, z := (f v).value == 0#16, c := (f v).carry,
                     ov := Config.anyBit u.free }).advanced 1)
    let w := if byte then 8 else 16
    (∀ src dst, s.source? byte 0#4 src = some (v, t) → t.dest? byte 0#4 dst (f v).value = some u →
      (i, f) ∈ [(Instr.slReg byte src dst, shiftLeft1 byte), (.lsrReg byte src dst, shiftRight1),
        (.asrReg byte src dst, shiftArith1 byte)] →
      leaves (t.destIsSr byte 0#4 dst)) ∧
    (∀ toFile f13, s.dataRead? .paged (nearAddr f13) byte = some v →
      s.fileDest? byte toFile (nearAddr f13) (f v).value = some u →
      (i, f) ∈ [(Instr.slFile byte toFile f13, shiftLeft1 byte), (.lsrFile byte toFile f13, shiftRight1),
        (.asrFile byte toFile f13, shiftArith1 byte)] →
      leaves (fileIsSr s.dev byte toFile (nearAddr f13))) ∧
    ((byte = true → v.toNat < 256) →
      (shiftLeft1 byte v).value.toNat = 2 * v.toNat % 2 ^ w ∧
      ((shiftLeft1 byte v).carry = true ↔ 2 ^ (w - 1) ≤ v.toNat) ∧
      (shiftRight1 v).value.toNat = v.toNat / 2 ∧ ((shiftRight1 v).carry = true ↔ v.toNat % 2 = 1) ∧
      (shiftArith1 byte v).value.toNat = v.toNat / 2 + (if 2 ^ (w - 1) ≤ v.toNat then 2 ^ (w - 1) else 0) ∧
      ((shiftArith1 byte v).carry = true ↔ v.toNat % 2 = 1))

/-- The multi-bit shifts (R209, R210, R211), with the count from the literal or from bits 4:0 of a register: the value
times 2^n modulo 2^16, and the unsigned and the signed value divided by 2^n rounding down; N and Z are of the result. -/
def Obligations.MultiBitShifts : Prop :=
  ∀ (s : State) (wb wd : Reg) (n : Nat) (r : Word) (i : Instr),
    (n < 16 ∧ i ∈ [Instr.slLit4 wb (BitVec.ofNat 4 n) wd, .lsrLit4 wb (BitVec.ofNat 4 n) wd,
        .asrLit4 wb (BitVec.ofNat 4 n) wd] ∨
      ∃ wns, n = (s.wreg wns).toNat % 32 ∧ i ∈ [Instr.slW wb wns wd, .lsrW wb wns wd, .asrW wb wns wd]) →
    (match i with
      | .slLit4 _ _ _ | .slW _ _ _ => r.toNat = (s.wreg wb).toNat * 2 ^ n % 2 ^ 16
      | .lsrLit4 _ _ _ | .lsrW _ _ _ => r.toNat = (s.wreg wb).toNat / 2 ^ n
      | _ => r.toInt = (s.wreg wb).toInt / 2 ^ n) →
    exec i s = .next (((s.setWreg wd r).withFlags { s.flags with n := r.getLsbD 15, z := r == 0#16 }).advanced 1)

/-- `BSET` sets one bit of a register, of an operand in memory or of a file register and changes no flag and nothing
else (R213); in the byte of SR that holds the accumulator status bits it leaves SA and SB open besides (R422). It
rests on the model's choices of log entry 39. -/
def Obligations.BitSet : Prop :=
  ∀ (byte : Bool) (bit : BitVec 4) (s : State),
    (∀ r, exec (.bsetReg byte bit ⟨.direct, r⟩) s =
      .next ((s.regDest byte r (s.regSource byte r ||| (1#16 <<< bit.toNat))).advanced 1)) ∧
    (∀ op a v t, op.mode ≠ .direct → s.access? op 0#4 (stepOf byte) true = some a →
      a.state.dataRead? a.via a.ea byte = some v →
      a.state.dataWrite? a.via a.ea byte (v ||| (1#16 <<< bit.toNat)) = some t → bitInSrh s.dev byte a.ea bit = false →
      exec (.bsetReg byte bit op) s = .next ((t.postModified op (stepOf byte)).advanced 1)) ∧
    (∀ f13 v t, s.dataRead? .paged (nearAddr f13) byte = some v →
      s.dataWrite? .paged (nearAddr f13) byte (v ||| (1#16 <<< bit.toNat)) = some t →
      (bitInSrh s.dev byte (nearAddr f13) bit = false → exec (.bsetFile byte f13 bit) s = .next (t.advanced 1)) ∧
      (bitInSrh s.dev byte (nearAddr f13) bit = true → s.dev.hasDsp = true →
        exec (.bsetFile byte f13 bit) s = .next (({ t with free := t.free + 2 }.setSat (Config.anyBit t.free)
          (Config.anyBit (t.free + 1))).advanced 1)))

/-- `BTSC` skips the next program word when the bit is clear and goes on when it is set (R214, R300). -/
def Obligations.BitTestSkips : Prop :=
  ∀ (bit : BitVec 4) (s t : State) (v : Word),
    (∀ op, s.source? false 0#4 op = some (v, t) →
      exec (.btscReg bit op) s = .next { t with pc := if v.getLsbD bit.toNat then t.pc + 2#23 else t.pc + 4#23 }) ∧
    (∀ byte f13, s.dataRead? .paged (nearAddr f13) byte = some v →
      exec (.btscFile byte f13 bit) s =
        .next { s with pc := if v.getLsbD bit.toNat then s.pc + 2#23 else s.pc + 4#23 })

/-- The 32-bit multiplies (R215 to R220): the pair of destination registers holds the exact product of the two factors,
signed or unsigned as the instruction says, and no flag changes. -/
def Obligations.MultiplyToPair : Prop :=
  ∀ (wb wd : Reg) (s t : State) (b : Word) (signs : Signs) (i : Instr), mulDestOk wd = true →
    ((∃ src, s.source? false 0#4 src = some (b, t) ∧ (signs, i) ∈ [(Signs.uu, Instr.mulUU wb src wd),
        (.us, .mulUS wb src wd), (.su, .mulSU wb src wd), (.ss, .mulSS wb src wd)]) ∨
      ∃ lit : BitVec 5, t = s ∧ b = lit.zeroExtend 16 ∧
        (signs, i) ∈ [(Signs.uu, Instr.mulUULit5 wb lit wd), (.su, .mulSULit5 wb lit wd)]) →
    let a := s.wreg wb
    let x : Int := match signs with | .ss | .su => a.toInt | .us | .uu => a.toNat
    let y : Int := match signs with | .ss | .us => b.toInt | .su | .uu => b.toNat
    ∃ u, exec i s = .next u ∧
      (match signs with
        | .uu => ((u.wreg (wd + 1#4) ++ u.wreg wd).toNat : Int) = x * y
        | _ => (u.wreg (wd + 1#4) ++ u.wreg wd).toInt = x * y) ∧
      u = ((t.setWreg wd (u.wreg wd)).setWreg (wd + 1#4) (u.wreg (wd + 1#4))).advanced 1

/-- The other multiplies (R220, R221, R222): `MUL f`, the unsigned product of W0 and the file register in W3:W2, or of
their low bytes in W2; the 16-bit multiplies, which keep the low 16 bits of the product, the same for every
signedness, in one register; and a multiply into an accumulator, which stores the product sign- or zero-extended to 40
bits and leaves the two status bits of that accumulator open. It rests on the model's choices of log entry 38. -/
def Obligations.MultiplyOtherForms : Prop :=
  ∀ (wb : Reg) (s t : State) (b : Word),
    (∀ f13, s.dataRead? .paged (nearAddr f13) false = some b →
      ∃ u, exec (.mulFile false f13) s = .next u ∧ (u.wreg 3#4 ++ u.wreg 2#4).toNat = (s.wreg 0#4).toNat * b.toNat ∧
        u = ((s.setWreg 2#4 (u.wreg 2#4)).setWreg 3#4 (u.wreg 3#4)).advanced 1) ∧
    (∀ f13, s.dataRead? .paged (nearAddr f13) true = some b →
      ∃ u, exec (.mulFile true f13) s = .next u ∧ (u.wreg 2#4).toNat = (s.wreg 0#4).toNat % 256 * b.toNat ∧
        u = (s.setWreg 2#4 (u.wreg 2#4)).advanced 1) ∧
    (∀ src wd, s.source? false 0#4 src = some (b, t) → ∀ i, i ∈ [Instr.mulwSS wb src wd, .mulwSU wb src wd,
        .mulwUS wb src wd, .mulwUU wb src wd] →
      exec i s = .next ((t.setWreg wd (s.wreg wb * b)).advanced 1)) ∧
    (∀ signs m acc, s.dev.hasDsp = true →
      ((∃ src, m = .op src ∧ s.source? false 0#4 src = some (b, t)) ∨
        ∃ k : BitVec 5, m = .lit5 k ∧ t = s ∧ b = k.zeroExtend 16) →
      let x : Int := match signs with | .ss | .su => (s.wreg wb).toInt | .us | .uu => (s.wreg wb).toNat
      let y : Int := match signs with | .ss | .us => b.toInt | .su | .uu => b.toNat
      ∃ u, exec (.mulAcc signs wb m acc) s = .next u ∧ (u.acc acc).toInt = x * y ∧
        u.acc (otherAcc acc) = t.acc (otherAcc acc) ∧ u.flags = t.flags ∧ u.ctx = t.ctx ∧ u.w15 = t.w15 ∧
        u.pc = t.pc + 2#23 ∧ sameMemory t u)

/-- The executions of a divide (R228 to R231). Each of the five answers a next state that differs only in W0, W1, N,
OV, Z, C, the divide in progress and, for a divisor of 0, DIV0ERR and a pending `MathError`; DC is unchanged. `DIVF`
needs a device that has it (R230). A divide that `REPEAT` executes first with 17 repetitions to come, and no other in
progress, starts a complete operation on its operands as they are, and the last of its executions puts the quotient in
W0, the remainder in W1, and sets N and Z with OV clear, or only sets OV when the quotient does not fit. Every
execution of a divide without a result leaves open values: of one whose first execution has another count, which a
handler starts while it suspends another, which starts while one left unfinished holds a result, whose divisor is W0 or
W1 (R224), which finds no divide in progress without being the first, or which divides by 0. A divide outside `REPEAT`
takes the result from the one it interrupts (R228, R426). How the model tells divides apart is its choice, log entry
29. -/
def Obligations.DivideExecutions : Prop :=
  ∀ (s : State) (hi wm wn : Reg) (i : Instr) (result : DivResult),
    ((i, result) ∈ [(Instr.divSW wm wn, divSigned (s.wreg wm).toInt (s.wreg wn).toInt),
        (.divSD hi wm wn, divSigned (s.wreg hi ++ s.wreg wm).toInt (s.wreg wn).toInt),
        (.divUW wm wn, divUnsigned (s.wreg wm).toNat (s.wreg wn).toNat),
        (.divUD hi wm wn, divUnsigned (s.wreg hi ++ s.wreg wm).toNat (s.wreg wn).toNat)] ∨
      (i = .divF wm wn ∧ s.dev.hasDivf = true ∧
        result = divSigned ((s.wreg wm).toInt * 2 ^ 15) (s.wreg wn).toInt)) →
    let run : Nat → DivResult → Option DivRun := fun n final => some { at_ := s.pc, remaining := n, result := final }
    ∃ t, exec i s = .next t ∧ sameRegistersBut s t [0#4, 1#4] ∧ sameMemory s t ∧ t.flags.dc = s.flags.dc ∧
      t.pc = s.pc + 2#23 ∧
      t = { s with ctx := t.ctx, flags := t.flags, pc := t.pc, div := t.div, intcon := t.intcon, pending := t.pending,
                   free := t.free } ∧
      (s.wreg wn = 0#16 → t.intcon = { s.intcon with div0err := true } ∧ t.pending.mathError = true) ∧
      (s.wreg wn ≠ 0#16 → t.intcon = s.intcon ∧ t.pending = s.pending) ∧
      (s.wreg wn ≠ 0#16 → s.ra = true → wn ≠ 0#4 → wn ≠ 1#4 →
        (s.repeatNew = true → s.rcount = 17#16 → s.div = none → (∀ f ∈ s.nest, f.divides = false) →
          t.div = run 17 result) ∧
        (s.repeatNew = false →
          (∀ final n, s.div = run (n + 2) final → s.rcount.toNat = n + 1 → t.div = run (n + 1) final) ∧
          (∀ q r n z, s.div = run 1 (.value q r n z) → s.rcount = 0#16 →
            t.wreg 0#4 = q ∧ t.wreg 1#4 = r ∧ t.flags.n = n ∧ t.flags.z = z ∧ t.flags.ov = false ∧ t.div = none) ∧
          (s.div = run 1 .overflow → s.rcount = 0#16 → t.flags.ov = true ∧ t.div = none))) ∧
      (s.ra = true →
        (s.wreg wn = 0#16 ∨ (s.repeatNew = true ∧ s.rcount ≠ 17#16) ∨
          (s.repeatNew = true ∧ ∃ f ∈ s.nest, f.divides = true) ∨
          (s.repeatNew = true ∧ ∃ r, s.div = some r ∧ r.result ≠ .unknown) ∨
          (s.repeatNew = true ∧ (wn = 0#4 ∨ wn = 1#4)) ∨
          (s.repeatNew = false ∧
            ((∀ final, s.div ≠ run (s.rcount.toNat + 1) final) ∨ s.div = run (s.rcount.toNat + 1) .unknown))) →
        t.wreg 0#4 = Config.anyBits 16 s.free ∧ t.wreg 1#4 = Config.anyBits 16 (s.free + 1) ∧
        t.flags.n = Config.anyBit (s.free + 3) ∧ t.flags.ov = Config.anyBit (s.free + 4) ∧
        t.flags.z = Config.anyBit (s.free + 5) ∧ t.flags.c = Config.anyBit (s.free + 6) ∧
        t.div = if s.rcount = 0#16 then none else run s.rcount.toNat .unknown) ∧
      (s.ra = false → t.wreg 0#4 = Config.anyBits 16 s.free ∧ t.wreg 1#4 = Config.anyBits 16 (s.free + 1) ∧
        t.div = s.div.map fun r => { r with result := .unknown })

/-- What a divide computes, in integers (R225 to R230): the dividend is quotient times divisor plus remainder, the
remainder is smaller than the divisor and has the dividend's sign, N says that it is negative and Z that it is zero; the
quotient fits exactly when there is no overflow. -/
def Obligations.DivideArithmetic : Prop :=
  ∀ (n d : Int), d ≠ 0 →
    (-32768 ≤ d → d ≤ 32767 →
      (divSigned n d = .overflow ↔ (n.tdiv d < -32768 ∨ 32767 < n.tdiv d)) ∧
      ∀ q r neg zero, divSigned n d = .value q r neg zero →
        n = q.toInt * d + r.toInt ∧ r.toInt.natAbs < d.natAbs ∧ (0 ≤ n → 0 ≤ r.toInt) ∧ (n ≤ 0 → r.toInt ≤ 0) ∧
        (neg = true ↔ r.toInt < 0) ∧ (zero = true ↔ r = 0#16)) ∧
    (0 ≤ n → 0 < d → d ≤ 65535 →
      (divUnsigned n d = .overflow ↔ 65535 < n / d) ∧
      ∀ q r neg zero, divUnsigned n d = .value q r neg zero →
        n = q.toNat * d + r.toNat ∧ (r.toNat : Int) < d ∧ neg = false ∧ (zero = true ↔ r = 0#16))

/-- `REPEAT #17` begins a loop that has still to execute its target, with the divide and the handlers it finds. Eighteen
steps of a signed divide as the target of such a loop, with no other divide in progress, end the loop with the quotient
in W0 and the remainder in W1 (R225, R228, R310, R314). It rests on the model's choices of log entry 29. -/
def Obligations.CompleteSignedDivide : Prop :=
  (∀ s : State, ∃ t, exec (.repeatLit 17#15) s = .next t ∧
    t.repeatNew = true ∧ t.rcount = 17#16 ∧ t.ra = true ∧ t.div = s.div ∧ t.nest = s.nest) ∧
  ∀ (s : State) (wm wn : Reg), s.power = .run → s.pending = Pending.empty → s.irqs = [] → s.ra = true → s.da = false →
    s.rcount = 17#16 → s.div = none → s.repeatNew = true → (∀ f ∈ s.nest, f.divides = false) →
    s.holds (.divSW wm wn) → wn ≠ 0#4 → wn ≠ 1#4 → wm ≠ 0#4 → wm ≠ 1#4 →
    s.wreg wn ≠ 0#16 → (s.wreg wm = 0x8000#16 → s.wreg wn ≠ 0xFFFF#16) →
    ∃ t, Host.Core.run Sys2Proof.core 18 s = .next t ∧ t.pc = s.pc + 2#23 ∧ t.ra = false ∧ t.rcount = 0#16 ∧
      (t.wreg 0#4).toInt = (s.wreg wm).toInt.tdiv (s.wreg wn).toInt ∧
      (t.wreg 1#4).toInt = (s.wreg wm).toInt.tmod (s.wreg wn).toInt ∧
      t.flags.ov = false ∧ (t.flags.n = true ↔ (t.wreg 1#4).toInt < 0) ∧ (t.flags.z = true ↔ t.wreg 1#4 = 0#16)

/-! The DSP engine. -/

/-- The accumulator update. What it stores, in integers (R247 to R249): the result clamped to 40 bits, clamped to 32
bits, or modulo 2^40, as the saturation mode says. What it changes (R247, R250, R251, R365): the target accumulator, its
O bit, its S bit which is only ever set, and with the enables set the error bits and a pending `MathError`; the other
accumulator, its bits, the MCU flags and the copies of the DSP state that other contexts hold (R63) stay. That the O bit
tests the stored value is the spec's own reading (R250, D7). -/
def Obligations.AccumulatorUpdate : Prop :=
  ∀ (s : State) (x : AccId) (r : Int) (wide : Bool),
    let sat := s.satOf x
    let out := accResult sat s.dspCur.accsat r
    let t := s.accUpdated x r
    let o := fun (d : DspCtx) (y : AccId) => match y with | .a => d.oa | .b => d.ob
    let h := fun (d : DspCtx) (y : AccId) => match y with | .a => d.sa | .b => d.sb
    let ovf := out.o && (match x with | .a => s.intcon.ovate | .b => s.intcon.ovbte)
    let cat := !sat && out.s && s.intcon.covte
    (accResult true true r).value.toInt = max (-2 ^ 39) (min (2 ^ 39 - 1) r) ∧
    (accResult true false r).value.toInt = max (-2 ^ 31) (min (2 ^ 31 - 1) r) ∧
    (accResult false wide r).value = BitVec.ofInt 40 r ∧
    ((accResult true true r).s = true ↔ r < -2 ^ 39 ∨ 2 ^ 39 - 1 < r) ∧
    ((accResult true false r).s = true ↔ r < -2 ^ 31 ∨ 2 ^ 31 - 1 < r) ∧
    ((accResult false wide r).s = true ↔ r < -2 ^ 39 ∨ 2 ^ 39 - 1 < r) ∧
    (accResult true false r).o = false ∧
    (∀ st, (st && !wide) = false → ((accResult st wide r).o = true ↔
      ((accResult st wide r).value.toInt < -2 ^ 31 ∨ 2 ^ 31 - 1 < (accResult st wide r).value.toInt))) ∧
    t.acc x = out.value ∧ o t.dspCur x = out.o ∧ h t.dspCur x = (h s.dspCur x || out.s) ∧
    t.acc (otherAcc x) = s.acc (otherAcc x) ∧ o t.dspCur (otherAcc x) = o s.dspCur (otherAcc x) ∧
    h t.dspCur (otherAcc x) = h s.dspCur (otherAcc x) ∧ t.flags = s.flags ∧ t.pc = s.pc ∧ t.mem = s.mem ∧
    t.ctx = s.ctx ∧ t.w15 = s.w15 ∧
    (∀ c : Fin 5, c ≠ (if s.dev.dspContexts then s.cctxi else 0) → t.dsp[c] = s.dsp[c]) ∧
    t.intcon = (match x with
      | .a => { s.intcon with ovaerr := s.intcon.ovaerr || ovf, covaerr := s.intcon.covaerr || cat }
      | .b => { s.intcon with ovberr := s.intcon.ovberr || ovf, covberr := s.intcon.covberr || cat }) ∧
    t.pending = s.pending.put .mathError (s.pending.mathError || ovf || cat)

/-- The multiply-class instructions (R243, R246, R255, R258 to R264): the product of the two registers, from their
values before any prefetch, is added to, subtracted from or loaded into the accumulator, then come the X prefetch, the
Y prefetch and the write-back. `ED` and `EDAC` square the held difference, and the difference of the two prefetched
words becomes the next difference, with both pointers updated. It rests on the model's choices of log entry 33. -/
def Obligations.MultiplyAccumulate : Prop :=
  ∀ (pair : MulPair) (wm : BitVec 2) (acc : AccId) (s u : State) (p : Int), s.dev.hasDsp = true →
    let old := (s.acc acc).toInt
    (∀ x y awb,
      let does := fun (i : Instr) (b : Awb) (r : Int) => (s.accUpdated acc r).transfers? acc x y b = some u →
        exec i s = .next (u.advanced 1)
      (s.prod (pairRegs pair).1 (pairRegs pair).2 = some p →
        does (.mac pair acc x y awb) awb (old + p) ∧ does (.msc pair acc x y awb) awb (old - p) ∧
        does (.mpy pair acc x y) .none p ∧ does (.mpyN pair acc x y) .none (-p)) ∧
      (s.prod (dspReg wm) (dspReg wm) = some p →
        does (.macSq wm acc x y) .none (old + p) ∧ does (.mpySq wm acc x y) .none p)) ∧
    (∀ (x y : PfAddr) (xd : BitVec 2) (t : State) (a b : Word), s.prod (dspReg wm) (dspReg wm) = some p →
      let does := fun (i : Instr) (r : Int) => (s.accUpdated acc r).prefetchWord? false x = some (a, t) →
        (t.pfAdvance false x).prefetchWord? true y = some (b, u) →
        exec i s = .next (((u.pfAdvance true y).setWreg (dspReg xd) (a - b)).advanced 1)
      does (.ed wm acc x y xd) p ∧ does (.edac wm acc x y xd) (old + p))

/-- What the multiplier computes (R242, R243): signed, unsigned or mixed factors as US says, doubled in fractional mode;
under the reserved code 11 each of the multiplies of section 4 of 42_dsp.md is refused (R52), and without the DSP engine
too (R11). -/
def Obligations.MultiplierModes : Prop :=
  ∀ (s : State) (m n : BitVec 2),
    let f : Int := if s.dspCur.intMode then 1 else 2
    let val : BitVec 2 → Bool → Int := fun k signed =>
      if signed then (s.wreg (dspReg k)).toInt else (s.wreg (dspReg k)).toNat
    (s.dspCur.us = 0#2 → s.prod (dspReg m) (dspReg n) = some (f * (val m true * val n true))) ∧
    (s.dspCur.us = 1#2 → s.prod (dspReg m) (dspReg n) = some (f * (val m false * val n false))) ∧
    (s.dspCur.us = 2#2 →
      s.prod (dspReg m) (dspReg n) = some (f * (val m (m.getLsbD 0) * val n (n.getLsbD 0)))) ∧
    (∀ (pair : MulPair) (acc : AccId) (x y : Prefetch) (awb : Awb) (px py : PfAddr) (i : Instr),
      i ∈ [.mac pair acc x y awb, .macSq m acc x y, .msc pair acc x y awb, .mpy pair acc x y, .mpySq m acc x y,
           .mpyN pair acc x y, .ed m acc px py n, .edac m acc px py n] →
      (s.dev.hasDsp = true → s.dspCur.us = 3#2 → exec i s = .refused .reservedMultiplierMode) ∧
      (s.dev.hasDsp = false → exec i s = .refused .noDsp))

/-- `ADD Acc`, `ADD Ws, #Slit4, Acc` and `LAC` (R265, R266, R267): the other accumulator, or the source word placed in
bits 31:16 and shifted (right for a positive count, rounding down), is added or loaded. -/
def Obligations.AccumulatorAddAndLoad : Prop :=
  ∀ (acc : AccId) (wb : Reg) (src : Operand) (shift : BitVec 4) (s t : State) (v : Word), s.dev.hasDsp = true →
    exec (.addAcc acc) s =
      .next ((s.accUpdated acc ((s.acc acc).toInt + (s.acc (otherAcc acc)).toInt)).advanced 1) ∧
    (s.source? false wb src = some (v, t) →
      let x : Int := if 0 ≤ shift.toInt then v.toInt * 2 ^ 16 / 2 ^ shift.toInt.toNat
        else v.toInt * 2 ^ 16 * 2 ^ (-shift.toInt).toNat
      exec (.addToAcc wb src shift acc) s = .next ((t.accUpdated acc ((t.acc acc).toInt + x)).advanced 1) ∧
      exec (.lac wb src shift acc) s = .next ((t.accUpdated acc x).advanced 1))

/-- `SAC` and `SAC.R` store the accumulator, shifted and truncated or rounded, and leave it, its status bits and
everything but the destination as they are (R254, R268, R269). What is stored, in integers, for every shift from -8 to 7
(R253, R254, R256): the accumulator divided by 2^n rounding down, or times 2^-n with the bits above bit 39 lost; of that
bits 39:16 rounded down, or with half added by conventional rounding, or the nearest with ties to the even value by
convergent rounding; with SATDW clamped to 16 bits, otherwise modulo 2^16. That the left shift loses bits is the spec's
own reading (R256). -/
def Obligations.AccumulatorStore : Prop :=
  ∀ (acc : AccId) (shift : BitVec 4) (wb : Reg) (dst : Operand) (rounded : Bool) (s t : State) (v : Acc40),
    (s.dev.hasDsp = true → s.dest? false wb dst (s.storeValue (s.acc acc) shift.toInt rounded) = some t →
      let x := t.advanced 1
      exec (if rounded then .sacR acc shift wb dst else .sac acc shift wb dst) s = .next x ∧
      (dst.mode = .direct →
        (dst.reg ≠ 15#4 → x.wreg dst.reg = s.storeValue (s.acc acc) shift.toInt rounded) ∧
        sameRegistersBut s x [dst.reg] ∧ sameMemory s x ∧ sameElsewhere s x ∧ x.flags = s.flags ∧
        x.pending = s.pending) ∧
      (∀ a lin, dst.mode ≠ .direct → s.access? dst wb 2#16 false = some a → a.state.writeTarget a.via a.ea = .ram lin →
        x.ramWord lin = s.storeValue (s.acc acc) shift.toInt rounded ∧
        sameRegistersBut s x (modifiedBy dst) ∧ sameMemoryBut s x lin 2 ∧ sameElsewhere s x ∧ x.flags = s.flags)) ∧
    (let n := shift.toInt
     let scaled : Int := if 0 ≤ n then v.toInt / 2 ^ n.toNat else v.toInt * 2 ^ (-n).toNat
     let kept : Int := (scaled + 2 ^ 39) % 2 ^ 40 - 2 ^ 39
     let down := kept / 2 ^ 16
     let rest := kept % 2 ^ 16
     let up : Bool := rounded && (if s.dspCur.rnd then decide (2 ^ 15 ≤ rest)
       else decide (2 ^ 15 < rest) || (decide (rest = 2 ^ 15) && decide (down % 2 = 1)))
     let u : Int := if up then down + 1 else down
     s.storeValue v n rounded =
       BitVec.ofInt 16 (if s.dspCur.satdw then max (-0x8000) (min 0x7FFF u) else u)) ∧
    truncAcc v = v.toInt / 2 ^ 16 ∧
    roundAcc true v = (v.toInt + 2 ^ 15) / 2 ^ 16 ∧
    (v.toInt % 2 ^ 16 ≠ 2 ^ 15 → roundAcc false v = (v.toInt + 2 ^ 15) / 2 ^ 16) ∧
    (v.toInt % 2 ^ 16 = 2 ^ 15 → roundAcc false v % 2 = 0 ∧
      (roundAcc false v = v.toInt / 2 ^ 16 ∨ roundAcc false v = v.toInt / 2 ^ 16 + 1))

/-- `SFTAC` (R256, R270, R271): an arithmetic shift of the accumulator by -16 to 16, right for a positive count, through
the accumulator update; beyond that range SFTACERR is set, a `MathError` is pending and the accumulator is unchanged. -/
def Obligations.ShiftAccumulator : Prop :=
  ∀ (acc : AccId) (k : BitVec 6) (wb : Reg) (s : State), s.dev.hasDsp = true →
    let v := (s.acc acc).toInt
    let does := fun (i : Instr) (n : Int) =>
      (0 ≤ n → n ≤ 16 → exec i s = .next ((s.accUpdated acc (v / 2 ^ n.toNat)).advanced 1)) ∧
      (-16 ≤ n → n < 0 → exec i s = .next ((s.accUpdated acc (v * 2 ^ (-n).toNat)).advanced 1)) ∧
      ((n < -16 ∨ 16 < n) → exec i s =
        .next (({ s with intcon := { s.intcon with sftacerr := true } }.addPending .mathError).advanced 1))
    does (.sftacLit acc k) k.toInt ∧ does (.sftacW acc wb) (s.wreg wb).toInt

/-! Program flow. -/

/-- `NOP`, `NOPR`, `GOTO` and the branches change the pc and nothing else (R281 to R288, R299); the conditions are read
from N, OV, Z and C as the condition table says (R288). -/
def Obligations.JumpsAndBranches : Prop :=
  ∀ (s : State) (off : BitVec 16) (t : BitVec 22) (w : Reg) (cond : Cond) (fl : Flags),
    let rel : Word → ProgAddr := fun o => BitVec.ofInt 23 ((s.pc.toNat : Int) + 2 + 2 * o.toInt)
    (s.pc.getLsbD 0 = false →
    exec .nop s = .next (s.advanced 1) ∧ exec .nopr s = .next (s.advanced 1) ∧
    exec (.bra off) s = .next { s with pc := rel off } ∧
    exec (.braW w) s = .next { s with pc := rel (s.wreg w) } ∧
    exec (.braCond cond off) s = .next { s with pc := if s.flags.holds cond then rel off else s.pc + 2#23 } ∧
    exec (.goto t) s = .next { s with pc := t ++ 0#1 } ∧
    exec (.gotoW w) s = .next { s with pc := ((s.wreg w).extractLsb' 1 15 ++ 0#1).zeroExtend 23 } ∧
    (s.dev.hasDsp = true →
      exec (.braOA off) s = .next { s with pc := if s.dspCur.oa then rel off else s.pc + 2#23 } ∧
      exec (.braOB off) s = .next { s with pc := if s.dspCur.ob then rel off else s.pc + 2#23 } ∧
      exec (.braSA off) s = .next { s with pc := if s.dspCur.sa then rel off else s.pc + 2#23 } ∧
      exec (.braSB off) s = .next { s with pc := if s.dspCur.sb then rel off else s.pc + 2#23 })) ∧
    (fl.holds .ov = true ↔ fl.ov = true) ∧ (fl.holds .nov = true ↔ fl.ov = false) ∧
    (fl.holds .c = true ↔ fl.c = true) ∧ (fl.holds .nc = true ↔ fl.c = false) ∧
    (fl.holds .z = true ↔ fl.z = true) ∧ (fl.holds .nz = true ↔ fl.z = false) ∧
    (fl.holds .n = true ↔ fl.n = true) ∧ (fl.holds .nn = true ↔ fl.n = false) ∧
    (fl.holds .le = true ↔ fl.z = true ∨ fl.n ≠ fl.ov) ∧ (fl.holds .gt = true ↔ fl.z = false ∧ fl.n = fl.ov) ∧
    (fl.holds .lt = true ↔ fl.n ≠ fl.ov) ∧ (fl.holds .ge = true ↔ fl.n = fl.ov) ∧
    (fl.holds .leu = true ↔ fl.c = false ∨ fl.z = true) ∧ (fl.holds .gtu = true ↔ fl.c = true ∧ fl.z = false)

/-- The five calls (R289 to R295): the return address and SFA go to the stack in two words, SFA is cleared, and the pc
goes to the target. -/
def Obligations.Calls : Prop :=
  ∀ (s : State) (t : BitVec 22) (off : BitVec 16) (hi w : Reg), s.canPush2 = true → s.pc.getLsbD 0 = false →
    let after : ProgAddr → State := fun ret =>
      (s.pushed (ret.extractLsb' 1 15 ++ BitVec.ofBool s.sfa)).pushed ((ret.extractLsb' 16 7).zeroExtend 16)
    let rel : Word → ProgAddr := fun o => BitVec.ofInt 23 ((s.pc.toNat : Int) + 2 + 2 * o.toInt)
    exec (.call t) s = .next { after (s.pc + 4#23) with sfa := false, pc := t ++ 0#1 } ∧
    exec (.callW w) s = .next { after (s.pc + 2#23) with
      sfa := false, pc := ((s.wreg w).extractLsb' 1 15 ++ 0#1).zeroExtend 23 } ∧
    exec (.callL hi w) s = .next { after (s.pc + 2#23) with
      sfa := false, pc := (s.wreg hi).extractLsb' 0 7 ++ (s.wreg w).extractLsb' 1 15 ++ 0#1 } ∧
    exec (.rcall off) s = .next { after (s.pc + 2#23) with sfa := false, pc := rel off } ∧
    exec (.rcallW w) s = .next { after (s.pc + 2#23) with sfa := false, pc := rel (s.wreg w) }

/-- The returns (R296, R297, R298, R385, R386): the pc and SFA come back from the two stacked words; `RETLW` puts its
literal in a register first; `RETFIE` restores SRL, IPL3 and the context besides. That IPL3 comes from bit 7 of the
stacked word, and how the context is chosen, are the spec's decisions D15 and D24 and the model's log entries 22 and
40; that it takes back the record of the entry whose frame it pops is log entry 29. -/
def Obligations.Returns : Prop :=
  ∀ s : State, s.canPop2 = true →
    let h := s.top
    let l := s.popped.top
    let back : ProgAddr := h.extractLsb' 0 7 ++ l.extractLsb' 1 15 ++ 0#1
    exec .ret s = .next { s.popped.popped with sfa := l.getLsbD 0, pc := back } ∧
    (∀ lit wn, wn ≠ 15#4 →
      exec (.retlw false lit wn) s =
        .next { (s.setWreg wn (lit.zeroExtend 16)).popped.popped with sfa := l.getLsbD 0, pc := back } ∧
      exec (.retlw true lit wn) s =
        .next { (s.setWregLow wn (lit.extractLsb' 0 8)).popped.popped with sfa := l.getLsbD 0, pc := back }) ∧
    (let t : State := { s.popped.popped with
        flags := { s.flags with n := h.getLsbD 11, ov := h.getLsbD 10, z := h.getLsbD 9, c := h.getLsbD 8 }
        ra := h.getLsbD 12
        ipl := h.extractLsb' 13 3
        ipl3 := h.getLsbD 7
        nest := s.nest.filter fun f => f.frame != s.w15
        repeatNew := s.nest.any fun f => f.repeatNew && f.frame == s.w15 && f.high == h && f.low == l
        sfa := l.getLsbD 0
        pc := back }
     exec .retfie s = .next { t with cctxi := t.contextOnReturn })

/-- A call followed by `RETURN` comes back to the instruction after the call, with the stack pointer and SFA as they
were (R289, R290, R296). -/
def Obligations.CallThenReturn : Prop :=
  ∀ (s u : State) (t : BitVec 22), s.canPush2 = true → s.splimEnabled = false → s.pc.getLsbD 0 = false →
    exec (.call t) s = .next u →
    u.pc = t ++ 0#1 ∧ ∃ v, exec .ret u = .next v ∧ v.pc = s.pc + 4#23 ∧ v.w15 = s.w15 ∧ v.sfa = s.sfa ∧
      v.ctx = s.ctx ∧ v.flags = s.flags ∧ sameMemoryBut s v s.w15.toNat 4

/-! Loops. -/

/-- `REPEAT` (R311, R312): RCOUNT takes the count, RA is set unless the count is 0, nothing else of the machine but the
pc changes; of the model's own fields only the mark of a loop that has still to execute its target. -/
def Obligations.RepeatStarts : Prop :=
  ∀ (s : State) (lit : BitVec 15) (w : Reg),
    (∃ t, exec (.repeatLit lit) s = .next t ∧
      t = { s with rcount := lit.zeroExtend 16, ra := s.ra || decide (lit ≠ 0#15), pc := s.pc + 2#23,
                   repeatNew := t.repeatNew }) ∧
    ∃ t, exec (.repeatW w) s = .next t ∧
      t = { s with rcount := s.wreg w, ra := s.ra || decide (s.wreg w ≠ 0#16), pc := s.pc + 2#23,
                   repeatNew := t.repeatNew }

/-- A repeated `NOP` is executed RCOUNT + 1 times (R310, R314): after so many steps the loop has ended and the pc
stands at the next instruction; the model no longer counts it as one that has still to execute its target, and keeps
the handlers that still run (log entry 29). -/
def Obligations.RepeatExecutesCountPlusOne : Prop :=
  ∀ (n : Nat) (s : State), s.power = .run → s.pending = Pending.empty → s.irqs = [] → s.ra = true → s.da = false →
    s.disicnt = 0#14 → s.haz = Hazard.none → s.hazNext = Hazard.none → s.holds .nop → s.rcount.toNat = n →
    Host.Core.run Sys2Proof.core (n + 1) s =
      .next { s with rcount := 0#16, ra := false, pc := s.pc + 2#23, repeatNew := false, nest := s.nestKept }

/-- `DO` below four levels (R319, R320): the loop registers go to the DO stack entry of the current level (to none at
level 0), the level rises, and DOSTART, DOEND and DCOUNT take the new loop. At the fourth level only DOOVR is set and
the generic soft trap is pending (R367); the three forbidden loop lengths are refused (R329), and `DO` on a device
without the DSP engine too (R11). It rests on the model's choices of log entries 30, 32 and 46. -/
def Obligations.DoStarts : Prop :=
  ∀ (s : State) (lit : BitVec 15) (w : Reg) (off : BitVec 16) (i : Instr) (count : Word),
    (i, count) ∈ [(Instr.doLit lit off, lit.zeroExtend 16), (.doW w off, s.wreg w)] →
    let first : ProgAddr := s.pc + 4#23
    let last : ProgAddr := BitVec.ofInt 23 ((s.pc.toNat : Int) + 4 + 2 * off.toInt)
    (s.dev.hasDsp = true → s.dl.toNat < 4 → s.pc.getLsbD 0 = false →
      off.toInt ≠ 0 → off.toInt ≠ -1 → off.toInt ≠ -2 →
      ∃ t, exec i s = .next t ∧ t.dl = s.dl + 1#3 ∧ t.dostart ++ 0#1 = first ∧ t.doendPc = last ∧ t.dcount = count ∧
        t.pc = first ∧ t.flags = s.flags ∧
        (∀ k : Fin 3, t.dostack[k] =
          if s.dl.toNat = k.val + 1 then { start := s.dostart, stop := s.doend, count := s.dcount } else s.dostack[k]) ∧
        t = { s with dl := t.dl, dostart := t.dostart, doend := t.doend, dcount := t.dcount, dostack := t.dostack,
                     pc := t.pc, hazNext := { s.hazNext with doend := true } }) ∧
    (s.dev.hasDsp = true → s.dl = 4#3 → off.toInt ≠ 0 → off.toInt ≠ -1 → off.toInt ≠ -2 →
      exec i s = .next ({ s.addPending .softTrap with
        intcon := { s.intcon with doovr := true }, hazNext := { s.hazNext with doend := true } }.advanced 2)) ∧
    (s.dev.hasDsp = true → (off.toInt = 0 ∨ off.toInt = -1 ∨ off.toInt = -2) → exec i s = .refused .doLoopLength) ∧
    (s.dev.hasDsp = false → exec i s = .refused .noDsp)

/-- The end of an instruction in the body of an active `DO` loop, not held by `REPEAT` (R322, R323, R326). It ends by
sequential advance exactly when it is no branch, call or return that is always taken and the pc stands at the next
instruction (R280). Not at DOEND, the loop does nothing. At DOEND after sequential advance: another iteration while
DCOUNT is not 0 and no early termination is armed, otherwise the loop ends, the level falls, and the loop registers of
the enclosing loop come back. At DOEND after a flow change, the loop does nothing (R322, R328). It rests on the model's
choices of log entry 30. -/
def Obligations.DoLoopEnds : Prop :=
  ∀ (i : Instr) (s t : State), s.da = true → t.da = true → s.ra = false → t.disicnt = 0#14 →
    let u := finish i s t
    let nothing := { t with nest := t.nestKept, haz := t.hazNext, hazNext := Hazard.none }
    let jump := ∃ (a : BitVec 22) (off : BitVec 16) (hi w : Reg) (b : Bool) (k : BitVec 10),
      i ∈ [.bra off, .braW w, .goto a, .gotoW w, .call a, .callW w, .callL hi w, .rcall off, .rcallW w, .ret, .retfie,
           .retlw b k w]
    (endsSequentially i s t = true ↔ ¬jump ∧ t.pc = s.pc + BitVec.ofNat 23 (2 * i.words)) ∧
    (s.pc ≠ t.doendPc → u = nothing) ∧
    (s.pc = t.doendPc → t.dl.toNat ≤ 4 →
      (endsSequentially i s t = false → u = nothing) ∧
      (endsSequentially i s t = true → t.dcount ≠ 0#16 → t.edt ≠ .armed →
        u.pc = t.dostart ++ 0#1 ∧ u.dcount = t.dcount - 1#16 ∧ u.dl = t.dl ∧ u.dostart = t.dostart ∧
        u.doend = t.doend ∧ u.edt = if t.edt = .late then .armed else t.edt) ∧
      (endsSequentially i s t = true → (t.dcount = 0#16 ∨ t.edt = .armed) →
        u.pc = t.pc ∧ u.dl = t.dl - 1#3 ∧ u.edt = .clear ∧
        (t.dl = 1#3 → u.dostart = t.dostart ∧ u.doend = t.doend ∧ u.dcount = t.dcount) ∧
        (∀ k : Fin 3, t.dl.toNat = k.val + 2 →
          u.dostart = t.dostack[k].start ∧ u.doend = t.dostack[k].stop ∧ u.dcount = t.dostack[k].count)))

/-! System. -/

/-- `DISI` loads the count, and every later instruction lets it run down by one to 0 (R344; one cycle for each
instruction is the model's choice, log entry 17). `CTXTSWP` with a context number that exists makes CCTXI and MCTXI
take it and changes nothing else but the pc; a number that does not exist is refused (R341). `PWRSAV` stops the CPU
with the pc at the next instruction (R346). A "compare and skip" instruction goes on to the next word or passes over
it, which of the two is open (R300, log entry 16). It rests on the model's choices of log entry 40. -/
def Obligations.SystemInstructions : Prop :=
  ∀ (s : State) (d : BitVec 14) (l : BitVec 3) (w : Reg) (idle : Bool),
    exec (.disi d) s = .next ({ s with disicnt := d }.advanced 1) ∧
    (∀ (i : Instr) (t : State), (finish i s t).disicnt.toNat =
      if isDisi i then t.disicnt.toNat else t.disicnt.toNat - 1) ∧
    (∀ (i : Instr) (n : Nat), (i, n) ∈ [(Instr.ctxtswpLit l, l.toNat), (.ctxtswpW w, (s.wreg w).toNat % 8)] →
      (∀ c : Fin 5, n = c.val → n ≤ s.dev.numAlt.val →
        exec i s = .next ({ s with cctxi := c, mctxi := c }.advanced 1)) ∧
      (s.dev.numAlt.val < n → exec i s = .refused (.reservedContext n))) ∧
    exec (.pwrsav idle) s = .next ({ s with power := if idle then .idle else .sleep }.advanced 1) ∧
    exec .compareSkip s =
      .next { s with free := s.free + 1, pc := if Config.anyBit s.free then s.pc + 4#23 else s.pc + 2#23 }

/-- The instructions the spec names without a behaviour stop, each under a name of its own: the table writes (R191),
`BOOTSWP` (R343), `TRAP`, `FEX`, `SSTEP` and `URUN` (R348). -/
def Obligations.UndescribedInstructionsStop : Prop :=
  ∀ (s : State) (byte : Bool) (src dst : Operand),
    exec (.tblwtl byte src dst) s = .refused .tableWrite ∧ exec (.tblwth byte src dst) s = .refused .tableWrite ∧
    exec .bootswp s = .refused .partitionSwap ∧ exec .trap s = .refused .trapUndescribed ∧
    exec .fex s = .refused .fexUndescribed ∧ exec .sstep s = .refused .sstepUndescribed ∧
    exec .urun s = .refused .urunUndescribed
end

