-- ==== Sys2Proof/Laws/Effect.lean ====
section
/-! SUPPORT. Laws/Effect.lean: how the effects of Effect.lean run, and how a meaning's result becomes an outcome. -/

namespace Sys2Proof.Machine

variable {α β : Type}

theorem bind_apply (m : M α) (f : α → M β) (s : State) :
    (m >>= f) s = (match m s with | .ok p => f p.1 p.2 | .error e => .error e) := by
  show (StateT.bind m f) s = _
  unfold StateT.bind
  cases m s <;> rfl

theorem bind_of_ok {m : M α} {s t : State} {a : α} (h : m s = .ok (a, t)) (f : α → M β) :
    (m >>= f) s = f a t := by
  rw [bind_apply, h]

theorem bind_of_error {m : M α} {s : State} {e : Stop} (h : m s = .error e) (f : α → M β) :
    (m >>= f) s = .error e := by
  rw [bind_apply, h]

/-- What a sequence can do: it answers only through an answer of its first part. -/
theorem bind_ok_inv {m : M α} {f : α → M β} {s u : State} {b : β} (h : (m >>= f) s = .ok (b, u)) :
    ∃ a t, m s = .ok (a, t) ∧ f a t = .ok (b, u) := by
  rw [bind_apply] at h
  split at h
  next p hp => exact ⟨p.1, p.2, hp, h⟩
  next => cases h

@[simp] theorem pure_apply (a : α) (s : State) : (pure a : M α) s = .ok (a, s) := rfl

@[simp] theorem pure_bind_apply (a : α) (f : α → M β) (s : State) : ((pure a : M α) >>= f) s = f a s := rfl

@[simp] theorem ask_apply (g : State → α) (s : State) : ask g s = .ok (g s, s) := rfl

@[simp] theorem ask_bind (g : State → α) (f : α → M β) (s : State) : (ask g >>= f) s = f (g s) s := rfl

@[simp] theorem upd_apply (g : State → State) (s : State) : upd g s = .ok ((), g s) := rfl

@[simp] theorem upd_bind (g : State → State) (f : Unit → M β) (s : State) : (upd g >>= f) s = f () (g s) := rfl

@[simp] theorem stopReset_apply (c : ResetCause) (s : State) : (stopReset c : M α) s = .error (.reset c) := rfl

@[simp] theorem stopReset_bind (c : ResetCause) (f : α → M β) (s : State) :
    ((stopReset c : M α) >>= f) s = .error (.reset c) := rfl

@[simp] theorem refuse_apply (r : Refusal) (s : State) : (refuse r : M α) s = .error (.refuse r) := rfl

@[simp] theorem refuse_bind (r : Refusal) (f : α → M β) (s : State) :
    ((refuse r : M α) >>= f) s = .error (.refuse r) := rfl

@[simp] theorem raiseTrap_apply (k : TrapKind) (s : State) : raiseTrap k s = .ok ((), s.addPending k) := rfl

@[simp] theorem raiseTrap_bind (k : TrapKind) (f : Unit → M β) (s : State) :
    (raiseTrap k >>= f) s = f () (s.addPending k) := rfl

@[simp] theorem drawBits_apply (w : Nat) (s : State) :
    drawBits w s = .ok (Config.anyBits w s.free, { s with free := s.free + 1 }) := rfl

@[simp] theorem drawBits_bind (w : Nat) (f : BitVec w → M β) (s : State) :
    (drawBits w >>= f) s = f (Config.anyBits w s.free) { s with free := s.free + 1 } := rfl

@[simp] theorem drawBit_apply (s : State) :
    drawBit s = .ok (Config.anyBit s.free, { s with free := s.free + 1 }) := rfl

@[simp] theorem drawBit_bind (f : Bool → M β) (s : State) :
    (drawBit >>= f) s = f (Config.anyBit s.free) { s with free := s.free + 1 } := rfl

@[simp] theorem advance_apply (n : Nat) (s : State) :
    advance n s = .ok ((), { s with pc := s.pc + BitVec.ofNat 23 (2 * n) }) := rfl

@[simp] theorem jump_apply (target : ProgAddr) (s : State) :
    jump target s = .ok ((), { s with pc := target &&& 0x7FFFFE#23 }) := rfl

/-- A conditional applied to a state is the conditional of the applications. -/
theorem ite_apply_state (c : Prop) [Decidable c] (m n : M α) (s : State) :
    (if c then m else n) s = if c then m s else n s := by
  split <;> rfl

/-! Outcomes. -/

theorem runInstr_of_ok {m : M Unit} {s t : State} (h : m s = .ok ((), t)) : runInstr m s = .next t := by
  unfold runInstr; rw [h]

theorem runInstr_of_reset {m : M Unit} {s : State} {c : ResetCause} (h : m s = .error (.reset c)) :
    runInstr m s = .next (deviceReset c s) := by
  unfold runInstr; rw [h]

theorem runInstr_of_refuse {m : M Unit} {s : State} {r : Refusal} (h : m s = .error (.refuse r)) :
    runInstr m s = .refused r := by
  unfold runInstr; rw [h]

/-- What a meaning that answers next did: it ran to its end, or the device was reset in its place. -/
theorem runInstr_next_inv {m : M Unit} {s t : State} (h : runInstr m s = .next t) :
    m s = .ok ((), t) ∨ ∃ c, m s = .error (.reset c) ∧ t = deviceReset c s := by
  unfold runInstr at h
  split at h
  next t' ht => cases h; exact .inl ht
  next c ht => cases h; exact .inr ⟨c, ht, rfl⟩
  next => cases h

end Sys2Proof.Machine
end

