-- ==== Sys2Proof/Laws/State.lean ====
section
/-! SUPPORT. Laws/State.lean: what each update of the state leaves of each field, and reads back of its own. -/

namespace Sys2Proof.Machine

variable (s : State)

/-- A word write to W15. -/
theorem setWreg_w15 (v : Word) : s.setWreg 15#4 v = { s with w15 := v &&& 0xFFFE#16 } := rfl

/-! `setWreg`. -/

@[simp] theorem setWreg_dev (r : Reg) (v : Word) : (s.setWreg r v).dev = s.dev := by
  unfold State.setWreg; split <;> rfl
@[simp] theorem setWreg_pc (r : Reg) (v : Word) : (s.setWreg r v).pc = s.pc := by
  unfold State.setWreg; split <;> rfl
@[simp] theorem setWreg_flags (r : Reg) (v : Word) : (s.setWreg r v).flags = s.flags := by
  unfold State.setWreg; split <;> rfl
@[simp] theorem setWreg_ra (r : Reg) (v : Word) : (s.setWreg r v).ra = s.ra := by
  unfold State.setWreg; split <;> rfl
@[simp] theorem setWreg_ipl (r : Reg) (v : Word) : (s.setWreg r v).ipl = s.ipl := by
  unfold State.setWreg; split <;> rfl
@[simp] theorem setWreg_ipl3 (r : Reg) (v : Word) : (s.setWreg r v).ipl3 = s.ipl3 := by
  unfold State.setWreg; split <;> rfl
@[simp] theorem setWreg_sfa (r : Reg) (v : Word) : (s.setWreg r v).sfa = s.sfa := by
  unfold State.setWreg; split <;> rfl
@[simp] theorem setWreg_dl (r : Reg) (v : Word) : (s.setWreg r v).dl = s.dl := by
  unfold State.setWreg; split <;> rfl
@[simp] theorem setWreg_dsp (r : Reg) (v : Word) : (s.setWreg r v).dsp = s.dsp := by
  unfold State.setWreg; split <;> rfl
@[simp] theorem setWreg_cctxi (r : Reg) (v : Word) : (s.setWreg r v).cctxi = s.cctxi := by
  unfold State.setWreg; split <;> rfl
@[simp] theorem setWreg_mctxi (r : Reg) (v : Word) : (s.setWreg r v).mctxi = s.mctxi := by
  unfold State.setWreg; split <;> rfl
@[simp] theorem setWreg_splim (r : Reg) (v : Word) : (s.setWreg r v).splim = s.splim := by
  unfold State.setWreg; split <;> rfl
@[simp] theorem setWreg_rcount (r : Reg) (v : Word) : (s.setWreg r v).rcount = s.rcount := by
  unfold State.setWreg; split <;> rfl
@[simp] theorem setWreg_dcount (r : Reg) (v : Word) : (s.setWreg r v).dcount = s.dcount := by
  unfold State.setWreg; split <;> rfl
@[simp] theorem setWreg_dostart (r : Reg) (v : Word) : (s.setWreg r v).dostart = s.dostart := by
  unfold State.setWreg; split <;> rfl
@[simp] theorem setWreg_doend (r : Reg) (v : Word) : (s.setWreg r v).doend = s.doend := by
  unfold State.setWreg; split <;> rfl
@[simp] theorem setWreg_dsrpag (r : Reg) (v : Word) : (s.setWreg r v).dsrpag = s.dsrpag := by
  unfold State.setWreg; split <;> rfl
@[simp] theorem setWreg_dswpag (r : Reg) (v : Word) : (s.setWreg r v).dswpag = s.dswpag := by
  unfold State.setWreg; split <;> rfl
@[simp] theorem setWreg_tblpag (r : Reg) (v : Word) : (s.setWreg r v).tblpag = s.tblpag := by
  unfold State.setWreg; split <;> rfl
@[simp] theorem setWreg_modcon (r : Reg) (v : Word) : (s.setWreg r v).modcon = s.modcon := by
  unfold State.setWreg; split <;> rfl
@[simp] theorem setWreg_xmodsrt (r : Reg) (v : Word) : (s.setWreg r v).xmodsrt = s.xmodsrt := by
  unfold State.setWreg; split <;> rfl
@[simp] theorem setWreg_xmodend (r : Reg) (v : Word) : (s.setWreg r v).xmodend = s.xmodend := by
  unfold State.setWreg; split <;> rfl
@[simp] theorem setWreg_ymodsrt (r : Reg) (v : Word) : (s.setWreg r v).ymodsrt = s.ymodsrt := by
  unfold State.setWreg; split <;> rfl
@[simp] theorem setWreg_ymodend (r : Reg) (v : Word) : (s.setWreg r v).ymodend = s.ymodend := by
  unfold State.setWreg; split <;> rfl
@[simp] theorem setWreg_bren (r : Reg) (v : Word) : (s.setWreg r v).bren = s.bren := by
  unfold State.setWreg; split <;> rfl
@[simp] theorem setWreg_xb (r : Reg) (v : Word) : (s.setWreg r v).xb = s.xb := by
  unfold State.setWreg; split <;> rfl
@[simp] theorem setWreg_disicnt (r : Reg) (v : Word) : (s.setWreg r v).disicnt = s.disicnt := by
  unfold State.setWreg; split <;> rfl
@[simp] theorem setWreg_mstrpr (r : Reg) (v : Word) : (s.setWreg r v).mstrpr = s.mstrpr := by
  unfold State.setWreg; split <;> rfl
@[simp] theorem setWreg_intcon (r : Reg) (v : Word) : (s.setWreg r v).intcon = s.intcon := by
  unfold State.setWreg; split <;> rfl
@[simp] theorem setWreg_shadowW (r : Reg) (v : Word) : (s.setWreg r v).shadowW = s.shadowW := by
  unfold State.setWreg; split <;> rfl
@[simp] theorem setWreg_shadowFlags (r : Reg) (v : Word) : (s.setWreg r v).shadowFlags = s.shadowFlags := by
  unfold State.setWreg; split <;> rfl
@[simp] theorem setWreg_dostack (r : Reg) (v : Word) : (s.setWreg r v).dostack = s.dostack := by
  unfold State.setWreg; split <;> rfl
@[simp] theorem setWreg_splimEnabled (r : Reg) (v : Word) : (s.setWreg r v).splimEnabled = s.splimEnabled := by
  unfold State.setWreg; split <;> rfl
@[simp] theorem setWreg_corconReplicate (r : Reg) (v : Word) : (s.setWreg r v).corconReplicate = s.corconReplicate := by
  unfold State.setWreg; split <;> rfl
@[simp] theorem setWreg_edt (r : Reg) (v : Word) : (s.setWreg r v).edt = s.edt := by
  unfold State.setWreg; split <;> rfl
@[simp] theorem setWreg_pending (r : Reg) (v : Word) : (s.setWreg r v).pending = s.pending := by
  unfold State.setWreg; split <;> rfl
@[simp] theorem setWreg_div (r : Reg) (v : Word) : (s.setWreg r v).div = s.div := by
  unfold State.setWreg; split <;> rfl
@[simp] theorem setWreg_nest (r : Reg) (v : Word) : (s.setWreg r v).nest = s.nest := by
  unfold State.setWreg; split <;> rfl
@[simp] theorem setWreg_taken (r : Reg) (v : Word) : (s.setWreg r v).taken = s.taken := by
  unfold State.setWreg; split <;> rfl
@[simp] theorem setWreg_repeatNew (r : Reg) (v : Word) : (s.setWreg r v).repeatNew = s.repeatNew := by
  unfold State.setWreg; split <;> rfl
@[simp] theorem setWreg_mem (r : Reg) (v : Word) : (s.setWreg r v).mem = s.mem := by
  unfold State.setWreg; split <;> rfl
@[simp] theorem setWreg_prog (r : Reg) (v : Word) : (s.setWreg r v).prog = s.prog := by
  unfold State.setWreg; split <;> rfl
@[simp] theorem setWreg_asm (r : Reg) (v : Word) : (s.setWreg r v).asm = s.asm := by
  unfold State.setWreg; split <;> rfl
@[simp] theorem setWreg_power (r : Reg) (v : Word) : (s.setWreg r v).power = s.power := by
  unfold State.setWreg; split <;> rfl
@[simp] theorem setWreg_irqs (r : Reg) (v : Word) : (s.setWreg r v).irqs = s.irqs := by
  unfold State.setWreg; split <;> rfl
@[simp] theorem setWreg_haz (r : Reg) (v : Word) : (s.setWreg r v).haz = s.haz := by
  unfold State.setWreg; split <;> rfl
@[simp] theorem setWreg_hazNext (r : Reg) (v : Word) : (s.setWreg r v).hazNext = s.hazNext := by
  unfold State.setWreg; split <;> rfl
@[simp] theorem setWreg_free (r : Reg) (v : Word) : (s.setWreg r v).free = s.free := by
  unfold State.setWreg; split <;> rfl

/-! `setWregKeep`. -/

@[simp] theorem setWregKeep_dev (r : Reg) (v : Word) : (s.setWregKeep r v).dev = s.dev := by
  unfold State.setWregKeep; split <;> rfl
@[simp] theorem setWregKeep_pc (r : Reg) (v : Word) : (s.setWregKeep r v).pc = s.pc := by
  unfold State.setWregKeep; split <;> rfl
@[simp] theorem setWregKeep_flags (r : Reg) (v : Word) : (s.setWregKeep r v).flags = s.flags := by
  unfold State.setWregKeep; split <;> rfl
@[simp] theorem setWregKeep_ra (r : Reg) (v : Word) : (s.setWregKeep r v).ra = s.ra := by
  unfold State.setWregKeep; split <;> rfl
@[simp] theorem setWregKeep_ipl (r : Reg) (v : Word) : (s.setWregKeep r v).ipl = s.ipl := by
  unfold State.setWregKeep; split <;> rfl
@[simp] theorem setWregKeep_ipl3 (r : Reg) (v : Word) : (s.setWregKeep r v).ipl3 = s.ipl3 := by
  unfold State.setWregKeep; split <;> rfl
@[simp] theorem setWregKeep_sfa (r : Reg) (v : Word) : (s.setWregKeep r v).sfa = s.sfa := by
  unfold State.setWregKeep; split <;> rfl
@[simp] theorem setWregKeep_dl (r : Reg) (v : Word) : (s.setWregKeep r v).dl = s.dl := by
  unfold State.setWregKeep; split <;> rfl
@[simp] theorem setWregKeep_dsp (r : Reg) (v : Word) : (s.setWregKeep r v).dsp = s.dsp := by
  unfold State.setWregKeep; split <;> rfl
@[simp] theorem setWregKeep_cctxi (r : Reg) (v : Word) : (s.setWregKeep r v).cctxi = s.cctxi := by
  unfold State.setWregKeep; split <;> rfl
@[simp] theorem setWregKeep_mctxi (r : Reg) (v : Word) : (s.setWregKeep r v).mctxi = s.mctxi := by
  unfold State.setWregKeep; split <;> rfl
@[simp] theorem setWregKeep_splim (r : Reg) (v : Word) : (s.setWregKeep r v).splim = s.splim := by
  unfold State.setWregKeep; split <;> rfl
@[simp] theorem setWregKeep_rcount (r : Reg) (v : Word) : (s.setWregKeep r v).rcount = s.rcount := by
  unfold State.setWregKeep; split <;> rfl
@[simp] theorem setWregKeep_dcount (r : Reg) (v : Word) : (s.setWregKeep r v).dcount = s.dcount := by
  unfold State.setWregKeep; split <;> rfl
@[simp] theorem setWregKeep_dostart (r : Reg) (v : Word) : (s.setWregKeep r v).dostart = s.dostart := by
  unfold State.setWregKeep; split <;> rfl
@[simp] theorem setWregKeep_doend (r : Reg) (v : Word) : (s.setWregKeep r v).doend = s.doend := by
  unfold State.setWregKeep; split <;> rfl
@[simp] theorem setWregKeep_dsrpag (r : Reg) (v : Word) : (s.setWregKeep r v).dsrpag = s.dsrpag := by
  unfold State.setWregKeep; split <;> rfl
@[simp] theorem setWregKeep_dswpag (r : Reg) (v : Word) : (s.setWregKeep r v).dswpag = s.dswpag := by
  unfold State.setWregKeep; split <;> rfl
@[simp] theorem setWregKeep_tblpag (r : Reg) (v : Word) : (s.setWregKeep r v).tblpag = s.tblpag := by
  unfold State.setWregKeep; split <;> rfl
@[simp] theorem setWregKeep_modcon (r : Reg) (v : Word) : (s.setWregKeep r v).modcon = s.modcon := by
  unfold State.setWregKeep; split <;> rfl
@[simp] theorem setWregKeep_xmodsrt (r : Reg) (v : Word) : (s.setWregKeep r v).xmodsrt = s.xmodsrt := by
  unfold State.setWregKeep; split <;> rfl
@[simp] theorem setWregKeep_xmodend (r : Reg) (v : Word) : (s.setWregKeep r v).xmodend = s.xmodend := by
  unfold State.setWregKeep; split <;> rfl
@[simp] theorem setWregKeep_ymodsrt (r : Reg) (v : Word) : (s.setWregKeep r v).ymodsrt = s.ymodsrt := by
  unfold State.setWregKeep; split <;> rfl
@[simp] theorem setWregKeep_ymodend (r : Reg) (v : Word) : (s.setWregKeep r v).ymodend = s.ymodend := by
  unfold State.setWregKeep; split <;> rfl
@[simp] theorem setWregKeep_bren (r : Reg) (v : Word) : (s.setWregKeep r v).bren = s.bren := by
  unfold State.setWregKeep; split <;> rfl
@[simp] theorem setWregKeep_xb (r : Reg) (v : Word) : (s.setWregKeep r v).xb = s.xb := by
  unfold State.setWregKeep; split <;> rfl
@[simp] theorem setWregKeep_disicnt (r : Reg) (v : Word) : (s.setWregKeep r v).disicnt = s.disicnt := by
  unfold State.setWregKeep; split <;> rfl
@[simp] theorem setWregKeep_mstrpr (r : Reg) (v : Word) : (s.setWregKeep r v).mstrpr = s.mstrpr := by
  unfold State.setWregKeep; split <;> rfl
@[simp] theorem setWregKeep_intcon (r : Reg) (v : Word) : (s.setWregKeep r v).intcon = s.intcon := by
  unfold State.setWregKeep; split <;> rfl
@[simp] theorem setWregKeep_shadowW (r : Reg) (v : Word) : (s.setWregKeep r v).shadowW = s.shadowW := by
  unfold State.setWregKeep; split <;> rfl
@[simp] theorem setWregKeep_shadowFlags (r : Reg) (v : Word) : (s.setWregKeep r v).shadowFlags = s.shadowFlags := by
  unfold State.setWregKeep; split <;> rfl
@[simp] theorem setWregKeep_dostack (r : Reg) (v : Word) : (s.setWregKeep r v).dostack = s.dostack := by
  unfold State.setWregKeep; split <;> rfl
@[simp] theorem setWregKeep_splimEnabled (r : Reg) (v : Word) : (s.setWregKeep r v).splimEnabled = s.splimEnabled := by
  unfold State.setWregKeep; split <;> rfl
@[simp] theorem setWregKeep_corconReplicate (r : Reg) (v : Word) : (s.setWregKeep r v).corconReplicate = s.corconReplicate := by
  unfold State.setWregKeep; split <;> rfl
@[simp] theorem setWregKeep_edt (r : Reg) (v : Word) : (s.setWregKeep r v).edt = s.edt := by
  unfold State.setWregKeep; split <;> rfl
@[simp] theorem setWregKeep_pending (r : Reg) (v : Word) : (s.setWregKeep r v).pending = s.pending := by
  unfold State.setWregKeep; split <;> rfl
@[simp] theorem setWregKeep_div (r : Reg) (v : Word) : (s.setWregKeep r v).div = s.div := by
  unfold State.setWregKeep; split <;> rfl
@[simp] theorem setWregKeep_nest (r : Reg) (v : Word) : (s.setWregKeep r v).nest = s.nest := by
  unfold State.setWregKeep; split <;> rfl
@[simp] theorem setWregKeep_taken (r : Reg) (v : Word) : (s.setWregKeep r v).taken = s.taken := by
  unfold State.setWregKeep; split <;> rfl
@[simp] theorem setWregKeep_repeatNew (r : Reg) (v : Word) : (s.setWregKeep r v).repeatNew = s.repeatNew := by
  unfold State.setWregKeep; split <;> rfl
@[simp] theorem setWregKeep_mem (r : Reg) (v : Word) : (s.setWregKeep r v).mem = s.mem := by
  unfold State.setWregKeep; split <;> rfl
@[simp] theorem setWregKeep_prog (r : Reg) (v : Word) : (s.setWregKeep r v).prog = s.prog := by
  unfold State.setWregKeep; split <;> rfl
@[simp] theorem setWregKeep_asm (r : Reg) (v : Word) : (s.setWregKeep r v).asm = s.asm := by
  unfold State.setWregKeep; split <;> rfl
@[simp] theorem setWregKeep_power (r : Reg) (v : Word) : (s.setWregKeep r v).power = s.power := by
  unfold State.setWregKeep; split <;> rfl
@[simp] theorem setWregKeep_irqs (r : Reg) (v : Word) : (s.setWregKeep r v).irqs = s.irqs := by
  unfold State.setWregKeep; split <;> rfl
@[simp] theorem setWregKeep_haz (r : Reg) (v : Word) : (s.setWregKeep r v).haz = s.haz := by
  unfold State.setWregKeep; split <;> rfl
@[simp] theorem setWregKeep_hazNext (r : Reg) (v : Word) : (s.setWregKeep r v).hazNext = s.hazNext := by
  unfold State.setWregKeep; split <;> rfl
@[simp] theorem setWregKeep_free (r : Reg) (v : Word) : (s.setWregKeep r v).free = s.free := by
  unfold State.setWregKeep; split <;> rfl

/-! `setDsp`. -/

@[simp] theorem setDsp_dev (d : DspCtx) : (s.setDsp d).dev = s.dev := rfl
@[simp] theorem setDsp_ctx (d : DspCtx) : (s.setDsp d).ctx = s.ctx := rfl
@[simp] theorem setDsp_w15 (d : DspCtx) : (s.setDsp d).w15 = s.w15 := rfl
@[simp] theorem setDsp_pc (d : DspCtx) : (s.setDsp d).pc = s.pc := rfl
@[simp] theorem setDsp_flags (d : DspCtx) : (s.setDsp d).flags = s.flags := rfl
@[simp] theorem setDsp_ra (d : DspCtx) : (s.setDsp d).ra = s.ra := rfl
@[simp] theorem setDsp_ipl (d : DspCtx) : (s.setDsp d).ipl = s.ipl := rfl
@[simp] theorem setDsp_ipl3 (d : DspCtx) : (s.setDsp d).ipl3 = s.ipl3 := rfl
@[simp] theorem setDsp_sfa (d : DspCtx) : (s.setDsp d).sfa = s.sfa := rfl
@[simp] theorem setDsp_dl (d : DspCtx) : (s.setDsp d).dl = s.dl := rfl
@[simp] theorem setDsp_cctxi (d : DspCtx) : (s.setDsp d).cctxi = s.cctxi := rfl
@[simp] theorem setDsp_mctxi (d : DspCtx) : (s.setDsp d).mctxi = s.mctxi := rfl
@[simp] theorem setDsp_splim (d : DspCtx) : (s.setDsp d).splim = s.splim := rfl
@[simp] theorem setDsp_rcount (d : DspCtx) : (s.setDsp d).rcount = s.rcount := rfl
@[simp] theorem setDsp_dcount (d : DspCtx) : (s.setDsp d).dcount = s.dcount := rfl
@[simp] theorem setDsp_dostart (d : DspCtx) : (s.setDsp d).dostart = s.dostart := rfl
@[simp] theorem setDsp_doend (d : DspCtx) : (s.setDsp d).doend = s.doend := rfl
@[simp] theorem setDsp_dsrpag (d : DspCtx) : (s.setDsp d).dsrpag = s.dsrpag := rfl
@[simp] theorem setDsp_dswpag (d : DspCtx) : (s.setDsp d).dswpag = s.dswpag := rfl
@[simp] theorem setDsp_tblpag (d : DspCtx) : (s.setDsp d).tblpag = s.tblpag := rfl
@[simp] theorem setDsp_modcon (d : DspCtx) : (s.setDsp d).modcon = s.modcon := rfl
@[simp] theorem setDsp_xmodsrt (d : DspCtx) : (s.setDsp d).xmodsrt = s.xmodsrt := rfl
@[simp] theorem setDsp_xmodend (d : DspCtx) : (s.setDsp d).xmodend = s.xmodend := rfl
@[simp] theorem setDsp_ymodsrt (d : DspCtx) : (s.setDsp d).ymodsrt = s.ymodsrt := rfl
@[simp] theorem setDsp_ymodend (d : DspCtx) : (s.setDsp d).ymodend = s.ymodend := rfl
@[simp] theorem setDsp_bren (d : DspCtx) : (s.setDsp d).bren = s.bren := rfl
@[simp] theorem setDsp_xb (d : DspCtx) : (s.setDsp d).xb = s.xb := rfl
@[simp] theorem setDsp_disicnt (d : DspCtx) : (s.setDsp d).disicnt = s.disicnt := rfl
@[simp] theorem setDsp_mstrpr (d : DspCtx) : (s.setDsp d).mstrpr = s.mstrpr := rfl
@[simp] theorem setDsp_intcon (d : DspCtx) : (s.setDsp d).intcon = s.intcon := rfl
@[simp] theorem setDsp_shadowW (d : DspCtx) : (s.setDsp d).shadowW = s.shadowW := rfl
@[simp] theorem setDsp_shadowFlags (d : DspCtx) : (s.setDsp d).shadowFlags = s.shadowFlags := rfl
@[simp] theorem setDsp_dostack (d : DspCtx) : (s.setDsp d).dostack = s.dostack := rfl
@[simp] theorem setDsp_splimEnabled (d : DspCtx) : (s.setDsp d).splimEnabled = s.splimEnabled := rfl
@[simp] theorem setDsp_corconReplicate (d : DspCtx) : (s.setDsp d).corconReplicate = s.corconReplicate := rfl
@[simp] theorem setDsp_edt (d : DspCtx) : (s.setDsp d).edt = s.edt := rfl
@[simp] theorem setDsp_pending (d : DspCtx) : (s.setDsp d).pending = s.pending := rfl
@[simp] theorem setDsp_div (d : DspCtx) : (s.setDsp d).div = s.div := rfl
@[simp] theorem setDsp_nest (d : DspCtx) : (s.setDsp d).nest = s.nest := rfl
@[simp] theorem setDsp_taken (d : DspCtx) : (s.setDsp d).taken = s.taken := rfl
@[simp] theorem setDsp_repeatNew (d : DspCtx) : (s.setDsp d).repeatNew = s.repeatNew := rfl
@[simp] theorem setDsp_mem (d : DspCtx) : (s.setDsp d).mem = s.mem := rfl
@[simp] theorem setDsp_prog (d : DspCtx) : (s.setDsp d).prog = s.prog := rfl
@[simp] theorem setDsp_asm (d : DspCtx) : (s.setDsp d).asm = s.asm := rfl
@[simp] theorem setDsp_power (d : DspCtx) : (s.setDsp d).power = s.power := rfl
@[simp] theorem setDsp_irqs (d : DspCtx) : (s.setDsp d).irqs = s.irqs := rfl
@[simp] theorem setDsp_haz (d : DspCtx) : (s.setDsp d).haz = s.haz := rfl
@[simp] theorem setDsp_hazNext (d : DspCtx) : (s.setDsp d).hazNext = s.hazNext := rfl
@[simp] theorem setDsp_free (d : DspCtx) : (s.setDsp d).free = s.free := rfl

/-! `setAcc`. -/

@[simp] theorem setAcc_dev (x : AccId) (v : Acc40) : (s.setAcc x v).dev = s.dev := by cases x <;> rfl
@[simp] theorem setAcc_ctx (x : AccId) (v : Acc40) : (s.setAcc x v).ctx = s.ctx := by cases x <;> rfl
@[simp] theorem setAcc_w15 (x : AccId) (v : Acc40) : (s.setAcc x v).w15 = s.w15 := by cases x <;> rfl
@[simp] theorem setAcc_pc (x : AccId) (v : Acc40) : (s.setAcc x v).pc = s.pc := by cases x <;> rfl
@[simp] theorem setAcc_flags (x : AccId) (v : Acc40) : (s.setAcc x v).flags = s.flags := by cases x <;> rfl
@[simp] theorem setAcc_ra (x : AccId) (v : Acc40) : (s.setAcc x v).ra = s.ra := by cases x <;> rfl
@[simp] theorem setAcc_ipl (x : AccId) (v : Acc40) : (s.setAcc x v).ipl = s.ipl := by cases x <;> rfl
@[simp] theorem setAcc_ipl3 (x : AccId) (v : Acc40) : (s.setAcc x v).ipl3 = s.ipl3 := by cases x <;> rfl
@[simp] theorem setAcc_sfa (x : AccId) (v : Acc40) : (s.setAcc x v).sfa = s.sfa := by cases x <;> rfl
@[simp] theorem setAcc_dl (x : AccId) (v : Acc40) : (s.setAcc x v).dl = s.dl := by cases x <;> rfl
@[simp] theorem setAcc_cctxi (x : AccId) (v : Acc40) : (s.setAcc x v).cctxi = s.cctxi := by cases x <;> rfl
@[simp] theorem setAcc_mctxi (x : AccId) (v : Acc40) : (s.setAcc x v).mctxi = s.mctxi := by cases x <;> rfl
@[simp] theorem setAcc_splim (x : AccId) (v : Acc40) : (s.setAcc x v).splim = s.splim := by cases x <;> rfl
@[simp] theorem setAcc_rcount (x : AccId) (v : Acc40) : (s.setAcc x v).rcount = s.rcount := by cases x <;> rfl
@[simp] theorem setAcc_dcount (x : AccId) (v : Acc40) : (s.setAcc x v).dcount = s.dcount := by cases x <;> rfl
@[simp] theorem setAcc_dostart (x : AccId) (v : Acc40) : (s.setAcc x v).dostart = s.dostart := by cases x <;> rfl
@[simp] theorem setAcc_doend (x : AccId) (v : Acc40) : (s.setAcc x v).doend = s.doend := by cases x <;> rfl
@[simp] theorem setAcc_dsrpag (x : AccId) (v : Acc40) : (s.setAcc x v).dsrpag = s.dsrpag := by cases x <;> rfl
@[simp] theorem setAcc_dswpag (x : AccId) (v : Acc40) : (s.setAcc x v).dswpag = s.dswpag := by cases x <;> rfl
@[simp] theorem setAcc_tblpag (x : AccId) (v : Acc40) : (s.setAcc x v).tblpag = s.tblpag := by cases x <;> rfl
@[simp] theorem setAcc_modcon (x : AccId) (v : Acc40) : (s.setAcc x v).modcon = s.modcon := by cases x <;> rfl
@[simp] theorem setAcc_xmodsrt (x : AccId) (v : Acc40) : (s.setAcc x v).xmodsrt = s.xmodsrt := by cases x <;> rfl
@[simp] theorem setAcc_xmodend (x : AccId) (v : Acc40) : (s.setAcc x v).xmodend = s.xmodend := by cases x <;> rfl
@[simp] theorem setAcc_ymodsrt (x : AccId) (v : Acc40) : (s.setAcc x v).ymodsrt = s.ymodsrt := by cases x <;> rfl
@[simp] theorem setAcc_ymodend (x : AccId) (v : Acc40) : (s.setAcc x v).ymodend = s.ymodend := by cases x <;> rfl
@[simp] theorem setAcc_bren (x : AccId) (v : Acc40) : (s.setAcc x v).bren = s.bren := by cases x <;> rfl
@[simp] theorem setAcc_xb (x : AccId) (v : Acc40) : (s.setAcc x v).xb = s.xb := by cases x <;> rfl
@[simp] theorem setAcc_disicnt (x : AccId) (v : Acc40) : (s.setAcc x v).disicnt = s.disicnt := by cases x <;> rfl
@[simp] theorem setAcc_mstrpr (x : AccId) (v : Acc40) : (s.setAcc x v).mstrpr = s.mstrpr := by cases x <;> rfl
@[simp] theorem setAcc_intcon (x : AccId) (v : Acc40) : (s.setAcc x v).intcon = s.intcon := by cases x <;> rfl
@[simp] theorem setAcc_shadowW (x : AccId) (v : Acc40) : (s.setAcc x v).shadowW = s.shadowW := by cases x <;> rfl
@[simp] theorem setAcc_shadowFlags (x : AccId) (v : Acc40) : (s.setAcc x v).shadowFlags = s.shadowFlags := by cases x <;> rfl
@[simp] theorem setAcc_dostack (x : AccId) (v : Acc40) : (s.setAcc x v).dostack = s.dostack := by cases x <;> rfl
@[simp] theorem setAcc_splimEnabled (x : AccId) (v : Acc40) : (s.setAcc x v).splimEnabled = s.splimEnabled := by cases x <;> rfl
@[simp] theorem setAcc_corconReplicate (x : AccId) (v : Acc40) : (s.setAcc x v).corconReplicate = s.corconReplicate := by cases x <;> rfl
@[simp] theorem setAcc_edt (x : AccId) (v : Acc40) : (s.setAcc x v).edt = s.edt := by cases x <;> rfl
@[simp] theorem setAcc_pending (x : AccId) (v : Acc40) : (s.setAcc x v).pending = s.pending := by cases x <;> rfl
@[simp] theorem setAcc_div (x : AccId) (v : Acc40) : (s.setAcc x v).div = s.div := by cases x <;> rfl
@[simp] theorem setAcc_nest (x : AccId) (v : Acc40) : (s.setAcc x v).nest = s.nest := by cases x <;> rfl
@[simp] theorem setAcc_taken (x : AccId) (v : Acc40) : (s.setAcc x v).taken = s.taken := by cases x <;> rfl
@[simp] theorem setAcc_repeatNew (x : AccId) (v : Acc40) : (s.setAcc x v).repeatNew = s.repeatNew := by cases x <;> rfl
@[simp] theorem setAcc_mem (x : AccId) (v : Acc40) : (s.setAcc x v).mem = s.mem := by cases x <;> rfl
@[simp] theorem setAcc_prog (x : AccId) (v : Acc40) : (s.setAcc x v).prog = s.prog := by cases x <;> rfl
@[simp] theorem setAcc_asm (x : AccId) (v : Acc40) : (s.setAcc x v).asm = s.asm := by cases x <;> rfl
@[simp] theorem setAcc_power (x : AccId) (v : Acc40) : (s.setAcc x v).power = s.power := by cases x <;> rfl
@[simp] theorem setAcc_irqs (x : AccId) (v : Acc40) : (s.setAcc x v).irqs = s.irqs := by cases x <;> rfl
@[simp] theorem setAcc_haz (x : AccId) (v : Acc40) : (s.setAcc x v).haz = s.haz := by cases x <;> rfl
@[simp] theorem setAcc_hazNext (x : AccId) (v : Acc40) : (s.setAcc x v).hazNext = s.hazNext := by cases x <;> rfl
@[simp] theorem setAcc_free (x : AccId) (v : Acc40) : (s.setAcc x v).free = s.free := by cases x <;> rfl

/-! `addPending`. -/

@[simp] theorem addPending_dev (k : TrapKind) : (s.addPending k).dev = s.dev := rfl
@[simp] theorem addPending_ctx (k : TrapKind) : (s.addPending k).ctx = s.ctx := rfl
@[simp] theorem addPending_w15 (k : TrapKind) : (s.addPending k).w15 = s.w15 := rfl
@[simp] theorem addPending_pc (k : TrapKind) : (s.addPending k).pc = s.pc := rfl
@[simp] theorem addPending_flags (k : TrapKind) : (s.addPending k).flags = s.flags := rfl
@[simp] theorem addPending_ra (k : TrapKind) : (s.addPending k).ra = s.ra := rfl
@[simp] theorem addPending_ipl (k : TrapKind) : (s.addPending k).ipl = s.ipl := rfl
@[simp] theorem addPending_ipl3 (k : TrapKind) : (s.addPending k).ipl3 = s.ipl3 := rfl
@[simp] theorem addPending_sfa (k : TrapKind) : (s.addPending k).sfa = s.sfa := rfl
@[simp] theorem addPending_dl (k : TrapKind) : (s.addPending k).dl = s.dl := rfl
@[simp] theorem addPending_dsp (k : TrapKind) : (s.addPending k).dsp = s.dsp := rfl
@[simp] theorem addPending_cctxi (k : TrapKind) : (s.addPending k).cctxi = s.cctxi := rfl
@[simp] theorem addPending_mctxi (k : TrapKind) : (s.addPending k).mctxi = s.mctxi := rfl
@[simp] theorem addPending_splim (k : TrapKind) : (s.addPending k).splim = s.splim := rfl
@[simp] theorem addPending_rcount (k : TrapKind) : (s.addPending k).rcount = s.rcount := rfl
@[simp] theorem addPending_dcount (k : TrapKind) : (s.addPending k).dcount = s.dcount := rfl
@[simp] theorem addPending_dostart (k : TrapKind) : (s.addPending k).dostart = s.dostart := rfl
@[simp] theorem addPending_doend (k : TrapKind) : (s.addPending k).doend = s.doend := rfl
@[simp] theorem addPending_dsrpag (k : TrapKind) : (s.addPending k).dsrpag = s.dsrpag := rfl
@[simp] theorem addPending_dswpag (k : TrapKind) : (s.addPending k).dswpag = s.dswpag := rfl
@[simp] theorem addPending_tblpag (k : TrapKind) : (s.addPending k).tblpag = s.tblpag := rfl
@[simp] theorem addPending_modcon (k : TrapKind) : (s.addPending k).modcon = s.modcon := rfl
@[simp] theorem addPending_xmodsrt (k : TrapKind) : (s.addPending k).xmodsrt = s.xmodsrt := rfl
@[simp] theorem addPending_xmodend (k : TrapKind) : (s.addPending k).xmodend = s.xmodend := rfl
@[simp] theorem addPending_ymodsrt (k : TrapKind) : (s.addPending k).ymodsrt = s.ymodsrt := rfl
@[simp] theorem addPending_ymodend (k : TrapKind) : (s.addPending k).ymodend = s.ymodend := rfl
@[simp] theorem addPending_bren (k : TrapKind) : (s.addPending k).bren = s.bren := rfl
@[simp] theorem addPending_xb (k : TrapKind) : (s.addPending k).xb = s.xb := rfl
@[simp] theorem addPending_disicnt (k : TrapKind) : (s.addPending k).disicnt = s.disicnt := rfl
@[simp] theorem addPending_mstrpr (k : TrapKind) : (s.addPending k).mstrpr = s.mstrpr := rfl
@[simp] theorem addPending_intcon (k : TrapKind) : (s.addPending k).intcon = s.intcon := rfl
@[simp] theorem addPending_shadowW (k : TrapKind) : (s.addPending k).shadowW = s.shadowW := rfl
@[simp] theorem addPending_shadowFlags (k : TrapKind) : (s.addPending k).shadowFlags = s.shadowFlags := rfl
@[simp] theorem addPending_dostack (k : TrapKind) : (s.addPending k).dostack = s.dostack := rfl
@[simp] theorem addPending_splimEnabled (k : TrapKind) : (s.addPending k).splimEnabled = s.splimEnabled := rfl
@[simp] theorem addPending_corconReplicate (k : TrapKind) : (s.addPending k).corconReplicate = s.corconReplicate := rfl
@[simp] theorem addPending_edt (k : TrapKind) : (s.addPending k).edt = s.edt := rfl
@[simp] theorem addPending_div (k : TrapKind) : (s.addPending k).div = s.div := rfl
@[simp] theorem addPending_nest (k : TrapKind) : (s.addPending k).nest = s.nest := rfl
@[simp] theorem addPending_taken (k : TrapKind) : (s.addPending k).taken = s.taken := rfl
@[simp] theorem addPending_repeatNew (k : TrapKind) : (s.addPending k).repeatNew = s.repeatNew := rfl
@[simp] theorem addPending_mem (k : TrapKind) : (s.addPending k).mem = s.mem := rfl
@[simp] theorem addPending_prog (k : TrapKind) : (s.addPending k).prog = s.prog := rfl
@[simp] theorem addPending_asm (k : TrapKind) : (s.addPending k).asm = s.asm := rfl
@[simp] theorem addPending_power (k : TrapKind) : (s.addPending k).power = s.power := rfl
@[simp] theorem addPending_irqs (k : TrapKind) : (s.addPending k).irqs = s.irqs := rfl
@[simp] theorem addPending_haz (k : TrapKind) : (s.addPending k).haz = s.haz := rfl
@[simp] theorem addPending_hazNext (k : TrapKind) : (s.addPending k).hazNext = s.hazNext := rfl
@[simp] theorem addPending_free (k : TrapKind) : (s.addPending k).free = s.free := rfl

/-! `setRamByte`. -/

@[simp] theorem setRamByte_dev (lin : Nat) (b : Byte) : (s.setRamByte lin b).dev = s.dev := rfl
@[simp] theorem setRamByte_ctx (lin : Nat) (b : Byte) : (s.setRamByte lin b).ctx = s.ctx := rfl
@[simp] theorem setRamByte_w15 (lin : Nat) (b : Byte) : (s.setRamByte lin b).w15 = s.w15 := rfl
@[simp] theorem setRamByte_pc (lin : Nat) (b : Byte) : (s.setRamByte lin b).pc = s.pc := rfl
@[simp] theorem setRamByte_flags (lin : Nat) (b : Byte) : (s.setRamByte lin b).flags = s.flags := rfl
@[simp] theorem setRamByte_ra (lin : Nat) (b : Byte) : (s.setRamByte lin b).ra = s.ra := rfl
@[simp] theorem setRamByte_ipl (lin : Nat) (b : Byte) : (s.setRamByte lin b).ipl = s.ipl := rfl
@[simp] theorem setRamByte_ipl3 (lin : Nat) (b : Byte) : (s.setRamByte lin b).ipl3 = s.ipl3 := rfl
@[simp] theorem setRamByte_sfa (lin : Nat) (b : Byte) : (s.setRamByte lin b).sfa = s.sfa := rfl
@[simp] theorem setRamByte_dl (lin : Nat) (b : Byte) : (s.setRamByte lin b).dl = s.dl := rfl
@[simp] theorem setRamByte_dsp (lin : Nat) (b : Byte) : (s.setRamByte lin b).dsp = s.dsp := rfl
@[simp] theorem setRamByte_cctxi (lin : Nat) (b : Byte) : (s.setRamByte lin b).cctxi = s.cctxi := rfl
@[simp] theorem setRamByte_mctxi (lin : Nat) (b : Byte) : (s.setRamByte lin b).mctxi = s.mctxi := rfl
@[simp] theorem setRamByte_splim (lin : Nat) (b : Byte) : (s.setRamByte lin b).splim = s.splim := rfl
@[simp] theorem setRamByte_rcount (lin : Nat) (b : Byte) : (s.setRamByte lin b).rcount = s.rcount := rfl
@[simp] theorem setRamByte_dcount (lin : Nat) (b : Byte) : (s.setRamByte lin b).dcount = s.dcount := rfl
@[simp] theorem setRamByte_dostart (lin : Nat) (b : Byte) : (s.setRamByte lin b).dostart = s.dostart := rfl
@[simp] theorem setRamByte_doend (lin : Nat) (b : Byte) : (s.setRamByte lin b).doend = s.doend := rfl
@[simp] theorem setRamByte_dsrpag (lin : Nat) (b : Byte) : (s.setRamByte lin b).dsrpag = s.dsrpag := rfl
@[simp] theorem setRamByte_dswpag (lin : Nat) (b : Byte) : (s.setRamByte lin b).dswpag = s.dswpag := rfl
@[simp] theorem setRamByte_tblpag (lin : Nat) (b : Byte) : (s.setRamByte lin b).tblpag = s.tblpag := rfl
@[simp] theorem setRamByte_modcon (lin : Nat) (b : Byte) : (s.setRamByte lin b).modcon = s.modcon := rfl
@[simp] theorem setRamByte_xmodsrt (lin : Nat) (b : Byte) : (s.setRamByte lin b).xmodsrt = s.xmodsrt := rfl
@[simp] theorem setRamByte_xmodend (lin : Nat) (b : Byte) : (s.setRamByte lin b).xmodend = s.xmodend := rfl
@[simp] theorem setRamByte_ymodsrt (lin : Nat) (b : Byte) : (s.setRamByte lin b).ymodsrt = s.ymodsrt := rfl
@[simp] theorem setRamByte_ymodend (lin : Nat) (b : Byte) : (s.setRamByte lin b).ymodend = s.ymodend := rfl
@[simp] theorem setRamByte_bren (lin : Nat) (b : Byte) : (s.setRamByte lin b).bren = s.bren := rfl
@[simp] theorem setRamByte_xb (lin : Nat) (b : Byte) : (s.setRamByte lin b).xb = s.xb := rfl
@[simp] theorem setRamByte_disicnt (lin : Nat) (b : Byte) : (s.setRamByte lin b).disicnt = s.disicnt := rfl
@[simp] theorem setRamByte_mstrpr (lin : Nat) (b : Byte) : (s.setRamByte lin b).mstrpr = s.mstrpr := rfl
@[simp] theorem setRamByte_intcon (lin : Nat) (b : Byte) : (s.setRamByte lin b).intcon = s.intcon := rfl
@[simp] theorem setRamByte_shadowW (lin : Nat) (b : Byte) : (s.setRamByte lin b).shadowW = s.shadowW := rfl
@[simp] theorem setRamByte_shadowFlags (lin : Nat) (b : Byte) : (s.setRamByte lin b).shadowFlags = s.shadowFlags := rfl
@[simp] theorem setRamByte_dostack (lin : Nat) (b : Byte) : (s.setRamByte lin b).dostack = s.dostack := rfl
@[simp] theorem setRamByte_splimEnabled (lin : Nat) (b : Byte) : (s.setRamByte lin b).splimEnabled = s.splimEnabled := rfl
@[simp] theorem setRamByte_corconReplicate (lin : Nat) (b : Byte) : (s.setRamByte lin b).corconReplicate = s.corconReplicate := rfl
@[simp] theorem setRamByte_edt (lin : Nat) (b : Byte) : (s.setRamByte lin b).edt = s.edt := rfl
@[simp] theorem setRamByte_pending (lin : Nat) (b : Byte) : (s.setRamByte lin b).pending = s.pending := rfl
@[simp] theorem setRamByte_div (lin : Nat) (b : Byte) : (s.setRamByte lin b).div = s.div := rfl
@[simp] theorem setRamByte_nest (lin : Nat) (b : Byte) : (s.setRamByte lin b).nest = s.nest := rfl
@[simp] theorem setRamByte_taken (lin : Nat) (b : Byte) : (s.setRamByte lin b).taken = s.taken := rfl
@[simp] theorem setRamByte_repeatNew (lin : Nat) (b : Byte) : (s.setRamByte lin b).repeatNew = s.repeatNew := rfl
@[simp] theorem setRamByte_prog (lin : Nat) (b : Byte) : (s.setRamByte lin b).prog = s.prog := rfl
@[simp] theorem setRamByte_asm (lin : Nat) (b : Byte) : (s.setRamByte lin b).asm = s.asm := rfl
@[simp] theorem setRamByte_power (lin : Nat) (b : Byte) : (s.setRamByte lin b).power = s.power := rfl
@[simp] theorem setRamByte_irqs (lin : Nat) (b : Byte) : (s.setRamByte lin b).irqs = s.irqs := rfl
@[simp] theorem setRamByte_haz (lin : Nat) (b : Byte) : (s.setRamByte lin b).haz = s.haz := rfl
@[simp] theorem setRamByte_hazNext (lin : Nat) (b : Byte) : (s.setRamByte lin b).hazNext = s.hazNext := rfl
@[simp] theorem setRamByte_free (lin : Nat) (b : Byte) : (s.setRamByte lin b).free = s.free := rfl

/-! `setRamWord`. -/

@[simp] theorem setRamWord_dev (lin : Nat) (v : Word) : (s.setRamWord lin v).dev = s.dev := rfl
@[simp] theorem setRamWord_ctx (lin : Nat) (v : Word) : (s.setRamWord lin v).ctx = s.ctx := rfl
@[simp] theorem setRamWord_w15 (lin : Nat) (v : Word) : (s.setRamWord lin v).w15 = s.w15 := rfl
@[simp] theorem setRamWord_pc (lin : Nat) (v : Word) : (s.setRamWord lin v).pc = s.pc := rfl
@[simp] theorem setRamWord_flags (lin : Nat) (v : Word) : (s.setRamWord lin v).flags = s.flags := rfl
@[simp] theorem setRamWord_ra (lin : Nat) (v : Word) : (s.setRamWord lin v).ra = s.ra := rfl
@[simp] theorem setRamWord_ipl (lin : Nat) (v : Word) : (s.setRamWord lin v).ipl = s.ipl := rfl
@[simp] theorem setRamWord_ipl3 (lin : Nat) (v : Word) : (s.setRamWord lin v).ipl3 = s.ipl3 := rfl
@[simp] theorem setRamWord_sfa (lin : Nat) (v : Word) : (s.setRamWord lin v).sfa = s.sfa := rfl
@[simp] theorem setRamWord_dl (lin : Nat) (v : Word) : (s.setRamWord lin v).dl = s.dl := rfl
@[simp] theorem setRamWord_dsp (lin : Nat) (v : Word) : (s.setRamWord lin v).dsp = s.dsp := rfl
@[simp] theorem setRamWord_cctxi (lin : Nat) (v : Word) : (s.setRamWord lin v).cctxi = s.cctxi := rfl
@[simp] theorem setRamWord_mctxi (lin : Nat) (v : Word) : (s.setRamWord lin v).mctxi = s.mctxi := rfl
@[simp] theorem setRamWord_splim (lin : Nat) (v : Word) : (s.setRamWord lin v).splim = s.splim := rfl
@[simp] theorem setRamWord_rcount (lin : Nat) (v : Word) : (s.setRamWord lin v).rcount = s.rcount := rfl
@[simp] theorem setRamWord_dcount (lin : Nat) (v : Word) : (s.setRamWord lin v).dcount = s.dcount := rfl
@[simp] theorem setRamWord_dostart (lin : Nat) (v : Word) : (s.setRamWord lin v).dostart = s.dostart := rfl
@[simp] theorem setRamWord_doend (lin : Nat) (v : Word) : (s.setRamWord lin v).doend = s.doend := rfl
@[simp] theorem setRamWord_dsrpag (lin : Nat) (v : Word) : (s.setRamWord lin v).dsrpag = s.dsrpag := rfl
@[simp] theorem setRamWord_dswpag (lin : Nat) (v : Word) : (s.setRamWord lin v).dswpag = s.dswpag := rfl
@[simp] theorem setRamWord_tblpag (lin : Nat) (v : Word) : (s.setRamWord lin v).tblpag = s.tblpag := rfl
@[simp] theorem setRamWord_modcon (lin : Nat) (v : Word) : (s.setRamWord lin v).modcon = s.modcon := rfl
@[simp] theorem setRamWord_xmodsrt (lin : Nat) (v : Word) : (s.setRamWord lin v).xmodsrt = s.xmodsrt := rfl
@[simp] theorem setRamWord_xmodend (lin : Nat) (v : Word) : (s.setRamWord lin v).xmodend = s.xmodend := rfl
@[simp] theorem setRamWord_ymodsrt (lin : Nat) (v : Word) : (s.setRamWord lin v).ymodsrt = s.ymodsrt := rfl
@[simp] theorem setRamWord_ymodend (lin : Nat) (v : Word) : (s.setRamWord lin v).ymodend = s.ymodend := rfl
@[simp] theorem setRamWord_bren (lin : Nat) (v : Word) : (s.setRamWord lin v).bren = s.bren := rfl
@[simp] theorem setRamWord_xb (lin : Nat) (v : Word) : (s.setRamWord lin v).xb = s.xb := rfl
@[simp] theorem setRamWord_disicnt (lin : Nat) (v : Word) : (s.setRamWord lin v).disicnt = s.disicnt := rfl
@[simp] theorem setRamWord_mstrpr (lin : Nat) (v : Word) : (s.setRamWord lin v).mstrpr = s.mstrpr := rfl
@[simp] theorem setRamWord_intcon (lin : Nat) (v : Word) : (s.setRamWord lin v).intcon = s.intcon := rfl
@[simp] theorem setRamWord_shadowW (lin : Nat) (v : Word) : (s.setRamWord lin v).shadowW = s.shadowW := rfl
@[simp] theorem setRamWord_shadowFlags (lin : Nat) (v : Word) : (s.setRamWord lin v).shadowFlags = s.shadowFlags := rfl
@[simp] theorem setRamWord_dostack (lin : Nat) (v : Word) : (s.setRamWord lin v).dostack = s.dostack := rfl
@[simp] theorem setRamWord_splimEnabled (lin : Nat) (v : Word) : (s.setRamWord lin v).splimEnabled = s.splimEnabled := rfl
@[simp] theorem setRamWord_corconReplicate (lin : Nat) (v : Word) : (s.setRamWord lin v).corconReplicate = s.corconReplicate := rfl
@[simp] theorem setRamWord_edt (lin : Nat) (v : Word) : (s.setRamWord lin v).edt = s.edt := rfl
@[simp] theorem setRamWord_pending (lin : Nat) (v : Word) : (s.setRamWord lin v).pending = s.pending := rfl
@[simp] theorem setRamWord_div (lin : Nat) (v : Word) : (s.setRamWord lin v).div = s.div := rfl
@[simp] theorem setRamWord_nest (lin : Nat) (v : Word) : (s.setRamWord lin v).nest = s.nest := rfl
@[simp] theorem setRamWord_taken (lin : Nat) (v : Word) : (s.setRamWord lin v).taken = s.taken := rfl
@[simp] theorem setRamWord_repeatNew (lin : Nat) (v : Word) : (s.setRamWord lin v).repeatNew = s.repeatNew := rfl
@[simp] theorem setRamWord_prog (lin : Nat) (v : Word) : (s.setRamWord lin v).prog = s.prog := rfl
@[simp] theorem setRamWord_asm (lin : Nat) (v : Word) : (s.setRamWord lin v).asm = s.asm := rfl
@[simp] theorem setRamWord_power (lin : Nat) (v : Word) : (s.setRamWord lin v).power = s.power := rfl
@[simp] theorem setRamWord_irqs (lin : Nat) (v : Word) : (s.setRamWord lin v).irqs = s.irqs := rfl
@[simp] theorem setRamWord_haz (lin : Nat) (v : Word) : (s.setRamWord lin v).haz = s.haz := rfl
@[simp] theorem setRamWord_hazNext (lin : Nat) (v : Word) : (s.setRamWord lin v).hazNext = s.hazNext := rfl
@[simp] theorem setRamWord_free (lin : Nat) (v : Word) : (s.setRamWord lin v).free = s.free := rfl

/-! `advanced`. -/

@[simp] theorem advanced_dev (n : Nat) : (s.advanced n).dev = s.dev := rfl
@[simp] theorem advanced_ctx (n : Nat) : (s.advanced n).ctx = s.ctx := rfl
@[simp] theorem advanced_w15 (n : Nat) : (s.advanced n).w15 = s.w15 := rfl
@[simp] theorem advanced_flags (n : Nat) : (s.advanced n).flags = s.flags := rfl
@[simp] theorem advanced_ra (n : Nat) : (s.advanced n).ra = s.ra := rfl
@[simp] theorem advanced_ipl (n : Nat) : (s.advanced n).ipl = s.ipl := rfl
@[simp] theorem advanced_ipl3 (n : Nat) : (s.advanced n).ipl3 = s.ipl3 := rfl
@[simp] theorem advanced_sfa (n : Nat) : (s.advanced n).sfa = s.sfa := rfl
@[simp] theorem advanced_dl (n : Nat) : (s.advanced n).dl = s.dl := rfl
@[simp] theorem advanced_dsp (n : Nat) : (s.advanced n).dsp = s.dsp := rfl
@[simp] theorem advanced_cctxi (n : Nat) : (s.advanced n).cctxi = s.cctxi := rfl
@[simp] theorem advanced_mctxi (n : Nat) : (s.advanced n).mctxi = s.mctxi := rfl
@[simp] theorem advanced_splim (n : Nat) : (s.advanced n).splim = s.splim := rfl
@[simp] theorem advanced_rcount (n : Nat) : (s.advanced n).rcount = s.rcount := rfl
@[simp] theorem advanced_dcount (n : Nat) : (s.advanced n).dcount = s.dcount := rfl
@[simp] theorem advanced_dostart (n : Nat) : (s.advanced n).dostart = s.dostart := rfl
@[simp] theorem advanced_doend (n : Nat) : (s.advanced n).doend = s.doend := rfl
@[simp] theorem advanced_dsrpag (n : Nat) : (s.advanced n).dsrpag = s.dsrpag := rfl
@[simp] theorem advanced_dswpag (n : Nat) : (s.advanced n).dswpag = s.dswpag := rfl
@[simp] theorem advanced_tblpag (n : Nat) : (s.advanced n).tblpag = s.tblpag := rfl
@[simp] theorem advanced_modcon (n : Nat) : (s.advanced n).modcon = s.modcon := rfl
@[simp] theorem advanced_xmodsrt (n : Nat) : (s.advanced n).xmodsrt = s.xmodsrt := rfl
@[simp] theorem advanced_xmodend (n : Nat) : (s.advanced n).xmodend = s.xmodend := rfl
@[simp] theorem advanced_ymodsrt (n : Nat) : (s.advanced n).ymodsrt = s.ymodsrt := rfl
@[simp] theorem advanced_ymodend (n : Nat) : (s.advanced n).ymodend = s.ymodend := rfl
@[simp] theorem advanced_bren (n : Nat) : (s.advanced n).bren = s.bren := rfl
@[simp] theorem advanced_xb (n : Nat) : (s.advanced n).xb = s.xb := rfl
@[simp] theorem advanced_disicnt (n : Nat) : (s.advanced n).disicnt = s.disicnt := rfl
@[simp] theorem advanced_mstrpr (n : Nat) : (s.advanced n).mstrpr = s.mstrpr := rfl
@[simp] theorem advanced_intcon (n : Nat) : (s.advanced n).intcon = s.intcon := rfl
@[simp] theorem advanced_shadowW (n : Nat) : (s.advanced n).shadowW = s.shadowW := rfl
@[simp] theorem advanced_shadowFlags (n : Nat) : (s.advanced n).shadowFlags = s.shadowFlags := rfl
@[simp] theorem advanced_dostack (n : Nat) : (s.advanced n).dostack = s.dostack := rfl
@[simp] theorem advanced_splimEnabled (n : Nat) : (s.advanced n).splimEnabled = s.splimEnabled := rfl
@[simp] theorem advanced_corconReplicate (n : Nat) : (s.advanced n).corconReplicate = s.corconReplicate := rfl
@[simp] theorem advanced_edt (n : Nat) : (s.advanced n).edt = s.edt := rfl
@[simp] theorem advanced_pending (n : Nat) : (s.advanced n).pending = s.pending := rfl
@[simp] theorem advanced_div (n : Nat) : (s.advanced n).div = s.div := rfl
@[simp] theorem advanced_nest (n : Nat) : (s.advanced n).nest = s.nest := rfl
@[simp] theorem advanced_taken (n : Nat) : (s.advanced n).taken = s.taken := rfl
@[simp] theorem advanced_repeatNew (n : Nat) : (s.advanced n).repeatNew = s.repeatNew := rfl
@[simp] theorem advanced_mem (n : Nat) : (s.advanced n).mem = s.mem := rfl
@[simp] theorem advanced_prog (n : Nat) : (s.advanced n).prog = s.prog := rfl
@[simp] theorem advanced_asm (n : Nat) : (s.advanced n).asm = s.asm := rfl
@[simp] theorem advanced_power (n : Nat) : (s.advanced n).power = s.power := rfl
@[simp] theorem advanced_irqs (n : Nat) : (s.advanced n).irqs = s.irqs := rfl
@[simp] theorem advanced_haz (n : Nat) : (s.advanced n).haz = s.haz := rfl
@[simp] theorem advanced_hazNext (n : Nat) : (s.advanced n).hazNext = s.hazNext := rfl
@[simp] theorem advanced_free (n : Nat) : (s.advanced n).free = s.free := rfl

/-! `withFlags`. -/

@[simp] theorem withFlags_dev (fl : Flags) : (s.withFlags fl).dev = s.dev := rfl
@[simp] theorem withFlags_ctx (fl : Flags) : (s.withFlags fl).ctx = s.ctx := rfl
@[simp] theorem withFlags_w15 (fl : Flags) : (s.withFlags fl).w15 = s.w15 := rfl
@[simp] theorem withFlags_pc (fl : Flags) : (s.withFlags fl).pc = s.pc := rfl
@[simp] theorem withFlags_ra (fl : Flags) : (s.withFlags fl).ra = s.ra := rfl
@[simp] theorem withFlags_ipl (fl : Flags) : (s.withFlags fl).ipl = s.ipl := rfl
@[simp] theorem withFlags_ipl3 (fl : Flags) : (s.withFlags fl).ipl3 = s.ipl3 := rfl
@[simp] theorem withFlags_sfa (fl : Flags) : (s.withFlags fl).sfa = s.sfa := rfl
@[simp] theorem withFlags_dl (fl : Flags) : (s.withFlags fl).dl = s.dl := rfl
@[simp] theorem withFlags_dsp (fl : Flags) : (s.withFlags fl).dsp = s.dsp := rfl
@[simp] theorem withFlags_cctxi (fl : Flags) : (s.withFlags fl).cctxi = s.cctxi := rfl
@[simp] theorem withFlags_mctxi (fl : Flags) : (s.withFlags fl).mctxi = s.mctxi := rfl
@[simp] theorem withFlags_splim (fl : Flags) : (s.withFlags fl).splim = s.splim := rfl
@[simp] theorem withFlags_rcount (fl : Flags) : (s.withFlags fl).rcount = s.rcount := rfl
@[simp] theorem withFlags_dcount (fl : Flags) : (s.withFlags fl).dcount = s.dcount := rfl
@[simp] theorem withFlags_dostart (fl : Flags) : (s.withFlags fl).dostart = s.dostart := rfl
@[simp] theorem withFlags_doend (fl : Flags) : (s.withFlags fl).doend = s.doend := rfl
@[simp] theorem withFlags_dsrpag (fl : Flags) : (s.withFlags fl).dsrpag = s.dsrpag := rfl
@[simp] theorem withFlags_dswpag (fl : Flags) : (s.withFlags fl).dswpag = s.dswpag := rfl
@[simp] theorem withFlags_tblpag (fl : Flags) : (s.withFlags fl).tblpag = s.tblpag := rfl
@[simp] theorem withFlags_modcon (fl : Flags) : (s.withFlags fl).modcon = s.modcon := rfl
@[simp] theorem withFlags_xmodsrt (fl : Flags) : (s.withFlags fl).xmodsrt = s.xmodsrt := rfl
@[simp] theorem withFlags_xmodend (fl : Flags) : (s.withFlags fl).xmodend = s.xmodend := rfl
@[simp] theorem withFlags_ymodsrt (fl : Flags) : (s.withFlags fl).ymodsrt = s.ymodsrt := rfl
@[simp] theorem withFlags_ymodend (fl : Flags) : (s.withFlags fl).ymodend = s.ymodend := rfl
@[simp] theorem withFlags_bren (fl : Flags) : (s.withFlags fl).bren = s.bren := rfl
@[simp] theorem withFlags_xb (fl : Flags) : (s.withFlags fl).xb = s.xb := rfl
@[simp] theorem withFlags_disicnt (fl : Flags) : (s.withFlags fl).disicnt = s.disicnt := rfl
@[simp] theorem withFlags_mstrpr (fl : Flags) : (s.withFlags fl).mstrpr = s.mstrpr := rfl
@[simp] theorem withFlags_intcon (fl : Flags) : (s.withFlags fl).intcon = s.intcon := rfl
@[simp] theorem withFlags_shadowW (fl : Flags) : (s.withFlags fl).shadowW = s.shadowW := rfl
@[simp] theorem withFlags_shadowFlags (fl : Flags) : (s.withFlags fl).shadowFlags = s.shadowFlags := rfl
@[simp] theorem withFlags_dostack (fl : Flags) : (s.withFlags fl).dostack = s.dostack := rfl
@[simp] theorem withFlags_splimEnabled (fl : Flags) : (s.withFlags fl).splimEnabled = s.splimEnabled := rfl
@[simp] theorem withFlags_corconReplicate (fl : Flags) : (s.withFlags fl).corconReplicate = s.corconReplicate := rfl
@[simp] theorem withFlags_edt (fl : Flags) : (s.withFlags fl).edt = s.edt := rfl
@[simp] theorem withFlags_pending (fl : Flags) : (s.withFlags fl).pending = s.pending := rfl
@[simp] theorem withFlags_div (fl : Flags) : (s.withFlags fl).div = s.div := rfl
@[simp] theorem withFlags_nest (fl : Flags) : (s.withFlags fl).nest = s.nest := rfl
@[simp] theorem withFlags_taken (fl : Flags) : (s.withFlags fl).taken = s.taken := rfl
@[simp] theorem withFlags_repeatNew (fl : Flags) : (s.withFlags fl).repeatNew = s.repeatNew := rfl
@[simp] theorem withFlags_mem (fl : Flags) : (s.withFlags fl).mem = s.mem := rfl
@[simp] theorem withFlags_prog (fl : Flags) : (s.withFlags fl).prog = s.prog := rfl
@[simp] theorem withFlags_asm (fl : Flags) : (s.withFlags fl).asm = s.asm := rfl
@[simp] theorem withFlags_power (fl : Flags) : (s.withFlags fl).power = s.power := rfl
@[simp] theorem withFlags_irqs (fl : Flags) : (s.withFlags fl).irqs = s.irqs := rfl
@[simp] theorem withFlags_haz (fl : Flags) : (s.withFlags fl).haz = s.haz := rfl
@[simp] theorem withFlags_hazNext (fl : Flags) : (s.withFlags fl).hazNext = s.hazNext := rfl
@[simp] theorem withFlags_free (fl : Flags) : (s.withFlags fl).free = s.free := rfl

/-! `stackChecked`. -/

@[simp] theorem stackChecked_dev (ea : Word) (carry : Bool) : (s.stackChecked ea carry).dev = s.dev := by
  unfold State.stackChecked State.checkedAgainst; split <;> rfl
@[simp] theorem stackChecked_ctx (ea : Word) (carry : Bool) : (s.stackChecked ea carry).ctx = s.ctx := by
  unfold State.stackChecked State.checkedAgainst; split <;> rfl
@[simp] theorem stackChecked_w15 (ea : Word) (carry : Bool) : (s.stackChecked ea carry).w15 = s.w15 := by
  unfold State.stackChecked State.checkedAgainst; split <;> rfl
@[simp] theorem stackChecked_pc (ea : Word) (carry : Bool) : (s.stackChecked ea carry).pc = s.pc := by
  unfold State.stackChecked State.checkedAgainst; split <;> rfl
@[simp] theorem stackChecked_flags (ea : Word) (carry : Bool) : (s.stackChecked ea carry).flags = s.flags := by
  unfold State.stackChecked State.checkedAgainst; split <;> rfl
@[simp] theorem stackChecked_ra (ea : Word) (carry : Bool) : (s.stackChecked ea carry).ra = s.ra := by
  unfold State.stackChecked State.checkedAgainst; split <;> rfl
@[simp] theorem stackChecked_ipl (ea : Word) (carry : Bool) : (s.stackChecked ea carry).ipl = s.ipl := by
  unfold State.stackChecked State.checkedAgainst; split <;> rfl
@[simp] theorem stackChecked_ipl3 (ea : Word) (carry : Bool) : (s.stackChecked ea carry).ipl3 = s.ipl3 := by
  unfold State.stackChecked State.checkedAgainst; split <;> rfl
@[simp] theorem stackChecked_sfa (ea : Word) (carry : Bool) : (s.stackChecked ea carry).sfa = s.sfa := by
  unfold State.stackChecked State.checkedAgainst; split <;> rfl
@[simp] theorem stackChecked_dl (ea : Word) (carry : Bool) : (s.stackChecked ea carry).dl = s.dl := by
  unfold State.stackChecked State.checkedAgainst; split <;> rfl
@[simp] theorem stackChecked_dsp (ea : Word) (carry : Bool) : (s.stackChecked ea carry).dsp = s.dsp := by
  unfold State.stackChecked State.checkedAgainst; split <;> rfl
@[simp] theorem stackChecked_cctxi (ea : Word) (carry : Bool) : (s.stackChecked ea carry).cctxi = s.cctxi := by
  unfold State.stackChecked State.checkedAgainst; split <;> rfl
@[simp] theorem stackChecked_mctxi (ea : Word) (carry : Bool) : (s.stackChecked ea carry).mctxi = s.mctxi := by
  unfold State.stackChecked State.checkedAgainst; split <;> rfl
@[simp] theorem stackChecked_splim (ea : Word) (carry : Bool) : (s.stackChecked ea carry).splim = s.splim := by
  unfold State.stackChecked State.checkedAgainst; split <;> rfl
@[simp] theorem stackChecked_rcount (ea : Word) (carry : Bool) : (s.stackChecked ea carry).rcount = s.rcount := by
  unfold State.stackChecked State.checkedAgainst; split <;> rfl
@[simp] theorem stackChecked_dcount (ea : Word) (carry : Bool) : (s.stackChecked ea carry).dcount = s.dcount := by
  unfold State.stackChecked State.checkedAgainst; split <;> rfl
@[simp] theorem stackChecked_dostart (ea : Word) (carry : Bool) : (s.stackChecked ea carry).dostart = s.dostart := by
  unfold State.stackChecked State.checkedAgainst; split <;> rfl
@[simp] theorem stackChecked_doend (ea : Word) (carry : Bool) : (s.stackChecked ea carry).doend = s.doend := by
  unfold State.stackChecked State.checkedAgainst; split <;> rfl
@[simp] theorem stackChecked_dsrpag (ea : Word) (carry : Bool) : (s.stackChecked ea carry).dsrpag = s.dsrpag := by
  unfold State.stackChecked State.checkedAgainst; split <;> rfl
@[simp] theorem stackChecked_dswpag (ea : Word) (carry : Bool) : (s.stackChecked ea carry).dswpag = s.dswpag := by
  unfold State.stackChecked State.checkedAgainst; split <;> rfl
@[simp] theorem stackChecked_tblpag (ea : Word) (carry : Bool) : (s.stackChecked ea carry).tblpag = s.tblpag := by
  unfold State.stackChecked State.checkedAgainst; split <;> rfl
@[simp] theorem stackChecked_modcon (ea : Word) (carry : Bool) : (s.stackChecked ea carry).modcon = s.modcon := by
  unfold State.stackChecked State.checkedAgainst; split <;> rfl
@[simp] theorem stackChecked_xmodsrt (ea : Word) (carry : Bool) : (s.stackChecked ea carry).xmodsrt = s.xmodsrt := by
  unfold State.stackChecked State.checkedAgainst; split <;> rfl
@[simp] theorem stackChecked_xmodend (ea : Word) (carry : Bool) : (s.stackChecked ea carry).xmodend = s.xmodend := by
  unfold State.stackChecked State.checkedAgainst; split <;> rfl
@[simp] theorem stackChecked_ymodsrt (ea : Word) (carry : Bool) : (s.stackChecked ea carry).ymodsrt = s.ymodsrt := by
  unfold State.stackChecked State.checkedAgainst; split <;> rfl
@[simp] theorem stackChecked_ymodend (ea : Word) (carry : Bool) : (s.stackChecked ea carry).ymodend = s.ymodend := by
  unfold State.stackChecked State.checkedAgainst; split <;> rfl
@[simp] theorem stackChecked_bren (ea : Word) (carry : Bool) : (s.stackChecked ea carry).bren = s.bren := by
  unfold State.stackChecked State.checkedAgainst; split <;> rfl
@[simp] theorem stackChecked_xb (ea : Word) (carry : Bool) : (s.stackChecked ea carry).xb = s.xb := by
  unfold State.stackChecked State.checkedAgainst; split <;> rfl
@[simp] theorem stackChecked_disicnt (ea : Word) (carry : Bool) : (s.stackChecked ea carry).disicnt = s.disicnt := by
  unfold State.stackChecked State.checkedAgainst; split <;> rfl
@[simp] theorem stackChecked_mstrpr (ea : Word) (carry : Bool) : (s.stackChecked ea carry).mstrpr = s.mstrpr := by
  unfold State.stackChecked State.checkedAgainst; split <;> rfl
@[simp] theorem stackChecked_intcon (ea : Word) (carry : Bool) : (s.stackChecked ea carry).intcon = s.intcon := by
  unfold State.stackChecked State.checkedAgainst; split <;> rfl
@[simp] theorem stackChecked_shadowW (ea : Word) (carry : Bool) : (s.stackChecked ea carry).shadowW = s.shadowW := by
  unfold State.stackChecked State.checkedAgainst; split <;> rfl
@[simp] theorem stackChecked_shadowFlags (ea : Word) (carry : Bool) : (s.stackChecked ea carry).shadowFlags = s.shadowFlags := by
  unfold State.stackChecked State.checkedAgainst; split <;> rfl
@[simp] theorem stackChecked_dostack (ea : Word) (carry : Bool) : (s.stackChecked ea carry).dostack = s.dostack := by
  unfold State.stackChecked State.checkedAgainst; split <;> rfl
@[simp] theorem stackChecked_splimEnabled (ea : Word) (carry : Bool) : (s.stackChecked ea carry).splimEnabled = s.splimEnabled := by
  unfold State.stackChecked State.checkedAgainst; split <;> rfl
@[simp] theorem stackChecked_corconReplicate (ea : Word) (carry : Bool) : (s.stackChecked ea carry).corconReplicate = s.corconReplicate := by
  unfold State.stackChecked State.checkedAgainst; split <;> rfl
@[simp] theorem stackChecked_edt (ea : Word) (carry : Bool) : (s.stackChecked ea carry).edt = s.edt := by
  unfold State.stackChecked State.checkedAgainst; split <;> rfl
@[simp] theorem stackChecked_div (ea : Word) (carry : Bool) : (s.stackChecked ea carry).div = s.div := by
  unfold State.stackChecked State.checkedAgainst; split <;> rfl
@[simp] theorem stackChecked_nest (ea : Word) (carry : Bool) : (s.stackChecked ea carry).nest = s.nest := by
  unfold State.stackChecked State.checkedAgainst; split <;> rfl
@[simp] theorem stackChecked_taken (ea : Word) (carry : Bool) : (s.stackChecked ea carry).taken = s.taken := by
  unfold State.stackChecked State.checkedAgainst; split <;> rfl
@[simp] theorem stackChecked_repeatNew (ea : Word) (carry : Bool) : (s.stackChecked ea carry).repeatNew = s.repeatNew := by
  unfold State.stackChecked State.checkedAgainst; split <;> rfl
@[simp] theorem stackChecked_mem (ea : Word) (carry : Bool) : (s.stackChecked ea carry).mem = s.mem := by
  unfold State.stackChecked State.checkedAgainst; split <;> rfl
@[simp] theorem stackChecked_prog (ea : Word) (carry : Bool) : (s.stackChecked ea carry).prog = s.prog := by
  unfold State.stackChecked State.checkedAgainst; split <;> rfl
@[simp] theorem stackChecked_asm (ea : Word) (carry : Bool) : (s.stackChecked ea carry).asm = s.asm := by
  unfold State.stackChecked State.checkedAgainst; split <;> rfl
@[simp] theorem stackChecked_power (ea : Word) (carry : Bool) : (s.stackChecked ea carry).power = s.power := by
  unfold State.stackChecked State.checkedAgainst; split <;> rfl
@[simp] theorem stackChecked_irqs (ea : Word) (carry : Bool) : (s.stackChecked ea carry).irqs = s.irqs := by
  unfold State.stackChecked State.checkedAgainst; split <;> rfl
@[simp] theorem stackChecked_haz (ea : Word) (carry : Bool) : (s.stackChecked ea carry).haz = s.haz := by
  unfold State.stackChecked State.checkedAgainst; split <;> rfl
@[simp] theorem stackChecked_hazNext (ea : Word) (carry : Bool) : (s.stackChecked ea carry).hazNext = s.hazNext := by
  unfold State.stackChecked State.checkedAgainst; split <;> rfl
@[simp] theorem stackChecked_free (ea : Word) (carry : Bool) : (s.stackChecked ea carry).free = s.free := by
  unfold State.stackChecked State.checkedAgainst; split <;> rfl

/-! `viaChecked`. -/

@[simp] theorem viaChecked_dev (via : Via) (ea : Word) (carry : Bool) : (s.viaChecked via ea carry).dev = s.dev := by
  unfold State.viaChecked; split <;> simp
@[simp] theorem viaChecked_ctx (via : Via) (ea : Word) (carry : Bool) : (s.viaChecked via ea carry).ctx = s.ctx := by
  unfold State.viaChecked; split <;> simp
@[simp] theorem viaChecked_w15 (via : Via) (ea : Word) (carry : Bool) : (s.viaChecked via ea carry).w15 = s.w15 := by
  unfold State.viaChecked; split <;> simp
@[simp] theorem viaChecked_pc (via : Via) (ea : Word) (carry : Bool) : (s.viaChecked via ea carry).pc = s.pc := by
  unfold State.viaChecked; split <;> simp
@[simp] theorem viaChecked_flags (via : Via) (ea : Word) (carry : Bool) : (s.viaChecked via ea carry).flags = s.flags := by
  unfold State.viaChecked; split <;> simp
@[simp] theorem viaChecked_ra (via : Via) (ea : Word) (carry : Bool) : (s.viaChecked via ea carry).ra = s.ra := by
  unfold State.viaChecked; split <;> simp
@[simp] theorem viaChecked_ipl (via : Via) (ea : Word) (carry : Bool) : (s.viaChecked via ea carry).ipl = s.ipl := by
  unfold State.viaChecked; split <;> simp
@[simp] theorem viaChecked_ipl3 (via : Via) (ea : Word) (carry : Bool) : (s.viaChecked via ea carry).ipl3 = s.ipl3 := by
  unfold State.viaChecked; split <;> simp
@[simp] theorem viaChecked_sfa (via : Via) (ea : Word) (carry : Bool) : (s.viaChecked via ea carry).sfa = s.sfa := by
  unfold State.viaChecked; split <;> simp
@[simp] theorem viaChecked_dl (via : Via) (ea : Word) (carry : Bool) : (s.viaChecked via ea carry).dl = s.dl := by
  unfold State.viaChecked; split <;> simp
@[simp] theorem viaChecked_dsp (via : Via) (ea : Word) (carry : Bool) : (s.viaChecked via ea carry).dsp = s.dsp := by
  unfold State.viaChecked; split <;> simp
@[simp] theorem viaChecked_cctxi (via : Via) (ea : Word) (carry : Bool) : (s.viaChecked via ea carry).cctxi = s.cctxi := by
  unfold State.viaChecked; split <;> simp
@[simp] theorem viaChecked_mctxi (via : Via) (ea : Word) (carry : Bool) : (s.viaChecked via ea carry).mctxi = s.mctxi := by
  unfold State.viaChecked; split <;> simp
@[simp] theorem viaChecked_splim (via : Via) (ea : Word) (carry : Bool) : (s.viaChecked via ea carry).splim = s.splim := by
  unfold State.viaChecked; split <;> simp
@[simp] theorem viaChecked_rcount (via : Via) (ea : Word) (carry : Bool) : (s.viaChecked via ea carry).rcount = s.rcount := by
  unfold State.viaChecked; split <;> simp
@[simp] theorem viaChecked_dcount (via : Via) (ea : Word) (carry : Bool) : (s.viaChecked via ea carry).dcount = s.dcount := by
  unfold State.viaChecked; split <;> simp
@[simp] theorem viaChecked_dostart (via : Via) (ea : Word) (carry : Bool) : (s.viaChecked via ea carry).dostart = s.dostart := by
  unfold State.viaChecked; split <;> simp
@[simp] theorem viaChecked_doend (via : Via) (ea : Word) (carry : Bool) : (s.viaChecked via ea carry).doend = s.doend := by
  unfold State.viaChecked; split <;> simp
@[simp] theorem viaChecked_dsrpag (via : Via) (ea : Word) (carry : Bool) : (s.viaChecked via ea carry).dsrpag = s.dsrpag := by
  unfold State.viaChecked; split <;> simp
@[simp] theorem viaChecked_dswpag (via : Via) (ea : Word) (carry : Bool) : (s.viaChecked via ea carry).dswpag = s.dswpag := by
  unfold State.viaChecked; split <;> simp
@[simp] theorem viaChecked_tblpag (via : Via) (ea : Word) (carry : Bool) : (s.viaChecked via ea carry).tblpag = s.tblpag := by
  unfold State.viaChecked; split <;> simp
@[simp] theorem viaChecked_modcon (via : Via) (ea : Word) (carry : Bool) : (s.viaChecked via ea carry).modcon = s.modcon := by
  unfold State.viaChecked; split <;> simp
@[simp] theorem viaChecked_xmodsrt (via : Via) (ea : Word) (carry : Bool) : (s.viaChecked via ea carry).xmodsrt = s.xmodsrt := by
  unfold State.viaChecked; split <;> simp
@[simp] theorem viaChecked_xmodend (via : Via) (ea : Word) (carry : Bool) : (s.viaChecked via ea carry).xmodend = s.xmodend := by
  unfold State.viaChecked; split <;> simp
@[simp] theorem viaChecked_ymodsrt (via : Via) (ea : Word) (carry : Bool) : (s.viaChecked via ea carry).ymodsrt = s.ymodsrt := by
  unfold State.viaChecked; split <;> simp
@[simp] theorem viaChecked_ymodend (via : Via) (ea : Word) (carry : Bool) : (s.viaChecked via ea carry).ymodend = s.ymodend := by
  unfold State.viaChecked; split <;> simp
@[simp] theorem viaChecked_bren (via : Via) (ea : Word) (carry : Bool) : (s.viaChecked via ea carry).bren = s.bren := by
  unfold State.viaChecked; split <;> simp
@[simp] theorem viaChecked_xb (via : Via) (ea : Word) (carry : Bool) : (s.viaChecked via ea carry).xb = s.xb := by
  unfold State.viaChecked; split <;> simp
@[simp] theorem viaChecked_disicnt (via : Via) (ea : Word) (carry : Bool) : (s.viaChecked via ea carry).disicnt = s.disicnt := by
  unfold State.viaChecked; split <;> simp
@[simp] theorem viaChecked_mstrpr (via : Via) (ea : Word) (carry : Bool) : (s.viaChecked via ea carry).mstrpr = s.mstrpr := by
  unfold State.viaChecked; split <;> simp
@[simp] theorem viaChecked_intcon (via : Via) (ea : Word) (carry : Bool) : (s.viaChecked via ea carry).intcon = s.intcon := by
  unfold State.viaChecked; split <;> simp
@[simp] theorem viaChecked_shadowW (via : Via) (ea : Word) (carry : Bool) : (s.viaChecked via ea carry).shadowW = s.shadowW := by
  unfold State.viaChecked; split <;> simp
@[simp] theorem viaChecked_shadowFlags (via : Via) (ea : Word) (carry : Bool) : (s.viaChecked via ea carry).shadowFlags = s.shadowFlags := by
  unfold State.viaChecked; split <;> simp
@[simp] theorem viaChecked_dostack (via : Via) (ea : Word) (carry : Bool) : (s.viaChecked via ea carry).dostack = s.dostack := by
  unfold State.viaChecked; split <;> simp
@[simp] theorem viaChecked_splimEnabled (via : Via) (ea : Word) (carry : Bool) : (s.viaChecked via ea carry).splimEnabled = s.splimEnabled := by
  unfold State.viaChecked; split <;> simp
@[simp] theorem viaChecked_corconReplicate (via : Via) (ea : Word) (carry : Bool) : (s.viaChecked via ea carry).corconReplicate = s.corconReplicate := by
  unfold State.viaChecked; split <;> simp
@[simp] theorem viaChecked_edt (via : Via) (ea : Word) (carry : Bool) : (s.viaChecked via ea carry).edt = s.edt := by
  unfold State.viaChecked; split <;> simp
@[simp] theorem viaChecked_div (via : Via) (ea : Word) (carry : Bool) : (s.viaChecked via ea carry).div = s.div := by
  unfold State.viaChecked; split <;> simp
@[simp] theorem viaChecked_nest (via : Via) (ea : Word) (carry : Bool) : (s.viaChecked via ea carry).nest = s.nest := by
  unfold State.viaChecked; split <;> simp
@[simp] theorem viaChecked_taken (via : Via) (ea : Word) (carry : Bool) : (s.viaChecked via ea carry).taken = s.taken := by
  unfold State.viaChecked; split <;> simp
@[simp] theorem viaChecked_repeatNew (via : Via) (ea : Word) (carry : Bool) : (s.viaChecked via ea carry).repeatNew = s.repeatNew := by
  unfold State.viaChecked; split <;> simp
@[simp] theorem viaChecked_mem (via : Via) (ea : Word) (carry : Bool) : (s.viaChecked via ea carry).mem = s.mem := by
  unfold State.viaChecked; split <;> simp
@[simp] theorem viaChecked_prog (via : Via) (ea : Word) (carry : Bool) : (s.viaChecked via ea carry).prog = s.prog := by
  unfold State.viaChecked; split <;> simp
@[simp] theorem viaChecked_asm (via : Via) (ea : Word) (carry : Bool) : (s.viaChecked via ea carry).asm = s.asm := by
  unfold State.viaChecked; split <;> simp
@[simp] theorem viaChecked_power (via : Via) (ea : Word) (carry : Bool) : (s.viaChecked via ea carry).power = s.power := by
  unfold State.viaChecked; split <;> simp
@[simp] theorem viaChecked_irqs (via : Via) (ea : Word) (carry : Bool) : (s.viaChecked via ea carry).irqs = s.irqs := by
  unfold State.viaChecked; split <;> simp
@[simp] theorem viaChecked_haz (via : Via) (ea : Word) (carry : Bool) : (s.viaChecked via ea carry).haz = s.haz := by
  unfold State.viaChecked; split <;> simp
@[simp] theorem viaChecked_hazNext (via : Via) (ea : Word) (carry : Bool) : (s.viaChecked via ea carry).hazNext = s.hazNext := by
  unfold State.viaChecked; split <;> simp
@[simp] theorem viaChecked_free (via : Via) (ea : Word) (carry : Bool) : (s.viaChecked via ea carry).free = s.free := by
  unfold State.viaChecked; split <;> simp

/-! `preModified`. -/

@[simp] theorem preModified_dev (op : Operand) (step : Word) : (s.preModified op step).dev = s.dev := by
  unfold State.preModified; split <;> simp
@[simp] theorem preModified_pc (op : Operand) (step : Word) : (s.preModified op step).pc = s.pc := by
  unfold State.preModified; split <;> simp
@[simp] theorem preModified_flags (op : Operand) (step : Word) : (s.preModified op step).flags = s.flags := by
  unfold State.preModified; split <;> simp
@[simp] theorem preModified_ra (op : Operand) (step : Word) : (s.preModified op step).ra = s.ra := by
  unfold State.preModified; split <;> simp
@[simp] theorem preModified_ipl (op : Operand) (step : Word) : (s.preModified op step).ipl = s.ipl := by
  unfold State.preModified; split <;> simp
@[simp] theorem preModified_ipl3 (op : Operand) (step : Word) : (s.preModified op step).ipl3 = s.ipl3 := by
  unfold State.preModified; split <;> simp
@[simp] theorem preModified_sfa (op : Operand) (step : Word) : (s.preModified op step).sfa = s.sfa := by
  unfold State.preModified; split <;> simp
@[simp] theorem preModified_dl (op : Operand) (step : Word) : (s.preModified op step).dl = s.dl := by
  unfold State.preModified; split <;> simp
@[simp] theorem preModified_dsp (op : Operand) (step : Word) : (s.preModified op step).dsp = s.dsp := by
  unfold State.preModified; split <;> simp
@[simp] theorem preModified_cctxi (op : Operand) (step : Word) : (s.preModified op step).cctxi = s.cctxi := by
  unfold State.preModified; split <;> simp
@[simp] theorem preModified_mctxi (op : Operand) (step : Word) : (s.preModified op step).mctxi = s.mctxi := by
  unfold State.preModified; split <;> simp
@[simp] theorem preModified_splim (op : Operand) (step : Word) : (s.preModified op step).splim = s.splim := by
  unfold State.preModified; split <;> simp
@[simp] theorem preModified_rcount (op : Operand) (step : Word) : (s.preModified op step).rcount = s.rcount := by
  unfold State.preModified; split <;> simp
@[simp] theorem preModified_dcount (op : Operand) (step : Word) : (s.preModified op step).dcount = s.dcount := by
  unfold State.preModified; split <;> simp
@[simp] theorem preModified_dostart (op : Operand) (step : Word) : (s.preModified op step).dostart = s.dostart := by
  unfold State.preModified; split <;> simp
@[simp] theorem preModified_doend (op : Operand) (step : Word) : (s.preModified op step).doend = s.doend := by
  unfold State.preModified; split <;> simp
@[simp] theorem preModified_dsrpag (op : Operand) (step : Word) : (s.preModified op step).dsrpag = s.dsrpag := by
  unfold State.preModified; split <;> simp
@[simp] theorem preModified_dswpag (op : Operand) (step : Word) : (s.preModified op step).dswpag = s.dswpag := by
  unfold State.preModified; split <;> simp
@[simp] theorem preModified_tblpag (op : Operand) (step : Word) : (s.preModified op step).tblpag = s.tblpag := by
  unfold State.preModified; split <;> simp
@[simp] theorem preModified_modcon (op : Operand) (step : Word) : (s.preModified op step).modcon = s.modcon := by
  unfold State.preModified; split <;> simp
@[simp] theorem preModified_xmodsrt (op : Operand) (step : Word) : (s.preModified op step).xmodsrt = s.xmodsrt := by
  unfold State.preModified; split <;> simp
@[simp] theorem preModified_xmodend (op : Operand) (step : Word) : (s.preModified op step).xmodend = s.xmodend := by
  unfold State.preModified; split <;> simp
@[simp] theorem preModified_ymodsrt (op : Operand) (step : Word) : (s.preModified op step).ymodsrt = s.ymodsrt := by
  unfold State.preModified; split <;> simp
@[simp] theorem preModified_ymodend (op : Operand) (step : Word) : (s.preModified op step).ymodend = s.ymodend := by
  unfold State.preModified; split <;> simp
@[simp] theorem preModified_bren (op : Operand) (step : Word) : (s.preModified op step).bren = s.bren := by
  unfold State.preModified; split <;> simp
@[simp] theorem preModified_xb (op : Operand) (step : Word) : (s.preModified op step).xb = s.xb := by
  unfold State.preModified; split <;> simp
@[simp] theorem preModified_disicnt (op : Operand) (step : Word) : (s.preModified op step).disicnt = s.disicnt := by
  unfold State.preModified; split <;> simp
@[simp] theorem preModified_mstrpr (op : Operand) (step : Word) : (s.preModified op step).mstrpr = s.mstrpr := by
  unfold State.preModified; split <;> simp
@[simp] theorem preModified_intcon (op : Operand) (step : Word) : (s.preModified op step).intcon = s.intcon := by
  unfold State.preModified; split <;> simp
@[simp] theorem preModified_shadowW (op : Operand) (step : Word) : (s.preModified op step).shadowW = s.shadowW := by
  unfold State.preModified; split <;> simp
@[simp] theorem preModified_shadowFlags (op : Operand) (step : Word) : (s.preModified op step).shadowFlags = s.shadowFlags := by
  unfold State.preModified; split <;> simp
@[simp] theorem preModified_dostack (op : Operand) (step : Word) : (s.preModified op step).dostack = s.dostack := by
  unfold State.preModified; split <;> simp
@[simp] theorem preModified_splimEnabled (op : Operand) (step : Word) : (s.preModified op step).splimEnabled = s.splimEnabled := by
  unfold State.preModified; split <;> simp
@[simp] theorem preModified_corconReplicate (op : Operand) (step : Word) : (s.preModified op step).corconReplicate = s.corconReplicate := by
  unfold State.preModified; split <;> simp
@[simp] theorem preModified_edt (op : Operand) (step : Word) : (s.preModified op step).edt = s.edt := by
  unfold State.preModified; split <;> simp
@[simp] theorem preModified_pending (op : Operand) (step : Word) : (s.preModified op step).pending = s.pending := by
  unfold State.preModified; split <;> simp
@[simp] theorem preModified_div (op : Operand) (step : Word) : (s.preModified op step).div = s.div := by
  unfold State.preModified; split <;> simp
@[simp] theorem preModified_nest (op : Operand) (step : Word) : (s.preModified op step).nest = s.nest := by
  unfold State.preModified; split <;> simp
@[simp] theorem preModified_taken (op : Operand) (step : Word) : (s.preModified op step).taken = s.taken := by
  unfold State.preModified; split <;> simp
@[simp] theorem preModified_repeatNew (op : Operand) (step : Word) : (s.preModified op step).repeatNew = s.repeatNew := by
  unfold State.preModified; split <;> simp
@[simp] theorem preModified_mem (op : Operand) (step : Word) : (s.preModified op step).mem = s.mem := by
  unfold State.preModified; split <;> simp
@[simp] theorem preModified_prog (op : Operand) (step : Word) : (s.preModified op step).prog = s.prog := by
  unfold State.preModified; split <;> simp
@[simp] theorem preModified_asm (op : Operand) (step : Word) : (s.preModified op step).asm = s.asm := by
  unfold State.preModified; split <;> simp
@[simp] theorem preModified_power (op : Operand) (step : Word) : (s.preModified op step).power = s.power := by
  unfold State.preModified; split <;> simp
@[simp] theorem preModified_irqs (op : Operand) (step : Word) : (s.preModified op step).irqs = s.irqs := by
  unfold State.preModified; split <;> simp
@[simp] theorem preModified_haz (op : Operand) (step : Word) : (s.preModified op step).haz = s.haz := by
  unfold State.preModified; split <;> simp
@[simp] theorem preModified_hazNext (op : Operand) (step : Word) : (s.preModified op step).hazNext = s.hazNext := by
  unfold State.preModified; split <;> simp
@[simp] theorem preModified_free (op : Operand) (step : Word) : (s.preModified op step).free = s.free := by
  unfold State.preModified; split <;> simp

/-! `postModified`. -/

@[simp] theorem postModified_dev (op : Operand) (step : Word) : (s.postModified op step).dev = s.dev := by
  unfold State.postModified; split <;> simp
@[simp] theorem postModified_pc (op : Operand) (step : Word) : (s.postModified op step).pc = s.pc := by
  unfold State.postModified; split <;> simp
@[simp] theorem postModified_flags (op : Operand) (step : Word) : (s.postModified op step).flags = s.flags := by
  unfold State.postModified; split <;> simp
@[simp] theorem postModified_ra (op : Operand) (step : Word) : (s.postModified op step).ra = s.ra := by
  unfold State.postModified; split <;> simp
@[simp] theorem postModified_ipl (op : Operand) (step : Word) : (s.postModified op step).ipl = s.ipl := by
  unfold State.postModified; split <;> simp
@[simp] theorem postModified_ipl3 (op : Operand) (step : Word) : (s.postModified op step).ipl3 = s.ipl3 := by
  unfold State.postModified; split <;> simp
@[simp] theorem postModified_sfa (op : Operand) (step : Word) : (s.postModified op step).sfa = s.sfa := by
  unfold State.postModified; split <;> simp
@[simp] theorem postModified_dl (op : Operand) (step : Word) : (s.postModified op step).dl = s.dl := by
  unfold State.postModified; split <;> simp
@[simp] theorem postModified_dsp (op : Operand) (step : Word) : (s.postModified op step).dsp = s.dsp := by
  unfold State.postModified; split <;> simp
@[simp] theorem postModified_cctxi (op : Operand) (step : Word) : (s.postModified op step).cctxi = s.cctxi := by
  unfold State.postModified; split <;> simp
@[simp] theorem postModified_mctxi (op : Operand) (step : Word) : (s.postModified op step).mctxi = s.mctxi := by
  unfold State.postModified; split <;> simp
@[simp] theorem postModified_splim (op : Operand) (step : Word) : (s.postModified op step).splim = s.splim := by
  unfold State.postModified; split <;> simp
@[simp] theorem postModified_rcount (op : Operand) (step : Word) : (s.postModified op step).rcount = s.rcount := by
  unfold State.postModified; split <;> simp
@[simp] theorem postModified_dcount (op : Operand) (step : Word) : (s.postModified op step).dcount = s.dcount := by
  unfold State.postModified; split <;> simp
@[simp] theorem postModified_dostart (op : Operand) (step : Word) : (s.postModified op step).dostart = s.dostart := by
  unfold State.postModified; split <;> simp
@[simp] theorem postModified_doend (op : Operand) (step : Word) : (s.postModified op step).doend = s.doend := by
  unfold State.postModified; split <;> simp
@[simp] theorem postModified_dsrpag (op : Operand) (step : Word) : (s.postModified op step).dsrpag = s.dsrpag := by
  unfold State.postModified; split <;> simp
@[simp] theorem postModified_dswpag (op : Operand) (step : Word) : (s.postModified op step).dswpag = s.dswpag := by
  unfold State.postModified; split <;> simp
@[simp] theorem postModified_tblpag (op : Operand) (step : Word) : (s.postModified op step).tblpag = s.tblpag := by
  unfold State.postModified; split <;> simp
@[simp] theorem postModified_modcon (op : Operand) (step : Word) : (s.postModified op step).modcon = s.modcon := by
  unfold State.postModified; split <;> simp
@[simp] theorem postModified_xmodsrt (op : Operand) (step : Word) : (s.postModified op step).xmodsrt = s.xmodsrt := by
  unfold State.postModified; split <;> simp
@[simp] theorem postModified_xmodend (op : Operand) (step : Word) : (s.postModified op step).xmodend = s.xmodend := by
  unfold State.postModified; split <;> simp
@[simp] theorem postModified_ymodsrt (op : Operand) (step : Word) : (s.postModified op step).ymodsrt = s.ymodsrt := by
  unfold State.postModified; split <;> simp
@[simp] theorem postModified_ymodend (op : Operand) (step : Word) : (s.postModified op step).ymodend = s.ymodend := by
  unfold State.postModified; split <;> simp
@[simp] theorem postModified_bren (op : Operand) (step : Word) : (s.postModified op step).bren = s.bren := by
  unfold State.postModified; split <;> simp
@[simp] theorem postModified_xb (op : Operand) (step : Word) : (s.postModified op step).xb = s.xb := by
  unfold State.postModified; split <;> simp
@[simp] theorem postModified_disicnt (op : Operand) (step : Word) : (s.postModified op step).disicnt = s.disicnt := by
  unfold State.postModified; split <;> simp
@[simp] theorem postModified_mstrpr (op : Operand) (step : Word) : (s.postModified op step).mstrpr = s.mstrpr := by
  unfold State.postModified; split <;> simp
@[simp] theorem postModified_intcon (op : Operand) (step : Word) : (s.postModified op step).intcon = s.intcon := by
  unfold State.postModified; split <;> simp
@[simp] theorem postModified_shadowW (op : Operand) (step : Word) : (s.postModified op step).shadowW = s.shadowW := by
  unfold State.postModified; split <;> simp
@[simp] theorem postModified_shadowFlags (op : Operand) (step : Word) : (s.postModified op step).shadowFlags = s.shadowFlags := by
  unfold State.postModified; split <;> simp
@[simp] theorem postModified_dostack (op : Operand) (step : Word) : (s.postModified op step).dostack = s.dostack := by
  unfold State.postModified; split <;> simp
@[simp] theorem postModified_splimEnabled (op : Operand) (step : Word) : (s.postModified op step).splimEnabled = s.splimEnabled := by
  unfold State.postModified; split <;> simp
@[simp] theorem postModified_corconReplicate (op : Operand) (step : Word) : (s.postModified op step).corconReplicate = s.corconReplicate := by
  unfold State.postModified; split <;> simp
@[simp] theorem postModified_edt (op : Operand) (step : Word) : (s.postModified op step).edt = s.edt := by
  unfold State.postModified; split <;> simp
@[simp] theorem postModified_pending (op : Operand) (step : Word) : (s.postModified op step).pending = s.pending := by
  unfold State.postModified; split <;> simp
@[simp] theorem postModified_div (op : Operand) (step : Word) : (s.postModified op step).div = s.div := by
  unfold State.postModified; split <;> simp
@[simp] theorem postModified_nest (op : Operand) (step : Word) : (s.postModified op step).nest = s.nest := by
  unfold State.postModified; split <;> simp
@[simp] theorem postModified_taken (op : Operand) (step : Word) : (s.postModified op step).taken = s.taken := by
  unfold State.postModified; split <;> simp
@[simp] theorem postModified_repeatNew (op : Operand) (step : Word) : (s.postModified op step).repeatNew = s.repeatNew := by
  unfold State.postModified; split <;> simp
@[simp] theorem postModified_mem (op : Operand) (step : Word) : (s.postModified op step).mem = s.mem := by
  unfold State.postModified; split <;> simp
@[simp] theorem postModified_prog (op : Operand) (step : Word) : (s.postModified op step).prog = s.prog := by
  unfold State.postModified; split <;> simp
@[simp] theorem postModified_asm (op : Operand) (step : Word) : (s.postModified op step).asm = s.asm := by
  unfold State.postModified; split <;> simp
@[simp] theorem postModified_power (op : Operand) (step : Word) : (s.postModified op step).power = s.power := by
  unfold State.postModified; split <;> simp
@[simp] theorem postModified_irqs (op : Operand) (step : Word) : (s.postModified op step).irqs = s.irqs := by
  unfold State.postModified; split <;> simp
@[simp] theorem postModified_haz (op : Operand) (step : Word) : (s.postModified op step).haz = s.haz := by
  unfold State.postModified; split <;> simp
@[simp] theorem postModified_hazNext (op : Operand) (step : Word) : (s.postModified op step).hazNext = s.hazNext := by
  unfold State.postModified; split <;> simp
@[simp] theorem postModified_free (op : Operand) (step : Word) : (s.postModified op step).free = s.free := by
  unfold State.postModified; split <;> simp

/-! `regDest`. -/

@[simp] theorem regDest_dev (byte : Bool) (r : Reg) (v : Word) : (s.regDest byte r v).dev = s.dev := by
  unfold State.regDest State.setWregLow; split <;> simp
@[simp] theorem regDest_pc (byte : Bool) (r : Reg) (v : Word) : (s.regDest byte r v).pc = s.pc := by
  unfold State.regDest State.setWregLow; split <;> simp
@[simp] theorem regDest_flags (byte : Bool) (r : Reg) (v : Word) : (s.regDest byte r v).flags = s.flags := by
  unfold State.regDest State.setWregLow; split <;> simp
@[simp] theorem regDest_ra (byte : Bool) (r : Reg) (v : Word) : (s.regDest byte r v).ra = s.ra := by
  unfold State.regDest State.setWregLow; split <;> simp
@[simp] theorem regDest_ipl (byte : Bool) (r : Reg) (v : Word) : (s.regDest byte r v).ipl = s.ipl := by
  unfold State.regDest State.setWregLow; split <;> simp
@[simp] theorem regDest_ipl3 (byte : Bool) (r : Reg) (v : Word) : (s.regDest byte r v).ipl3 = s.ipl3 := by
  unfold State.regDest State.setWregLow; split <;> simp
@[simp] theorem regDest_sfa (byte : Bool) (r : Reg) (v : Word) : (s.regDest byte r v).sfa = s.sfa := by
  unfold State.regDest State.setWregLow; split <;> simp
@[simp] theorem regDest_dl (byte : Bool) (r : Reg) (v : Word) : (s.regDest byte r v).dl = s.dl := by
  unfold State.regDest State.setWregLow; split <;> simp
@[simp] theorem regDest_dsp (byte : Bool) (r : Reg) (v : Word) : (s.regDest byte r v).dsp = s.dsp := by
  unfold State.regDest State.setWregLow; split <;> simp
@[simp] theorem regDest_cctxi (byte : Bool) (r : Reg) (v : Word) : (s.regDest byte r v).cctxi = s.cctxi := by
  unfold State.regDest State.setWregLow; split <;> simp
@[simp] theorem regDest_mctxi (byte : Bool) (r : Reg) (v : Word) : (s.regDest byte r v).mctxi = s.mctxi := by
  unfold State.regDest State.setWregLow; split <;> simp
@[simp] theorem regDest_splim (byte : Bool) (r : Reg) (v : Word) : (s.regDest byte r v).splim = s.splim := by
  unfold State.regDest State.setWregLow; split <;> simp
@[simp] theorem regDest_rcount (byte : Bool) (r : Reg) (v : Word) : (s.regDest byte r v).rcount = s.rcount := by
  unfold State.regDest State.setWregLow; split <;> simp
@[simp] theorem regDest_dcount (byte : Bool) (r : Reg) (v : Word) : (s.regDest byte r v).dcount = s.dcount := by
  unfold State.regDest State.setWregLow; split <;> simp
@[simp] theorem regDest_dostart (byte : Bool) (r : Reg) (v : Word) : (s.regDest byte r v).dostart = s.dostart := by
  unfold State.regDest State.setWregLow; split <;> simp
@[simp] theorem regDest_doend (byte : Bool) (r : Reg) (v : Word) : (s.regDest byte r v).doend = s.doend := by
  unfold State.regDest State.setWregLow; split <;> simp
@[simp] theorem regDest_dsrpag (byte : Bool) (r : Reg) (v : Word) : (s.regDest byte r v).dsrpag = s.dsrpag := by
  unfold State.regDest State.setWregLow; split <;> simp
@[simp] theorem regDest_dswpag (byte : Bool) (r : Reg) (v : Word) : (s.regDest byte r v).dswpag = s.dswpag := by
  unfold State.regDest State.setWregLow; split <;> simp
@[simp] theorem regDest_tblpag (byte : Bool) (r : Reg) (v : Word) : (s.regDest byte r v).tblpag = s.tblpag := by
  unfold State.regDest State.setWregLow; split <;> simp
@[simp] theorem regDest_modcon (byte : Bool) (r : Reg) (v : Word) : (s.regDest byte r v).modcon = s.modcon := by
  unfold State.regDest State.setWregLow; split <;> simp
@[simp] theorem regDest_xmodsrt (byte : Bool) (r : Reg) (v : Word) : (s.regDest byte r v).xmodsrt = s.xmodsrt := by
  unfold State.regDest State.setWregLow; split <;> simp
@[simp] theorem regDest_xmodend (byte : Bool) (r : Reg) (v : Word) : (s.regDest byte r v).xmodend = s.xmodend := by
  unfold State.regDest State.setWregLow; split <;> simp
@[simp] theorem regDest_ymodsrt (byte : Bool) (r : Reg) (v : Word) : (s.regDest byte r v).ymodsrt = s.ymodsrt := by
  unfold State.regDest State.setWregLow; split <;> simp
@[simp] theorem regDest_ymodend (byte : Bool) (r : Reg) (v : Word) : (s.regDest byte r v).ymodend = s.ymodend := by
  unfold State.regDest State.setWregLow; split <;> simp
@[simp] theorem regDest_bren (byte : Bool) (r : Reg) (v : Word) : (s.regDest byte r v).bren = s.bren := by
  unfold State.regDest State.setWregLow; split <;> simp
@[simp] theorem regDest_xb (byte : Bool) (r : Reg) (v : Word) : (s.regDest byte r v).xb = s.xb := by
  unfold State.regDest State.setWregLow; split <;> simp
@[simp] theorem regDest_disicnt (byte : Bool) (r : Reg) (v : Word) : (s.regDest byte r v).disicnt = s.disicnt := by
  unfold State.regDest State.setWregLow; split <;> simp
@[simp] theorem regDest_mstrpr (byte : Bool) (r : Reg) (v : Word) : (s.regDest byte r v).mstrpr = s.mstrpr := by
  unfold State.regDest State.setWregLow; split <;> simp
@[simp] theorem regDest_intcon (byte : Bool) (r : Reg) (v : Word) : (s.regDest byte r v).intcon = s.intcon := by
  unfold State.regDest State.setWregLow; split <;> simp
@[simp] theorem regDest_shadowW (byte : Bool) (r : Reg) (v : Word) : (s.regDest byte r v).shadowW = s.shadowW := by
  unfold State.regDest State.setWregLow; split <;> simp
@[simp] theorem regDest_shadowFlags (byte : Bool) (r : Reg) (v : Word) : (s.regDest byte r v).shadowFlags = s.shadowFlags := by
  unfold State.regDest State.setWregLow; split <;> simp
@[simp] theorem regDest_dostack (byte : Bool) (r : Reg) (v : Word) : (s.regDest byte r v).dostack = s.dostack := by
  unfold State.regDest State.setWregLow; split <;> simp
@[simp] theorem regDest_splimEnabled (byte : Bool) (r : Reg) (v : Word) : (s.regDest byte r v).splimEnabled = s.splimEnabled := by
  unfold State.regDest State.setWregLow; split <;> simp
@[simp] theorem regDest_corconReplicate (byte : Bool) (r : Reg) (v : Word) : (s.regDest byte r v).corconReplicate = s.corconReplicate := by
  unfold State.regDest State.setWregLow; split <;> simp
@[simp] theorem regDest_edt (byte : Bool) (r : Reg) (v : Word) : (s.regDest byte r v).edt = s.edt := by
  unfold State.regDest State.setWregLow; split <;> simp
@[simp] theorem regDest_pending (byte : Bool) (r : Reg) (v : Word) : (s.regDest byte r v).pending = s.pending := by
  unfold State.regDest State.setWregLow; split <;> simp
@[simp] theorem regDest_div (byte : Bool) (r : Reg) (v : Word) : (s.regDest byte r v).div = s.div := by
  unfold State.regDest State.setWregLow; split <;> simp
@[simp] theorem regDest_nest (byte : Bool) (r : Reg) (v : Word) : (s.regDest byte r v).nest = s.nest := by
  unfold State.regDest State.setWregLow; split <;> simp
@[simp] theorem regDest_taken (byte : Bool) (r : Reg) (v : Word) : (s.regDest byte r v).taken = s.taken := by
  unfold State.regDest State.setWregLow; split <;> simp
@[simp] theorem regDest_repeatNew (byte : Bool) (r : Reg) (v : Word) : (s.regDest byte r v).repeatNew = s.repeatNew := by
  unfold State.regDest State.setWregLow; split <;> simp
@[simp] theorem regDest_mem (byte : Bool) (r : Reg) (v : Word) : (s.regDest byte r v).mem = s.mem := by
  unfold State.regDest State.setWregLow; split <;> simp
@[simp] theorem regDest_prog (byte : Bool) (r : Reg) (v : Word) : (s.regDest byte r v).prog = s.prog := by
  unfold State.regDest State.setWregLow; split <;> simp
@[simp] theorem regDest_asm (byte : Bool) (r : Reg) (v : Word) : (s.regDest byte r v).asm = s.asm := by
  unfold State.regDest State.setWregLow; split <;> simp
@[simp] theorem regDest_power (byte : Bool) (r : Reg) (v : Word) : (s.regDest byte r v).power = s.power := by
  unfold State.regDest State.setWregLow; split <;> simp
@[simp] theorem regDest_irqs (byte : Bool) (r : Reg) (v : Word) : (s.regDest byte r v).irqs = s.irqs := by
  unfold State.regDest State.setWregLow; split <;> simp
@[simp] theorem regDest_haz (byte : Bool) (r : Reg) (v : Word) : (s.regDest byte r v).haz = s.haz := by
  unfold State.regDest State.setWregLow; split <;> simp
@[simp] theorem regDest_hazNext (byte : Bool) (r : Reg) (v : Word) : (s.regDest byte r v).hazNext = s.hazNext := by
  unfold State.regDest State.setWregLow; split <;> simp
@[simp] theorem regDest_free (byte : Bool) (r : Reg) (v : Word) : (s.regDest byte r v).free = s.free := by
  unfold State.regDest State.setWregLow; split <;> simp

/-! `pushed`. -/

@[simp] theorem pushed_dev (v : Word) : (s.pushed v).dev = s.dev := by
  simp [State.pushed, setWreg_w15]
@[simp] theorem pushed_ctx (v : Word) : (s.pushed v).ctx = s.ctx := by
  simp [State.pushed, setWreg_w15]
@[simp] theorem pushed_pc (v : Word) : (s.pushed v).pc = s.pc := by
  simp [State.pushed, setWreg_w15]
@[simp] theorem pushed_flags (v : Word) : (s.pushed v).flags = s.flags := by
  simp [State.pushed, setWreg_w15]
@[simp] theorem pushed_ra (v : Word) : (s.pushed v).ra = s.ra := by
  simp [State.pushed, setWreg_w15]
@[simp] theorem pushed_ipl (v : Word) : (s.pushed v).ipl = s.ipl := by
  simp [State.pushed, setWreg_w15]
@[simp] theorem pushed_ipl3 (v : Word) : (s.pushed v).ipl3 = s.ipl3 := by
  simp [State.pushed, setWreg_w15]
@[simp] theorem pushed_sfa (v : Word) : (s.pushed v).sfa = s.sfa := by
  simp [State.pushed, setWreg_w15]
@[simp] theorem pushed_dl (v : Word) : (s.pushed v).dl = s.dl := by
  simp [State.pushed, setWreg_w15]
@[simp] theorem pushed_dsp (v : Word) : (s.pushed v).dsp = s.dsp := by
  simp [State.pushed, setWreg_w15]
@[simp] theorem pushed_cctxi (v : Word) : (s.pushed v).cctxi = s.cctxi := by
  simp [State.pushed, setWreg_w15]
@[simp] theorem pushed_mctxi (v : Word) : (s.pushed v).mctxi = s.mctxi := by
  simp [State.pushed, setWreg_w15]
@[simp] theorem pushed_splim (v : Word) : (s.pushed v).splim = s.splim := by
  simp [State.pushed, setWreg_w15]
@[simp] theorem pushed_rcount (v : Word) : (s.pushed v).rcount = s.rcount := by
  simp [State.pushed, setWreg_w15]
@[simp] theorem pushed_dcount (v : Word) : (s.pushed v).dcount = s.dcount := by
  simp [State.pushed, setWreg_w15]
@[simp] theorem pushed_dostart (v : Word) : (s.pushed v).dostart = s.dostart := by
  simp [State.pushed, setWreg_w15]
@[simp] theorem pushed_doend (v : Word) : (s.pushed v).doend = s.doend := by
  simp [State.pushed, setWreg_w15]
@[simp] theorem pushed_dsrpag (v : Word) : (s.pushed v).dsrpag = s.dsrpag := by
  simp [State.pushed, setWreg_w15]
@[simp] theorem pushed_dswpag (v : Word) : (s.pushed v).dswpag = s.dswpag := by
  simp [State.pushed, setWreg_w15]
@[simp] theorem pushed_tblpag (v : Word) : (s.pushed v).tblpag = s.tblpag := by
  simp [State.pushed, setWreg_w15]
@[simp] theorem pushed_modcon (v : Word) : (s.pushed v).modcon = s.modcon := by
  simp [State.pushed, setWreg_w15]
@[simp] theorem pushed_xmodsrt (v : Word) : (s.pushed v).xmodsrt = s.xmodsrt := by
  simp [State.pushed, setWreg_w15]
@[simp] theorem pushed_xmodend (v : Word) : (s.pushed v).xmodend = s.xmodend := by
  simp [State.pushed, setWreg_w15]
@[simp] theorem pushed_ymodsrt (v : Word) : (s.pushed v).ymodsrt = s.ymodsrt := by
  simp [State.pushed, setWreg_w15]
@[simp] theorem pushed_ymodend (v : Word) : (s.pushed v).ymodend = s.ymodend := by
  simp [State.pushed, setWreg_w15]
@[simp] theorem pushed_bren (v : Word) : (s.pushed v).bren = s.bren := by
  simp [State.pushed, setWreg_w15]
@[simp] theorem pushed_xb (v : Word) : (s.pushed v).xb = s.xb := by
  simp [State.pushed, setWreg_w15]
@[simp] theorem pushed_disicnt (v : Word) : (s.pushed v).disicnt = s.disicnt := by
  simp [State.pushed, setWreg_w15]
@[simp] theorem pushed_mstrpr (v : Word) : (s.pushed v).mstrpr = s.mstrpr := by
  simp [State.pushed, setWreg_w15]
@[simp] theorem pushed_intcon (v : Word) : (s.pushed v).intcon = s.intcon := by
  simp [State.pushed, setWreg_w15]
@[simp] theorem pushed_shadowW (v : Word) : (s.pushed v).shadowW = s.shadowW := by
  simp [State.pushed, setWreg_w15]
@[simp] theorem pushed_shadowFlags (v : Word) : (s.pushed v).shadowFlags = s.shadowFlags := by
  simp [State.pushed, setWreg_w15]
@[simp] theorem pushed_dostack (v : Word) : (s.pushed v).dostack = s.dostack := by
  simp [State.pushed, setWreg_w15]
@[simp] theorem pushed_splimEnabled (v : Word) : (s.pushed v).splimEnabled = s.splimEnabled := by
  simp [State.pushed, setWreg_w15]
@[simp] theorem pushed_corconReplicate (v : Word) : (s.pushed v).corconReplicate = s.corconReplicate := by
  simp [State.pushed, setWreg_w15]
@[simp] theorem pushed_edt (v : Word) : (s.pushed v).edt = s.edt := by
  simp [State.pushed, setWreg_w15]
@[simp] theorem pushed_div (v : Word) : (s.pushed v).div = s.div := by
  simp [State.pushed, setWreg_w15]
@[simp] theorem pushed_nest (v : Word) : (s.pushed v).nest = s.nest := by
  simp [State.pushed, setWreg_w15]
@[simp] theorem pushed_taken (v : Word) : (s.pushed v).taken = s.taken := by
  simp [State.pushed, setWreg_w15]
@[simp] theorem pushed_repeatNew (v : Word) : (s.pushed v).repeatNew = s.repeatNew := by
  simp [State.pushed, setWreg_w15]
@[simp] theorem pushed_prog (v : Word) : (s.pushed v).prog = s.prog := by
  simp [State.pushed, setWreg_w15]
@[simp] theorem pushed_asm (v : Word) : (s.pushed v).asm = s.asm := by
  simp [State.pushed, setWreg_w15]
@[simp] theorem pushed_power (v : Word) : (s.pushed v).power = s.power := by
  simp [State.pushed, setWreg_w15]
@[simp] theorem pushed_irqs (v : Word) : (s.pushed v).irqs = s.irqs := by
  simp [State.pushed, setWreg_w15]
@[simp] theorem pushed_haz (v : Word) : (s.pushed v).haz = s.haz := by
  simp [State.pushed, setWreg_w15]
@[simp] theorem pushed_hazNext (v : Word) : (s.pushed v).hazNext = s.hazNext := by
  simp [State.pushed, setWreg_w15]
@[simp] theorem pushed_free (v : Word) : (s.pushed v).free = s.free := by
  simp [State.pushed, setWreg_w15]

/-! `popped`. -/

@[simp] theorem popped_dev : (s.popped).dev = s.dev := by
  simp [State.popped, setWreg_w15]
@[simp] theorem popped_ctx : (s.popped).ctx = s.ctx := by
  simp [State.popped, setWreg_w15]
@[simp] theorem popped_pc : (s.popped).pc = s.pc := by
  simp [State.popped, setWreg_w15]
@[simp] theorem popped_flags : (s.popped).flags = s.flags := by
  simp [State.popped, setWreg_w15]
@[simp] theorem popped_ra : (s.popped).ra = s.ra := by
  simp [State.popped, setWreg_w15]
@[simp] theorem popped_ipl : (s.popped).ipl = s.ipl := by
  simp [State.popped, setWreg_w15]
@[simp] theorem popped_ipl3 : (s.popped).ipl3 = s.ipl3 := by
  simp [State.popped, setWreg_w15]
@[simp] theorem popped_sfa : (s.popped).sfa = s.sfa := by
  simp [State.popped, setWreg_w15]
@[simp] theorem popped_dl : (s.popped).dl = s.dl := by
  simp [State.popped, setWreg_w15]
@[simp] theorem popped_dsp : (s.popped).dsp = s.dsp := by
  simp [State.popped, setWreg_w15]
@[simp] theorem popped_cctxi : (s.popped).cctxi = s.cctxi := by
  simp [State.popped, setWreg_w15]
@[simp] theorem popped_mctxi : (s.popped).mctxi = s.mctxi := by
  simp [State.popped, setWreg_w15]
@[simp] theorem popped_splim : (s.popped).splim = s.splim := by
  simp [State.popped, setWreg_w15]
@[simp] theorem popped_rcount : (s.popped).rcount = s.rcount := by
  simp [State.popped, setWreg_w15]
@[simp] theorem popped_dcount : (s.popped).dcount = s.dcount := by
  simp [State.popped, setWreg_w15]
@[simp] theorem popped_dostart : (s.popped).dostart = s.dostart := by
  simp [State.popped, setWreg_w15]
@[simp] theorem popped_doend : (s.popped).doend = s.doend := by
  simp [State.popped, setWreg_w15]
@[simp] theorem popped_dsrpag : (s.popped).dsrpag = s.dsrpag := by
  simp [State.popped, setWreg_w15]
@[simp] theorem popped_dswpag : (s.popped).dswpag = s.dswpag := by
  simp [State.popped, setWreg_w15]
@[simp] theorem popped_tblpag : (s.popped).tblpag = s.tblpag := by
  simp [State.popped, setWreg_w15]
@[simp] theorem popped_modcon : (s.popped).modcon = s.modcon := by
  simp [State.popped, setWreg_w15]
@[simp] theorem popped_xmodsrt : (s.popped).xmodsrt = s.xmodsrt := by
  simp [State.popped, setWreg_w15]
@[simp] theorem popped_xmodend : (s.popped).xmodend = s.xmodend := by
  simp [State.popped, setWreg_w15]
@[simp] theorem popped_ymodsrt : (s.popped).ymodsrt = s.ymodsrt := by
  simp [State.popped, setWreg_w15]
@[simp] theorem popped_ymodend : (s.popped).ymodend = s.ymodend := by
  simp [State.popped, setWreg_w15]
@[simp] theorem popped_bren : (s.popped).bren = s.bren := by
  simp [State.popped, setWreg_w15]
@[simp] theorem popped_xb : (s.popped).xb = s.xb := by
  simp [State.popped, setWreg_w15]
@[simp] theorem popped_disicnt : (s.popped).disicnt = s.disicnt := by
  simp [State.popped, setWreg_w15]
@[simp] theorem popped_mstrpr : (s.popped).mstrpr = s.mstrpr := by
  simp [State.popped, setWreg_w15]
@[simp] theorem popped_intcon : (s.popped).intcon = s.intcon := by
  simp [State.popped, setWreg_w15]
@[simp] theorem popped_shadowW : (s.popped).shadowW = s.shadowW := by
  simp [State.popped, setWreg_w15]
@[simp] theorem popped_shadowFlags : (s.popped).shadowFlags = s.shadowFlags := by
  simp [State.popped, setWreg_w15]
@[simp] theorem popped_dostack : (s.popped).dostack = s.dostack := by
  simp [State.popped, setWreg_w15]
@[simp] theorem popped_splimEnabled : (s.popped).splimEnabled = s.splimEnabled := by
  simp [State.popped, setWreg_w15]
@[simp] theorem popped_corconReplicate : (s.popped).corconReplicate = s.corconReplicate := by
  simp [State.popped, setWreg_w15]
@[simp] theorem popped_edt : (s.popped).edt = s.edt := by
  simp [State.popped, setWreg_w15]
@[simp] theorem popped_div : (s.popped).div = s.div := by
  simp [State.popped, setWreg_w15]
@[simp] theorem popped_nest : (s.popped).nest = s.nest := by
  simp [State.popped, setWreg_w15]
@[simp] theorem popped_taken : (s.popped).taken = s.taken := by
  simp [State.popped, setWreg_w15]
@[simp] theorem popped_repeatNew : (s.popped).repeatNew = s.repeatNew := by
  simp [State.popped, setWreg_w15]
@[simp] theorem popped_mem : (s.popped).mem = s.mem := by
  simp [State.popped, setWreg_w15]
@[simp] theorem popped_prog : (s.popped).prog = s.prog := by
  simp [State.popped, setWreg_w15]
@[simp] theorem popped_asm : (s.popped).asm = s.asm := by
  simp [State.popped, setWreg_w15]
@[simp] theorem popped_power : (s.popped).power = s.power := by
  simp [State.popped, setWreg_w15]
@[simp] theorem popped_irqs : (s.popped).irqs = s.irqs := by
  simp [State.popped, setWreg_w15]
@[simp] theorem popped_haz : (s.popped).haz = s.haz := by
  simp [State.popped, setWreg_w15]
@[simp] theorem popped_hazNext : (s.popped).hazNext = s.hazNext := by
  simp [State.popped, setWreg_w15]
@[simp] theorem popped_free : (s.popped).free = s.free := by
  simp [State.popped, setWreg_w15]

/-! `accUpdated`. -/

@[simp] theorem accUpdated_dev (x : AccId) (r : Int) : (s.accUpdated x r).dev = s.dev := by
  unfold State.accUpdated State.accTraps State.storeAcc; cases x <;> dsimp only <;> split <;> rfl
@[simp] theorem accUpdated_ctx (x : AccId) (r : Int) : (s.accUpdated x r).ctx = s.ctx := by
  unfold State.accUpdated State.accTraps State.storeAcc; cases x <;> dsimp only <;> split <;> rfl
@[simp] theorem accUpdated_w15 (x : AccId) (r : Int) : (s.accUpdated x r).w15 = s.w15 := by
  unfold State.accUpdated State.accTraps State.storeAcc; cases x <;> dsimp only <;> split <;> rfl
@[simp] theorem accUpdated_pc (x : AccId) (r : Int) : (s.accUpdated x r).pc = s.pc := by
  unfold State.accUpdated State.accTraps State.storeAcc; cases x <;> dsimp only <;> split <;> rfl
@[simp] theorem accUpdated_flags (x : AccId) (r : Int) : (s.accUpdated x r).flags = s.flags := by
  unfold State.accUpdated State.accTraps State.storeAcc; cases x <;> dsimp only <;> split <;> rfl
@[simp] theorem accUpdated_ra (x : AccId) (r : Int) : (s.accUpdated x r).ra = s.ra := by
  unfold State.accUpdated State.accTraps State.storeAcc; cases x <;> dsimp only <;> split <;> rfl
@[simp] theorem accUpdated_ipl (x : AccId) (r : Int) : (s.accUpdated x r).ipl = s.ipl := by
  unfold State.accUpdated State.accTraps State.storeAcc; cases x <;> dsimp only <;> split <;> rfl
@[simp] theorem accUpdated_ipl3 (x : AccId) (r : Int) : (s.accUpdated x r).ipl3 = s.ipl3 := by
  unfold State.accUpdated State.accTraps State.storeAcc; cases x <;> dsimp only <;> split <;> rfl
@[simp] theorem accUpdated_sfa (x : AccId) (r : Int) : (s.accUpdated x r).sfa = s.sfa := by
  unfold State.accUpdated State.accTraps State.storeAcc; cases x <;> dsimp only <;> split <;> rfl
@[simp] theorem accUpdated_dl (x : AccId) (r : Int) : (s.accUpdated x r).dl = s.dl := by
  unfold State.accUpdated State.accTraps State.storeAcc; cases x <;> dsimp only <;> split <;> rfl
@[simp] theorem accUpdated_cctxi (x : AccId) (r : Int) : (s.accUpdated x r).cctxi = s.cctxi := by
  unfold State.accUpdated State.accTraps State.storeAcc; cases x <;> dsimp only <;> split <;> rfl
@[simp] theorem accUpdated_mctxi (x : AccId) (r : Int) : (s.accUpdated x r).mctxi = s.mctxi := by
  unfold State.accUpdated State.accTraps State.storeAcc; cases x <;> dsimp only <;> split <;> rfl
@[simp] theorem accUpdated_splim (x : AccId) (r : Int) : (s.accUpdated x r).splim = s.splim := by
  unfold State.accUpdated State.accTraps State.storeAcc; cases x <;> dsimp only <;> split <;> rfl
@[simp] theorem accUpdated_rcount (x : AccId) (r : Int) : (s.accUpdated x r).rcount = s.rcount := by
  unfold State.accUpdated State.accTraps State.storeAcc; cases x <;> dsimp only <;> split <;> rfl
@[simp] theorem accUpdated_dcount (x : AccId) (r : Int) : (s.accUpdated x r).dcount = s.dcount := by
  unfold State.accUpdated State.accTraps State.storeAcc; cases x <;> dsimp only <;> split <;> rfl
@[simp] theorem accUpdated_dostart (x : AccId) (r : Int) : (s.accUpdated x r).dostart = s.dostart := by
  unfold State.accUpdated State.accTraps State.storeAcc; cases x <;> dsimp only <;> split <;> rfl
@[simp] theorem accUpdated_doend (x : AccId) (r : Int) : (s.accUpdated x r).doend = s.doend := by
  unfold State.accUpdated State.accTraps State.storeAcc; cases x <;> dsimp only <;> split <;> rfl
@[simp] theorem accUpdated_dsrpag (x : AccId) (r : Int) : (s.accUpdated x r).dsrpag = s.dsrpag := by
  unfold State.accUpdated State.accTraps State.storeAcc; cases x <;> dsimp only <;> split <;> rfl
@[simp] theorem accUpdated_dswpag (x : AccId) (r : Int) : (s.accUpdated x r).dswpag = s.dswpag := by
  unfold State.accUpdated State.accTraps State.storeAcc; cases x <;> dsimp only <;> split <;> rfl
@[simp] theorem accUpdated_tblpag (x : AccId) (r : Int) : (s.accUpdated x r).tblpag = s.tblpag := by
  unfold State.accUpdated State.accTraps State.storeAcc; cases x <;> dsimp only <;> split <;> rfl
@[simp] theorem accUpdated_modcon (x : AccId) (r : Int) : (s.accUpdated x r).modcon = s.modcon := by
  unfold State.accUpdated State.accTraps State.storeAcc; cases x <;> dsimp only <;> split <;> rfl
@[simp] theorem accUpdated_xmodsrt (x : AccId) (r : Int) : (s.accUpdated x r).xmodsrt = s.xmodsrt := by
  unfold State.accUpdated State.accTraps State.storeAcc; cases x <;> dsimp only <;> split <;> rfl
@[simp] theorem accUpdated_xmodend (x : AccId) (r : Int) : (s.accUpdated x r).xmodend = s.xmodend := by
  unfold State.accUpdated State.accTraps State.storeAcc; cases x <;> dsimp only <;> split <;> rfl
@[simp] theorem accUpdated_ymodsrt (x : AccId) (r : Int) : (s.accUpdated x r).ymodsrt = s.ymodsrt := by
  unfold State.accUpdated State.accTraps State.storeAcc; cases x <;> dsimp only <;> split <;> rfl
@[simp] theorem accUpdated_ymodend (x : AccId) (r : Int) : (s.accUpdated x r).ymodend = s.ymodend := by
  unfold State.accUpdated State.accTraps State.storeAcc; cases x <;> dsimp only <;> split <;> rfl
@[simp] theorem accUpdated_bren (x : AccId) (r : Int) : (s.accUpdated x r).bren = s.bren := by
  unfold State.accUpdated State.accTraps State.storeAcc; cases x <;> dsimp only <;> split <;> rfl
@[simp] theorem accUpdated_xb (x : AccId) (r : Int) : (s.accUpdated x r).xb = s.xb := by
  unfold State.accUpdated State.accTraps State.storeAcc; cases x <;> dsimp only <;> split <;> rfl
@[simp] theorem accUpdated_disicnt (x : AccId) (r : Int) : (s.accUpdated x r).disicnt = s.disicnt := by
  unfold State.accUpdated State.accTraps State.storeAcc; cases x <;> dsimp only <;> split <;> rfl
@[simp] theorem accUpdated_mstrpr (x : AccId) (r : Int) : (s.accUpdated x r).mstrpr = s.mstrpr := by
  unfold State.accUpdated State.accTraps State.storeAcc; cases x <;> dsimp only <;> split <;> rfl
@[simp] theorem accUpdated_shadowW (x : AccId) (r : Int) : (s.accUpdated x r).shadowW = s.shadowW := by
  unfold State.accUpdated State.accTraps State.storeAcc; cases x <;> dsimp only <;> split <;> rfl
@[simp] theorem accUpdated_shadowFlags (x : AccId) (r : Int) : (s.accUpdated x r).shadowFlags = s.shadowFlags := by
  unfold State.accUpdated State.accTraps State.storeAcc; cases x <;> dsimp only <;> split <;> rfl
@[simp] theorem accUpdated_dostack (x : AccId) (r : Int) : (s.accUpdated x r).dostack = s.dostack := by
  unfold State.accUpdated State.accTraps State.storeAcc; cases x <;> dsimp only <;> split <;> rfl
@[simp] theorem accUpdated_splimEnabled (x : AccId) (r : Int) : (s.accUpdated x r).splimEnabled = s.splimEnabled := by
  unfold State.accUpdated State.accTraps State.storeAcc; cases x <;> dsimp only <;> split <;> rfl
@[simp] theorem accUpdated_corconReplicate (x : AccId) (r : Int) : (s.accUpdated x r).corconReplicate = s.corconReplicate := by
  unfold State.accUpdated State.accTraps State.storeAcc; cases x <;> dsimp only <;> split <;> rfl
@[simp] theorem accUpdated_edt (x : AccId) (r : Int) : (s.accUpdated x r).edt = s.edt := by
  unfold State.accUpdated State.accTraps State.storeAcc; cases x <;> dsimp only <;> split <;> rfl
@[simp] theorem accUpdated_div (x : AccId) (r : Int) : (s.accUpdated x r).div = s.div := by
  unfold State.accUpdated State.accTraps State.storeAcc; cases x <;> dsimp only <;> split <;> rfl
@[simp] theorem accUpdated_nest (x : AccId) (r : Int) : (s.accUpdated x r).nest = s.nest := by
  unfold State.accUpdated State.accTraps State.storeAcc; cases x <;> dsimp only <;> split <;> rfl
@[simp] theorem accUpdated_taken (x : AccId) (r : Int) : (s.accUpdated x r).taken = s.taken := by
  unfold State.accUpdated State.accTraps State.storeAcc; cases x <;> dsimp only <;> split <;> rfl
@[simp] theorem accUpdated_repeatNew (x : AccId) (r : Int) : (s.accUpdated x r).repeatNew = s.repeatNew := by
  unfold State.accUpdated State.accTraps State.storeAcc; cases x <;> dsimp only <;> split <;> rfl
@[simp] theorem accUpdated_mem (x : AccId) (r : Int) : (s.accUpdated x r).mem = s.mem := by
  unfold State.accUpdated State.accTraps State.storeAcc; cases x <;> dsimp only <;> split <;> rfl
@[simp] theorem accUpdated_prog (x : AccId) (r : Int) : (s.accUpdated x r).prog = s.prog := by
  unfold State.accUpdated State.accTraps State.storeAcc; cases x <;> dsimp only <;> split <;> rfl
@[simp] theorem accUpdated_asm (x : AccId) (r : Int) : (s.accUpdated x r).asm = s.asm := by
  unfold State.accUpdated State.accTraps State.storeAcc; cases x <;> dsimp only <;> split <;> rfl
@[simp] theorem accUpdated_power (x : AccId) (r : Int) : (s.accUpdated x r).power = s.power := by
  unfold State.accUpdated State.accTraps State.storeAcc; cases x <;> dsimp only <;> split <;> rfl
@[simp] theorem accUpdated_irqs (x : AccId) (r : Int) : (s.accUpdated x r).irqs = s.irqs := by
  unfold State.accUpdated State.accTraps State.storeAcc; cases x <;> dsimp only <;> split <;> rfl
@[simp] theorem accUpdated_haz (x : AccId) (r : Int) : (s.accUpdated x r).haz = s.haz := by
  unfold State.accUpdated State.accTraps State.storeAcc; cases x <;> dsimp only <;> split <;> rfl
@[simp] theorem accUpdated_hazNext (x : AccId) (r : Int) : (s.accUpdated x r).hazNext = s.hazNext := by
  unfold State.accUpdated State.accTraps State.storeAcc; cases x <;> dsimp only <;> split <;> rfl
@[simp] theorem accUpdated_free (x : AccId) (r : Int) : (s.accUpdated x r).free = s.free := by
  unfold State.accUpdated State.accTraps State.storeAcc; cases x <;> dsimp only <;> split <;> rfl

/-! What an update reads back. -/

@[simp] theorem advanced_pc (n : Nat) : (s.advanced n).pc = s.pc + BitVec.ofNat 23 (2 * n) := rfl

@[simp] theorem withFlags_flags (fl : Flags) : (s.withFlags fl).flags = fl := rfl

@[simp] theorem dspIdx_setDsp (d : DspCtx) : (s.setDsp d).dspIdx = s.dspIdx := rfl

@[simp] theorem dspCur_setDsp (d : DspCtx) : (s.setDsp d).dspCur = d :=
  Vector.getElem_set_self s.dspIdx.isLt

@[simp] theorem setDsp_setDsp (d e : DspCtx) : (s.setDsp d).setDsp e = s.setDsp e :=
  congrArg (fun v => { s with dsp := v }) (Vector.set_set d s.dspIdx.isLt)

@[simp] theorem acc_setAcc (x : AccId) (v : Acc40) : (s.setAcc x v).acc x = v := by
  cases x <;> simp [State.setAcc, State.acc]

@[simp] theorem has_put (p : Pending) (k : TrapKind) (b : Bool) : (p.put k b).has k = b := by
  cases k <;> rfl

/-- Requesting one trap leaves the others as they are. -/
theorem has_put_of_ne (p : Pending) {k j : TrapKind} (b : Bool) (h : j ≠ k) : (p.put k b).has j = p.has j := by
  cases k <;> cases j <;> first | rfl | exact absurd rfl h

@[simp] theorem addPending_addPending (k : TrapKind) : (s.addPending k).addPending k = s.addPending k := by
  cases k <;> rfl

/-! The registers. -/

/-- A register written by a word write holds the value; W15 holds it with bit 0 cleared (R27, R29). -/
theorem wreg_setWreg (r : Reg) (v : Word) :
    (s.setWreg r v).wreg r = if r.toNat < 15 then v else v &&& 0xFFFE#16 := by
  unfold State.setWreg State.wreg State.curCtx
  split <;> simp_all

/-- Writing one register leaves the others. -/
theorem wreg_setWreg_of_ne {r q : Reg} (v : Word) (h : q ≠ r) : (s.setWreg r v).wreg q = s.wreg q := by
  have hne : r.toNat ≠ q.toNat := fun e => h (BitVec.eq_of_toNat_eq e.symm)
  unfold State.setWreg State.wreg State.curCtx
  split
  · split
    · simp [hne]
    · rfl
  · split
    · rfl
    · have h1 := r.isLt; have h2 := q.isLt; omega

/-- The same for a write that does not mark the register initialized. -/
theorem wreg_setWregKeep (r : Reg) (v : Word) :
    (s.setWregKeep r v).wreg r = if r.toNat < 15 then v else v &&& 0xFFFE#16 := by
  unfold State.setWregKeep State.wreg State.curCtx
  split <;> simp_all

theorem wreg_setWregKeep_of_ne {r q : Reg} (v : Word) (h : q ≠ r) : (s.setWregKeep r v).wreg q = s.wreg q := by
  have hne : r.toNat ≠ q.toNat := fun e => h (BitVec.eq_of_toNat_eq e.symm)
  unfold State.setWregKeep State.wreg State.curCtx
  split
  · split
    · simp [hne]
    · rfl
  · split
    · rfl
    · have h1 := r.isLt; have h2 := q.isLt; omega


end Sys2Proof.Machine
end

