-- ==== Sys2Proof/Laws/Memory.lean ====
section
/-! SUPPORT. Laws/Memory.lean: the laws of the address lists, and that every memory operation keeps the canonical form. -/

namespace Sys2Proof.Machine

variable {β : Type}

/-- An entry that is set is read back. -/
theorem assocGet_assocSet (l : List (Nat × β)) (x : Nat) (v : β) : assocGet (assocSet l x v) x = some v := by
  induction l with
  | nil => simp [assocSet, assocGet]
  | cons c rest ih =>
    obtain ⟨a, b⟩ := c
    unfold assocSet
    split
    · simp [assocGet]
    · split
      · simp [assocGet]
      · next h => simp [assocGet, h, ih]

/-- Setting one entry leaves the others. -/
theorem assocGet_assocSet_of_ne (l : List (Nat × β)) {x y : Nat} (v : β) (h : y ≠ x) :
    assocGet (assocSet l x v) y = assocGet l y := by
  induction l with
  | nil => simp [assocSet, assocGet, Ne.symm h]
  | cons c rest ih =>
    obtain ⟨a, b⟩ := c
    unfold assocSet
    split
    · simp [assocGet, Ne.symm h]
    · split
      · next ha => subst ha; simp [assocGet, Ne.symm h]
      · simp [assocGet, ih]

/-- Removing an entry leaves nothing there. -/
theorem assocGet_assocErase (l : List (Nat × β)) (x : Nat) : assocGet (assocErase l x) x = none := by
  induction l with
  | nil => rfl
  | cons c rest ih =>
    obtain ⟨a, b⟩ := c
    unfold assocErase
    split
    · exact ih
    · next h => simp [assocGet, h, ih]

/-- Removing one entry leaves the others. -/
theorem assocGet_assocErase_of_ne (l : List (Nat × β)) {x y : Nat} (h : y ≠ x) :
    assocGet (assocErase l x) y = assocGet l y := by
  induction l with
  | nil => rfl
  | cons c rest ih =>
    obtain ⟨a, b⟩ := c
    unfold assocErase
    split
    · next ha => subst ha; simp [assocGet, Ne.symm h, ih]
    · simp [assocGet, ih]

/-- A list of rising addresses keeps rising addresses when an address within the bound is set. -/
theorem risingFrom_assocSet (l : List (Nat × β)) (lo x : Nat) (v : β) (hx : lo ≤ x) (h : risingFrom lo l = true) :
    risingFrom lo (assocSet l x v) = true := by
  induction l generalizing lo with
  | nil => simp [assocSet, risingFrom, hx]
  | cons c rest ih =>
    obtain ⟨a, b⟩ := c
    simp only [risingFrom, Bool.and_eq_true, decide_eq_true_eq] at h
    unfold assocSet
    split
    · next hlt => simp [risingFrom, hx, h.2]; omega
    · split
      · next he => subst he; simp [risingFrom, hx, h.2]
      · next hn he =>
        simp only [risingFrom, Bool.and_eq_true, decide_eq_true_eq]
        exact ⟨h.1, ih (a + 1) (by omega) h.2⟩

/-- What is listed after a set was listed before or is the new entry. -/
theorem all_assocSet (l : List (Nat × β)) (p : Nat × β → Bool) (x : Nat) (v : β) (h : l.all p = true)
    (hp : p (x, v) = true) : (assocSet l x v).all p = true := by
  induction l with
  | nil => simpa [assocSet] using hp
  | cons c rest ih =>
    obtain ⟨a, b⟩ := c
    simp only [List.all_cons, Bool.and_eq_true] at h
    unfold assocSet
    split
    · simp only [List.all_cons, Bool.and_eq_true]; exact ⟨hp, h⟩
    · split
      · simp only [List.all_cons, Bool.and_eq_true]; exact ⟨hp, h.2⟩
      · simp only [List.all_cons, Bool.and_eq_true]; exact ⟨h.1, ih h.2⟩

/-! The memory operations keep the canonical form. -/

theorem setRamByte_wf (s : State) (lin : Nat) (b : Byte) (h : Memory.wf s.mem = true) :
    Memory.wf (s.setRamByte lin b).mem = true :=
  risingFrom_assocSet s.mem 0 lin b (Nat.zero_le _) h

theorem setRamWord_wf (s : State) (lin : Nat) (v : Word) (h : Memory.wf s.mem = true) :
    Memory.wf (s.setRamWord lin v).mem = true :=
  setRamByte_wf _ _ _ (setRamByte_wf s lin _ h)

theorem placeWords_progWf (s : State) (w1 w2 : ProgWord) (hpc : s.pc.getLsbD 0 = false)
    (h : Memory.progWf s.prog = true) : Memory.progWf (s.placeWords w1 w2).prog = true := by
  have even : ∀ p : ProgAddr, p.getLsbD 0 = false → p.toNat % 2 = 0 := by
    intro p hp
    simp [BitVec.getLsbD, Nat.testBit] at hp
    omega
  have heven := even s.pc hpc
  have heven2 : (s.pc + 2#23).toNat % 2 = 0 := by
    rw [BitVec.toNat_add]; simp; omega
  simp only [Memory.progWf, Bool.and_eq_true] at h ⊢
  refine ⟨risingFrom_assocSet _ _ _ _ (Nat.zero_le _) (risingFrom_assocSet _ _ _ _ (Nat.zero_le _) h.1), ?_⟩
  refine all_assocSet _ _ _ _ (all_assocSet _ _ _ _ h.2 ?_) ?_
  · simp [heven, s.pc.isLt]
  · have := (s.pc + 2#23).isLt
    simp only [Bool.and_eq_true, beq_iff_eq, decide_eq_true_eq]
    exact ⟨heven2, this⟩

theorem reset_mem_wf : Memory.wf State.reset.mem = true := rfl

end Sys2Proof.Machine
end

