-- ==== Sys2Proof/Laws/Access.lean ====
section
/-! SUPPORT. Laws/Access.lean: one lemma per shared access operation: on an access without a trap and without an open
value, the operation does what the functions of Safety.lean say. -/

namespace Sys2Proof.Machine

/-! Program memory. -/

theorem checkProg_apply (s : State) (addr : Nat) :
    checkProg addr s = if addr < 2 * s.dev.progWords then .ok ((), s)
      else .error (.refuse (.progUnimplemented addr)) := by
  unfold checkProg
  simp only [ask_bind, ite_apply_state, pure_apply, refuse_apply]

theorem progRead_apply (s : State) (addr : Nat) :
    progRead addr s = if addr < 2 * s.dev.progWords then .ok (s.progWord addr, s)
      else .error (.refuse (.progUnimplemented addr)) := by
  unfold progRead
  rw [bind_apply, checkProg_apply]
  by_cases h : addr < 2 * s.dev.progWords
  · rw [if_pos h, if_pos h]; rfl
  · rw [if_neg h, if_neg h]

/-! Registers. -/

/-- Every address of a register map lies in the SFR space. -/
theorem sfrAddr_lt (m : SfrMap) (r : Sfr) : sfrAddr m r < 0x1000 := by
  cases r
  case w r => show 2 * r.toNat < _; omega
  all_goals exact BitVec.isLt _

/-- Where a register is found, the address lies in the SFR space (R93, R108). -/
theorem sfrAt_lt {dev : Device} {addr : Nat} {r : Sfr} (h : sfrAt dev addr = some r) : addr < 0x1000 := by
  unfold sfrAt at h
  split at h
  · omega
  · have hr := List.find?_some h
    simp only [Bool.and_eq_true, beq_iff_eq] at hr
    have := sfrAddr_lt dev.sfrMap r
    omega

/-- The address of a word-aligned file register is even. -/
theorem wordAddr_even (f15 : BitVec 15) : (wordAddr f15).toNat % 2 = 0 := by
  unfold wordAddr
  rw [BitVec.toNat_append]
  simp [Nat.shiftLeft_eq]

theorem sfrRead_of_closed {s : State} {r : Sfr} (h : s.opensOnRead r = false) :
    sfrRead r s = .ok (s.sfrWord r, s) := by
  cases r <;> first | rfl | simp_all [State.opensOnRead, sfrRead]

theorem dspCur_writeDc (s : State) (v : Word) : (s.writeDc v).dspCur = s.dspCur := rfl

theorem writeSrh_of_closed {s : State} {v : Word} (h : s.srhRace v = false) :
    writeSrh v s = .ok ((), s.srhWritten v) := by
  unfold writeSrh State.srhWritten
  unfold State.srhRace at h
  simp only [upd_bind, ask_bind]
  have hdev : (s.writeDc v).dev = s.dev := rfl
  rw [hdev]
  cases hd : s.dev.hasDsp
  · simp
  · simp only [hd, Bool.true_and, Bool.or_eq_false_iff] at h
    have h1 : (s.writeDc v).satRace v = false := h.1
    have h2 : ((s.writeDc v).writeSat v).ovfRace v = false := by
      rw [← h.2]
      simp [State.ovfRace, State.clearsOab, State.writeSat, State.setSat, dspCur_writeDc]
    simp only [if_true, h1, h2, Bool.false_eq_true, if_false, upd_bind, ask_bind, upd_apply]

theorem sfrWrite_of_written {s t : State} {r : Sfr} {l : Lanes} {v : Word} (h : s.sfrWritten? r l v = some t) :
    sfrWrite r l v s = .ok ((), t) := by
  cases r <;> simp only [State.sfrWritten?, Option.some.injEq, reduceCtorEq] at h <;>
    first
    | (subst h; rfl)
    | skip
  unfold sfrWrite
  cases l <;> simp only [Lanes.hasLow, Lanes.hasHigh, if_true, Bool.false_eq_true, if_false] at h ⊢
  · split at h
    · cases h
    · next hr => cases h; simp [writeSrh_of_closed (Bool.eq_false_iff.mpr hr)]
  · cases h; rfl
  · split at h
    · cases h
    · next hr => cases h; simp [writeSrh_of_closed (Bool.eq_false_iff.mpr hr)]

/-! Data memory. -/

theorem memRead_of_dataRead {s : State} {via : Via} {ea : Word} {byte : Bool} {v : Word}
    (h : s.dataRead? via ea byte = some v) : memRead via ea byte s = .ok (v, s) := by
  unfold State.dataRead? at h
  unfold memRead
  split at h
  · cases h
  next hm =>
  rw [ite_apply_state, if_neg hm]
  simp only [ask_bind]
  split at h
  next a ha =>
    simp only [ha]
    split at h
    next r hr =>
      split at h
      · cases h
      next ho =>
        cases h
        unfold sfrReadAt
        simp only [ask_bind, hr, bind_of_ok (sfrRead_of_closed (Bool.eq_false_iff.mpr ho))]
        rfl
    · cases h
  next lin hl => cases h; simp only [hl, ask_apply]
  next a ha =>
    split at h
    next hp =>
      cases h
      simp only [ha, bind_apply, progRead_apply, hp, if_true]
      rfl
    · cases h
  next a ha =>
    split at h
    next hp =>
      cases h
      simp only [ha, bind_apply, progRead_apply, hp, if_true]
      rfl
    · cases h
  · cases h

theorem memWrite_of_dataWrite {s t : State} {via : Via} {ea : Word} {byte : Bool} {v : Word}
    (h : s.dataWrite? via ea byte v = some t) : memWrite via ea byte v s = .ok ((), t) := by
  unfold State.dataWrite? at h
  unfold memWrite
  split at h
  · cases h
  next hm =>
  rw [ite_apply_state, if_neg hm]
  simp only [ask_bind]
  split at h
  next a ha =>
    simp only [ha]
    split at h
    next r hr =>
      unfold sfrWriteAt
      simp only [ask_bind, hr]
      split at h
      next hb =>
        simp only [hb, if_true]
        split at h
        next he => simp only [he, if_true]; exact sfrWrite_of_written h
        next he => simp only [he, if_false]; exact sfrWrite_of_written h
      next hb => simp only [hb]; exact sfrWrite_of_written h
    · cases h
  next lin hl => cases h; simp only [hl, upd_apply]
  all_goals cases h

/-! The software stack. -/

theorem stackCheck_of_settled {s : State} (ea : Word) (carry read : Bool)
    (h : (read && s.splimEnabled && s.haz.splimOld.isSome) = false) :
    stackCheck ea carry read s = .ok ((), s.stackChecked ea carry) := by
  unfold stackCheck State.stackChecked
  simp only [ask_bind]
  have : (if (read && s.splimEnabled) = true then s.haz.splimOld else none) = none := by
    cases read <;> cases he : s.splimEnabled <;> cases ho : s.haz.splimOld <;> simp_all
  rw [this]
  rfl

/-- Drawing a free value and checking an address against a limit commute. -/
theorem checkedAgainst_free (s : State) (limit ea : Word) (carry : Bool) (n : Nat) :
    { s with free := n }.checkedAgainst limit ea carry = { s.checkedAgainst limit ea carry with free := n } := by
  unfold State.checkedAgainst; dsimp only; split <;> rfl

/-- All that a stack check can do: it compares with SPLIM or, for a read right after a write to SPLIM, with the old limit,
and leaves a `StackError` pending or not (R127, R128, R421). -/
theorem stackCheck_apply (s : State) (ea : Word) (carry read : Bool) :
    ∃ limit n, stackCheck ea carry read s = .ok ((), { s.checkedAgainst limit ea carry with free := n }) ∧
      (limit = s.splim ∨ read = true ∧ s.splimEnabled = true ∧ s.haz.splimOld = some limit) := by
  have plain : upd (fun s => s.checkedAgainst s.splim ea carry) s =
      .ok ((), { s.checkedAgainst s.splim ea carry with free := s.free }) := by
    rw [← checkedAgainst_free]; rfl
  unfold stackCheck
  rw [ask_bind]
  by_cases hr : (read && s.splimEnabled) = true
  · rw [if_pos hr]
    cases hz : s.haz.splimOld with
    | none => exact ⟨s.splim, s.free, plain, .inl rfl⟩
    | some old =>
      simp only [Bool.and_eq_true] at hr
      refine ⟨if Config.anyBit s.free then old else s.splim, s.free + 1, ?_, ?_⟩
      · rw [← checkedAgainst_free]; rfl
      · split
        · exact .inr ⟨hr.1, hr.2, rfl⟩
        · exact .inl rfl
  · rw [if_neg hr]
    exact ⟨s.splim, s.free, plain, .inl rfl⟩

theorem checkCircular_of_off {s : State} (h : s.circular = false) : checkCircular s = .ok ((), s) := by
  unfold checkCircular; simp [h]

/-- A push while modulo or bit-reversed addressing is enabled is refused (R122, R124). -/
theorem push16_of_circular {s : State} (v : Word) (h : s.circular = true) :
    push16 v s = .error (.refuse .circularAddressing) := by
  unfold push16 checkCircular; simp [bind_apply, h]

/-- A pop while modulo or bit-reversed addressing is enabled is refused (R122, R124). -/
theorem pop16_of_circular {s : State} (h : s.circular = true) : pop16 s = .error (.refuse .circularAddressing) := by
  unfold pop16 checkCircular; simp [bind_apply, h]

theorem push16_of_canPush {s : State} (v : Word) (h : s.canPush = true) : push16 v s = .ok ((), s.pushed v) := by
  unfold State.canPush at h
  simp only [Bool.and_eq_true, Bool.not_eq_true', and_assoc] at h
  obtain ⟨hc, h⟩ := h
  unfold push16 State.pushed
  rw [bind_of_ok (checkCircular_of_off hc)]
  simp only [ask_bind]
  rw [bind_of_ok (stackCheck_of_settled _ _ false (by simp))]
  have hw : ∀ t : State, t = s.stackChecked s.w15 (decide (0x10000 ≤ s.w15.toNat + 2)) →
      t.dataWrite? .stack s.w15 false v = some (t.setRamWord s.w15.toNat v) := by
    intro t ht
    have hi : t.implemented s.w15.toNat = true := by subst ht; simpa [State.implemented] using h.2
    have hge : ¬ s.w15.toNat < 0x1000 := by
      simp only [State.implemented, Bool.and_eq_true, decide_eq_true_eq] at hi; omega
    have ht' : t.writeTarget .stack s.w15 = .ram s.w15.toNat := by
      simp [State.writeTarget, hge, windowed, State.ramTarget, hi]
    simp [-BitVec.getLsbD_eq_getElem, State.dataWrite?, h.1, ht']
  rw [bind_of_ok (memWrite_of_dataWrite (hw _ rfl))]
  simp [State.setRamWord, State.setRamByte]

theorem pop16_of_canPop {s : State} (h : s.canPop = true) : pop16 s = .ok (s.top, s.popped) := by
  unfold State.canPop at h
  simp only [Bool.and_eq_true, Bool.not_eq_true'] at h
  obtain ⟨⟨⟨hc, he⟩, hi⟩, hz⟩ := h
  have heven : (s.w15 - 2#16).getLsbD 0 = false := by
    have : (s.w15 - 2#16).getLsbD 0 = s.w15.getLsbD 0 := by
      simp only [BitVec.getLsbD, BitVec.toNat_sub, Nat.testBit_zero]
      have := s.w15.isLt
      simp
      omega
    rw [this, he]
  have hmask : (s.w15 - 2#16) &&& 0xFFFE#16 = s.w15 - 2#16 := by
    apply BitVec.eq_of_getLsbD_eq
    intro i hi
    rcases Nat.eq_zero_or_pos i with rfl | hpos
    · simp [-BitVec.getLsbD_eq_getElem, heven]
    · have : (0xFFFE#16).getLsbD i = true := by
        have : ∀ j : Fin 16, 0 < j.val → (0xFFFE#16).getLsbD j.val = true := by decide
        exact this ⟨i, hi⟩ hpos
      simp [this]
  unfold pop16 State.popped
  rw [bind_of_ok (checkCircular_of_off hc)]
  simp only [upd_bind, ask_bind]
  have hw : (s.setWreg 15#4 (s.w15 - 2#16)).w15 = s.w15 - 2#16 := by
    rw [setWreg_w15]; exact hmask
  rw [hw, bind_of_ok (stackCheck_of_settled _ _ true (by simpa using hz))]
  apply memRead_of_dataRead
  generalize ht : (s.setWreg 15#4 (s.w15 - 2#16)).stackChecked (s.w15 - 2#16) false = t
  have hti : t.implemented (s.w15 - 2#16).toNat = true := by subst ht; simpa [State.implemented] using hi
  have hge : ¬ (s.w15 - 2#16).toNat < 0x1000 := by
    simp only [State.implemented, Bool.and_eq_true, decide_eq_true_eq] at hti; omega
  have htar : t.readTarget .stack (s.w15 - 2#16) = .ram (s.w15 - 2#16).toNat := by
    simp only [State.readTarget, if_neg hge, windowed, State.ramTarget, hti]
    simp
  have hmem : t.mem = s.mem := by subst ht; simp
  simp [-BitVec.getLsbD_eq_getElem, -BitVec.toNat_sub, State.dataRead?, heven, htar, State.top, State.ramWord, State.ramByte, hmem]

/-! Operands. -/

theorem checkVia_of_settled {s : State} (via : Via) (ea : Word) (carry read : Bool)
    (h : (read && via == .stack && s.splimEnabled && s.haz.splimOld.isSome) = false) :
    checkVia via ea carry read s = .ok ((), s.viaChecked via ea carry) := by
  unfold checkVia State.viaChecked
  split
  next hv => subst hv; exact stackCheck_of_settled ea carry read (by simpa using h)
  · rfl

/-- An indirect operand is accessed at its address, in the state the access is made in, and its pointer is modified. -/
theorem withEA_of_access {α : Type} {s t : State} {op : Operand} {wb : Reg} {step : Word} {read : Bool}
    {f : Via → Word → M α} {a : Access} {r : α} (h : s.access? op wb step read = some a)
    (hf : f a.via a.ea a.state = .ok (r, t)) :
    withEA op wb step read f s = .ok (r, t.postModified op step) := by
  unfold State.access? at h
  simp only at h
  split at h
  · cases h
  next hp =>
  split at h
  · cases h
  next hz =>
  cases h
  simp only [Bool.or_eq_true, Bool.not_eq_true', not_or, Bool.not_eq_false, Bool.not_eq_true] at hp
  have hpre : (s.preModified op step).splimEnabled = s.splimEnabled ∧ (s.preModified op step).haz = s.haz := by
    unfold State.preModified; cases op.mode <;> simp
  unfold withEA checkInit checkCircular
  simp only [bind_apply, ask_apply, ite_apply_state, hp.1, hp.2, if_true, pure_apply, Bool.false_eq_true, if_false,
    upd_apply]
  rw [checkVia_of_settled _ _ _ _ (by rw [hpre.1, hpre.2]; exact Bool.eq_false_iff.mpr hz)]
  simp only [hf]

/-- All that the access through an indirect operand does, with its pointers initialized and modulo and bit-reversed
addressing off: the pre-modification, the stack check of an address from W15, the access, the post-modification (R118,
R119, R129). -/
theorem withEA_apply {α : Type} {s : State} {op : Operand} {wb : Reg} {step : Word} {read : Bool}
    {f : Via → Word → M α} (hp : s.pointerReady op wb = true) (hc : s.circular = false) :
    let t := s.preModified op step
    let via := t.viaOf op wb
    let ea := t.eaOf op wb
    ∃ u, withEA op wb step read f s = (f via ea >>= fun r => upd (·.postModified op step) >>= fun _ => pure r) u ∧
      ((via ≠ .stack ∧ u = t) ∨ via = .stack ∧ ∃ limit n,
        u = { t.checkedAgainst limit ea (s.eaCarry op wb step) with free := n } ∧
        (limit = s.splim ∨ read = true ∧ s.splimEnabled = true ∧ s.haz.splimOld = some limit)) := by
  intro t via ea
  have hpre : t.splim = s.splim ∧ t.splimEnabled = s.splimEnabled ∧ t.haz = s.haz := by simp [t]
  have hw : withEA op wb step read f s = (checkVia via ea (s.eaCarry op wb step) read >>= fun _ => f via ea >>= fun r =>
      upd (·.postModified op step) >>= fun _ => pure r) t := by
    unfold withEA checkInit checkCircular
    simp only [bind_apply, ask_apply, ite_apply_state, hp, hc, if_true, pure_apply, Bool.false_eq_true, if_false,
      upd_apply]
    rfl
  by_cases hv : via = .stack
  · obtain ⟨limit, n, h1, h2⟩ := stackCheck_apply t ea (s.eaCarry op wb step) read
    rw [hpre.1, hpre.2.1, hpre.2.2] at h2
    refine ⟨_, ?_, .inr ⟨hv, limit, n, rfl, h2⟩⟩
    rw [hw, bind_of_ok (by unfold checkVia; rw [if_pos hv]; exact h1)]
  · refine ⟨t, ?_, .inl ⟨hv, rfl⟩⟩
    rw [hw, bind_of_ok (by unfold checkVia; rw [if_neg hv]; rfl)]

/-- An indirect operand whose pointer is not initialized resets the device (R29, R368). -/
theorem withEA_of_uninit {α : Type} {s : State} {op : Operand} {wb : Reg} {step : Word} {read : Bool}
    {f : Via → Word → M α} (h : s.pointerReady op wb = false) :
    withEA op wb step read f s = .error (.reset .uninitializedW) := by
  unfold withEA checkInit
  simp [bind_apply, h]

/-- An indirect operand while modulo or bit-reversed addressing is enabled is refused (R122). -/
theorem withEA_of_circular {α : Type} {s : State} {op : Operand} {wb : Reg} {step : Word} {read : Bool}
    {f : Via → Word → M α} (hp : s.pointerReady op wb = true) (h : s.circular = true) :
    withEA op wb step read f s = .error (.refuse .circularAddressing) := by
  unfold withEA checkInit checkCircular
  simp [bind_apply, hp, h]

/-- What an indirect operand does that cannot be accessed: its pointer is not initialized, or modulo or bit-reversed
addressing is enabled (R29, R122). -/
theorem withEA_stops {α : Type} {s : State} {op : Operand} {wb : Reg} {step : Word} {read : Bool}
    {f : Via → Word → M α} (h : s.pointerReady op wb = false ∨ s.circular = true) :
    withEA op wb step read f s =
      .error (if s.pointerReady op wb then .refuse .circularAddressing else .reset .uninitializedW) := by
  cases hp : s.pointerReady op wb
  · exact withEA_of_uninit hp
  · exact withEA_of_circular hp (h.resolve_left (by simp [hp]))

theorem readOp_of_source {s t : State} {byte : Bool} {wb : Reg} {op : Operand} {v : Word}
    (h : s.source? byte wb op = some (v, t)) : readOp byte wb op s = .ok (v, t) := by
  unfold State.source? at h
  unfold readOp
  split at h
  next hd => cases h; simp [hd]
  next hd =>
  simp only [hd, if_false]
  split at h
  next a ha =>
    split at h
    next w hw => cases h; exact withEA_of_access ha (memRead_of_dataRead hw)
    · cases h
  · cases h

/-- Forming an address changes no parameter. -/
theorem access_device {s : State} {op : Operand} {wb : Reg} {step : Word} {read : Bool} {a : Access}
    (h : s.access? op wb step read = some a) : a.state.dev = s.dev := by
  unfold State.access? at h
  simp only at h
  split at h
  · cases h
  · split at h
    · cases h
    · cases h; simp

theorem preModified_viaChecked_ea {s : State} {op : Operand} {wb : Reg} {step : Word} {read : Bool} {a : Access}
    (h : s.access? op wb step read = some a) : a.ea = (s.preModified op step).eaOf op wb := by
  unfold State.access? at h
  simp only at h
  split at h
  · cases h
  · split at h
    · cases h
    · cases h; rfl

theorem writeOp_of_dest {s t : State} {byte : Bool} {wb : Reg} {op : Operand} {v : Word}
    (h : s.dest? byte wb op v = some t) : writeOp byte wb op v s = .ok (s.destIsSr byte wb op, t) := by
  unfold State.dest? at h
  unfold writeOp State.destIsSr
  split at h
  next hd => cases h; simp [hd]
  next hd =>
  simp only [hd, if_false]
  split at h
  next a ha =>
    split at h
    next w hw =>
      cases h
      have hne : (op.mode != .direct) = true := by simpa using hd
      rw [hne, Bool.true_and, ← preModified_viaChecked_ea ha, ← access_device ha]
      exact withEA_of_access ha (by rw [ask_bind, bind_of_ok (memWrite_of_dataWrite hw)]; rfl)
    · cases h
  · cases h

theorem writeFileOrWreg_of_fileDest {s t : State} {byte toFile : Bool} {addr v : Word}
    (h : s.fileDest? byte toFile addr v = some t) :
    writeFileOrWreg byte toFile addr v s = .ok (fileIsSr s.dev byte toFile addr, t) := by
  unfold State.fileDest? at h
  unfold writeFileOrWreg fileIsSr
  split at h
  next ht =>
    rw [if_pos ht, ask_bind, bind_of_ok (memWrite_of_dataWrite h), ht]
    rfl
  next ht => cases h; simp [ht]

theorem readFile_of_dataRead {s : State} {byte : Bool} {addr v : Word}
    (h : s.dataRead? .paged addr byte = some v) : readFile byte addr s = .ok (v, s) :=
  memRead_of_dataRead h

/-! Flags. -/

theorem writeFlags_of_plain (s : State) (f : Flags → Flags) :
    writeFlags false f s = .ok ((), s.withFlags (f s.flags)) := rfl

end Sys2Proof.Machine
end

