-- ==== Sys2Proof/Laws/Divide.lean ====
section
/-! SUPPORT. Divide.lean: what one execution of a divide does, said once for each of its operations. -/

namespace Sys2Proof.Machine

/-- The state in which W0, W1, N, OV, Z and C have become free values. -/
def State.divideDrawn (s : State) : State :=
  { (s.setWreg 0#4 (Config.anyBits 16 s.free)).setWreg 1#4 (Config.anyBits 16 (s.free + 1)) with
    free := s.free + 7
    flags := { s.flags with n := Config.anyBit (s.free + 3), ov := Config.anyBit (s.free + 4),
                            z := Config.anyBit (s.free + 5), c := Config.anyBit (s.free + 6) } }

/-- The state in which a result has been written over the free values. -/
def State.divideWritten (s : State) : DivResult → State
  | .value q r n z => { (s.divideDrawn.setWreg 0#4 q).setWreg 1#4 r with
      flags := { s.divideDrawn.flags with n := n, z := z, ov := false } }
  | .overflow => { s.divideDrawn with flags := { s.divideDrawn.flags with ov := true } }
  | .unknown => s.divideDrawn

/-- The state after one execution of a divide that delivers `final` when executed as R228 asks. -/
def State.divideRan (s : State) (final : DivResult) : State :=
  if s.ra then
    { s with div := s.divAfter final }.divideWritten (if s.rcount == 0#16 then final else .unknown)
  else { s with div := s.div.map DivRun.spoiled }.divideDrawn

theorem drawDivide_apply (s : State) : drawDivide s = .ok ((), s.divideDrawn) := rfl

theorem writeDivide_apply (r : DivResult) (s : State) : writeDivide r s = .ok ((), s.divideWritten r) := by
  unfold writeDivide
  rw [bind_of_ok (drawDivide_apply s)]
  cases r <;> rfl

theorem divideStep_apply (final : DivResult) (s : State) : divideStep final s =
    .ok ((), { s with div := s.divAfter final }.divideWritten (if s.rcount == 0#16 then final else .unknown)) := by
  unfold divideStep
  rw [ask_bind, upd_bind, writeDivide_apply]

theorem divideOnce_apply (s : State) :
    divideOnce s = .ok ((), { s with div := s.div.map DivRun.spoiled }.divideDrawn) := by
  unfold divideOnce
  rw [upd_bind, drawDivide_apply]

theorem divideRun_apply (final : State → DivResult) (s : State) :
    divideRun final s = .ok ((), s.divideRan (final s)) := by
  unfold divideRun State.divideRan
  rw [ask_bind]
  by_cases h : s.ra = true
  · rw [if_pos h, if_pos h, ask_bind, divideStep_apply]
  · rw [if_neg h, if_neg h, divideOnce_apply]

/-- One execution of a divide whose divisor is not 0. -/
theorem divide_of_ne {wn : Reg} {s : State} (result : State → DivResult) (h : s.wreg wn ≠ 0#16) :
    divide wn result s =
      .ok ((), (s.divideRan (s.divFinal (if wn = 0#4 ∨ wn = 1#4 then .unknown else result s))).advanced 1) := by
  unfold divide
  rw [ask_bind, if_neg h, bind_of_ok (divideRun_apply _ s)]
  rfl

/-- One execution of a divide by 0 (R231). -/
theorem divide_of_zero {wn : Reg} {s : State} (result : State → DivResult) (h : s.wreg wn = 0#16) :
    divide wn result s =
      .ok ((), ({ s.addPending .mathError with intcon := { s.intcon with div0err := true } }.divideRan
        .unknown).advanced 1) := by
  unfold divide
  rw [ask_bind, if_pos h]
  have h0 : raiseDiv0 s =
      .ok ((), { s.addPending .mathError with intcon := { s.intcon with div0err := true } }) := rfl
  rw [bind_of_ok h0, bind_of_ok (divideRun_apply _ _)]
  rfl

/-- A divide whose next execution this is keeps the result it has. -/
theorem divFinal_of_run {s : State} {r : DivRun} (result : DivResult) (h : s.divNow = some r) :
    s.divFinal result = r.result := by
  unfold State.divFinal; rw [h]

/-- The first execution of a REPEAT loop continues no divide. -/
theorem divNow_of_first {s : State} (h : s.repeatNew = true) : s.divNow = none := by
  unfold State.divNow; rw [if_pos h]

/-- The divide in progress continues at its address with the count it has come to. -/
theorem divNow_of_div {s : State} {r : DivRun} (h : s.repeatNew = false) (hd : s.div = some r) (ha : r.at_ = s.pc)
    (hr : r.remaining = s.rcount.toNat + 1) : s.divNow = some r := by
  unfold State.divNow; rw [h, hd]; simp [Option.filter, ha, hr]

/-- What a divide that starts finds: one that a handler running interrupted, or one left unfinished (R228, U8). -/
theorem divBlocked_iff {s : State} : s.divBlocked = true ↔
    (∃ f ∈ s.nest, f.divides = true) ∨ ∃ r, s.div = some r ∧ r.result ≠ .unknown := by
  unfold State.divBlocked
  cases s.div <;> simp [List.any_eq_true]

/-- What a divide delivers that does not continue the one in progress: its result, if this is the first execution with
RCOUNT = 17 and no other divide is found, and nothing otherwise (R228). -/
theorem divFinal_of_none {s : State} (result : DivResult) (h : s.divNow = none) :
    s.divFinal result = if s.repeatNew = true ∧ s.rcount = 17#16 ∧ s.divBlocked = false then result else .unknown := by
  unfold State.divFinal; rw [h]

end Sys2Proof.Machine
end

