-- ==== Sys2Proof/Laws/Stack.lean ====
section
/-! SUPPORT. Stack.lean: the software stack, calls, taking an exception and returning from one, once each: what they do
when the stack words can be written and read. -/

namespace Sys2Proof.Machine

/-- Bit 0 is clear exactly when the value is even. -/
theorem even_iff {w : Nat} (v : BitVec w) : v.getLsbD 0 = false ↔ v.toNat % 2 = 0 := by
  simp only [BitVec.getLsbD, Nat.testBit_zero, decide_eq_false_iff_not]; omega

/-- Clearing bit 0 of an even word leaves it. -/
theorem mask_even (v : Word) (h : v.getLsbD 0 = false) : v &&& 0xFFFE#16 = v := by
  apply BitVec.eq_of_getLsbD_eq
  intro i hi
  rcases Nat.eq_zero_or_pos i with rfl | hpos
  · simp [-BitVec.getLsbD_eq_getElem, h]
  · have : ∀ j : Fin 16, 0 < j.val → (0xFFFE#16).getLsbD j.val = true := by decide
    simp [this ⟨i, hi⟩ hpos]

/-- Two added to an even word is even. -/
theorem even_add2 (v : Word) (h : v.getLsbD 0 = false) : (v + 2#16).getLsbD 0 = false := by
  rw [even_iff] at *; rw [BitVec.toNat_add]; simp; omega

/-- Two subtracted from an even word is even. -/
theorem even_sub2 (v : Word) (h : v.getLsbD 0 = false) : (v - 2#16).getLsbD 0 = false := by
  rw [even_iff] at *; rw [BitVec.toNat_sub]; have := v.isLt; simp; omega

/-- A push adds two to an even stack pointer. -/
theorem pushed_w15 (s : State) (v : Word) (h : s.w15.getLsbD 0 = false) : (s.pushed v).w15 = s.w15 + 2#16 := by
  simp only [State.pushed, setWreg_w15]; exact mask_even _ (even_add2 _ h)

/-- A pop subtracts two from an even stack pointer. -/
theorem popped_w15 (s : State) (h : s.w15.getLsbD 0 = false) : (s.popped).w15 = s.w15 - 2#16 := by
  simp only [State.popped, setWreg_w15, stackChecked_w15]; exact mask_even _ (even_sub2 _ h)

/-- A push changes data memory as a word write at W15 does. -/
theorem pushed_mem (s : State) (v : Word) : (s.pushed v).mem = (s.setRamWord s.w15.toNat v).mem := by
  simp [State.pushed, State.setRamWord, State.setRamByte]

/-- What it means that a push can write its word. -/
theorem canPush_facts {s : State} (h : s.canPush = true) :
    s.w15.getLsbD 0 = false ∧ 0x1000 ≤ s.w15.toNat ∧ s.implemented s.w15.toNat = true := by
  unfold State.canPush at h
  simp only [Bool.and_eq_true, Bool.not_eq_true', and_assoc] at h
  replace h := h.2
  refine ⟨h.1, ?_, h.2⟩
  have := h.2
  simp only [State.implemented, Bool.and_eq_true, decide_eq_true_eq] at this
  exact this.1

/-- A push needs modulo and bit-reversed addressing off. -/
theorem canPush_circular {s : State} (h : s.canPush = true) : s.circular = false := by
  unfold State.canPush at h
  simp only [Bool.and_eq_true, Bool.not_eq_true', and_assoc] at h
  exact h.1

/-- What it means that two pushes can write their words. -/
theorem canPush2_facts {s : State} (h : s.canPush2 = true) :
    s.canPush = true ∧ s.w15.getLsbD 0 = false ∧ (s.w15 + 2#16).toNat = s.w15.toNat + 2 ∧
    s.implemented (s.w15.toNat + 2) = true := by
  unfold State.canPush2 at h
  simp only [Bool.and_eq_true, Bool.not_eq_true'] at h
  obtain ⟨⟨h1, h2⟩, h3⟩ := h
  have hf := canPush_facts h1
  have : (s.w15 + 2#16).toNat = s.w15.toNat + 2 := by
    have h4 : 0x1000 ≤ (s.w15 + 2#16).toNat := by
      have := h3
      simp only [State.implemented, Bool.and_eq_true, decide_eq_true_eq] at this
      exact this.1
    rw [BitVec.toNat_add] at *; simp at *; omega
  exact ⟨h1, hf.1, this, this ▸ h3⟩

/-- Whether a push is possible depends on W15, the device and the addressing registers only. -/
theorem canPush_congr {s t : State} (h1 : t.w15 = s.w15) (h2 : t.dev = s.dev) (h3 : t.circular = s.circular) :
    t.canPush = s.canPush := by
  simp [State.canPush, State.implemented, h1, h2, h3]

/-- After the first of two possible pushes the second is possible. -/
theorem pushed_canPush {s : State} (v : Word) (h : s.canPush2 = true) : (s.pushed v).canPush = true := by
  have hf := canPush2_facts h
  have hc := canPush_circular hf.1
  unfold State.canPush
  rw [pushed_w15 _ _ hf.2.1]
  simp only [Bool.and_eq_true, Bool.not_eq_true', and_assoc]
  refine ⟨by simpa [State.circular] using hc, even_add2 _ hf.2.1, ?_⟩
  rw [hf.2.2.1]
  simpa [State.implemented] using hf.2.2.2

/-- Two pushes. -/
theorem push2 {s : State} (f : State → Word) (g : State → Word) (h : s.canPush2 = true) :
    (do push16 (← ask f); push16 (← ask g) : M Unit) s = .ok ((), (s.pushed (f s)).pushed (g (s.pushed (f s)))) := by
  rw [ask_bind, bind_of_ok (push16_of_canPush _ (canPush2_facts h).1), ask_bind]
  exact push16_of_canPush _ (pushed_canPush _ h)

/-- Clearing bit 0 of an even program address leaves it. -/
theorem mask23 (v : ProgAddr) (h : v.getLsbD 0 = false) : v &&& 0x7FFFFE#23 = v := by
  apply BitVec.eq_of_getLsbD_eq
  intro i hi
  rcases Nat.eq_zero_or_pos i with rfl | hpos
  · simp [-BitVec.getLsbD_eq_getElem, h]
  · have : ∀ j : Fin 23, 0 < j.val → (0x7FFFFE#23).getLsbD j.val = true := by decide
    simp [this ⟨i, hi⟩ hpos]

/-- A handler's address is even. -/
theorem handler_mask (w : ProgWord) : handlerAddr w &&& 0x7FFFFE#23 = handlerAddr w := by
  apply mask23; unfold handlerAddr; rw [even_iff, BitVec.toNat_append]; simp [Nat.shiftLeft_eq]

/-- Pushing an exception frame. -/
theorem pushPcExc_apply {s : State} (ret : ProgAddr) (h : s.canPush2 = true) :
    pushPcExc ret s = .ok ((), (s.pushed (s.retLow ret)).pushed (s.excHigh ret)) := by
  unfold pushPcExc
  rw [push2 _ _ h]
  simp [State.excHigh, State.srl]

/-- A push leaves the CPU priority level as it is. -/
@[simp] theorem pushed_level (s : State) (v : Word) : (s.pushed v).level = s.level := by simp [State.level]

/-- A pop leaves the CPU priority level as it is. -/
@[simp] theorem popped_level (s : State) : s.popped.level = s.level := by simp [State.level]

/-- A push leaves it as it is whether the pc stands in the middle of a divide. -/
@[simp] theorem pushed_dividing (s : State) (v : Word) : (s.pushed v).dividing = s.dividing := by
  simp [State.dividing, State.atDivide, State.asmAt, State.progWord]

/-- A push leaves the first word of a frame for a return address as it is. -/
@[simp] theorem pushed_retLow (s : State) (v : Word) (ret : ProgAddr) : (s.pushed v).retLow ret = s.retLow ret := by
  simp [State.retLow]

/-- A push leaves the second word of a frame for a return address as it is. -/
@[simp] theorem pushed_excHigh (s : State) (v : Word) (ret : ProgAddr) : (s.pushed v).excHigh ret = s.excHigh ret := by
  simp [State.excHigh, State.srl]

/-- What entering a trap changes after the two pushes. -/
theorem enterMode_trap (s : State) (k : TrapKind) : s.enterMode (.trap k) = { s with
    sfa := false, ra := false, ipl3 := true, ipl := BitVec.ofNat 3 (k.level s.dev - 8),
    cctxi := if s.dev.ctxNomatchToDefault then 0 else s.cctxi, repeatNew := false,
    nest := s.interrupted :: s.nest.filter fun f => f.frame != s.w15 } := rfl

/-- What entering an interrupt changes after the two pushes. -/
theorem enterMode_irq (s : State) (q : Irq) : s.enterMode (.irq q) = { s with
    sfa := false, ra := false, ipl := if s.intcon.nstdis then 7#3 else BitVec.ofNat 3 q.prio.val,
    cctxi := s.contextOnEntry (some q.prio.val), repeatNew := false,
    nest := s.interrupted :: s.nest.filter fun f => f.frame != s.w15 } := rfl

/-- What the record of an entry says after the two pushes. -/
theorem pushed_interrupted (s : State) (v w : Word) : ((s.pushed v).pushed w).interrupted =
    { frame := ((s.pushed v).pushed w).w15, low := s.retLow s.pc, high := s.excHigh s.pc, level := s.level,
      repeatNew := s.repeatNew, divides := s.dividing } := by
  simp [State.interrupted]

/-- A push and a change of the next instruction's hazards commute. -/
theorem pushed_setHazNext (s : State) (v : Word) (h : Hazard) :
    { s with hazNext := h }.pushed v = { s.pushed v with hazNext := h } := by
  unfold State.pushed State.stackChecked State.checkedAgainst
  dsimp only
  by_cases hc : (decide (s.w15.toNat < 0x1000) ||
      (s.splimEnabled && overLimit s.splim s.w15 (decide (0x10000 ≤ s.w15.toNat + 2)))) = true
  · rw [if_pos hc, if_pos hc]; rfl
  · rw [if_neg hc, if_neg hc]; rfl

/-- An entry whose pushes wrote no SPLIM leaves the hazards as they are. -/
theorem entryHazards_of_none (u : State) (e : Entry) :
    ({ u with hazNext := Hazard.none }.enterMode e).entryHazards u.hazNext = u.enterMode e := by
  cases e <;> rfl

/-- Pushing an exception frame with no hazard for the next instruction. -/
theorem pushPcExc_setHazNext {s : State} (ret : ProgAddr) (k : Hazard) (h : s.canPush2 = true) :
    pushPcExc ret { s with hazNext := k } =
      .ok ((), { (s.pushed (s.retLow ret)).pushed (s.excHigh ret) with hazNext := k }) := by
  have hc : State.canPush2 { s with hazNext := k } = true := h
  have e1 := pushed_setHazNext s (s.retLow ret) k
  have e2 := pushed_setHazNext (s.pushed (s.retLow ret)) (s.excHigh ret) k
  rw [pushPcExc_apply _ hc, ← e2, ← e1]
  rfl

/-- Taking an exception, when the frame can be pushed and the vector lies in implemented program memory. -/
theorem enter_apply {s : State} (e : Entry) (h : s.canPush2 = true) (hv : e.vector s.dev < 2 * s.dev.progWords) :
    enter e s = .ok ((), { (((s.pushed (s.retLow s.pc)).pushed (s.excHigh s.pc)).enterMode e) with
      pc := handlerAddr (s.progWord (e.vector s.dev)) }) := by
  unfold enter
  rw [ask_bind, upd_bind, ask_bind, bind_of_ok (pushPcExc_setHazNext s.pc Hazard.none h), upd_bind]
  have he := entryHazards_of_none ((s.pushed (s.retLow s.pc)).pushed (s.excHigh s.pc)) e
  rw [pushed_hazNext, pushed_hazNext] at he
  rw [he, ask_bind, bind_apply, progRead_apply]
  have hd : ∀ t : State, (t.enterMode e).dev = t.dev := by intro t; cases e <;> rfl
  have hp : ∀ t : State, (t.enterMode e).prog = t.prog := by intro t; cases e <;> rfl
  rw [hd]
  simp only [pushed_dev, hv, if_true]
  simp only [jump_apply, handler_mask]
  simp [State.progWord, hp]

/-- The context of a level depends on the device only. -/
theorem contextFor_congr {s t : State} (h : t.dev = s.dev) : t.contextFor = s.contextFor := by
  have : t.contextAt = s.contextAt := by funext n l; unfold State.contextAt; rw [h]
  funext p; unfold State.contextFor; rw [this]

/-- A push stores two bytes at W15 and no others. -/
theorem sameMem_pushed (s : State) (v : Word) (_h : s.canPush = true) : sameMemoryBut s (s.pushed v) s.w15.toNat 2 := by
  intro a ha
  simp only [State.ramByte, pushed_mem, State.setRamWord, State.setRamByte]
  rw [assocGet_assocSet_of_ne _ _ (by omega), assocGet_assocSet_of_ne _ _ (by omega)]

/-- A push stores its word at W15. -/
theorem ramWord_pushed (s : State) (v : Word) (_h : s.canPush = true) : (s.pushed v).ramWord s.w15.toNat = v := by
  simp only [State.ramWord, State.ramByte, pushed_mem, State.setRamWord, State.setRamByte]
  rw [assocGet_assocSet, assocGet_assocSet_of_ne _ _ (by omega), assocGet_assocSet]
  simp only [Option.getD_some]
  exact BitVec.extractLsb'_append_extractLsb'_eq_extractLsb' (by rfl) |>.trans (by simp)

/-- When a pop can read its word. -/
theorem canPop_intro {s : State} (h1 : s.w15.getLsbD 0 = false) (h2 : s.implemented (s.w15 - 2#16).toNat = true)
  (h3 : s.splimEnabled = false) (h4 : s.circular = false) : s.canPop = true := by
  unfold State.canPop; rw [h1, h2, h3, h4]; rfl

/-- What it means that two pops can read their words. -/
theorem canPop2_pop {s : State} (h : s.canPop2 = true) : s.canPop = true ∧ s.popped.canPop = true ∧ s.w15.getLsbD 0 = false := by
  unfold State.canPop2 at h
  simp only [Bool.and_eq_true] at h
  have h1 := h.1
  unfold State.canPop at h1
  simp only [Bool.and_eq_true, Bool.not_eq_true'] at h1
  obtain ⟨⟨⟨hc, he⟩, hi⟩, hz⟩ := h1
  refine ⟨h.1, ?_, he⟩
  have hcp : s.popped.circular = false := by simpa [State.circular] using hc
  unfold State.canPop
  rw [popped_w15 _ he, hcp]
  have e : s.w15 - 2#16 - 2#16 = s.w15 - 4#16 := by
    rw [BitVec.sub_sub]; rfl
  simp only [Bool.and_eq_true, Bool.not_eq_true', even_sub2 _ he, e, popped_splimEnabled, popped_haz, hz, true_and, and_true]
  simpa [State.implemented] using h.2

/-- Two pops in a state with the memory and the stack pointer two pushes left. -/
theorem pop2_of_push2 {s : State} (v w : Word) (h : s.canPush2 = true) (_he : s.splimEnabled = false) (t : State)
   (ht1 : t.w15 = ((s.pushed v).pushed w).w15) (ht2 : t.mem = ((s.pushed v).pushed w).mem) (ht3 : t.dev = s.dev) (ht4 : t.splimEnabled = false)
   (ht5 : t.circular = s.circular) :
   t.canPop2 = true ∧ t.top = w ∧ t.popped.top = v ∧ t.popped.popped.w15 = s.w15 ∧ t.popped.popped.mem = t.mem ∧ sameMemoryBut s t s.w15.toNat 4 := by
  have hf := canPush2_facts h
  have hc1 := hf.1
  have hc2 := pushed_canPush v h
  have e1 : (s.pushed v).w15 = s.w15 + 2#16 := pushed_w15 _ _ hf.2.1
  have ev1 := even_add2 _ hf.2.1
  have e2 : ((s.pushed v).pushed w).w15 = s.w15 + 2#16 + 2#16 := by
    rw [pushed_w15 _ _ (by rw [e1]; exact ev1), e1]
  have ev2 := even_add2 _ ev1
  rw [e2] at ht1
  have a1 : t.w15 - 2#16 = s.w15 + 2#16 := by rw [ht1, BitVec.add_sub_cancel]
  have a2 : t.w15 - 2#16 - 2#16 = s.w15 := by rw [a1, BitVec.add_sub_cancel]
  have hp : t.canPop = true := by
    apply canPop_intro _ _ ht4 (by rw [ht5]; exact canPush_circular hc1)
    · rw [ht1]; exact ev2
    · rw [a1, hf.2.2.1]
      simpa [State.implemented, ht3] using hf.2.2.2
  have hfp := canPush_facts hc1
  have hp2 : t.canPop2 = true := by
    unfold State.canPop2
    have e : t.w15 - 4#16 = t.w15 - 2#16 - 2#16 := by rw [BitVec.sub_sub]; rfl
    rw [hp, e, a2]
    simpa [State.implemented, ht3] using hfp.2.2
  have htop : t.top = w := by
    unfold State.top; rw [a1, ← e1, ← ramWord_pushed (s.pushed v) w hc2]
    simp only [State.ramWord, State.ramByte, ht2]
  have evt : t.w15.getLsbD 0 = false := by rw [ht1]; exact ev2
  have hpw : t.popped.w15 = s.w15 + 2#16 := by rw [popped_w15 _ evt, a1]
  have htop2 : t.popped.top = v := by
    unfold State.top; rw [hpw]
    have : s.w15 + 2#16 - 2#16 = s.w15 := BitVec.add_sub_cancel _ _
    rw [this]
    have hm := sameMem_pushed (s.pushed v) w hc2
    rw [e1] at hm
    have hv := ramWord_pushed s v hc1
    rw [← hv]
    simp only [State.ramWord]
    have m : ∀ a, t.popped.ramByte a = ((s.pushed v).pushed w).ramByte a := by
      intro a; simp only [State.ramByte, popped_mem, ht2]
    rw [m, m, hm _ (by rw [hf.2.2.1]; omega), hm _ (by rw [hf.2.2.1]; omega)]
  refine ⟨hp2, htop, htop2, ?_, by simp, ?_⟩
  · rw [popped_w15 _ (by rw [hpw]; exact ev1), hpw, BitVec.add_sub_cancel]
  · intro a ha
    have hm1 := sameMem_pushed s v hc1 a (by omega)
    have hm := sameMem_pushed (s.pushed v) w hc2
    rw [e1] at hm
    have hm2 := hm a (by rw [hf.2.2.1]; omega)
    rw [← hm1, ← hm2]
    simp only [State.ramByte, ht2]

/-- Two pops. -/
theorem pop2_apply {s : State} (h : s.canPop2 = true) {α : Type} (f : Word → Word → M α) :
    (do let h ← pop16; let l ← pop16; f h l : M α) s = f s.top s.popped.top s.popped.popped := by
  have hp := canPop2_pop h
  rw [bind_of_ok (pop16_of_canPop hp.1), bind_of_ok (pop16_of_canPop hp.2.1)]

/-- A popped return address is even. -/
theorem retTarget_mask (h l : Word) : retTarget h l &&& 0x7FFFFE#23 = retTarget h l := by
  apply mask23; unfold retTarget; rw [even_iff, BitVec.toNat_append]; simp [Nat.shiftLeft_eq]

/-- Returning from an exception, when the frame can be read. -/
theorem exceptionReturn_apply {s : State} (h : s.canPop2 = true) :
    exceptionReturn s = .ok ((), 
      let t : State := { (s.popped.popped.restoreStatus s.top).leaveHandler s.w15 s.top s.popped.top with
        sfa := s.popped.top.getLsbD 0, pc := retTarget s.top s.popped.top }
      { t with cctxi := t.contextOnReturn }) := by
  unfold exceptionReturn
  rw [ask_bind, pop2_apply h]
  rw [upd_bind, upd_bind, bind_apply]
  simp only [jump_apply, retTarget_mask, upd_apply]

/-- Returning from a subroutine, when the two words can be read. -/
theorem subroutineReturn_apply {s : State} (h : s.canPop2 = true) :
    subroutineReturn s = .ok ((), { s.popped.popped with sfa := s.popped.top.getLsbD 0, pc := retTarget s.top s.popped.top }) := by
  unfold subroutineReturn
  rw [pop2_apply h]
  rw [upd_bind]
  simp only [jump_apply, retTarget_mask]

/-- The return address of a frame reads back. -/
theorem frame_pc (s : State) (ret : ProgAddr) (h : ret.getLsbD 0 = false) : retTarget (s.excHigh ret) (s.retLow ret) = ret := by
  unfold retTarget State.excHigh State.retLow
  apply BitVec.eq_of_getLsbD_eq
  intro i hi
  simp only [BitVec.getLsbD_append, BitVec.getLsbD_extractLsb']
  rcases Nat.lt_or_ge i 1 with h1 | h1
  · have : i = 0 := by omega
    subst this; simp [-BitVec.getLsbD_eq_getElem, h]
  · rcases Nat.lt_or_ge i 16 with h2 | h2
    · have : i - 1 < 15 := by omega
      have h5 : ¬ (i < 1) := by omega
      have h3 : ¬ (1 + (i - 1) < 1) := by omega
      have h4 : 1 + (1 + (i - 1) - 1) = i := by omega
      simp [-BitVec.getLsbD_eq_getElem, this, h3, h5]
      congr 1; omega
    · have h5 : ¬ (i < 1) := by omega
      have h6 : ¬ (i - 1 < 15) := by omega
      have h7 : i - 1 - 15 < 7 := by omega
      have h8 : 16 + (i - 1 - 15) = i := by omega
      simp [-BitVec.getLsbD_eq_getElem, h5, h6, h7, h8]

/-- Bit 0 of the first stacked word is the bit put there. -/
theorem low_of_append (x : BitVec 15) (b : Bool) : (x ++ BitVec.ofBool b : BitVec 16).getLsbD 0 = b := by
  rw [BitVec.getLsbD_append]; cases b <;> rfl

/-- The status bits of a frame's second word. -/
theorem excHigh_bits (s : State) (p : ProgAddr) : (s.excHigh p).getLsbD 8 = s.flags.c ∧ (s.excHigh p).getLsbD 9 = s.flags.z ∧ (s.excHigh p).getLsbD 10 = s.flags.ov ∧ (s.excHigh p).getLsbD 11 = s.flags.n ∧ (s.excHigh p).getLsbD 12 = s.ra ∧ (s.excHigh p).getLsbD 7 = s.ipl3 ∧ (s.excHigh p).extractLsb' 13 3 = s.ipl := by
  unfold State.excHigh State.srl
  refine ⟨?_, ?_, ?_, ?_, ?_, ?_, ?_⟩
  · simp only [BitVec.getLsbD_append]; simp
  · simp only [BitVec.getLsbD_append]; simp
  · simp only [BitVec.getLsbD_append]; simp
  · simp only [BitVec.getLsbD_append]; simp
  · simp only [BitVec.getLsbD_append]; simp
  · simp only [BitVec.getLsbD_append]; simp
  · apply BitVec.eq_of_getLsbD_eq
    intro i hi
    simp only [BitVec.getLsbD_extractLsb', BitVec.getLsbD_append]
    have : i = 0 ∨ i = 1 ∨ i = 2 := by omega
    rcases this with rfl | rfl | rfl <;> simp

/-- A call, when its two words can be pushed. -/
theorem doCall_apply {s : State} (ret target : ProgAddr) (h : s.canPush2 = true) (ht : target.getLsbD 0 = false) :
    doCall ret target s = .ok ((), { (s.pushed (ret.extractLsb' 1 15 ++ BitVec.ofBool s.sfa)).pushed ((ret.extractLsb' 16 7).zeroExtend 16) with sfa := false, pc := target }) := by
  unfold doCall pushPcCall
  have := canPush2_facts h
  rw [bind_of_ok (t := (s.pushed (s.retLow ret)).pushed ((ret.extractLsb' 16 7).zeroExtend 16)) (a := ())]
  · rw [upd_bind]; simp only [jump_apply, mask23 _ ht]; rfl
  · rw [ask_bind, bind_of_ok (push16_of_canPush _ this.1)]
    exact push16_of_canPush _ (pushed_canPush _ h)

/-- A relative target in integers. -/
theorem rel_eq (pc : ProgAddr) (k : Nat) (o : Word) : pc + BitVec.ofNat 23 k + (o.signExtend 23 <<< 1) = BitVec.ofInt 23 ((pc.toNat : Int) + k + 2 * o.toInt) := by
  rw [BitVec.ofInt_add, BitVec.ofInt_add, BitVec.ofInt_mul, BitVec.ofInt_natCast, BitVec.ofInt_natCast, BitVec.ofNat_toNat]
  simp only [BitVec.setWidth_eq]
  congr 1

/-- An even number added to an even program address. -/
theorem even_add_k (p : ProgAddr) (k : Nat) (hk : k % 2 = 0) (h : p.getLsbD 0 = false) : (p + BitVec.ofNat 23 k).getLsbD 0 = false := by
  rw [even_iff] at *; rw [BitVec.toNat_add, BitVec.toNat_ofNat]; omega

/-- A relative target of an even pc is even. -/
theorem even_rel (p : ProgAddr) (o : Word) (h : p.getLsbD 0 = false) : (p + 2#23 + (o.signExtend 23 <<< 1)).getLsbD 0 = false := by
  rw [even_iff] at *; rw [BitVec.toNat_add, BitVec.toNat_add, BitVec.toNat_shiftLeft, Nat.shiftLeft_eq]; simp; omega

/-- An address with a 0 appended is even. -/
theorem even_app {n : Nat} (x : BitVec n) : (x ++ 0#1).getLsbD 0 = false := by
  rw [BitVec.getLsbD_append]; rfl

/-- `RelTarget` in integers. -/
theorem relTarget_eq (s : State) (o : Word) : s.relTarget o = BitVec.ofInt 23 ((s.pc.toNat : Int) + 2 + 2 * o.toInt) := rel_eq s.pc 2 o

/-- `RelTarget` is even. -/
theorem relTarget_even (s : State) (o : Word) (h : s.pc.getLsbD 0 = false) : (s.relTarget o).getLsbD 0 = false := even_rel _ _ h

/-- `RegTarget` as a concatenation. -/
theorem regTarget_eq (s : State) (w : Reg) : s.regTarget w = ((s.wreg w).extractLsb' 1 15 ++ 0#1).zeroExtend 23 := by
  unfold State.regTarget
  apply BitVec.eq_of_getLsbD_eq
  intro i hi
  rcases Nat.eq_zero_or_pos i with rfl | hpos
  · have := even_app ((s.wreg w).extractLsb' 1 15); simpa [-BitVec.getLsbD_eq_getElem] using this
  · have : ∀ j : Fin 23, 0 < j.val → (0x7FFFFE#23).getLsbD j.val = true := by decide
    simp only [BitVec.zeroExtend, BitVec.getLsbD_and, this ⟨i, hi⟩ hpos, BitVec.getLsbD_setWidth, BitVec.getLsbD_append, BitVec.getLsbD_extractLsb']
    have h1 : ¬ (i < 1) := by omega
    have h2 : 1 + (i - 1) = i := by omega
    simp only [h1, h2, if_false, Bool.and_true]
    by_cases h3 : i < 16
    · simp [hi, show i - 1 < 15 by omega, -BitVec.getLsbD_eq_getElem]
    · have h4 : (s.wreg w).getLsbD i = false := BitVec.getLsbD_of_ge _ _ (by omega)
      simp [h4]

/-- `RegTarget` is even. -/
theorem regTarget_even (s : State) (w : Reg) : (s.regTarget w).getLsbD 0 = false := by
  unfold State.regTarget; simp

/-- W15 is read from the shared stack pointer. -/
theorem wreg15 (s : State) : s.wreg 15#4 = s.w15 := rfl

/-- Writing another register leaves W15. -/
theorem w15_setWreg_of_ne (s : State) (r : Reg) (v : Word) (h : r ≠ 15#4) : (s.setWreg r v).w15 = s.w15 := by
  have := wreg_setWreg_of_ne s v (r := r) (q := 15#4) (Ne.symm h)
  exact this

/-- Writing a byte of another register leaves W15. -/
theorem w15_setWregKeep_of_ne (s : State) (r : Reg) (v : Word) (h : r ≠ 15#4) : (s.setWregKeep r v).w15 = s.w15 := by
  have := wreg_setWregKeep_of_ne s v (r := r) (q := 15#4) (Ne.symm h)
  exact this

end Sys2Proof.Machine
end

