-- ==== Sys2Proof/Laws/Frame.lean ====
section
/-! SUPPORT. Frame.lean: what a change leaves unchanged: registers, memory, the rest, and the accesses through W15. -/

namespace Sys2Proof.Machine

/-- The registers a state shows depend on its contexts, the selected one and W15. -/
theorem wreg_congr {s t : State} (h1 : t.ctx = s.ctx) (h2 : t.cctxi = s.cctxi) (h3 : t.w15 = s.w15) : t.wreg = s.wreg := by
  obtain ⟨⟩ := s; obtain ⟨⟩ := t
  simp only at h1 h2 h3
  subst h1 h2 h3
  rfl

/-- An admitted read access is no read in the shadow of a write to SPLIM. -/
theorem settled_of_access {s : State} {op : Operand} {wb : Reg} {step : Word} {a : Access} (h : s.access? op wb step true = some a) :
   (a.via == .stack && s.splimEnabled && s.haz.splimOld.isSome) = false ∧ a.state.splimEnabled = s.splimEnabled ∧ a.state.haz = s.haz := by
  unfold State.access? at h
  simp only at h
  split at h
  · cases h
  split at h
  · cases h
  next hz => cases h; simp at hz ⊢; exact hz

/-- A `MOV` destination `[W15++]` is a push. -/
theorem stackWrite {s : State} (v : Word) (h : s.canPush = true) :
   s.dest? false 0#4 ⟨.postInc, 15#4⟩ v = some (s.pushed v) := by
  have hf := canPush_facts h
  have hci := canPush_circular h
  unfold State.dest?
  rw [if_neg (by decide)]
  unfold State.access?
  have hpr : s.pointerReady ⟨.postInc, 15#4⟩ 0#4 = true := rfl
  have hvia : (s.preModified ⟨.postInc, 15#4⟩ (stepOf false)).viaOf ⟨.postInc, 15#4⟩ 0#4 = .stack := rfl
  have hea : (s.preModified ⟨.postInc, 15#4⟩ (stepOf false)).eaOf ⟨.postInc, 15#4⟩ 0#4 = s.w15 := rfl
  have hcar : s.eaCarry ⟨.postInc, 15#4⟩ 0#4 (stepOf false) = decide (0x10000 ≤ s.w15.toNat + 2) := rfl
  simp only [hpr, hvia, hea, hcar]
  simp only [hci, Bool.not_true, Bool.or_self, Bool.false_and, Bool.false_eq_true, if_false]
  have e : State.viaChecked (s.preModified ⟨.postInc, 15#4⟩ (stepOf false)) .stack s.w15 (decide (0x10000 ≤ s.w15.toNat + 2)) = s.stackChecked s.w15 (decide (0x10000 ≤ s.w15.toNat + 2)) := rfl
  rw [e]
  have hw : ∀ t : State, t = s.stackChecked s.w15 (decide (0x10000 ≤ s.w15.toNat + 2)) →
    t.dataWrite? .stack s.w15 false v = some (t.setRamWord s.w15.toNat v) := by
    intro t ht
    have hi : t.implemented s.w15.toNat = true := by subst ht; simpa [State.implemented] using hf.2.2
    have hge : ¬ s.w15.toNat < 0x1000 := by omega
    have ht' : t.writeTarget .stack s.w15 = .ram s.w15.toNat := by
      simp [State.writeTarget, hge, windowed, State.ramTarget, hi]
    simp [-BitVec.getLsbD_eq_getElem, State.dataWrite?, hf.1, ht']
  rw [hw _ rfl]
  simp only [State.postModified, State.pushed, stepOf, wreg15]
  simp

/-- A `MOV` source `[--W15]` is a pop. -/
theorem stackRead {s : State} (h : s.canPop = true) :
   s.source? false 0#4 ⟨.preDec, 15#4⟩ = some (s.top, s.popped) := by
  unfold State.canPop at h
  simp only [Bool.and_eq_true, Bool.not_eq_true'] at h
  obtain ⟨⟨⟨hci, he⟩, hi⟩, hz⟩ := h
  have heven := even_sub2 _ he
  have hmask := mask_even _ heven
  unfold State.source?
  rw [if_neg (by decide)]
  unfold State.access?
  have hpr : s.pointerReady ⟨.preDec, 15#4⟩ 0#4 = true := rfl
  have hpm : s.preModified ⟨.preDec, 15#4⟩ (stepOf false) = s.setWreg 15#4 (s.w15 - 2#16) := rfl
  have hvia : ∀ t : State, t.viaOf ⟨.preDec, 15#4⟩ 0#4 = .stack := fun t => rfl
  have hea : (s.setWreg 15#4 (s.w15 - 2#16)).eaOf ⟨.preDec, 15#4⟩ 0#4 = s.w15 - 2#16 := by
    show (s.setWreg 15#4 (s.w15 - 2#16)).w15 = _
    rw [setWreg_w15]; exact hmask
  have hcar : s.eaCarry ⟨.preDec, 15#4⟩ 0#4 (stepOf false) = false := rfl
  simp only [hpr, hpm, hvia, hea, hcar]
  have hz' : (Via.stack == Via.stack && s.splimEnabled && s.haz.splimOld.isSome) = false := by simpa using hz
  simp only [hci, Bool.not_true, Bool.or_self, Bool.true_and, Bool.false_eq_true, if_false, hz']
  have e : (s.setWreg 15#4 (s.w15 - 2#16)).viaChecked .stack (s.w15 - 2#16) false = s.popped := rfl
  rw [e]
  have hti : s.popped.implemented (s.w15 - 2#16).toNat = true := by simpa [State.implemented] using hi
  have hge : ¬ (s.w15 - 2#16).toNat < 0x1000 := by
    simp only [State.implemented, Bool.and_eq_true, decide_eq_true_eq] at hti; omega
  have htar : s.popped.readTarget .stack (s.w15 - 2#16) = .ram (s.w15 - 2#16).toNat := by
    simp only [State.readTarget, if_neg hge, windowed, State.ramTarget, hti]
    simp
  have : s.popped.dataRead? .stack (s.w15 - 2#16) false = some s.top := by
    simp [-BitVec.getLsbD_eq_getElem, -BitVec.toNat_sub, State.dataRead?, heven, htar, State.top, State.ramWord, State.ramByte]
  rw [this]
  rfl

/-- Writing a register changes no other. -/
theorem setWreg_regs (s : State) (r : Reg) (v : Word) : sameRegistersBut s (s.setWreg r v) [r] := by
  constructor
  · intro q hq; simp at hq; exact wreg_setWreg_of_ne _ _ hq
  · intro c hc
    unfold State.setWreg
    split
    · exact Vector.getElem_set_ne (i := s.cctxi.val) (j := c.val) s.cctxi.isLt c.isLt (fun e => hc (Fin.ext e.symm))
    · rfl

/-- Writing a byte of a register changes no other register. -/
theorem setWregKeep_regs (s : State) (r : Reg) (v : Word) : sameRegistersBut s (s.setWregKeep r v) [r] := by
  constructor
  · intro q hq; simp at hq; exact wreg_setWregKeep_of_ne _ _ hq
  · intro c hc
    unfold State.setWregKeep
    split
    · exact Vector.getElem_set_ne (i := s.cctxi.val) (j := c.val) s.cctxi.isLt c.isLt (fun e => hc (Fin.ext e.symm))
    · rfl

/-- Two register frames in sequence. -/
theorem regs_trans {s t u : State} {l m : List Reg} (h1 : sameRegistersBut s t l) (h2 : sameRegistersBut t u m) (hc : t.cctxi = s.cctxi) :
   sameRegistersBut s u (m ++ l) := by
  constructor
  · intro r hr; simp at hr; rw [h2.1 r hr.1, h1.1 r hr.2]
  · intro c hne; rw [h2.2 c (by rw [hc]; exact hne), h1.2 c hne]

/-- A register frame with more registers allowed. -/
theorem regs_mono {s t : State} {l m : List Reg} (h1 : sameRegistersBut s t l) (h : ∀ r, r ∈ l → r ∈ m) : sameRegistersBut s t m :=
  ⟨fun r hr => h1.1 r (fun hm => hr (h r hm)), h1.2⟩

/-- Equal contexts and W15 show the same registers. -/
theorem regs_of_eq {s t : State} (h1 : t.ctx = s.ctx) (h2 : t.cctxi = s.cctxi) (h3 : t.w15 = s.w15) (l) : sameRegistersBut s t l :=
  ⟨fun r _ => by rw [wreg_congr h1 h2 h3], fun c _ => by rw [h1]⟩

/-- Writing a register changes nothing but the registers. -/
theorem elsewhere_setWreg (s : State) (r : Reg) (v : Word) : sameElsewhere s (s.setWreg r v) := by
  unfold State.setWreg; split <;> rfl

/-- Writing a byte of a register changes nothing but the registers. -/
theorem elsewhere_setWregKeep (s : State) (r : Reg) (v : Word) : sameElsewhere s (s.setWregKeep r v) := by
  unfold State.setWregKeep; split <;> rfl

/-- Two frames of the rest in sequence. -/
theorem elsewhere_trans {s t u : State} (h1 : sameElsewhere s t) (h2 : sameElsewhere t u) : sameElsewhere s u := by
  unfold sameElsewhere at *
  rw [h2, h1]

/-- Forming an address draws no free value. -/
theorem access_free {s : State} {op : Operand} {wb : Reg} {step : Word} {r} {a : Access} (h : s.access? op wb step r = some a) : a.state.free = s.free := by
  unfold State.access? at h
  simp only at h
  split at h
  · cases h
  split at h
  · cases h
  · cases h; simp

/-- Forming an address changes no program memory and no parameter. -/
theorem access_dev {s : State} {op : Operand} {wb : Reg} {step : Word} {r} {a : Access} (h : s.access? op wb step r = some a) : a.state.dev = s.dev ∧ a.state.prog = s.prog := by
  unfold State.access? at h
  simp only at h
  split at h
  · cases h
  split at h
  · cases h
  · cases h; simp

/-- Replicating the control bits writes them to every context's copy and changes nothing else (R63). -/
theorem replicateControl_dsp (s : State) (d : DspCtx) :
    s.replicateControl d = { s with dsp := (s.replicateControl d).dsp } ∧
    ∀ c : Fin 5, (s.replicateControl d).dsp[c] = s.dsp[c].withControl d := by
  refine ⟨rfl, fun c => ?_⟩
  match c with
  | 0 | 1 | 2 | 3 | 4 => rfl

/-- A data write to CORCON changes no device parameter. -/
theorem writeCorcon_dev (s : State) (l : Lanes) (v : Word) : (s.writeCorcon l v).dev = s.dev := by
  have h1 : ∀ u : State, u.writeEdt.dev = u.dev := by intro u; unfold State.writeEdt; split <;> rfl
  unfold State.writeCorcon
  dsimp only
  repeat' split
  all_goals simp [h1, State.replicateControl]

/-- A data write to a register changes no device parameter. -/
theorem sfrWritten_dev {s t : State} {r : Sfr} {l : Lanes} {v : Word} (h : s.sfrWritten? r l v = some t) :
    t.dev = s.dev := by
  cases r <;> simp only [State.sfrWritten?, Option.some.injEq, reduceCtorEq] at h <;> first
    | (subst h; rfl)
    | (subst h; exact writeCorcon_dev _ _ _)
    | (subst h; cases l <;> simp [State.writeWreg, State.setWregLow, State.setWregHigh])
    | (have hs : ∀ u : State, (u.srhWritten v).dev = u.dev := by
         intro u; unfold State.srhWritten; split <;> rfl
       have hw : ∀ u : State, (if u.srhRace v = true then none else some (u.srhWritten v)) = some t → t.dev = u.dev := by
         intro u hu
         by_cases hc : u.srhRace v = true
         · rw [if_pos hc] at hu; cases hu
         · rw [if_neg hc] at hu; cases hu; exact hs u
       cases l
       · exact hw (s.writeSrl v) h
       · cases h; rfl
       · exact hw s h)

/-- A data write changes no device parameter. -/
theorem dataWrite_dev {s t : State} {via : Via} {ea : Word} {byte : Bool} {v : Word}
    (h : s.dataWrite? via ea byte v = some t) : t.dev = s.dev := by
  unfold State.dataWrite? at h
  split at h
  · cases h
  · split at h
    · split at h
      · split at h
        · split at h <;> exact sfrWritten_dev h
        · exact sfrWritten_dev h
      · cases h
    · cases h; split <;> simp
    all_goals cases h

/-- The visible DSP state depends on the copies, the device and the selected context. -/
theorem dspCur_congr {s t : State} (h1 : t.dsp = s.dsp) (h2 : t.dev = s.dev) (h3 : t.cctxi = s.cctxi) : t.dspCur = s.dspCur := by
  obtain ⟨⟩ := s; obtain ⟨⟩ := t
  simp only at h1 h2 h3
  subst h1 h2 h3
  rfl

/-- The accumulators are part of the visible DSP state. -/
theorem acc_congr {s t : State} (h : t.dspCur = s.dspCur) : t.acc = s.acc := by
  funext x; cases x <;> simp [State.acc, h]

/-- Writing one accumulator leaves the other. -/
theorem acc_setAcc_other (s : State) (x : AccId) (v : Acc40) : (s.setAcc x v).acc (otherAcc x) = s.acc (otherAcc x) := by
  cases x <;> simp [State.setAcc, State.acc, otherAcc]

end Sys2Proof.Machine
end

