-- ==== Sys2Proof/Laws/PerInstr.lean ====
section
/-! SUPPORT. PerInstr.lean: the family `EncodedWords`: the encoding of an instruction has as many program words as the
instruction occupies (R141), for every instruction whose words decode to it (R146); one lemma for each instruction. -/

namespace Sys2Proof.Laws.EncodedWords

/-- The encoding has the instruction's length in words. -/
def Statement (i : Instr) : Prop := i.assemblyOnly = false → (encode i).length = i.words

theorem movReg (byte : Bool) (wb : Reg) (src : Operand) (dst : Operand) :
    Statement (.movReg byte wb src dst) := fun _ => rfl

theorem movLit (lit : BitVec 16) (wd : Reg) : Statement (.movLit lit wd) := fun _ => rfl

theorem movFileToW (f15 : BitVec 15) (wd : Reg) : Statement (.movFileToW f15 wd) := fun _ => rfl

theorem movWToFile (ws : Reg) (f15 : BitVec 15) : Statement (.movWToFile ws f15) := fun _ => rfl

theorem movWregToFile (byte : Bool) (f13 : BitVec 13) : Statement (.movWregToFile byte f13) := fun _ => rfl

theorem movFile (byte : Bool) (toFile : Bool) (f13 : BitVec 13) : Statement (.movFile byte toFile f13) := fun _ => rfl

theorem movDLoad (src : Operand) (wd : Reg) : Statement (.movDLoad src wd) := fun _ => rfl

theorem movDStore (ws : Reg) (dst : Operand) : Statement (.movDStore ws dst) := fun _ => rfl

theorem pushFile (f15 : BitVec 15) : Statement (.pushFile f15) := fun _ => rfl

theorem popFile (f15 : BitVec 15) : Statement (.popFile f15) := fun _ => rfl

theorem pushS : Statement .pushS := fun _ => rfl

theorem popS : Statement .popS := fun _ => rfl

theorem lnk (lit : BitVec 14) : Statement (.lnk lit) := fun _ => rfl

theorem ulnk : Statement .ulnk := fun _ => rfl

theorem se (src : Operand) (wd : Reg) : Statement (.se src wd) := fun _ => rfl

theorem ze (src : Operand) (wd : Reg) : Statement (.ze src wd) := fun _ => rfl

theorem tblrdl (byte : Bool) (src : Operand) (dst : Operand) : Statement (.tblrdl byte src dst) := fun _ => rfl

theorem tblrdh (byte : Bool) (src : Operand) (dst : Operand) : Statement (.tblrdh byte src dst) := fun _ => rfl

theorem tblwtl (byte : Bool) (src : Operand) (dst : Operand) : Statement (.tblwtl byte src dst) := fun _ => rfl

theorem tblwth (byte : Bool) (src : Operand) (dst : Operand) : Statement (.tblwth byte src dst) := fun _ => rfl

theorem addReg (byte : Bool) (wb : Reg) (src : Operand) (dst : Operand) :
    Statement (.addReg byte wb src dst) := fun _ => rfl

theorem addLit5 (byte : Bool) (wb : Reg) (lit : BitVec 5) (dst : Operand) :
    Statement (.addLit5 byte wb lit dst) := fun _ => rfl

theorem addFile (byte : Bool) (toFile : Bool) (f13 : BitVec 13) : Statement (.addFile byte toFile f13) := fun _ => rfl

theorem addLit10 (byte : Bool) (lit : BitVec 10) (wn : Reg) : Statement (.addLit10 byte lit wn) := fun _ => rfl

theorem slFile (byte : Bool) (toFile : Bool) (f13 : BitVec 13) : Statement (.slFile byte toFile f13) := fun _ => rfl

theorem slReg (byte : Bool) (src : Operand) (dst : Operand) : Statement (.slReg byte src dst) := fun _ => rfl

theorem slLit4 (wb : Reg) (lit : BitVec 4) (wd : Reg) : Statement (.slLit4 wb lit wd) := fun _ => rfl

theorem slW (wb : Reg) (wns : Reg) (wd : Reg) : Statement (.slW wb wns wd) := fun _ => rfl

theorem lsrFile (byte : Bool) (toFile : Bool) (f13 : BitVec 13) : Statement (.lsrFile byte toFile f13) := fun _ => rfl

theorem lsrReg (byte : Bool) (src : Operand) (dst : Operand) : Statement (.lsrReg byte src dst) := fun _ => rfl

theorem lsrLit4 (wb : Reg) (lit : BitVec 4) (wd : Reg) : Statement (.lsrLit4 wb lit wd) := fun _ => rfl

theorem lsrW (wb : Reg) (wns : Reg) (wd : Reg) : Statement (.lsrW wb wns wd) := fun _ => rfl

theorem asrFile (byte : Bool) (toFile : Bool) (f13 : BitVec 13) : Statement (.asrFile byte toFile f13) := fun _ => rfl

theorem asrReg (byte : Bool) (src : Operand) (dst : Operand) : Statement (.asrReg byte src dst) := fun _ => rfl

theorem asrLit4 (wb : Reg) (lit : BitVec 4) (wd : Reg) : Statement (.asrLit4 wb lit wd) := fun _ => rfl

theorem asrW (wb : Reg) (wns : Reg) (wd : Reg) : Statement (.asrW wb wns wd) := fun _ => rfl

theorem bsetFile (byte : Bool) (f13 : BitVec 13) (bit : BitVec 4) : Statement (.bsetFile byte f13 bit) := fun _ => rfl

theorem btscFile (byte : Bool) (f13 : BitVec 13) (bit : BitVec 4) : Statement (.btscFile byte f13 bit) := fun _ => rfl

theorem bsetReg (byte : Bool) (bit : BitVec 4) (ws : Operand) : Statement (.bsetReg byte bit ws) := fun _ => rfl

theorem btscReg (bit : BitVec 4) (ws : Operand) : Statement (.btscReg bit ws) := fun _ => rfl

theorem mulUU (wb : Reg) (src : Operand) (wd : Reg) : Statement (.mulUU wb src wd) := fun _ => rfl

theorem mulUULit5 (wb : Reg) (lit : BitVec 5) (wd : Reg) : Statement (.mulUULit5 wb lit wd) := fun _ => rfl

theorem mulUS (wb : Reg) (src : Operand) (wd : Reg) : Statement (.mulUS wb src wd) := fun _ => rfl

theorem mulSU (wb : Reg) (src : Operand) (wd : Reg) : Statement (.mulSU wb src wd) := fun _ => rfl

theorem mulSULit5 (wb : Reg) (lit : BitVec 5) (wd : Reg) : Statement (.mulSULit5 wb lit wd) := fun _ => rfl

theorem mulSS (wb : Reg) (src : Operand) (wd : Reg) : Statement (.mulSS wb src wd) := fun _ => rfl

theorem mulFile (byte : Bool) (f13 : BitVec 13) : Statement (.mulFile byte f13) := fun _ => rfl

theorem mulwSS (wb : Reg) (src : Operand) (wd : Reg) : Statement (.mulwSS wb src wd) := by intro h; cases h

theorem mulwSU (wb : Reg) (src : Operand) (wd : Reg) : Statement (.mulwSU wb src wd) := by intro h; cases h

theorem mulwUS (wb : Reg) (src : Operand) (wd : Reg) : Statement (.mulwUS wb src wd) := by intro h; cases h

theorem mulwUU (wb : Reg) (src : Operand) (wd : Reg) : Statement (.mulwUU wb src wd) := by intro h; cases h

theorem mulAcc (signs : Signs) (wb : Reg) (src : MulSrc) (acc : AccId) :
    Statement (.mulAcc signs wb src acc) := by intro h; cases h

theorem divSW (wm : Reg) (wn : Reg) : Statement (.divSW wm wn) := fun _ => rfl

theorem divSD (hi : Reg) (wm : Reg) (wn : Reg) : Statement (.divSD hi wm wn) := fun _ => rfl

theorem divUW (wm : Reg) (wn : Reg) : Statement (.divUW wm wn) := fun _ => rfl

theorem divUD (hi : Reg) (wm : Reg) (wn : Reg) : Statement (.divUD hi wm wn) := fun _ => rfl

theorem divF (wm : Reg) (wn : Reg) : Statement (.divF wm wn) := fun _ => rfl

theorem nop : Statement .nop := fun _ => rfl

theorem nopr : Statement .nopr := fun _ => rfl

theorem bra (off : BitVec 16) : Statement (.bra off) := fun _ => rfl

theorem braCond (cond : Cond) (off : BitVec 16) : Statement (.braCond cond off) := fun _ => rfl

theorem braOA (off : BitVec 16) : Statement (.braOA off) := fun _ => rfl

theorem braOB (off : BitVec 16) : Statement (.braOB off) := fun _ => rfl

theorem braSA (off : BitVec 16) : Statement (.braSA off) := fun _ => rfl

theorem braSB (off : BitVec 16) : Statement (.braSB off) := fun _ => rfl

theorem braW (wn : Reg) : Statement (.braW wn) := fun _ => rfl

theorem goto (target : BitVec 22) : Statement (.goto target) := fun _ => rfl

theorem gotoW (wn : Reg) : Statement (.gotoW wn) := fun _ => rfl

theorem call (target : BitVec 22) : Statement (.call target) := fun _ => rfl

theorem callW (wn : Reg) : Statement (.callW wn) := fun _ => rfl

theorem callL (hi : Reg) (wn : Reg) : Statement (.callL hi wn) := fun _ => rfl

theorem rcall (off : BitVec 16) : Statement (.rcall off) := fun _ => rfl

theorem rcallW (wn : Reg) : Statement (.rcallW wn) := fun _ => rfl

theorem ret : Statement .ret := fun _ => rfl

theorem retfie : Statement .retfie := fun _ => rfl

theorem retlw (byte : Bool) (lit : BitVec 10) (wn : Reg) : Statement (.retlw byte lit wn) := fun _ => rfl

theorem repeatLit (lit : BitVec 15) : Statement (.repeatLit lit) := fun _ => rfl

theorem repeatW (wn : Reg) : Statement (.repeatW wn) := fun _ => rfl

theorem doLit (lit : BitVec 15) (off : BitVec 16) : Statement (.doLit lit off) := fun _ => rfl

theorem doW (wn : Reg) (off : BitVec 16) : Statement (.doW wn off) := fun _ => rfl

theorem compareSkip : Statement .compareSkip := by intro h; cases h

theorem mac (pair : MulPair) (acc : AccId) (x : Prefetch) (y : Prefetch) (awb : Awb) :
    Statement (.mac pair acc x y awb) := fun _ => rfl

theorem macSq (wm : BitVec 2) (acc : AccId) (x : Prefetch) (y : Prefetch) :
    Statement (.macSq wm acc x y) := fun _ => rfl

theorem msc (pair : MulPair) (acc : AccId) (x : Prefetch) (y : Prefetch) (awb : Awb) :
    Statement (.msc pair acc x y awb) := fun _ => rfl

theorem mpy (pair : MulPair) (acc : AccId) (x : Prefetch) (y : Prefetch) : Statement (.mpy pair acc x y) := fun _ => rfl

theorem mpySq (wm : BitVec 2) (acc : AccId) (x : Prefetch) (y : Prefetch) :
    Statement (.mpySq wm acc x y) := fun _ => rfl

theorem mpyN (pair : MulPair) (acc : AccId) (x : Prefetch) (y : Prefetch) :
    Statement (.mpyN pair acc x y) := fun _ => rfl

theorem ed (wm : BitVec 2) (acc : AccId) (x : PfAddr) (y : PfAddr) (xd : BitVec 2) :
    Statement (.ed wm acc x y xd) := fun _ => rfl

theorem edac (wm : BitVec 2) (acc : AccId) (x : PfAddr) (y : PfAddr) (xd : BitVec 2) :
    Statement (.edac wm acc x y xd) := fun _ => rfl

theorem addAcc (acc : AccId) : Statement (.addAcc acc) := fun _ => rfl

theorem addToAcc (wb : Reg) (src : Operand) (shift : BitVec 4) (acc : AccId) :
    Statement (.addToAcc wb src shift acc) := fun _ => rfl

theorem lac (wb : Reg) (src : Operand) (shift : BitVec 4) (acc : AccId) :
    Statement (.lac wb src shift acc) := fun _ => rfl

theorem sac (acc : AccId) (shift : BitVec 4) (wb : Reg) (dst : Operand) :
    Statement (.sac acc shift wb dst) := fun _ => rfl

theorem sacR (acc : AccId) (shift : BitVec 4) (wb : Reg) (dst : Operand) :
    Statement (.sacR acc shift wb dst) := fun _ => rfl

theorem sftacLit (acc : AccId) (shift : BitVec 6) : Statement (.sftacLit acc shift) := fun _ => rfl

theorem sftacW (acc : AccId) (wb : Reg) : Statement (.sftacW acc wb) := fun _ => rfl

theorem reset : Statement .reset := fun _ => rfl

theorem pwrsav (lit : Bool) : Statement (.pwrsav lit) := fun _ => rfl

theorem disi (lit : BitVec 14) : Statement (.disi lit) := fun _ => rfl

theorem ctxtswpLit (lit : BitVec 3) : Statement (.ctxtswpLit lit) := fun _ => rfl

theorem ctxtswpW (wn : Reg) : Statement (.ctxtswpW wn) := fun _ => rfl

theorem bootswp : Statement .bootswp := fun _ => rfl

theorem trap : Statement .trap := by intro h; cases h

theorem fex : Statement .fex := by intro h; cases h

theorem sstep : Statement .sstep := by intro h; cases h

theorem urun : Statement .urun := by intro h; cases h

end Sys2Proof.Laws.EncodedWords
end

