-- ==== Sys2Proof/Laws/Run.lean ====
section
/-! SUPPORT. Run.lean: what fetching delivers, and what a step is when the boundary takes nothing. -/

namespace Sys2Proof.Machine

/-- The words at the pc, when they are implemented, are decoded and nothing else happens. -/
theorem fetchWords_apply (s : State) (h2 : s.fetchable = true) :
    fetchWords s.pc s = .ok (decode (s.progWord s.pc.toNat) s.secondWord, s) := by
  unfold State.fetchable State.wordsThere at h2
  simp only [Bool.and_eq_true, Bool.or_eq_true, Bool.not_eq_true', decide_eq_true_eq] at h2
  unfold fetchWords State.secondWord
  rw [bind_apply, progRead_apply, if_pos h2.1]
  simp only [ite_apply_state]
  rcases h2.2 with h | h
  · rw [if_neg (by simp [h]), if_neg (by simp [h])]; rfl
  · split
    · rw [bind_apply, progRead_apply, if_pos h]; rfl
    · rfl

/-- An assembly-level instruction, when its words are implemented, is delivered. -/
theorem fetchAsm_apply {s : State} {i : Instr} (hp : s.wordsThere (i.words == 2) = true) :
    fetchAsm s.pc i s = .ok (.ok i, s) := by
  unfold State.wordsThere at hp
  simp only [Bool.and_eq_true, Bool.or_eq_true, Bool.not_eq_true', decide_eq_true_eq] at hp
  unfold fetchAsm
  rw [bind_apply, checkProg_apply, if_pos hp.1]
  rcases hp.2 with h | h
  · simp only [beq_eq_false_iff_ne, ne_eq] at h; simp [h]
  · simp only [bind_apply, ite_apply_state, checkProg_apply, if_pos h, pure_apply]
    split <;> rfl

/-- A fetch of an assembly-level instruction delivers it, or refuses it when it is ill-formed. -/
theorem fetch_of_asm {s : State} {i : Instr} (h : s.asmAt s.pc.toNat = some i)
    (hp : s.wordsThere (i.words == 2) = true) :
    fetch s = if i.wf then .ok (i, s) else .error (.refuse (.illFormed i)) := by
  unfold fetch
  rw [ask_bind, bind_of_ok (a := Except.ok i) (t := s) (by rw [ask_bind, h]; exact fetchAsm_apply hp)]
  simp only [ite_apply_state]; rfl

/-- A fetch of words delivers what they decode to, or refuses. -/
theorem fetch_of_words {s : State} (h : s.asmAt s.pc.toNat = none) (h2 : s.fetchable = true) :
    fetch s = match decode (s.progWord s.pc.toNat) s.secondWord with
      | .ok i => if i.wf then .ok (i, s) else .error (.refuse (.illFormed i))
      | .error e => .error (.refuse (.undecodable e)) := by
  unfold fetch
  rw [ask_bind, bind_of_ok (a := decode (s.progWord s.pc.toNat) s.secondWord) (t := s)
    (by rw [ask_bind, h]; exact fetchWords_apply s h2)]
  cases decode (s.progWord s.pc.toNat) s.secondWord with
  | ok i => simp only [ite_apply_state]; rfl
  | error e => rfl

/-- A fetch of the instruction that stands at the pc. -/
theorem fetch_of_holds {s : State} {i : Instr} (hh : s.holds i) :
    fetch s = if i.wf then .ok (i, s) else .error (.refuse (.illFormed i)) := by
  rcases hh with ⟨h, hp⟩ | ⟨h1, h2, h3⟩
  · exact fetch_of_asm h hp
  · rw [fetch_of_words h1 h2, h3]

/-- The words of a two-word instruction decode to no divide. -/
theorem twoWords_no_divide {w w2 : ProgWord} {i : Instr} (h : twoWords w = true) (hd : decode w w2 = .ok i) :
    isDivide i = false := by
  have hn : field w 20 4 = (field w 16 8).extractLsb' 4 4 := by
    unfold field; ext k hk; simp [show 4 + k < 8 by omega, ← Nat.add_assoc]
  have hm : field w 16 4 = (field w 16 8).extractLsb' 0 4 := by
    unfold field; ext k hk; simp [show k < 8 by omega]
  unfold twoWords at h
  simp only [Bool.or_eq_true, beq_iff_eq] at h
  have hc : (∃ mk : BitVec 22 → Instr, decodeTarget w w2 mk = .ok i ∧ ∀ a, isDivide (mk a) = false) ∨
      decodeDo w w2 = .ok i := by
    rcases h with (h | h) | h <;> rw [h] at hn hm <;> unfold decode decode0 at hd <;> rw [hn, hm] at hd
    · exact .inl ⟨_, hd, fun _ => rfl⟩
    · exact .inl ⟨_, hd, fun _ => rfl⟩
    · exact .inr hd
  rcases hc with ⟨mk, hd, hmk⟩ | hd
  · unfold decodeTarget at hd
    repeat' split at hd
    all_goals first | contradiction | (injection hd with hd; subst hd; exact hmk _)
  · unfold decodeDo at hd
    repeat' split at hd
    all_goals first | contradiction | (injection hd with hd; subst hd; rfl)

/-- The instruction that stands at the pc says whether a divide does. -/
theorem atDivide_of_holds {s : State} {i : Instr} (hh : s.holds i) : s.atDivide = isDivide i := by
  unfold State.atDivide
  rcases hh with ⟨h, -⟩ | ⟨h1, -, h3⟩
  · rw [h]
  · rw [h1]
    unfold State.secondWord at h3
    split at h3
    next h =>
      rw [twoWords_no_divide h h3]
      cases hd : decode (s.progWord s.pc.toNat) 0#24 with
      | ok j => exact twoWords_no_divide h hd
      | error e => rfl
    next h => rw [h3]

/-- A fetch outside the implemented program memory is refused. -/
theorem fetch_of_absent {s : State} (hp : 2 * s.dev.progWords ≤ s.pc.toNat) :
    fetch s = .error (.refuse (.progUnimplemented s.pc.toNat)) := by
  unfold fetch
  rw [ask_bind, bind_of_error]
  rw [ask_bind]
  cases s.asmAt s.pc.toNat with
  | some i =>
    show fetchAsm s.pc i s = _
    unfold fetchAsm
    rw [bind_of_error (by rw [checkProg_apply, if_neg (by omega)])]
  | none =>
    show fetchWords s.pc s = _
    unfold fetchWords
    rw [bind_of_error (by rw [progRead_apply, if_neg (by omega)])]

/-- A state's pending trap of a level above every other pending trap's is the one the boundary looks at (R376). -/
theorem highest_of_greatest {p : Pending} {dev : Device} {k : TrapKind} (h : p.has k = true)
    (hg : ∀ j, p.has j = true → j ≠ k → j.level dev < k.level dev) : p.highest dev = some k := by
  unfold Pending.highest
  have hall : ∀ i : TrapKind, i ∈ TrapKind.all := by intro i; cases i <;> decide
  have top : ∀ i, (p.has i && TrapKind.all.all fun j => !p.has j || decide (j.level dev ≤ i.level dev)) = true ↔ i = k := by
    intro i
    simp only [Bool.and_eq_true, List.all_eq_true, Bool.or_eq_true, Bool.not_eq_true', decide_eq_true_eq]
    constructor
    · rintro ⟨hi, ha⟩
      refine Classical.byContradiction fun hne => ?_
      have h1 := hg i hi hne
      rcases ha k (hall k) with h2 | h2
      · rw [h] at h2; cases h2
      · omega
    · rintro rfl
      refine ⟨h, fun j _ => ?_⟩
      by_cases hj : p.has j = true
      · by_cases e : j = i
        · subst e; exact .inr (Nat.le_refl _)
        · exact .inr (Nat.le_of_lt (hg j hj e))
      · exact .inl (by simpa using hj)
  have hk := hall k
  cases hf : TrapKind.all.find? (fun i => p.has i && TrapKind.all.all fun j => !p.has j || decide (j.level dev ≤ i.level dev)) with
  | some i =>
    have hi := List.find?_some hf
    rw [(top i).mp (by simpa using hi)]
  | none =>
    rw [List.find?_eq_none] at hf
    exact absurd ((top k).mpr rfl) (hf k hk)

/-- When nothing is taken at the boundary, a step runs the instruction at the pc. -/
theorem step_of_quiet {s : State} (hq : s.quiet = true) : step s = runOne s.sampled := by
  unfold State.quiet at hq
  simp only [Bool.and_eq_true, decide_eq_true_eq, Option.isNone_iff_eq_none] at hq
  obtain ⟨⟨hp, hu⟩, hi⟩ := hq
  unfold step stepState boundary sampleAndRun State.sampled
  simp only [hp, if_true, hu]
  split at hi
  next h => simp only [h]; congr 1; cases s; simp_all
  next r rest h =>
    rw [Option.isNone_iff_eq_none] at hi; subst hi
    simp only [h]; rfl

/-- The end of an instruction: the loops' actions, then `DISI`, the read hazards and the record of the handlers, all three
from what the loops leave. -/
theorem finish_apply (i : Instr) (s t : State) : finish i s t =
    let u := if doActs i s t then (repeatEnd s t).doLoopAction else repeatEnd s t
    { u.disiTick i with nest := u.nestKept, haz := u.hazNext, hazNext := Hazard.none } := by
  have h : ∀ u : State, (u.disiTick i).hazardTick.handlerTick =
      { u.disiTick i with nest := u.nestKept, haz := u.hazNext, hazNext := Hazard.none } := by
    intro u; unfold State.disiTick; cases isDisi i || u.disicnt == 0#14 <;> rfl
  exact h _

/-- What the record of the handlers keeps (log entry 29). -/
theorem mem_nestKept {s : State} {f : Suspended} : f ∈ s.nestKept ↔
    (f.divides = true ∨ f.repeatNew = true) ∧
      ∃ g ∈ s.nest, f = { g with divides := g.divides && s.inHandlerOf g } := by
  unfold State.nestKept
  simp only [List.mem_filter, List.mem_map, Bool.or_eq_true]
  exact ⟨fun ⟨⟨g, hg, e⟩, h⟩ => ⟨h, g, hg, e.symm⟩, fun ⟨h, g, hg, e⟩ => ⟨⟨g, hg, e.symm⟩, h⟩⟩

end Sys2Proof.Machine
end

