-- ==== Sys2Proof/Tests/Slice0.lean ====
section
/-! SUPPORT. Slice0.lean: tests. Words written out from the spec's patterns and what they decode to; ill-formed operands
that are refused; single steps whose expected results are the vectors of 95_test_vectors.md (V1 to V119) or the worked
examples of the rules; and a witness for the hypotheses of every statement that has some. -/

namespace Sys2Proof.Tests
open Sys2Proof.Machine

/-! Decoding. -/

/-- The words `w` and `w2` read as the instruction `i`. -/
abbrev reads (w w2 : Nat) (i : Instr) : Prop := decodeTableWord 48 (w + w2 * 2 ^ 24) = some i

/-- The move, stack and table words (R150), written out from their patterns. -/
theorem test_decode_moves :
    reads 0b0111_1100_1101_1101_0101_0110 0 (.movReg true 0x9#4 ⟨.preInc, 0x6#4⟩ ⟨.postInc, 0xA#4⟩) ∧
    reads 0b0111_1110_0011_1010_1110_0011 0 (.movReg false 0xC#4 ⟨.offset, 0x3#4⟩ ⟨.offset, 0x5#4⟩) ∧
    reads 0b0010_1010_0101_1100_0011_0110 0 (.movLit 0xA5C3#16 0x6#4) ∧
    reads 0b1000_0100_1010_0101_0011_1001 0 (.movFileToW 0x4A53#15 0x9#4) ∧
    reads 0b1000_1011_0101_1010_0010_1011 0 (.movWToFile 0xB#4 0x35A2#15) ∧
    reads 0b1011_0111_1011_0010_1100_0110 0 (.movWregToFile false 0x12C6#13) ∧
    reads 0b1011_0111_1110_1101_0011_1001 0 (.movWregToFile true 0x0D39#13) ∧
    reads 0b1011_1111_1011_0010_1100_0110 0 (.movFile false true 0x12C6#13) ∧
    reads 0b1011_1111_1100_1101_0011_1001 0 (.movFile true false 0x0D39#13) ∧
    reads 0b1011_1110_0000_0110_0010_1001 0 (.movDLoad ⟨.postDec, 0x9#4⟩ 0xC#4) ∧
    reads 0b1011_1110_1010_1011_1000_1010 0 (.movDStore 0xA#4 ⟨.preInc, 0x7#4⟩) ∧
    reads 0b1111_1000_1001_0100_1010_0110 0 (.pushFile 0x4A53#15) ∧
    reads 0b1111_1001_0110_1011_0100_0100 0 (.popFile 0x35A2#15) ∧
    reads 0b1111_1110_1010_0000_0000_0000 0 (.pushS) ∧
    reads 0b1111_1110_1000_0000_0000_0000 0 (.popS) ∧
    reads 0b1111_1010_0010_1010_0101_1010 0 (.lnk 0x2A5A#14) ∧
    reads 0b1111_1010_1000_0000_0000_0000 0 (.ulnk) ∧
    reads 0b1111_1011_0000_0011_0100_1001 0 (.se ⟨.preDec, 0x9#4⟩ 0x6#4) ∧
    reads 0b1111_1011_1000_0100_1001_0110 0 (.ze ⟨.indirect, 0x6#4⟩ 0x9#4) ∧
    reads 0b1011_1010_0010_0101_0011_0101 0 (.tblrdl false ⟨.postInc, 0x5#4⟩ ⟨.preDec, 0xA#4⟩) ∧
    reads 0b1011_1010_1110_0101_0011_0101 0 (.tblrdh true ⟨.postInc, 0x5#4⟩ ⟨.preDec, 0xA#4⟩) ∧
    reads 0b1011_1011_0010_0101_0011_0101 0 (.tblwtl false ⟨.postInc, 0x5#4⟩ ⟨.preDec, 0xA#4⟩) ∧
    reads 0b1011_1011_1110_0101_0011_0101 0 (.tblwth true ⟨.postInc, 0x5#4⟩ ⟨.preDec, 0xA#4⟩) := by decide

/-- The two-source, shift and bit words (R151, R152, R153), written out from their patterns. -/
theorem test_decode_alu :
    reads 0b0100_0100_1110_1101_0010_0110 0 (.addReg true 0x9#4 ⟨.postDec, 0x6#4⟩ ⟨.preInc, 0xA#4⟩) ∧
    reads 0b0100_0011_0001_1100_1111_0101 0 (.addLit5 false 0x6#4 0x15#5 ⟨.postInc, 0x9#4⟩) ∧
    reads 0b1011_0100_0101_0010_1100_0111 0 (.addFile true false 0x12C7#13) ∧
    reads 0b1011_0000_0010_1010_0101_1010 0 (.addLit10 false 0x2A5#10 0xA#4) ∧
    reads 0b1101_0100_0011_0010_1100_0110 0 (.slFile false true 0x12C6#13) ∧
    reads 0b1101_0000_0110_0101_0011_0110 0 (.slReg true ⟨.postInc, 0x6#4⟩ ⟨.preDec, 0xA#4⟩) ∧
    reads 0b1101_1101_0100_1011_0100_1011 0 (.slLit4 0x9#4 0xB#4 0x6#4) ∧
    reads 0b1101_1101_0011_0100_1000_1101 0 (.slW 0x6#4 0xD#4 0x9#4) ∧
    reads 0b1101_0101_0011_0010_1100_0110 0 (.lsrFile false true 0x12C6#13) ∧
    reads 0b1101_0001_0110_0101_0011_0110 0 (.lsrReg true ⟨.postInc, 0x6#4⟩ ⟨.preDec, 0xA#4⟩) ∧
    reads 0b1101_1110_0100_1011_0100_1011 0 (.lsrLit4 0x9#4 0xB#4 0x6#4) ∧
    reads 0b1101_1110_0011_0100_1000_1101 0 (.lsrW 0x6#4 0xD#4 0x9#4) ∧
    reads 0b1101_0101_1011_0010_1100_0110 0 (.asrFile false true 0x12C6#13) ∧
    reads 0b1101_0001_1110_0101_0011_0110 0 (.asrReg true ⟨.postInc, 0x6#4⟩ ⟨.preDec, 0xA#4⟩) ∧
    reads 0b1101_1110_1100_1011_0100_1011 0 (.asrLit4 0x9#4 0xB#4 0x6#4) ∧
    reads 0b1101_1110_1011_0100_1000_1101 0 (.asrW 0x6#4 0xD#4 0x9#4) ∧
    reads 0b1010_1000_0101_0010_1100_0111 0 (.bsetFile false 0x12C6#13 0xA#4) ∧
    reads 0b1010_1111_1010_1101_0011_1000 0 (.btscFile false 0x0D38#13 0x5#4) ∧
    reads 0b1010_0000_0101_0100_0101_1010 0 (.bsetReg true 0x5#4 ⟨.preInc, 0xA#4⟩) ∧
    reads 0b1010_0111_1010_0000_0010_0101 0 (.btscReg 0xA#4 ⟨.postDec, 0x5#4⟩) := by decide

/-- The multiply and divide words (R154, R155), written out from their patterns. -/
theorem test_decode_multiplies :
    reads 0b1011_1000_0100_1101_0011_0101 0 (.mulUU 0x9#4 ⟨.postInc, 0x5#4⟩ 0xA#4) ∧
    reads 0b1011_1000_0100_1011_0111_0101 0 (.mulUULit5 0x9#4 0x15#5 0x6#4) ∧
    reads 0b1011_1000_1011_0110_0100_1010 0 (.mulUS 0x6#4 ⟨.preDec, 0xA#4⟩ 0xC#4) ∧
    reads 0b1011_1001_0100_1101_0001_0101 0 (.mulSU 0x9#4 ⟨.indirect, 0x5#4⟩ 0xA#4) ∧
    reads 0b1011_1001_0011_0010_0110_1010 0 (.mulSULit5 0x6#4 0x0A#5 0x4#4) ∧
    reads 0b1011_1001_1010_1011_0101_1001 0 (.mulSS 0x5#4 ⟨.preInc, 0x9#4⟩ 0x6#4) ∧
    reads 0b1011_1100_0101_0010_1100_0111 0 (.mulFile true 0x12C7#13) ∧
    reads 0b1101_1000_0000_0011_0000_1001 0 (.divSW 0x6#4 0x9#4) ∧
    reads 0b1101_1000_0011_1011_0100_1001 0 (.divSD 0x7#4 0x6#4 0x9#4) ∧
    reads 0b1101_1000_1000_0101_0000_0101 0 (.divUW 0xA#4 0x5#4) ∧
    reads 0b1101_1000_1101_1101_0100_0101 0 (.divUD 0xB#4 0xA#4 0x5#4) ∧
    reads 0b1101_1001_0011_0000_0000_1001 0 (.divF 0x6#4 0x9#4) := by decide

/-- The program flow words (R156), written out from their patterns. -/
theorem test_decode_flow :
    reads 0b0000_0000_1010_0101_1100_0011 0 (.nop) ∧
    reads 0b1111_1111_1010_0101_1100_0011 0 (.nopr) ∧
    reads 0b0011_0111_1010_0101_1100_0011 0 (.bra 0xA5C3#16) ∧
    reads 0b0000_1100_1010_0101_1100_0011 0 (.braOA 0xA5C3#16) ∧
    reads 0b0000_1101_1010_0101_1100_0011 0 (.braOB 0xA5C3#16) ∧
    reads 0b0000_1110_1010_0101_1100_0011 0 (.braSA 0xA5C3#16) ∧
    reads 0b0000_1111_1010_0101_1100_0011 0 (.braSB 0xA5C3#16) ∧
    reads 0b0000_0001_0000_0110_0000_0110 0 (.braW 0x6#4) ∧
    reads 0b0000_0001_0000_0100_0000_1001 0 (.gotoW 0x9#4) ∧
    reads 0b0000_0001_0000_0000_0000_1010 0 (.callW 0xA#4) ∧
    reads 0b0000_0001_1011_1000_0000_0110 0 (.callL 0x7#4 0x6#4) ∧
    reads 0b0000_0111_0101_1010_0011_1100 0 (.rcall 0x5A3C#16) ∧
    reads 0b0000_0001_0000_0010_0000_0101 0 (.rcallW 0x5#4) ∧
    reads 0b0000_0110_0000_0000_0000_0000 0 (.ret) ∧
    reads 0b0000_0110_0100_0000_0000_0000 0 (.retfie) ∧
    reads 0b0000_0101_0100_1010_0101_0110 0 (.retlw true 0x0A5#10 0x6#4) ∧
    reads 0b0000_1001_0101_1010_0011_1100 0 (.repeatLit 0x5A3C#15) ∧
    reads 0b0000_1001_1000_0000_0000_1001 0 (.repeatW 0x9#4) := by decide

/-- Every condition field of `BRA cond, Expr` (R156). -/
theorem test_decode_conditions :
    reads 0b0011_0000_0101_1010_0011_1100 0 (.braCond .ov 0x5A3C#16) ∧
    reads 0b0011_0001_0101_1010_0011_1100 0 (.braCond .c 0x5A3C#16) ∧
    reads 0b0011_0010_0101_1010_0011_1100 0 (.braCond .z 0x5A3C#16) ∧
    reads 0b0011_0011_0101_1010_0011_1100 0 (.braCond .n 0x5A3C#16) ∧
    reads 0b0011_0100_0101_1010_0011_1100 0 (.braCond .le 0x5A3C#16) ∧
    reads 0b0011_0101_0101_1010_0011_1100 0 (.braCond .lt 0x5A3C#16) ∧
    reads 0b0011_0110_0101_1010_0011_1100 0 (.braCond .leu 0x5A3C#16) ∧
    reads 0b0011_1000_0101_1010_0011_1100 0 (.braCond .nov 0x5A3C#16) ∧
    reads 0b0011_1001_0101_1010_0011_1100 0 (.braCond .nc 0x5A3C#16) ∧
    reads 0b0011_1010_0101_1010_0011_1100 0 (.braCond .nz 0x5A3C#16) ∧
    reads 0b0011_1011_0101_1010_0011_1100 0 (.braCond .nn 0x5A3C#16) ∧
    reads 0b0011_1100_0101_1010_0011_1100 0 (.braCond .gt 0x5A3C#16) ∧
    reads 0b0011_1101_0101_1010_0011_1100 0 (.braCond .ge 0x5A3C#16) ∧
    reads 0b0011_1110_0101_1010_0011_1100 0 (.braCond .gtu 0x5A3C#16) := by decide

/-- The instructions of two words (R156); the first word is the lower 24 bits. -/
theorem test_decode_two_words :
    reads 0b0000_0100_0011_1100_1001_0110 0b0000_0000_0000_0000_0101_1010 (.goto 0x2D1E4B#22) ∧
    reads 0b0000_0010_0011_1100_1001_0110 0b0000_0000_0000_0000_0101_1010 (.call 0x2D1E4B#22) ∧
    reads 0b0000_1000_0101_1010_0011_1100 0b0000_0000_1010_0101_1100_0011 (.doLit 0x5A3C#15 0xA5C3#16) ∧
    reads 0b0000_1000_1000_0000_0000_1001 0b0000_0000_1010_0101_1100_0011 (.doW 0x9#4 0xA5C3#16) := by decide

/-- The DSP words (R157, R158), written out from their patterns. -/
theorem test_decode_dsp :
    reads 0b1100_0010_1010_0100_1011_0101 0 (.mac .w4w7 .b (.on (.pointer false .plus4) 2#2) (.on (.pointer true .minus6) 1#2) .indirect) ∧
    reads 0b1100_0000_0011_0011_0011_0010 0 (.mac .w4w5 .a (.on .offset 3#2) (.on .offset 0#2) .none) ∧
    reads 0b1111_0010_1001_1100_1100_0000 0 (.macSq 2#2 .b (.on (.pointer false .plus6) 1#2) (.on (.pointer false .none) 3#2)) ∧
    reads 0b1100_0100_0100_1001_1010_0100 0 (.msc .w5w6 .a (.on (.pointer false .minus4) 0#2) (.on (.pointer true .plus2) 2#2) .w13) ∧
    reads 0b1100_0101_1010_0011_1101_0011 0 (.mpy .w5w7 .b (.on (.pointer true .minus2) 2#2) .off) ∧
    reads 0b1111_0001_0000_1101_0001_0101 0 (.mpySq 1#2 .a .off (.on (.pointer false .minus6) 3#2)) ∧
    reads 0b1100_0110_1101_1010_0011_1011 0 (.mpyN .w6w7 .b (.on (.pointer true .none) 1#2) (.on (.pointer true .minus4) 2#2)) ∧
    reads 0b1111_0011_0101_0000_0110_1111 0 (.ed 3#2 .a (.pointer false .plus2) (.pointer true .plus6) 1#2) ∧
    reads 0b1111_0000_1110_0010_1001_1110 0 (.edac 0#2 .b (.pointer true .plus4) (.pointer false .minus2) 2#2) ∧
    reads 0b1100_1011_1000_0000_0000_0000 0 (.addAcc .b) ∧
    reads 0b1100_1001_0100_1110_1011_0110 0 (.addToAcc 0x9#4 ⟨.postInc, 0x6#4⟩ 0xD#4 .a) ∧
    reads 0b1100_1010_1011_0001_1110_0101 0 (.lac 0x6#4 ⟨.offset, 0x5#4⟩ 0x3#4 .b) ∧
    reads 0b1100_1100_1010_1101_0100_1001 0 (.sac .b 0xA#4 0x5#4 ⟨.preDec, 0x9#4⟩) ∧
    reads 0b1100_1101_0101_0010_1010_0110 0 (.sacR .a 0x5#4 0xA#4 ⟨.postDec, 0x6#4⟩) ∧
    reads 0b1100_1000_1000_0000_0111_0101 0 (.sftacLit .b 0x35#6) ∧
    reads 0b1100_1000_0000_0000_0000_1011 0 (.sftacW .a 0xB#4) := by decide

/-- The system words (R159), written out from their patterns. -/
theorem test_decode_system :
    reads 0b1111_1110_0000_0000_0000_0000 0 (.reset) ∧
    reads 0b1111_1110_0100_0000_0000_0001 0 (.pwrsav true) ∧
    reads 0b1111_1100_0010_1010_0101_1010 0 (.disi 0x2A5A#14) ∧
    reads 0b1111_1110_1110_0000_0000_0011 0 (.ctxtswpLit 0x3#3) ∧
    reads 0b1111_1110_1111_0000_0000_1011 0 (.ctxtswpW 0xB#4) ∧
    reads 0b1111_1110_0010_0000_0000_0000 0 (.bootswp) := by decide

/-- The words R162 lists decode to the instructions it gives (those not written out elsewhere). -/
theorem test_decode_listed_words :
    reads 0x780080 0 (.movReg false 0 ⟨.direct, 0⟩ ⟨.direct, 1⟩) ∧
    reads 0x781F80 0 (.movReg false 0 ⟨.direct, 0⟩ ⟨.postInc, 15⟩) ∧
    reads 0x78004F 0 (.movReg false 0 ⟨.preDec, 15⟩ ⟨.direct, 0⟩) ∧
    reads 0xAF2042 0 (.btscFile false 0x42 1) ∧
    reads 0xB41100 0 (.addFile false false 0x1100) := by decide

/-- Words that are no instruction, each with its reason (R156, R157, R161, R263). -/
theorem test_decode_refuses :
    decode 0x500000#24 0 matches .error .noRow ∧ decode 0x3F0000#24 0 matches .error .reservedCondition ∧
    decode 0xC30110#24 0 matches .error .reservedMultiplicand ∧ decode 0xF04001#24 0 matches .error .noRow ∧
    decode 0xF04113#24 0 matches .error .missingPrefetch ∧ decode 0xD80903#24 0 matches .error .reservedField ∧
    decode 0x040400#24 0x010000#24 matches .error .badSecondWord := by decide

/-! Operands that are refused: for every check an ill-formed term, beside a well-formed one. -/

theorem test_wf_plain : (Instr.se ⟨.offset, 1⟩ 2).wf = false ∧ (Instr.se ⟨.preInc, 1⟩ 2).wf = true := by decide
theorem test_wf_pointer :
    (Instr.tblrdl false ⟨.direct, 1⟩ ⟨.direct, 2⟩).wf = false ∧ (Instr.tblrdl false ⟨.indirect, 1⟩ ⟨.direct, 2⟩).wf = true := by
  decide
theorem test_wf_evenReg : (Instr.movDLoad ⟨.indirect, 1⟩ 3).wf = false ∧ (Instr.movDLoad ⟨.indirect, 1⟩ 2).wf = true := by
  decide
theorem test_wf_pairPlain : (Instr.movDStore 2 ⟨.direct, 5⟩).wf = false ∧ (Instr.movDStore 2 ⟨.direct, 4⟩).wf = true := by
  decide
theorem test_wf_fileOk : (Instr.addFile false true 0x1101).wf = false ∧ (Instr.addFile true true 0x1101).wf = true := by
  decide
theorem test_wf_lit10Ok : (Instr.addLit10 true 0x100 1).wf = false ∧ (Instr.retlw true 0x0FF 1).wf = true := by decide
theorem test_wf_bitOk : (Instr.bsetReg true 8 ⟨.direct, 1⟩).wf = false ∧ (Instr.bsetReg true 7 ⟨.direct, 1⟩).wf = true := by
  decide
theorem test_wf_mulDestOk :
    (Instr.mulSS 0 ⟨.direct, 1⟩ 3).wf = false ∧ (Instr.mulSS 0 ⟨.direct, 1⟩ 14).wf = false ∧
    (Instr.mulSS 0 ⟨.direct, 1⟩ 12).wf = true := by decide
theorem test_wf_pairOk :
    (Instr.divSD 4 2 5).wf = false ∧ (Instr.divSD 4 3 5).wf = false ∧ (Instr.callL 3 2).wf = true := by decide
theorem test_wf_lnk : (Instr.lnk 5).wf = false ∧ (Instr.lnk 4).wf = true := by decide

/-! Single steps. -/

/-- A running machine with every working register initialized and 0, W15 at 0x1000 and the pc at 0x000200. -/
def base : State :=
  { State.reset with
    ctx := Vector.replicate 5 { w := Vector.replicate 15 0#16, init := Vector.replicate 15 true }, pc := 0x200#23 }

/-- Registers set. -/
def withW (s : State) (l : List (Reg × Word)) : State := l.foldl (fun s p => s.setWreg p.1 p.2) s

/-- Words of data RAM set. -/
def withRam (s : State) (l : List (Nat × Word)) : State := l.foldl (fun s p => s.setRamWord p.1 p.2) s

/-- Program words set. -/
def withProg (s : State) (l : List (Nat × ProgWord)) : State :=
  l.foldl (fun s p => { s with prog := assocSet s.prog p.1 p.2 }) s

/-- DSP state set. -/
def withDsp (s : State) (f : DspCtx → DspCtx) : State := s.setDsp (f s.dspCur)

/-- One step on the words `w` placed at the pc. -/
def after {α : Type} (w : Nat) (s : State) (f : State → α) : Option α :=
  match step (s.withFetchWord 48 w) with
  | .next t => some (f t)
  | .fault _ | .refused _ => none

/-- One step on an instruction the spec offers no encoding of. -/
def afterAsm {α : Type} (i : Instr) (s : State) (f : State → α) : Option α :=
  match step { s with asm := [(s.pc.toNat, i)] } with
  | .next t => some (f t)
  | .fault _ | .refused _ => none

/-- One step of the state as it is. -/
def stepped {α : Type} (s : State) (f : State → α) : Option α :=
  match step s with
  | .next t => some (f t)
  | .fault _ | .refused _ => none

/-- The reason a step on the words `w` is refused. -/
def refusalOf (w : Nat) (s : State) : Option Refusal :=
  match step (s.withFetchWord 48 w) with
  | .refused r => some r
  | .next _ | .fault _ => none

/-- Flags DC, N, OV, Z, C. -/
def flagList (s : State) : List Bool := [s.flags.dc, s.flags.n, s.flags.ov, s.flags.z, s.flags.c]

/-! Moves and the stack (95_test_vectors.md 2.1 and S2). -/

theorem test_movReg_byte_keeps_high : after 0x784080 (withW base [(0, 0xABCD), (1, 0x1234)]) (·.wreg 1) = some 0x12CD := by
  decide
theorem test_movReg_load_lands_last :
    after 0x780132 (withRam (withW base [(2, 0x1100)]) [(0x1100, 0x2222)]) (·.wreg 2) = some 0x2222 := by decide
theorem test_movLit : after 0x212340 State.reset (fun t => (t.wreg 0, t.winit 0, t.pc)) = some (0x1234, true, 2) := by decide
theorem test_movFileToW_register : after 0x80002A (withW base [(2, 0xBEEF)]) (·.wreg 10) = some 0xBEEF := by decide
theorem test_movWToFile_splim :
    after 0x880100 (withW base [(0, 0x1FFE)]) (fun t => (t.splim, t.splimEnabled)) = some (0x1FFE, true) := by decide
theorem test_movWregToFile : after 0xB7B100 (withW base [(0, 5)]) (·.ramWord 0x1100) = some 5 := by decide
theorem test_movFile :
    after 0xBF9100 (withRam base [(0x1100, 0x8001)]) (fun t => (t.wreg 0, flagList t)) =
      some (0x8001, [false, true, false, false, false]) := by decide
theorem test_movDLoad :
    after 0xBE0014 (withRam (withW base [(4, 0x1100)]) [(0x1100, 0x5678), (0x1102, 0x1234)]) (fun t => (t.wreg 0, t.wreg 1)) =
      some (0x5678, 0x1234) := by decide
theorem test_movDStore :
    after 0xBE9F80 (withW base [(0, 0x5678), (1, 0x1234)]) (fun t => (t.ramWord 0x1000, t.ramWord 0x1002, t.w15)) =
      some (0x5678, 0x1234, 0x1004) := by decide
theorem test_pushFile :
    after 0xF80036 { base with rcount := 7 } (fun t => (t.ramWord 0x1000, t.w15)) = some (7, 0x1002) := by decide
theorem test_popFile :
    after 0xF90036 (withRam { base with w15 := 0x1002 } [(0x1000, 7)]) (fun t => (t.rcount, t.w15)) = some (7, 0x1000) := by
  decide
theorem test_pushS :
    after 0xFEA000 { withW base [(0, 1), (1, 2), (2, 3), (3, 4)] with flags := ⟨true, false, true, false, true⟩ }
      (fun t => (t.shadowW, t.shadowFlags)) = some (#v[1, 2, 3, 4], ⟨true, false, true, false, true⟩) := by decide
theorem test_popS :
    after 0xFE8000 { base with shadowW := #v[1, 2, 3, 4], shadowFlags := ⟨true, false, true, false, true⟩, ipl := 5 }
      (fun t => (t.wreg 0, t.wreg 3, flagList t, t.ipl)) = some (1, 4, [true, false, true, false, true], 5) := by decide
theorem test_lnk :
    after 0xFA0004 (withW base [(14, 0xAAAA)]) (fun t => (t.ramWord 0x1000, t.wreg 14, t.w15, t.sfa, t.pending)) =
      some (0xAAAA, 0x1002, 0x1006, true, Pending.empty) := by decide
theorem test_ulnk :
    after 0xFA8000 (withRam { withW base [(14, 0x1002)] with sfa := true, w15 := 0x1006 } [(0x1000, 0xAAAA)])
      (fun t => (t.wreg 14, t.w15, t.sfa, t.pending.stackError)) = some (0xAAAA, 0x1000, false, false) := by decide
theorem test_se :
    after 0xFB0080 (withW base [(0, 0x12F0)]) (fun t => (t.wreg 1, flagList t)) =
      some (0xFFF0, [false, true, false, false, false]) := by decide
theorem test_ze :
    after 0xFB8080 (withW base [(0, 0x12F0)]) (fun t => (t.wreg 1, flagList t)) =
      some (0x00F0, [false, false, false, false, true]) := by decide
theorem test_tblrdl : after 0xBA0090 (withProg (withW base [(0, 0x800)]) [(0x800, 0x123456)]) (·.wreg 1) = some 0x3456 := by
  decide
theorem test_tblrdh : after 0xBA8110 (withProg (withW base [(0, 0x800)]) [(0x800, 0x123456)]) (·.wreg 2) = some 0x12 := by
  decide
theorem test_table_writes_refused :
    refusalOf 0xBB0880 base = some .tableWrite ∧ refusalOf 0xBB8880 base = some .tableWrite := by decide
theorem test_pop_below_the_stack : after 0x78004F base (·.pending.stackError) = some true := by decide

/-! Arithmetic, shifts, bits (2.2). -/

theorem test_addReg_carry :
    after 0x400101 (withW base [(0, 0xFFFF), (1, 1)]) (fun t => (t.wreg 2, flagList t)) =
      some (0, [true, false, false, true, true]) := by decide
theorem test_addReg_byte :
    after 0x404101 (withW base [(0, 0x7F), (1, 1), (2, 0xEE00)]) (fun t => (t.wreg 2, flagList t)) =
      some (0xEE80, [true, true, true, false, false]) := by decide
theorem test_addLit5 : after 0x400061 (withW base [(0, 9)]) (·.wreg 0) = some 10 := by decide
theorem test_addFile :
    after 0xB43100 (withRam (withW base [(0, 3)]) [(0x1100, 0xFFFD)]) (fun t => (t.wreg 0, t.ramWord 0x1100, flagList t)) =
      some (3, 0, [true, false, false, true, true]) := by decide
theorem test_addLit10 :
    after 0xB00011 (withW base [(1, 0xFF)]) (fun t => (t.wreg 1, flagList t)) =
      some (0x100, [true, false, false, false, false]) := by decide
theorem test_slReg :
    after 0xD00080 (withW base [(0, 0x8000)]) (fun t => (t.wreg 1, t.flags.c, t.flags.n, t.flags.z)) =
      some (0, true, false, true) := by decide
theorem test_lsrReg :
    after 0xD10080 (withW base [(0, 0x8001)]) (fun t => (t.wreg 1, t.flags.c, t.flags.n, t.flags.z)) =
      some (0x4000, true, false, false) := by decide
theorem test_asrReg :
    after 0xD18080 (withW base [(0, 0x8001)]) (fun t => (t.wreg 1, t.flags.c, t.flags.n, t.flags.z)) =
      some (0xC000, true, true, false) := by decide
theorem test_slFile : after 0xD43100 (withRam base [(0x1100, 0x4001)]) (fun t => (t.ramWord 0x1100, t.flags.n)) =
    some (0x8002, true) := by decide
theorem test_lsrFile : after 0xD51100 (withRam base [(0x1100, 0x8001)]) (fun t => (t.wreg 0, t.flags.c)) =
    some (0x4000, true) := by decide
theorem test_asrFile : after 0xD5F100 (withRam base [(0x1100, 0x5581)]) (fun t => (t.ramWord 0x1100, t.flags.c)) =
    some (0x55C0, true) := by decide
theorem test_slLit4 : after 0xDD00C4 (withW base [(0, 0x00FF)]) (·.wreg 1) = some 0x0FF0 := by decide
theorem test_lsrLit4 : after 0xDE00C4 (withW base [(0, 0xFF00)]) (·.wreg 1) = some 0x0FF0 := by decide
theorem test_asrLit4 : after 0xDE80C4 (withW base [(0, 0xFF00)]) (fun t => (t.wreg 1, t.flags.n)) = some (0xFFF0, true) := by
  decide
theorem test_slW_sixteen : after 0xDD0082 (withW base [(0, 0xFFFF), (2, 16)]) (fun t => (t.wreg 1, t.flags.z)) =
    some (0, true) := by decide
theorem test_lsrW_count_is_five_bits : after 0xDE0082 (withW base [(0, 0x1234), (2, 0x20)]) (·.wreg 1) = some 0x1234 := by
  decide
theorem test_asrW_sixteen : after 0xDE8082 (withW base [(0, 0x8000), (2, 16)]) (·.wreg 1) = some 0xFFFF := by decide
theorem test_bsetFile_bit_nine : after 0xA83103 (withRam base [(0x1102, 1)]) (·.ramWord 0x1102) = some 0x0201 := by decide
theorem test_bsetReg : after 0xA03011 (withRam (withW base [(1, 0x1100)]) [(0x1100, 0xF0)]) (·.ramWord 0x1100) = some 0xF8 := by
  decide
theorem test_btscFile_skips : after 0xAF2042 base (·.pc) = some 0x204 := by decide
theorem test_btscFile_stays : after 0xAF2042 { base with flags := ⟨false, false, false, true, false⟩ } (·.pc) = some 0x202 := by
  decide
theorem test_btscReg : after 0xA7F001 (withW base [(1, 0x7FFF)]) (·.pc) = some 0x204 := by decide

/-! Multiplies and divides (2.3, 2.4). -/

/-- The factors 0xFFFF and 0xFFFF in W0 and W1, the product in W3:W2. -/
def product (w : Nat) (a b : Word) : Option (Word × Word) := after w (withW base [(0, a), (1, b)]) (fun t => (t.wreg 3, t.wreg 2))

theorem test_mulSS : product 0xB98101 0xFFFE 3 = some (0xFFFF, 0xFFFA) := by decide
theorem test_mulSU : product 0xB90101 0xFFFF 0xFFFF = some (0xFFFF, 1) := by decide
theorem test_mulUS : product 0xB88101 0xFFFF 0xFFFF = some (0xFFFF, 1) := by decide
theorem test_mulUU : product 0xB80101 0xFFFF 0xFFFF = some (0xFFFE, 1) := by decide
theorem test_mulUULit5 : product 0xB8017F 0xFFFF 0 = some (0x001E, 0xFFE1) := by decide
theorem test_mulSULit5 : product 0xB9017F 0xFFFF 0 = some (0xFFFF, 0xFFE1) := by decide
theorem test_mulFile :
    after 0xBC1100 (withRam (withW base [(0, 0x10)]) [(0x1100, 0x1000)]) (fun t => (t.wreg 3, t.wreg 2)) = some (1, 0) := by decide
theorem test_mulwUU :
    afterAsm (.mulwUU 0 ⟨.direct, 1⟩ 2) (withW base [(0, 0x0102), (1, 0x0304)]) (fun t => (t.wreg 3, t.wreg 2)) =
      some (0, 0x0A08) := by decide
theorem test_mulAcc :
    afterAsm (.mulAcc .us 0 (.op ⟨.direct, 1⟩) .b) (withW base [(0, 0xFFFF), (1, 0xFFFF)]) (·.acc .b) = some 0xFFFFFF0001 := by
  decide

/-- The last execution of a divide: the operation in progress completes with the result of `d`. -/
def lastExecution (w : Nat) (d : DivResult) : Option (Word × Word × List Bool) :=
  after w { withW base [(2, 7), (3, 2), (4, 2)] with ra := true, div := some ⟨0x200, 1, d⟩ }
    (fun t => (t.wreg 0, t.wreg 1, [t.flags.n, t.flags.z, t.flags.ov]))

theorem test_divSW_result : divSigned (-7) 2 = .value 0xFFFD 0xFFFF true false ∧ divSigned 7 (-2) = .value 0xFFFD 1 false false := by
  decide
theorem test_divSW_last : lastExecution 0xD80103 (divSigned (-7) 2) = some (0xFFFD, 0xFFFF, [true, false, false]) := by decide
theorem test_divSD_last :
    lastExecution 0xD81944 (divSigned (-100000) 7) = some (0xC833, 0xFFFB, [true, false, false]) := by decide
theorem test_divUW_last : lastExecution 0xD88103 (divUnsigned 0xFFFF 16) = some (0x0FFF, 0x000F, [false, false, false]) := by decide
theorem test_divUD_last : lastExecution 0xD89944 (divUnsigned 0x10000 2) = some (0x8000, 0, [false, true, false]) := by decide
theorem test_divUD_overflow : divUnsigned 0x20000 2 = .overflow := by decide
theorem test_divF_last :
    lastExecution 0xD91003 (divSigned (0x1000 * 2 ^ 15) 0x3000) = some (0x2AAA, 0x2000, [false, false, false]) := by decide
theorem test_divSW_first :
    after 0xD80103 { withW base [(2, 0xFFF9), (3, 2)] with ra := true, rcount := 17, repeatNew := true } (·.div) =
      some (some ⟨0x200, 17, .value 0xFFFD 0xFFFF true false⟩) := by decide
theorem test_divSW_by_zero :
    after 0xD80103 { withW base [(2, 7)] with ra := true, rcount := 17 } (fun t => (t.intcon.div0err, t.pending.mathError)) =
      some (true, true) := by decide

/-! The DSP engine (2.5). -/

/-- ACCA = 0x0001000000, ACCB = 0x0012348000, W4 = 0x4000, W5 = 0x2000. -/
def dspBase : State :=
  withDsp (withW base [(4, 0x4000), (5, 0x2000), (6, 0x4000)]) fun d => { d with acca := 0x0001000000, accb := 0x0012348000 }

/-- The pointers W8 and W10 at a word of X space and one of Y space. -/
def dspMem : State := withRam (withW dspBase [(8, 0x1100), (10, 0x2100)]) [(0x1100, 0x1111), (0x2100, 0x2222)]

theorem test_mac : after 0xC00110 dspBase (fun t => (t.acc .a, t.wreg 13)) = some (0x0011000000, 0x1234) := by decide
theorem test_mac_prefetches :
    after 0xC00446 dspMem (fun t => (t.acc .a, t.wreg 4, t.wreg 5, t.wreg 8, t.wreg 10)) =
      some (0x0011000000, 0x1111, 0x2222, 0x1102, 0x2102) := by decide
theorem test_macSq : after 0xF28110 (dspBase.setAcc .b 0) (·.acc .b) = some 0x0020000000 := by decide
theorem test_msc : after 0xC04112 dspBase (·.acc .a) = some 0xFFF1000000 := by decide
theorem test_mpy : after 0xC00113 dspBase (·.acc .a) = some 0x0010000000 := by decide
theorem test_mpySq : after 0xF28111 dspBase (·.acc .b) = some 0x0020000000 := by decide
theorem test_mpyN : after 0xC0C113 dspBase (·.acc .b) = some 0xFFF0000000 := by decide
theorem test_ed :
    after 0xF04047 (withW dspMem [(4, 0x2000)]) (fun t => (t.acc .a, t.wreg 4, t.wreg 8, t.wreg 10)) =
      some (0x0008000000, 0xEEEF, 0x1102, 0x2102) := by decide
theorem test_edac :
    after 0xF04046 (withW dspMem [(4, 0x2000)]) (fun t => (t.acc .a, t.wreg 4)) = some (0x0009000000, 0xEEEF) := by decide
theorem test_addAcc :
    after 0xCB0000 (withDsp base fun d => { d with acca := 3, accb := 5 }) (fun t => (t.acc .a, t.acc .b)) = some (8, 5) := by decide
theorem test_addToAcc :
    after 0xC90200 (withDsp (withW base [(0, 0x1000)]) fun d => { d with acca := 1 }) (·.acc .a) = some 0x0001000001 := by decide
theorem test_lac_negative_shift :
    after 0xCA0700 (withW base [(0, 0x4000)]) (fun t => (t.acc .a, t.dspCur.oa)) = some (0x0100000000, true) := by decide
theorem test_sac_saturates :
    after 0xCC0000 (withDsp base fun d => { d with acca := 0xFF23456789 }) (·.wreg 0) = some 0x8000 := by decide
theorem test_sacR_convergent :
    after 0xCD0000 (withDsp base fun d => { d with acca := 0x0012348000 }) (·.wreg 0) = some 0x1234 := by decide
theorem test_sftacLit :
    after 0xC80050 (withDsp base fun d => { d with acca := 0xFF80000000 }) (·.acc .a) = some 0xFFFFFF8000 := by decide
theorem test_sftacW_range :
    after 0xC88002 (withW dspBase [(2, 0x20)]) (fun t => (t.acc .b, t.intcon.sftacerr, t.pending.mathError)) =
      some (0x0012348000, true, true) := by decide
theorem test_reserved_multiplier_mode :
    refusalOf 0xC00112 (withDsp dspBase fun d => { d with us := 3 }) = some .reservedMultiplierMode := by decide

/-! Program flow and loops (2.6, 2.7). -/

theorem test_call :
    after 0x000001022400 { base with pc := 0x202, sfa := true }
      (fun t => (t.ramWord 0x1000, t.ramWord 0x1002, t.w15, t.sfa, t.pc)) = some (0x0207, 0, 0x1004, false, 0x012400) := by decide
theorem test_ret :
    after 0x060000 (withRam { base with w15 := 0x1004 } [(0x1000, 0x0207), (0x1002, 0)]) (fun t => (t.pc, t.w15, t.sfa)) =
      some (0x206, 0x1000, true) := by decide
theorem test_rcall :
    after 0x07000F { base with pc := 0x012346 } (fun t => (t.ramWord 0x1000, t.ramWord 0x1002, t.pc)) =
      some (0x2348, 1, 0x012366) := by decide
theorem test_goto : after 0x000000040400 base (·.pc) = some 0x400 := by decide
theorem test_gotoW : after 0x010403 (withW base [(3, 0x400)]) (·.pc) = some 0x400 := by decide
theorem test_callW : after 0x010002 (withW base [(2, 0x400)]) (fun t => (t.ramWord 0x1000, t.pc)) = some (0x202, 0x400) := by decide
theorem test_callL : after 0x019802 (withW base [(2, 0x2346), (3, 1)]) (fun t => (t.ramWord 0x1000, t.pc)) =
    some (0x202, 0x012346) := by decide
theorem test_rcallW : after 0x010202 (withW base [(2, 0xFFFE)]) (fun t => (t.ramWord 0x1000, t.pc)) = some (0x202, 0x1FE) := by
  decide
theorem test_bra : after 0x370007 base (·.pc) = some 0x210 := by decide
theorem test_braCond_taken : after 0x3AFFFD { base with pc := 0x208 } (·.pc) = some 0x204 := by decide
theorem test_braCond_not_taken : after 0x320003 base (·.pc) = some 0x202 := by decide
theorem test_braW : after 0x010601 (withW base [(1, 4)]) (·.pc) = some 0x20A := by decide
theorem test_braOA : after 0x0C0003 (withDsp base fun d => { d with oa := true }) (·.pc) = some 0x208 := by decide
theorem test_braOB : after 0x0D0003 (withDsp base fun d => { d with oa := true }) (·.pc) = some 0x202 := by decide
theorem test_braSA : after 0x0E0003 (withDsp base fun d => { d with sa := true }) (·.pc) = some 0x208 := by decide
theorem test_braSB : after 0x0F0003 (withDsp base fun d => { d with sb := true }) (·.pc) = some 0x208 := by decide
theorem test_retlw :
    after 0x050550 (withRam { base with w15 := 0x1004 } [(0x1000, 0x302), (0x1002, 0)]) (fun t => (t.wreg 0, t.pc, t.w15)) =
      some (0x55, 0x302, 0x1000) := by decide
theorem test_nop : after 0x000000 base (·.pc) = some 0x202 := by decide
theorem test_nopr : after 0xFFFFFF base (·.pc) = some 0x202 := by decide
theorem test_repeatLit : after 0x090003 base (fun t => (t.rcount, t.ra, t.pc)) = some (3, true, 0x202) := by decide
theorem test_repeatLit_zero : after 0x090000 base (fun t => (t.rcount, t.ra)) = some (0, false) := by decide
theorem test_repeatW : after 0x098003 (withW base [(3, 0x11)]) (fun t => (t.rcount, t.ra)) = some (0x11, true) := by decide
theorem test_doLit :
    after 0x000004080002 { base with pc := 0x300 } (fun t => (t.dostart ++ 0#1, t.doend ++ 0#1, t.dcount, t.dl, t.pc)) =
      some (0x304, 0x30C, 2, 1, 0x304) := by decide
theorem test_doW_fourth_level :
    after 0x000004088003 { base with dl := 4, doend := 0x200 } (fun t => (t.dl, t.intcon.doovr, t.pending.softTrap, t.pc)) =
      some (4, true, true, 0x204) := by decide
theorem test_doW : after 0x000004088003 (withW base [(3, 0xC005)]) (·.dcount) = some 0xC005 := by decide
theorem test_do_loop_goes_back :
    after 0 { base with dl := 1, dostart := 0xF0, doend := 0x100, dcount := 5 } (fun t => (t.pc, t.dcount, t.dl)) =
      some (0x1E0, 4, 1) := by decide

/-! System instructions and exceptions (2.8, 2.9). -/

theorem test_ctxtswpLit : after 0xFEE001 base (fun t => (t.cctxi, t.mctxi)) = some (1, 1) := by decide
theorem test_ctxtswpW : after 0xFEF003 (withW base [(3, 2)]) (fun t => (t.cctxi, t.mctxi)) = some (2, 2) := by decide
theorem test_ctxtswp_reserved : refusalOf 0xFEE005 base = some (.reservedContext 5) := by decide
theorem test_disi : after 0xFC0003 base (·.disicnt) = some 3 := by decide
theorem test_pwrsav : after 0xFE4001 base (fun t => (t.power, t.pc)) = some (.idle, 0x202) := by decide
theorem test_reset : after 0xFE0000 (withW base [(0, 1)]) (fun t => (t.pc, t.w15, t.wreg 0)) = some (0, 0x1000, 0) := by decide
theorem test_bootswp_refused : refusalOf 0xFE2000 base = some .partitionSwap := by decide
theorem test_interrupt_entry :
    stepped (withProg { base with pc := 0x210, flags := ⟨false, false, false, true, true⟩, irqs := [some ⟨5, 4⟩] } [(0x1E, 0x400)])
      (fun t => (t.ramWord 0x1000, t.ramWord 0x1002, t.w15, t.sfrWord .sr, t.pc)) =
      some (0x210, 0x0300, 0x1004, 0x83, 0x400) := by decide
theorem test_trap_entry :
    stepped (withProg { base with pc := 0x12346, flags := ⟨false, false, false, false, true⟩, ipl := 5, ra := true, sfa := true,
                                  w15 := 0x1800, pending := { Pending.empty with mathError := true } } [(0xC, 0x500)])
      (fun t => ([t.ramWord 0x1800, t.ramWord 0x1802, t.w15, t.sfrWord .sr], [t.sfa, t.ra, t.ipl3], t.pc)) =
      some ([0x2347, 0xB101, 0x1804, 0x61], [false, false, true], 0x500) := by decide
theorem test_retfie :
    after 0x064000 (withRam { base with pc := 0x500, w15 := 0x1804, ipl3 := true, ipl := 3 } [(0x1800, 0x2347), (0x1802, 0xB101)])
      (fun t => (t.sfrWord .sr, [t.sfa, t.ipl3], t.pc, t.w15)) = some (0xB1, [true, false], 0x12346, 0x1800) := by decide
theorem test_interrupt_not_above_the_level :
    after 0 { base with ipl := 4, irqs := [some ⟨9, 4⟩] } (·.pc) = some 0x202 := by decide
/-- Vectors and levels are the device's (R10, R372): with a table of its own a trap goes elsewhere, at another level. -/
theorem test_trap_table_is_a_parameter :
    let table := { TrapTable.suggested with softTrap := { vector := 0x40, levelAbove8 := 7 } }
    stepped (withProg { base with
        pending := { Pending.empty with mathError := true, softTrap := true }
        dev := { base.dev with traps := table } } [(0x40, 0x600)])
      (fun t => (t.pc, t.ipl, t.pending.mathError, t.pending.softTrap)) = some (0x600, 7, true, false) := by decide
/-- `SFR_ADDR` is the device's (R10, R93): `MOV W3, 0x0042` writes whatever register the map places there. -/
theorem test_register_map_is_a_parameter :
    let s := { withW base [(3, 0x12)] with
      dev := { base.dev with sfrMap := { SfrMap.suggested with sr := 0x0A0, tblpag := 0x042 } } }
    after 0x880213 s (fun t => (t.tblpag, t.flags.z)) = some (0x12, false) := by decide
/-- A push while bit-reversed addressing is enabled is refused (R122, R124). -/
theorem test_call_with_circular_addressing :
    refusalOf 0x000001022400 { base with bren := true } = some .circularAddressing := by decide
/-- What a handler entered at level 0 interrupted in the middle of a divide; its frame ends at 0x1004. -/
def midDivide : Suspended := ⟨0x1004, 0x200, 0, 0, false, true⟩

/-- A divide outside REPEAT in a handler spoils the divide it interrupted (R228, R426). -/
theorem test_divide_in_a_handler :
    after 0xD80103 { withW base [(2, 7), (3, 2)] with nest := [midDivide], ipl := 4, div := some ⟨0x300, 5, .overflow⟩ }
      (·.div) = some (some ⟨0x300, 5, .unknown⟩) := by decide
/-- `REPEAT #17` and a divide in a handler that suspends an ill-formed divide: no result (R228, U8). -/
theorem test_repeated_divide_in_a_handler :
    after 0xD80103 { withW base [(2, 7), (3, 2)] with
      ra := true, rcount := 17, ipl := 4, nest := [midDivide], repeatNew := true } (·.div) =
      some (some ⟨0x200, 17, .unknown⟩) := by decide
/-- A handler counts as left without RETFIE when neither its frame nor the level shows it any more; lowering its own level
does not leave it. -/
theorem test_handler_left :
    after 0 { base with nest := [midDivide] } (·.nest) = some [] ∧
    after 0 { base with nest := [midDivide], w15 := 0x1004 } (·.nest) = some [midDivide] ∧
    after 0 { base with nest := [midDivide], ipl := 1 } (·.nest) = some [midDivide] := by decide
/-- A divide that an entry cuts off before its first execution begins afterwards as any other, also where the handler
lowered its level to that of what it interrupted before RETFIE; what that one interrupted stays as it was (R228, U8). -/
theorem test_retfie_gives_the_repeat_back :
    let cut : Suspended := ⟨0x1008, 0x200, 0x5000, 2, true, false⟩
    let s := withRam { base with w15 := 0x1008, ipl := 2, nest := [cut, midDivide] } [(0x1004, 0x200), (0x1006, 0x5000)]
    after 0x064000 s (fun t => ([t.repeatNew, t.ra], t.pc, t.nest)) = some ([true, true], 0x200, [midDivide]) ∧
    after 0x064000 (withRam s [(0x1004, 0x300)]) (fun t => ([t.repeatNew, t.ra], t.pc, t.nest)) =
      some ([false, true], 0x300, [midDivide]) := by decide
/-- What an entry interrupts goes to the record, and the handler's own REPEAT is none of it. -/
theorem test_entry_keeps_the_repeat :
    stepped { base with irqs := [some ⟨5, 4⟩], ra := true, repeatNew := true } (fun t => (t.repeatNew, t.nest)) =
      some (false, [⟨0x1004, 0x200, 0x1000, 0, true, false⟩]) := by decide
/-- An entry in the middle of a divide is recorded as one, also when nothing of the divide is left in `div` because a
handler had a divide of its own; before its first execution, or at another instruction, it is not (R228, U8). -/
theorem test_entry_in_the_middle_of_a_divide :
    let recorded (w : Nat) (s : State) : Option (List Bool) :=
      stepped ({ s with irqs := [some ⟨5, 4⟩], ra := true, rcount := 9 }.withFetchWord 48 w) (·.nest.map (·.divides))
    recorded 0xD80103 base = some [true] ∧ recorded 0xD80103 { base with div := some ⟨0x200, 10, .overflow⟩ } = some [true] ∧
    recorded 0xD80103 { base with repeatNew := true } = some [false] ∧ recorded 0x780080 base = some [false] := by decide
/-- An entry's push that lands on CORCON with bit 11 = 1 arms the early termination (log entry 51): W15 at CORCON, and a
return address with bit 11 set. -/
theorem test_entry_push_to_CORCON :
    stepped { base with irqs := [some ⟨5, 4⟩], w15 := 0x044, pc := 0xA00, dl := 1, doend := 0x300 } (·.edt) = some .armed ∧
    stepped { base with irqs := [some ⟨5, 4⟩], w15 := 0x044, pc := 0xA00, dl := 1, doend := 0x500 } (·.edt) = some .late := by
  decide
/-- An entry's push to SPLIM is a write immediately before the handler's first instruction, and to no other; an entry's
push to DOENDL is no instruction's write (R421, R424). -/
theorem test_entry_push_to_SPLIM :
    stepped { base with irqs := [some ⟨5, 4⟩], w15 := 0x020, splim := 0x1234 } (fun t => (t.splim, t.haz, t.hazNext)) =
      some (0x200, ⟨some 0x1234, false⟩, Hazard.none) ∧
    stepped { base with irqs := [some ⟨5, 4⟩], w15 := 0x03E } (fun t => (t.doend, t.haz, t.hazNext)) =
      some (0x100, Hazard.none, Hazard.none) := by decide
/-- The trap or Reset that was taken is recorded, each under its own name (R19). -/
theorem test_taken :
    after 0xFE0000 base (·.taken) = some [.reset .instruction] ∧
    after 0x780015 State.reset (·.taken) = some [.reset .uninitializedW] ∧
    stepped { base with ipl3 := true, ipl := 5, pending := { Pending.empty with addressError := true } } (·.taken) =
      some [.reset (.hardTrap .addressError)] ∧
    stepped { base with pending := { Pending.empty with mathError := true } } (·.taken) = some [.trap .mathError] := by decide
/-- A divide that goes on with RCOUNT = 17 without a new REPEAT, set by a handler or left by `REPEAT #20`, has no result
(R228, D20). -/
theorem test_divide_resumed_at_17 :
    after 0xD80103 { withW base [(2, 7), (3, 2)] with ra := true, rcount := 17, div := some ⟨0x200, 17, .unknown⟩ } (·.div) =
      some (some ⟨0x200, 17, .unknown⟩) := by decide
/-- A call whose push makes DOEND its own address takes its flow change (R280, R322): `RCALL` to 0x0006 at 0x0000
with W15 at DOENDL - 2. -/
theorem test_call_that_moves_DOEND :
    after 0x070002 { base with w15 := 0x03C, dl := 1, dcount := 5, pc := 0, doend := 0x100 }
      (fun t => (t.pc, t.dcount, t.doend)) = some (0x006, 5, 0) := by decide
theorem test_hard_trap_conflict_resets :
    stepped { base with ipl3 := true, ipl := 5, pending := { Pending.empty with addressError := true } } (fun t => (t.pc, t.free)) =
      some (0, 27) := by decide
theorem test_uninitialized_pointer_resets : after 0x780015 State.reset (·.pc) = some 0 := by decide

/-- CORCON writes replicate from context 0, until one in another context, which stays there (R63, R86). -/
theorem test_corcon_replication :
    let s := { withW base [(0, 0x00C0)] with dev := { base.dev with dspContexts := true } }
    let accb (t : State) := (t.dsp.toList.map (·.sata), t.corconReplicate)
    after 0x880220 s accb = some ([true, true, true, true, true], true) ∧
    after 0x880220 (withW { s with cctxi := 2 } [(0, 0x00C0)]) accb = some ([false, false, true, false, false], false) ∧
    after 0x880220 { s with corconReplicate := false } accb = some ([true, false, false, false, false], false) := by decide
/-- Reads through the window: EDS page 2, and the two halves of a program word (R109). -/
theorem test_window_pages :
    let s := withProg (withRam { base with dev := { base.dev with edsEnd := 0x1FFFF } } [(0x10002, 0xBEEF)]) [(0x8002, 0x123456)]
    let read (page : BitVec 10) := after 0x840011 { s with dsrpag := page } (·.wreg 1)
    read 2 = some 0xBEEF ∧ read 0x201 = some 0x3456 ∧ read 0x301 = some 0x0012 := by decide
/-- A Y prefetch below the boundary: from data RAM and from a register it goes on, at a register address that the map does
not assign it is refused (R114, R137; log entry 52). -/
theorem test_prefetch_from_the_wrong_space :
    let from_ (a : Word) := withW dspMem [(10, a)]
    after 0xC00446 (from_ 0x1100) (fun t => (t.pc, t.wreg 10)) = some (0x202, 0x1102) ∧
    after 0xC00446 (from_ 0x0036) (fun t => (t.pc, t.wreg 10)) = some (0x202, 0x0038) ∧
    refusalOf 0xC00446 (from_ 0x0F00) = some (.unassignedSfr 0x0F00) := by decide
/-- INTCON1: an enable takes the written bit, a status bit can only be cleared (R80). -/
theorem test_intcon1_write :
    after 0x884600 { withW base [(0, 0x8440)] with intcon := { base.intcon with ovaerr := true, covte := true } }
      (fun t => [t.intcon.nstdis, t.intcon.ovaerr, t.intcon.ovate, t.intcon.covte, t.intcon.div0err]) =
      some [true, false, true, false, false] := by decide
/-- Pointers of a prefetch, of a write-back and of a destination that no word write has set (R29, R368). -/
theorem test_uninitialized_prefetch_and_destination :
    after 0xC00112 (State.reset) (·.pc) = some 2 ∧ after 0xC00002 State.reset (·.taken) = some [.reset .uninitializedW] ∧
    after 0xC00111 State.reset (·.taken) = some [.reset .uninitializedW] ∧
    after 0xCC0015 State.reset (·.taken) = some [.reset .uninitializedW] := by decide

/-! Witnesses: states and operands that meet the hypotheses of the statements, clause by clause. -/

/-- Words in memory, pointers, and a second of everything. -/
def data : State :=
  withRam (withW base [(0, 0x0102), (1, 0x1100), (2, 0x1200), (3, 2), (4, 0x8001), (14, 0x1300)])
    [(0x1100, 0x8001), (0x1102, 0x1234), (0x1200, 0x00FF), (0x1300, 0xAAAA)]

/-- `data` with the words of an instruction at the pc. -/
def dataAt (w : Nat) : State := data.withFetchWord 48 w

theorem test_witness_DecodeOfEncode :
    ∃ i w1 w2, Instr.wf i = true ∧ i.assemblyOnly = false ∧ encode i = [w1, w2] := ⟨.goto 0x12345, _, _, rfl, rfl, rfl⟩

theorem test_witness_StepRunsTheInstruction_next :
    ∃ t, (dataAt 0x780080).quiet = true ∧ (dataAt 0x780080).holds (.movReg false 0 ⟨.direct, 0⟩ ⟨.direct, 1⟩) ∧
      (dataAt 0x780080).sampled.loopRefusal (.movReg false 0 ⟨.direct, 0⟩ ⟨.direct, 1⟩) = none ∧
      exec (.movReg false 0 ⟨.direct, 0⟩ ⟨.direct, 1⟩) (dataAt 0x780080).sampled = .next t :=
  ⟨_, rfl, .inr ⟨rfl, rfl, rfl⟩, rfl, rfl⟩
theorem test_witness_StepRunsTheInstruction_assembly :
    let s := { data with asm := [(0x200, .mulwSS 0 ⟨.direct, 1⟩ 2)] }
    ∃ t, s.quiet = true ∧ s.holds (.mulwSS 0 ⟨.direct, 1⟩ 2) ∧ exec (.mulwSS 0 ⟨.direct, 1⟩ 2) s.sampled = .next t :=
  ⟨_, rfl, .inl ⟨rfl, rfl⟩, rfl⟩
theorem test_witness_StepRunsTheInstruction_refusal :
    ∃ r, (dataAt 0xFE2000).quiet = true ∧ (dataAt 0xFE2000).holds .bootswp ∧
      exec .bootswp (dataAt 0xFE2000).sampled = .refused r := ⟨_, rfl, .inr ⟨rfl, rfl, rfl⟩, rfl⟩

theorem test_witness_EndOfInstruction :
    let r := { base with ra := true, rcount := 1 }
    let z := { base with ra := true }
    let body := { base with dl := 1, doend := 0x180, ra := true, rcount := 1 }
    (base.da && base.da) = false ∧ base.disicnt = 0#14 ∧ (base.ra && base.ra) = false ∧
    (r.da && r.da) = false ∧ r.ra = true ∧ r.rcount ≠ 0#16 ∧ z.ra = true ∧ z.rcount = 0#16 ∧
    body.da = true ∧ body.pc ≠ body.doendPc ∧ body.rcount ≠ 0#16 := by decide

theorem test_witness_WhatIsNoInstructionStops_illFormed :
    (dataAt 0xB43101).quiet = true ∧ (dataAt 0xB43101).holds (.addFile false true 0x1101) ∧
      Instr.wf (.addFile false true 0x1101) = false := ⟨rfl, .inr ⟨rfl, rfl, rfl⟩, rfl⟩
theorem test_witness_WhatIsNoInstructionStops_undecodable :
    ∃ e, (dataAt 0x500000).asmAt (dataAt 0x500000).pc.toNat = none ∧ (dataAt 0x500000).fetchable = true ∧
      decode ((dataAt 0x500000).progWord (dataAt 0x500000).pc.toNat) (dataAt 0x500000).secondWord = .error e :=
  ⟨_, rfl, rfl, rfl⟩
theorem test_witness_WhatIsNoInstructionStops_beyond :
    let s := { data with dev := { Device.suggested with progWords := 0x100 }, asm := [(0x200, .nop)] }
    s.quiet = true ∧ 2 * s.dev.progWords ≤ s.pc.toNat := by decide
theorem test_witness_WhatIsNoInstructionStops_loops :
    let s := { dataAt 0x370007 with ra := true }
    let t := { dataAt 0x370007 with dl := 1, doend := 0x101 }
    s.quiet = true ∧ s.holds (.bra 7) ∧ s.ra = true ∧ repeatForbidden (.bra 7) = true ∧
    t.quiet = true ∧ t.holds (.bra 7) ∧ t.ra = false ∧ t.da = true ∧ t.atLoopEnd = true ∧ doEndForbidden (.bra 7) = true :=
  ⟨rfl, .inr ⟨rfl, rfl, rfl⟩, rfl, rfl, rfl, .inr ⟨rfl, rfl, rfl⟩, rfl, rfl, rfl, rfl⟩

theorem test_witness_StepKeepsInvariant :
    MachineInv (dataAt 0x781901) ∧ ∃ t, step (dataAt 0x781901) = .next t :=
  ⟨⟨by decide, by decide, by decide, by decide, by decide, by decide, by decide, by decide, by decide⟩, _, rfl⟩

theorem test_witness_TrapEntry :
    let s := { base with pending := { Pending.empty with mathError := true } }
    s.power = .run ∧ s.pending.has .mathError = true ∧ TrapKind.all.all (fun j => !s.pending.has j || j == .mathError) = true ∧
      s.level < TrapKind.mathError.level s.dev ∧ s.canPush2 = true ∧
      TrapKind.mathError.vector s.dev < 2 * s.dev.progWords := by decide
theorem test_witness_TrapEntry_divide :
    let s := { (base.withFetchWord 48 0xD80103) with ra := true }
    s.holds (.divSW 2 3) ∧ s.dividing = true := ⟨.inr ⟨rfl, rfl, rfl⟩, by decide⟩
theorem test_witness_TrapEntry_two_traps :
    let s := { base with pending := { Pending.empty with mathError := true, softTrap := true } }
    s.pending.has .mathError = true ∧ TrapKind.softTrap.level s.dev < TrapKind.mathError.level s.dev := by decide

/-- A request of priority 4, with an alternate set assigned to that level. -/
def requested : State :=
  { base with irqs := [some ⟨5, 4⟩], dev := { base.dev with ctxtIpl := #v[none, some 4, none, none] } }

theorem test_witness_InterruptEntry :
    requested.power = .run ∧ requested.urgentTrap = none ∧ requested.irqs = some ⟨5, 4⟩ :: [] ∧
      requested.level < (⟨5, 4⟩ : Irq).prio.val ∧ requested.disicnt = 0#14 ∧ requested.canPush2 = true ∧
      (⟨5, 4⟩ : Irq).vector requested.dev < 2 * requested.dev.progWords ∧ requested.contextAt 2 4 = true ∧
      (∀ m : Fin 5, requested.contextAt m 4 = true → (2 : Fin 5).val ≤ m.val) := by decide
theorem test_witness_InterruptEntry_no_context :
    let s := { base with irqs := [some ⟨5, 7⟩], disicnt := 3 }
    s.urgentTrap = none ∧ s.level < (⟨5, 7⟩ : Irq).prio.val ∧ (⟨5, 7⟩ : Irq).prio = 7 ∧
      ∀ n : Fin 5, s.contextAt n 7 = false := by decide

theorem test_witness_BoundaryWithoutEntry :
    let low := { base with ipl := 4, irqs := [some ⟨5, 4⟩] }
    let held := { base with disicnt := 1, irqs := [some ⟨5, 6⟩] }
    let hard := { base with ipl3 := true, ipl := 5, pending := { Pending.empty with addressError := true } }
    let idle := { base with power := .idle }
    low.power = .run ∧ low.urgentTrap = none ∧ (⟨5, 4⟩ : Irq).prio.val ≤ low.level ∧
    held.urgentTrap = none ∧ held.disicnt ≠ 0#14 ∧ (⟨5, 6⟩ : Irq).prio ≠ 7 ∧
    hard.pending.highest hard.dev = some .addressError ∧ TrapKind.addressError.hard = true ∧
    TrapKind.addressError.level hard.dev ≤ hard.level ∧
    idle.power ≠ .run ∧ idle.urgentTrap = none ∧ idle.irqs = [] ∧
    { idle with irqs := [none] }.urgentTrap = none ∧ { idle with irqs := [some ⟨5, 1⟩] }.urgentTrap = none ∧
    { idle with pending := { Pending.empty with softTrap := true } }.urgentTrap = some .softTrap := by decide

theorem test_witness_ReturnUndoesEntry :
    ∃ u, data.canPush2 = true ∧ data.splimEnabled = false ∧ data.pc.getLsbD 0 = false ∧
      (⟨5, 4⟩ : Irq).vector data.dev < 2 * data.dev.progWords ∧
      runInstr (enter (.irq ⟨5, 4⟩)) (withProg data [(0x1E, 0x400)]) = .next u := ⟨_, rfl, rfl, rfl, by decide, rfl⟩

theorem test_witness_BadWordAccess_odd :
    let s := withW data [(1, 0x1101)]
    (∃ a, s.access? ⟨.postInc, 1⟩ 0 2 false = some a ∧ a.ea.getLsbD 0 = true) ∧
    ∃ a, s.access? ⟨.postInc, 1⟩ 0 2 true = some a ∧ a.ea.getLsbD 0 = true := ⟨⟨_, rfl, rfl⟩, _, rfl, rfl⟩
theorem test_witness_BadWordAccess_absent :
    let s := { data with dev := { data.dev with ramEnd := 0x10FF } }
    (∃ a, s.access? ⟨.indirect, 1⟩ 0 2 false = some a ∧ a.state.writeTarget a.via a.ea = .absent) ∧
    ∃ a, s.access? ⟨.indirect, 1⟩ 0 2 true = some a ∧ a.state.readTarget a.via a.ea = .absent :=
  ⟨⟨_, rfl, rfl⟩, _, rfl, rfl⟩

theorem test_witness_PointerChecks :
    State.reset.pointerReady ⟨.indirect, 5⟩ 0 = false ∧ data.pointerReady ⟨.indirect, 1⟩ 0 = true ∧
    { data with bren := true }.pointerReady ⟨.offset, 1⟩ 3 = true ∧ { data with bren := true }.circular = true ∧
    State.reset.dev.hasDsp = true := by decide
/-- `data` with W5 not written by a word write. -/
def dataNo5 : State := { data with ctx := data.ctx.set 0 { data.ctx[0] with init := data.ctx[0].init.set 5 false } }
theorem test_witness_PointerChecks_destination :
    (∃ v t, dataNo5.source? false 0 ⟨.postInc, 1⟩ = some (v, t) ∧ t.pointerReady ⟨.preDec, 5⟩ 0 = false) ∧
    dataNo5.pointerReady ⟨.preDec, 5⟩ 0 = false := ⟨⟨_, _, rfl, rfl⟩, rfl⟩
theorem test_witness_PointerChecks_dsp :
    let s := { dspMem with bren := true }
    State.reset.dspCur.us ≠ 3#2 ∧ State.reset.pointerReady (pfOperand false (.pointer true .plus2)) 12 = false ∧
    (withW State.reset [(11, 0x2100)]).pointerReady (pfOperand true .offset) 12 = false ∧ State.reset.winit 13 = false ∧
    s.pointerReady (pfOperand false .offset) 12 = true ∧ s.winit 13 = true ∧ s.circular = true ∧ s.dspCur.us ≠ 3#2 := by
  decide

/-- Page registers at the ends of the EDS and PSV ranges. -/
def paged (r : BitVec 10) (w : BitVec 9) : State := { data with dsrpag := r, dswpag := w }
theorem test_witness_PagedWindow :
    0x1000 ≤ (0x1000#16 : Word).toNat ∧ (0x7FFF#16 : Word).toNat < 0x8000 ∧ 0x8000 ≤ (0x8000#16 : Word).toNat ∧
    data.dsrpag = 1#10 ∧ data.dswpag = 1#9 ∧ (paged 0 0).dsrpag = 0#10 ∧ (paged 0 0).dswpag = 0#9 ∧
    wordAddr 0x7FFF = 0xFFFE#16 ∧
    (paged 0x1FF 0x1FF).dsrpag ≠ 0#10 ∧ (paged 0x1FF 0x1FF).dsrpag.toNat < 0x200 ∧ (paged 0x1FF 0x1FF).dswpag ≠ 0#9 ∧
    (paged 0x1FF 0x1FF).implemented 0xFFFFFE = true ∧
    0x200 ≤ (paged 0x200 1).dsrpag.toNat ∧ (paged 0x2FF 1).dsrpag.toNat < 0x300 ∧ 0x300 ≤ (paged 0x300 1).dsrpag.toNat ∧
    0x7FFFFE < 2 * data.dev.progWords := by decide

theorem test_witness_RamReadsWhatWasWritten : Memory.wf data.mem = true ∧ (0x1101 : Nat) ≠ 0x1100 := by decide

theorem test_witness_StatusWrite :
    sfrAt data.dev (wordAddr 0x21).toNat = some .sr ∧ data.srhRace (data.wreg 3) = false ∧ data.dev.hasDsp = true ∧
    { data with dev := { data.dev with hasDsp := false } }.srhRace 0x9000 = false := by decide

theorem test_witness_CoreControlWrite :
    let s := { withW data [(0, 0x0800)] with dl := 1, doend := 0x101 }
    let t := { withW data [(0, 0x0800)] with dl := 1, doend := 0x180 }
    sfrAt s.dev (wordAddr 0x22).toNat = some .corcon ∧ s.dev.hasDsp = true ∧ (s.wreg 0).getLsbD 11 = true ∧ s.dl ≠ 0#3 ∧
    s.pc + 2#23 = s.doendPc ∧ t.pc ≠ t.doendPc ∧ t.pc + 2#23 ≠ t.doendPc ∧ (s.wreg 3).getLsbD 11 = false := by decide
theorem test_witness_CoreControlWrite_contexts :
    let s := { data with dev := { data.dev with dspContexts := true } }
    sfrAt s.dev (wordAddr 0x22).toNat = some .corcon ∧ s.dev.hasDsp = true ∧ s.cctxi = 0 ∧ s.corconReplicate = true ∧
    { s with cctxi := 3 }.cctxi ≠ 0 ∧ (4 : Fin 5) ≠ { s with cctxi := 3 }.cctxi := by decide

theorem test_witness_StackLimitAndReadOnly :
    sfrMapWf data.dev.sfrMap = true ∧ sfrAt data.dev (wordAddr 0x10).toNat = some .splim ∧
    (0x20#13 : BitVec 13).getLsbD 0 = false ∧ sfrAt data.dev (nearAddr 0x20).toNat = some .splim ∧
    sfrAt data.dev (wordAddr 0x17).toNat = some .pcl ∧ sfrAt data.dev (wordAddr 0x18).toNat = some .pch ∧
    sfrAt data.dev (wordAddr 0x1D).toNat = some .dostartl ∧ sfrAt data.dev (wordAddr 0x1E).toNat = some .dostarth ∧
    sfrAt data.dev (wordAddr 0x2D).toNat = some .ctxtstat ∧ hasSfr data.dev .accbu = true := by decide

/-- What a source operand followed by a destination operand needs. -/
abbrev operandsRun (byte : Bool) (wb : Reg) (src dst : Operand) (s : State) (r : Word) : Prop :=
  ∃ v t u, s.source? byte wb src = some (v, t) ∧ t.dest? byte wb dst r = some u ∧ t.destIsSr byte 0 dst = false

theorem test_witness_MoveOperands_memory : operandsRun false 3 ⟨.postInc, 1⟩ ⟨.preDec, 2⟩ data 0x8001 :=
  ⟨_, _, _, rfl, rfl, rfl⟩
theorem test_witness_MoveOperands_offset : operandsRun false 3 ⟨.offset, 1⟩ ⟨.offset, 2⟩ data 0x1234 :=
  ⟨_, _, _, rfl, rfl, rfl⟩
theorem test_witness_MoveOperands_byte : operandsRun true 0 ⟨.preInc, 1⟩ ⟨.direct, 2⟩ data 0x0012 :=
  ⟨_, _, _, rfl, rfl, rfl⟩
theorem test_witness_MoveOperands_stack : operandsRun false 0 ⟨.direct, 4⟩ ⟨.postInc, 15⟩ data 0x8001 :=
  ⟨_, _, _, rfl, rfl, rfl⟩

/-- Each indirect mode, at an even address of RAM, and where its modification wraps. -/
theorem test_witness_MoveOperands_modes :
    (∀ m ∈ [Mode.indirect, .postInc, .postDec, .preInc, .preDec, .offset],
      m ≠ .direct ∧ data.pointerReady ⟨m, 1⟩ 3 = true ∧ data.circular = false) ∧
    data.readTarget (data.viaOf ⟨.preInc, 1⟩ 3) 0x1102 = .ram 0x1102 ∧
    data.writeTarget (data.viaOf ⟨.offset, 1⟩ 3) 0x1102 = .ram 0x1102 ∧
    data.readTarget (data.viaOf ⟨.preDec, 15⟩ 3) 0x0FFE = .sfr 0x0FFE ∧
    (∃ a, (withW data [(1, 0xFFFE)]).access? ⟨.preInc, 1⟩ 0 4 true = some a ∧ a.ea = 2) ∧
    ∃ a, (withW data [(1, 0xFFFE), (3, 0x1102)]).access? ⟨.offset, 1⟩ 3 2 false = some a ∧ a.ea = 0x1100 :=
  ⟨by decide, rfl, rfl, by decide, ⟨_, rfl, by decide⟩, _, rfl, by decide⟩

theorem test_witness_OperandFrame_memory :
    ∃ v t u x a lin, data.source? false 0 ⟨.direct, 4⟩ = some (v, t) ∧
      t.dest? false 0 ⟨.postInc, 1⟩ (addResult false (data.regSource false 3) v) = some u ∧
      exec (.addReg false 3 ⟨.direct, 4⟩ ⟨.postInc, 1⟩) data = .next x ∧
      t.access? ⟨.postInc, 1⟩ 0 (stepOf false) false = some a ∧ a.state.writeTarget a.via a.ea = .ram lin :=
  ⟨_, _, _, _, _, _, rfl, rfl, rfl, rfl, rfl⟩
theorem test_witness_OperandFrame_register :
    ∃ v t u x, data.source? false 0 ⟨.preInc, 1⟩ = some (v, t) ∧ t.dest? false 0 ⟨.direct, 5⟩ (data.wreg 3 * v) = some u ∧
      exec (.mulwUS 3 ⟨.preInc, 1⟩ 5) data = .next x := ⟨_, _, _, _, rfl, rfl, rfl⟩
theorem test_witness_OperandFrame_shift :
    ∃ v t u x, data.source? true 0 ⟨.postDec, 1⟩ = some (v, t) ∧
      t.dest? true 0 ⟨.direct, 5⟩ (shiftLeft1 true v).value = some u ∧
      exec (.slReg true ⟨.postDec, 1⟩ ⟨.direct, 5⟩) data = .next x := ⟨_, _, _, _, rfl, rfl, rfl⟩

theorem test_witness_MoveFile :
    (∃ v, data.dataRead? .paged (wordAddr 0x880) false = some v) ∧
    (∃ t, data.dataWrite? .paged (wordAddr 0x880) false (data.wreg 3) = some t) ∧
    (∃ t, data.dataWrite? .paged (nearAddr 0x1101) true (data.regSource true 0) = some t) ∧
    ∃ v t, data.dataRead? .paged (nearAddr 0x1100) false = some v ∧
      data.fileDest? false true (nearAddr 0x1100) v = some t ∧ fileIsSr data.dev false true (nearAddr 0x1100) = false :=
  ⟨⟨_, rfl⟩, ⟨_, rfl⟩, ⟨_, rfl⟩, _, _, rfl, rfl, rfl⟩

theorem test_witness_MoveDouble_load :
    ∃ a lo hi, data.access? ⟨.postInc, 1⟩ 0 4 true = some a ∧ a.state.dataRead? a.via a.ea false = some lo ∧
      (a.state.viaChecked a.via (a.ea + 2#16) (decide (0x10000 ≤ a.ea.toNat + 2))).dataRead? a.via (a.ea + 2#16) false =
        some hi := ⟨_, _, _, rfl, rfl, rfl⟩
theorem test_witness_MoveDouble_store :
    ∃ a t u, data.access? ⟨.preDec, 1⟩ 0 4 false = some a ∧ a.state.dataWrite? a.via a.ea false (data.wreg 2) = some t ∧
      (t.viaChecked a.via (a.ea + 2#16) (decide (0x10000 ≤ a.ea.toNat + 2))).dataWrite? a.via (a.ea + 2#16) false
        (data.wreg 3) = some u := ⟨_, _, _, rfl, rfl, rfl⟩

theorem test_witness_PushPop :
    data.canPush = true ∧ data.circular = false ∧ data.splimEnabled = false ∧
    (∃ v, data.dataRead? .paged (wordAddr 0x880) false = some v) ∧
    { data with w15 := 0x1102 }.canPop = true ∧
    ∃ t, { data with w15 := 0x1102 }.popped.dataWrite? .paged (wordAddr 0x900) false { data with w15 := 0x1102 }.top = some t :=
  ⟨rfl, rfl, rfl, ⟨_, rfl⟩, rfl, _, rfl⟩

theorem test_witness_StackErrors :
    let s := { data with splimEnabled := true, splim := 0x1FFE, w15 := 0x2002 }
    let t := { s with w15 := 0x2000 }
    let u := { s with splim := 0xFFFC, w15 := 0xFFFE }
    s.circular = false ∧ s.canPush = true ∧ s.splim.toNat + 2 < s.w15.toNat ∧
    t.canPush = true ∧ t.w15.toNat ≤ t.splim.toNat + 2 ∧ t.w15.toNat + 2 < 0x10000 ∧
    0x10000 ≤ u.w15.toNat + 2 ∧ { u with dswpag := 3 }.splimEnabled = true ∧
    sfrAt data.dev 0x800 = none ∧ { data with w15 := 0x800 }.w15.toNat < 0x1000 := by decide

theorem test_witness_StackErrors_reads :
    let s := { data with splimEnabled := true, splim := 0x1FFE }
    s.haz.splimOld = none ∧ (∀ m ∈ [Mode.indirect, .postInc, .postDec, .preInc, .preDec, .offset],
      m ≠ .direct ∧ s.pointerReady ⟨m, 15⟩ 3 = true) ∧
    (((0x1000#16 : Word) - 2#16) &&& 0xFFFE#16).toNat < 0x1000 ∧
    { s with w15 := 0x2000 }.splim.toNat + 2 < (((0x2000#16 : Word) + 2#16) &&& 0xFFFE#16).toNat ∧
    0x10000 ≤ { s with w15 := 0xFFFE }.w15.toNat + 2 ∧
    0x10000 ≤ { s with w15 := 0x2000 }.w15.toNat + (withW s [(3, 0xE000)] |>.wreg 3).toNat := by decide

theorem test_witness_StackErrors_writes :
    (∃ t, exec (.movReg false 3 ⟨.direct, 4⟩ ⟨.preDec, 15⟩) { data with w15 := 0x802 } = .next t) ∧
    ∃ t, exec (.movReg false 3 ⟨.direct, 4⟩ ⟨.offset, 15⟩) { data with splimEnabled := true, w15 := 0x2000 } = .next t :=
  ⟨⟨_, rfl⟩, _, rfl⟩

theorem test_witness_StackFrames :
    data.canPush = true ∧ { data with sfa := true }.canPush = true ∧
    { withW data [(14, 0x1302)] with sfa := true, w15 := 0x1306 }.canPush = true ∧
    (({ withW data [(14, 0x1302)] with sfa := true, w15 := 0x1306 }).setWreg 15 0x1302).canPop = true := by decide

theorem test_witness_ByteExtension : ∃ b t, data.source? true 0 ⟨.postInc, 1⟩ = some (b, t) := ⟨_, _, rfl⟩

theorem test_witness_TableReads_word :
    ∃ a t, data.access? ⟨.postInc, 1⟩ 0 (stepOf false) true = some a ∧ a.ea.getLsbD 0 = false ∧
      (a.state.tblpag ++ a.ea).getLsbD 23 = false ∧ (a.state.tblpag ++ a.ea).toNat < 2 * data.dev.progWords ∧
      (a.state.postModified ⟨.postInc, 1⟩ (stepOf false)).dest? false 0 ⟨.direct, 5⟩ (data.progWord 0x1100 |>.extractLsb' 0 16) =
        some t := ⟨_, _, rfl, rfl, rfl, by decide, rfl⟩
theorem test_witness_TableReads_byte :
    ∃ a t, (withW data [(1, 0x1101)]).access? ⟨.indirect, 1⟩ 0 (stepOf true) true = some a ∧
      (a.state.tblpag ++ a.ea).getLsbD 0 = true ∧ (a.state.tblpag ++ a.ea).getLsbD 23 = false ∧
      (a.state.postModified ⟨.indirect, 1⟩ (stepOf true)).dest? true 0 ⟨.direct, 5⟩ 0 = some t :=
  ⟨_, _, rfl, rfl, rfl, rfl⟩

theorem test_witness_AddForms_operands :
    operandsRun false 0 ⟨.postInc, 1⟩ ⟨.direct, 5⟩ data (addResult false (data.regSource false 3) 0x8001) :=
  ⟨_, _, _, rfl, rfl, rfl⟩
theorem test_witness_AddForms_literal :
    (∃ u, data.dest? true 0 ⟨.indirect, 1⟩ (addResult true (data.regSource true 3) 0x1F) = some u) ∧
    data.destIsSr true 0 ⟨.indirect, 1⟩ = false := ⟨⟨_, rfl⟩, rfl⟩
theorem test_witness_AddForms_file :
    ∃ a u, data.dataRead? .paged (nearAddr 0x1100) false = some a ∧
      data.fileDest? false true (nearAddr 0x1100) (addResult false a (data.regSource false 0)) = some u ∧
      fileIsSr data.dev false true (nearAddr 0x1100) = false := ⟨_, _, rfl, rfl, rfl⟩
theorem test_witness_AddForms_status_register :
    ∃ a u, data.dataRead? .paged (nearAddr 0x42) false = some a ∧
      data.fileDest? false true (nearAddr 0x42) (addResult false a (data.regSource false 0)) = some u ∧
      fileIsSr data.dev false true (nearAddr 0x42) = true := ⟨_, _, rfl, rfl, rfl⟩

theorem test_witness_SingleBitShifts :
    operandsRun true 0 ⟨.postInc, 1⟩ ⟨.preInc, 2⟩ data 0x02 ∧
    ∃ v u, data.dataRead? .paged (nearAddr 0x1100) false = some v ∧
      data.fileDest? false false (nearAddr 0x1100) (shiftArith1 false v).value = some u ∧
      fileIsSr data.dev false false (nearAddr 0x1100) = false := ⟨⟨_, _, _, rfl, rfl, rfl⟩, _, _, rfl, rfl, rfl⟩

theorem test_witness_MultiBitShifts :
    let s := withW data [(5, 0x1F)]
    (0x0100#16 : Word).toNat = (s.wreg 4).toNat * 2 ^ 8 % 2 ^ 16 ∧ (0x0800#16 : Word).toNat = (s.wreg 4).toNat / 2 ^ 4 ∧
    (0xFFFF#16 : Word).toInt = (s.wreg 4).toInt / 2 ^ 31 ∧ (s.wreg 5).toNat % 32 = 31 ∧
    (0#16 : Word).toNat = (s.wreg 4).toNat / 2 ^ 31 ∧ (0#16 : Word).toNat = (s.wreg 4).toNat * 2 ^ 31 % 2 ^ 16 := by decide

theorem test_witness_BitSet_operand :
    ∃ a v t, data.access? ⟨.postInc, 1⟩ 0 (stepOf false) true = some a ∧ a.state.dataRead? a.via a.ea false = some v ∧
      a.state.dataWrite? a.via a.ea false (v ||| (1#16 <<< (15 : Nat))) = some t ∧ bitInSrh data.dev false a.ea 15 = false :=
  ⟨_, _, _, rfl, rfl, rfl, rfl⟩
theorem test_witness_BitSet_file :
    ∃ v t, data.dataRead? .paged (nearAddr 0x1100) false = some v ∧
      data.dataWrite? .paged (nearAddr 0x1100) false (v ||| (1#16 <<< (0 : Nat))) = some t ∧
      bitInSrh data.dev false (nearAddr 0x1100) 0 = false := ⟨_, _, rfl, rfl, rfl⟩
theorem test_witness_BitSet_status :
    ∃ v t, data.dataRead? .paged (nearAddr 0x42) false = some v ∧
      data.dataWrite? .paged (nearAddr 0x42) false (v ||| (1#16 <<< (8 : Nat))) = some t ∧
      bitInSrh data.dev false (nearAddr 0x42) 8 = true ∧ data.dev.hasDsp = true := ⟨_, _, rfl, rfl, rfl, rfl⟩

theorem test_witness_BitTestSkips :
    (∃ v t, data.source? false 0 ⟨.postDec, 1⟩ = some (v, t)) ∧ ∃ v, data.dataRead? .paged (nearAddr 0x42) true = some v :=
  ⟨⟨_, _, rfl⟩, _, rfl⟩

theorem test_witness_MultiplyToPair :
    mulDestOk 12 = true ∧ mulDestOk 0 = true ∧ ∃ b t, data.source? false 0 ⟨.postInc, 1⟩ = some (b, t) := ⟨rfl, rfl, _, _, rfl⟩

theorem test_witness_MultiplyOtherForms :
    (∃ b, data.dataRead? .paged (nearAddr 0x1100) false = some b) ∧
    (∃ b, data.dataRead? .paged (nearAddr 0x1101) true = some b) ∧
    (∃ b t, data.source? false 0 ⟨.preInc, 1⟩ = some (b, t)) ∧ data.dev.hasDsp = true := ⟨⟨_, rfl⟩, ⟨_, rfl⟩, ⟨_, _, rfl⟩, rfl⟩

/-- A divide that `REPEAT` executes for the first time. -/
def dividing : State :=
  { withW data [(2, 0xFFF9), (3, 2)] with ra := true, rcount := 17, repeatNew := true }

theorem test_witness_DivideExecutions :
    (dividing.wreg 3 ≠ 0#16 ∧ dividing.ra = true ∧ dividing.div = none ∧ dividing.rcount = 17#16 ∧
      dividing.repeatNew = true ∧ ∀ f ∈ dividing.nest, f.divides = false) ∧
    (withW data [(3, 0)]).wreg 3 = 0#16 ∧ dividing.dev.hasDivf = true ∧
    { dividing with rcount := 1, repeatNew := false, div := some ⟨0x200, 2, .overflow⟩ }.div =
      some ⟨dividing.pc, 0 + 2, .overflow⟩ ∧
    { dividing with rcount := 0, div := some ⟨0x200, 1, .value 1 2 false false⟩ }.rcount = 0#16 ∧
    { data with div := some ⟨0x300, 9, .overflow⟩ }.ra = false := by decide

theorem test_witness_DivideExecutions_open :
    { dividing with ipl := 4, nest := [midDivide] }.repeatNew = true ∧ midDivide.divides = true ∧
    { dividing with rcount := 16 }.rcount ≠ 17#16 ∧
    (∃ r, { dividing with div := some ⟨0x300, 5, .overflow⟩ }.div = some r ∧ r.result ≠ .unknown) ∧
    dividing.ra = true ∧ (0#4 : Reg) ≠ 3#4 ∧
    { dividing with repeatNew := false, div := some ⟨0x200, 18, .unknown⟩ }.div =
      some ⟨0x200, dividing.rcount.toNat + 1, .unknown⟩ :=
  ⟨by decide, rfl, by decide, ⟨_, rfl, by decide⟩, rfl, by decide, rfl⟩

theorem test_witness_DivideArithmetic :
    divSigned (-32768) 1 = .value 0x8000 0 false true ∧ divSigned (-32768) (-1) = .overflow ∧
    divUnsigned 65535 65535 = .value 1 0 false true ∧ divUnsigned 65536 1 = .overflow := by decide

theorem test_witness_CompleteSignedDivide :
    let s := dividing.withFetchWord 48 0xD80103
    s.power = .run ∧ s.pending = Pending.empty ∧ s.irqs = [] ∧ s.ra = true ∧ s.da = false ∧ s.rcount = 17#16 ∧
      s.div = none ∧ s.repeatNew = true ∧ (∀ f ∈ s.nest, f.divides = false) ∧ s.holds (.divSW 2 3) ∧
      s.wreg 3 ≠ 0#16 ∧ s.wreg 2 ≠ 0x8000#16 :=
  ⟨rfl, rfl, rfl, rfl, rfl, rfl, rfl, rfl, by decide, .inr ⟨rfl, rfl, rfl⟩, by decide, by decide⟩

theorem test_witness_AccumulatorUpdate :
    (accResult true true (2 ^ 39)).s = true ∧ (accResult true true (2 ^ 39 - 1)).s = false ∧
    (accResult true false (2 ^ 31)).s = true ∧ (accResult false false (-2 ^ 31)).o = false ∧
    (accResult false false (-2 ^ 31 - 1)).o = true := by decide

theorem test_witness_MultiplyAccumulate :
    (∃ p u, dspMem.prod 4 5 = some p ∧
      (dspMem.accUpdated .a ((dspMem.acc .a).toInt + p)).transfers? .a (.on (.pointer false .plus2) 0)
        (.on (.pointer false .plus2) 1) .w13 = some u) ∧
    ∃ p a t b u, dspMem.prod 4 4 = some p ∧
      (dspMem.accUpdated .a p).prefetchWord? false (.pointer false .plus2) = some (a, t) ∧
      (t.pfAdvance false (.pointer false .plus2)).prefetchWord? true (.pointer false .plus2) = some (b, u) :=
  ⟨⟨_, _, rfl, rfl⟩, _, _, _, _, _, rfl, rfl, rfl⟩

theorem test_witness_MultiplierModes :
    dspBase.dspCur.us = 0#2 ∧ (withDsp dspBase fun d => { d with us := 1 }).dspCur.us = 1#2 ∧
    (withDsp dspBase fun d => { d with us := 2 }).dspCur.us = 2#2 ∧
    (withDsp dspBase fun d => { d with us := 3 }).dspCur.us = 3#2 ∧ dspBase.dev.hasDsp = true ∧
    { dspBase with dev := { dspBase.dev with hasDsp := false } }.dev.hasDsp = false := by decide

theorem test_witness_AccumulatorAddAndLoad :
    dspMem.dev.hasDsp = true ∧ ∃ v t, dspMem.source? false 3 ⟨.postInc, 8⟩ = some (v, t) := ⟨rfl, _, _, rfl⟩

theorem test_witness_AccumulatorStore :
    dspMem.dev.hasDsp = true ∧
    (∃ t a lin, dspMem.dest? false 3 ⟨.preInc, 8⟩ (dspMem.storeValue (dspMem.acc .b) (7#4).toInt false) = some t ∧
      dspMem.access? ⟨.preInc, 8⟩ 3 2 false = some a ∧ a.state.writeTarget a.via a.ea = .ram lin) ∧
    (∃ t, dspMem.dest? false 0 ⟨.direct, 0⟩ (dspMem.storeValue (dspMem.acc .b) (8#4).toInt true) = some t) ∧
    (0x0012348000#40 : Acc40).toInt % 2 ^ 16 = 2 ^ 15 ∧ dspMem.dspCur.satdw = true :=
  ⟨rfl, ⟨_, _, _, rfl, rfl, rfl⟩, ⟨_, rfl⟩, by decide, rfl⟩

/-- The vectors V65 to V73 of what `SAC` and `SAC.R` store, and both roundings of the half-way case (R253). -/
theorem test_storeValue :
    let odd := withDsp base fun d => { d with rnd := true }
    let wrap := withDsp base fun d => { d with satdw := false }
    base.storeValue 0x0012345678 0 false = 0x1234 ∧ base.storeValue 0x0012345678 4 false = 0x0123 ∧
    base.storeValue 0x0000123456 (-8) false = 0x1234 ∧ base.storeValue 0xFF80000000 0 false = 0x8000 ∧
    base.storeValue 0xFF7FFF0000 0 false = 0x8000 ∧ base.storeValue 0x0040000000 (-1) false = 0x7FFF ∧
    wrap.storeValue 0x0040000000 (-1) false = 0x8000 ∧ base.storeValue 0x4000000000 (-8) false = 0 ∧
    base.storeValue 0x0020000000 0 true = 0x2000 ∧ base.storeValue 0x0012348000 0 true = 0x1234 ∧
    odd.storeValue 0x0012348000 0 true = 0x1235 := by decide

theorem test_witness_ShiftAccumulator :
    (16#6 : BitVec 6).toInt = 16 ∧ (0x30#6 : BitVec 6).toInt = -16 ∧ (17#6 : BitVec 6).toInt = 17 ∧
    (0x2F#6 : BitVec 6).toInt = -17 := by decide

theorem test_witness_Calls : data.canPush2 = true ∧ data.pc.getLsbD 0 = false ∧ data.splimEnabled = false := by decide
theorem test_witness_CallThenReturn :
    ∃ u, data.canPush2 = true ∧ data.splimEnabled = false ∧ exec (.call 0x200) data = .next u := ⟨_, rfl, rfl, rfl⟩
theorem test_witness_Returns : { data with w15 := 0x1104 }.canPop2 = true := by decide

theorem test_witness_RepeatExecutesCountPlusOne :
    let s := { dataAt 0 with ra := true, rcount := 3 }
    s.power = .run ∧ s.pending = Pending.empty ∧ s.irqs = [] ∧ s.ra = true ∧ s.da = false ∧ s.disicnt = 0#14 ∧
      s.haz = Hazard.none ∧ s.hazNext = Hazard.none ∧ s.holds .nop ∧ s.rcount.toNat = 3 :=
  ⟨rfl, rfl, rfl, rfl, rfl, rfl, rfl, rfl, .inr ⟨rfl, rfl, rfl⟩, rfl⟩

theorem test_witness_DoStarts :
    data.dev.hasDsp = true ∧ data.dl.toNat < 4 ∧ { data with dl := 3 }.dl.toNat < 4 ∧ (1#16 : BitVec 16).toInt = 1 ∧
    (0xFFFD#16 : BitVec 16).toInt = -3 ∧ { data with dl := 4 }.dl = 4#3 ∧ (0xFFFE#16 : BitVec 16).toInt = -2 := by decide

theorem test_witness_DoLoopEnds :
    let s := { data with dl := 1, dostart := 0xF0, doend := 0x100, dcount := 5 }
    s.da = true ∧ s.ra = false ∧ endsSequentially .nop s { s with pc := s.pc + 2#23 } = true ∧
    endsSequentially (.rcall 0) s { s with pc := s.pc + 2#23 } = false ∧ s.pc = s.doendPc ∧ s.disicnt = 0#14 ∧
    s.dl.toNat ≤ 4 ∧ s.dcount ≠ 0#16 ∧ s.edt ≠ .armed ∧ { s with dl := 4, dcount := 0 }.dl.toNat = (2 : Fin 3).val + 2 ∧
    { s with edt := .armed }.edt = .armed ∧ s.pc ≠ { s with doend := 0x101 }.doendPc := by decide

theorem test_witness_SystemInstructions :
    (4#3 : BitVec 3).toNat ≤ data.dev.numAlt.val ∧ data.dev.numAlt.val < (5#3 : BitVec 3).toNat := by decide

theorem test_witness_StepKeepsProgramAndDevice : ∃ t, step (dataAt 0x781901) = .next t := ⟨_, rfl⟩
theorem test_witness_PointerChecks_stack :
    { data with bren := true }.circular = true ∧ ∃ v, { data with bren := true }.dataRead? .paged (wordAddr 0x880) false = some v :=
  ⟨rfl, _, rfl⟩
theorem test_witness_WorkingRegisters : (14#4 : Reg) ≠ 15#4 ∧ (15#4 : Reg) ∉ [14#4] := by decide
theorem test_witness_RegistersHoldTheirBits :
    Sfr.accbh ∈ [Sfr.rcount, .dcount, .xbrev, .accal, .accah, .accbl, .accbh] ∧
    sfrAt data.dev (wordAddr 0x460).toNat = some .intcon1 ∧ sfrAt data.dev (wordAddr 0x462).toNat = some .intcon3 ∧
    (nearAddr 0x8C1).toNat - (nearAddr 0x8C1).toNat % 2 = 0x8C0 ∧ sfrAt data.dev 0x8C0 = some .intcon1 ∧
    (nearAddr 0x8C4).toNat - (nearAddr 0x8C4).toNat % 2 = 0x8C4 ∧ sfrAt data.dev 0x8C4 = some .intcon3 := by decide
theorem test_witness_AdditionFlags :
    (0x80#16 : Word).toNat < 256 ∧ (0xFF#16 : Word).toNat < 256 ∧ (0xFF#10 : BitVec 10).toNat < 256 := by decide
theorem test_witness_JumpsAndBranches : data.pc.getLsbD 0 = false ∧ data.dev.hasDsp = true := by decide

end Sys2Proof.Tests
end

section
/-! The shadow registers (R182): what `PUSH.S` does, and that it depends on nothing saved before. -/

namespace Sys2Proof.Machine

/-- `PUSH.S` saves the shadows and goes on to the next word; it cannot trap, reset or be refused. -/
theorem exec_pushS (s : State) : exec .pushS s = .next (s.saveShadows.advanced 1) := by
  have run : (upd State.saveShadows >>= fun _ => advance 1) s = .ok ((), s.saveShadows.advanced 1) := by
    rw [upd_bind, advance_apply]
    rfl
  exact runInstr_of_ok run

/-- Saving reads the registers and the flags only, so what the shadows held before is lost. -/
theorem saveShadows_overwrites (s : State) (w : Vector Word 4) (fl : Flags) :
    { s with shadowW := w, shadowFlags := fl }.saveShadows = s.saveShadows := rfl

/-- Settles O30: `PUSH.S` is `saveShadows` and an advance of one word, and the earlier shadows drop out of it. -/
theorem shadowOverwrite : Obligations.ShadowOverwrite := by
  unfold Obligations.ShadowOverwrite
  intro s w fl
  rw [exec_pushS, saveShadows_overwrites]
  rfl

end Sys2Proof.Machine
end

section
/-! `REPEAT` (R311, R312): both forms start a loop by a count and differ only in where the count comes from. -/

namespace Sys2Proof.Machine

/-- The state in which a `REPEAT` of a given count leaves the machine: the pc is at the target, and a count of 0 leaves
RA as it was. -/
def State.repeatStarted (s : State) (count : Word) : State :=
  { s with rcount := count, ra := s.ra || count != 0#16, pc := s.pc + 2#23, repeatNew := count != 0#16 }

/-- Starting a loop accesses no memory and checks no pointer, so it always runs to its end. -/
theorem repeatLoop_apply (count : Word) (s : State) : repeatLoop count s = .ok ((), s.repeatStarted count) := by
  unfold repeatLoop
  rw [upd_bind, advance_apply]
  rfl

/-- `REPEAT #lit15` starts a loop with its literal as the count. -/
theorem exec_repeatLit (lit : BitVec 15) (s : State) :
    exec (.repeatLit lit) s = .next (s.repeatStarted (lit.zeroExtend 16)) :=
  runInstr_of_ok (repeatLoop_apply _ s)

/-- `REPEAT Wn` starts a loop with the register's value as the count. -/
theorem exec_repeatW (w : Reg) (s : State) : exec (.repeatW w) s = .next (s.repeatStarted (s.wreg w)) :=
  runInstr_of_ok (repeatLoop_apply _ s)

/-- The model's test of a count, as a decided proposition. -/
theorem count_bne_zero (count : Word) : (count != 0#16) = decide (count ≠ 0#16) := by
  rw [Bool.eq_iff_iff, bne_iff_ne, decide_eq_true_iff]

/-- The extended literal is a count of 0 exactly for the literal 0. -/
theorem literalCount_bne_zero (lit : BitVec 15) : (lit.zeroExtend 16 != 0#16) = decide (lit ≠ 0#15) := by
  rw [count_bne_zero, decide_eq_decide]
  bv_omega

/-- Settles O55: both forms end in `repeatStarted`, and extending the literal keeps whether it is 0. -/
theorem repeatStarts : Obligations.RepeatStarts := by
  unfold Obligations.RepeatStarts
  intro s lit w
  constructor
  · refine ⟨_, exec_repeatLit lit s, ?_⟩
    rw [← literalCount_bne_zero]
    rfl
  · refine ⟨_, exec_repeatW w s, ?_⟩
    rw [← count_bne_zero]
    rfl

end Sys2Proof.Machine
end

section
/-! What every operation of the machine keeps: the program, the device parameters and the invariant. One lemma for each
shared operation; the meanings of the instructions are built from them. -/

namespace Sys2Proof.Machine

variable {α β : Type}

/-- The part of the state that the invariant and the program depend on. -/
def State.core (s : State) :=
  (s.dev, s.prog, s.asm, s.mem, s.w15, s.splim, s.pc, s.dl, s.cctxi, s.mctxi)

/-- `t` comes from `s` by something that changes neither the program nor the device and keeps the invariant. -/
structure Sound (s t : State) : Prop where
  prog : t.prog = s.prog
  asm : t.asm = s.asm
  dev : t.dev = s.dev
  inv : MachineInv s → MachineInv t

theorem Sound.trans {s t u : State} (h : Sound s t) (k : Sound t u) : Sound s u :=
  ⟨k.prog.trans h.prog, k.asm.trans h.asm, k.dev.trans h.dev, fun hs => k.inv (h.inv hs)⟩

/-- A change outside the core is sound. -/
theorem sound_of_core {s t : State} (h : t.core = s.core) : Sound s t := by
  simp only [State.core, Prod.mk.injEq] at h
  obtain ⟨hdev, hprog, hasm, hmem, hw15, hsplim, hpc, hdl, hcctxi, hmctxi⟩ := h
  refine ⟨hprog, hasm, hdev, fun i => ?_⟩
  constructor
  · rw [hmem]; exact i.memory
  · rw [hmem]; exact i.memoryRange
  · rw [hprog]; exact i.program
  · rw [hw15]; exact i.stackEven
  · rw [hsplim]; exact i.limitEven
  · rw [hpc]; exact i.pcEven
  · rw [hdl]; exact i.loopLevel
  · rw [hcctxi, hdev]; exact i.currentContext
  · rw [hmctxi, hdev]; exact i.manualContext

@[simp] theorem Sound.refl (s : State) : Sound s s := sound_of_core rfl

/-! The updates of the state. -/

theorem mask_bit0 (v : Word) : (v &&& 0xFFFE#16).getLsbD 0 = false := by
  simp

@[simp] theorem sound_setWreg (s : State) (r : Reg) (v : Word) : Sound s (s.setWreg r v) := by
  by_cases h : r.toNat < 15
  · exact sound_of_core (by unfold State.setWreg; rw [dif_pos h]; rfl)
  · have e : s.setWreg r v = { s with w15 := v &&& 0xFFFE#16 } := by unfold State.setWreg; rw [dif_neg h]
    rw [e]
    exact ⟨rfl, rfl, rfl, fun i => { i with stackEven := mask_bit0 v }⟩

@[simp] theorem sound_setWregKeep (s : State) (r : Reg) (v : Word) : Sound s (s.setWregKeep r v) := by
  by_cases h : r.toNat < 15
  · exact sound_of_core (by unfold State.setWregKeep; rw [dif_pos h]; rfl)
  · have e : s.setWregKeep r v = { s with w15 := v &&& 0xFFFE#16 } := by unfold State.setWregKeep; rw [dif_neg h]
    rw [e]
    exact ⟨rfl, rfl, rfl, fun i => { i with stackEven := mask_bit0 v }⟩

@[simp] theorem sound_regDest (s : State) (byte : Bool) (r : Reg) (v : Word) : Sound s (s.regDest byte r v) := by
  unfold State.regDest
  split
  · exact sound_setWregKeep ..
  · exact sound_setWreg ..

@[simp] theorem sound_writeWreg (s : State) (r : Reg) (l : Lanes) (v : Word) : Sound s (s.writeWreg r l v) := by
  cases l
  · exact sound_setWreg ..
  · exact sound_setWregKeep ..
  · exact sound_setWregKeep ..

@[simp] theorem sound_preModified (s : State) (op : Operand) (step : Word) : Sound s (s.preModified op step) := by
  unfold State.preModified
  split <;> simp

@[simp] theorem sound_postModified (s : State) (op : Operand) (step : Word) : Sound s (s.postModified op step) := by
  unfold State.postModified
  split <;> simp

@[simp] theorem sound_pfAdvance (s : State) (ySpace : Bool) (a : PfAddr) : Sound s (s.pfAdvance ySpace a) := by
  unfold State.pfAdvance
  split <;> simp

@[simp] theorem sound_setPair (s : State) (r : Reg) (p : BitVec 32) : Sound s (s.setPair r p) :=
  (sound_setWreg ..).trans (sound_setWreg ..)

@[simp] theorem sound_addPending (s : State) (k : TrapKind) : Sound s (s.addPending k) := sound_of_core rfl

@[simp] theorem sound_checkedAgainst (s : State) (limit ea : Word) (carry : Bool) :
    Sound s (s.checkedAgainst limit ea carry) := by
  unfold State.checkedAgainst
  split
  · exact sound_addPending s _
  · exact .refl s

@[simp] theorem sound_setDsp (s : State) (d : DspCtx) : Sound s (s.setDsp d) := sound_of_core rfl

@[simp] theorem sound_setAcc (s : State) (x : AccId) (v : Acc40) : Sound s (s.setAcc x v) := by
  cases x <;> exact sound_setDsp ..

@[simp] theorem sound_accUpdated (s : State) (x : AccId) (r : Int) : Sound s (s.accUpdated x r) :=
  sound_of_core (by simp [State.core])

@[simp] theorem sound_saveShadows (s : State) : Sound s s.saveShadows := sound_of_core rfl

@[simp] theorem sound_restoreShadows (s : State) : Sound s s.restoreShadows :=
  ((((sound_setWreg ..).trans (sound_setWreg ..)).trans (sound_setWreg ..)).trans (sound_setWreg ..)).trans
    (sound_of_core rfl)

theorem sound_sfrStore (s : State) (r : Sfr) (v : Word) : Sound s (s.sfrStore r v) := by
  cases r
  case splim => exact ⟨rfl, rfl, rfl, fun i => { i with limitEven := mask_bit0 v }⟩
  all_goals exact sound_of_core rfl

theorem sound_writeCorcon (s : State) (l : Lanes) (v : Word) : Sound s (s.writeCorcon l v) := by
  have edt : ∀ u : State, u.writeEdt.core = u.core := by
    intro u
    unfold State.writeEdt
    split <;> rfl
  apply sound_of_core
  unfold State.writeCorcon
  dsimp only
  repeat' split
  all_goals first | rfl | exact edt _

/-- One byte of implemented RAM is stored (R106, R111). -/
theorem sound_setRamByte (s : State) {lin : Nat} (b : Byte) (hlo : 0x1000 ≤ lin) (hhi : lin < 2 ^ 24) :
    Sound s (s.setRamByte lin b) := by
  refine ⟨rfl, rfl, rfl, fun i => { i with memory := setRamByte_wf s lin b i.memory, memoryRange := ?_ }⟩
  exact all_assocSet _ _ _ _ i.memoryRange (by simp [hlo]; omega)

theorem sound_setRamWord (s : State) {lin : Nat} (v : Word) (hlo : 0x1000 ≤ lin) (hhi : lin + 1 < 2 ^ 24) :
    Sound s (s.setRamWord lin v) :=
  (sound_setRamByte s _ hlo (by omega)).trans (sound_setRamByte _ _ (by omega) hhi)

theorem sound_advanced (s : State) (n : Nat) : Sound s (s.advanced n) :=
  ⟨rfl, rfl, rfl, fun i => { i with pcEven := even_add_k s.pc (2 * n) (by omega) i.pcEven }⟩

theorem reset_stackEven : State.reset.w15.getLsbD 0 = false := by decide

theorem reset_limitEven : State.reset.splim.getLsbD 0 = false := by decide

theorem reset_pcEven : State.reset.pc.getLsbD 0 = false := by decide

theorem sound_deviceReset (cause : ResetCause) (s : State) : Sound s (deviceReset cause s) :=
  ⟨rfl, rfl, rfl, fun i => ⟨i.memory, i.memoryRange, i.program, reset_stackEven, reset_limitEven, reset_pcEven,
    Nat.zero_le _, Nat.zero_le _, Nat.zero_le _⟩⟩

/-! The contexts. -/

theorem contextAt_le {s : State} {n : Fin 5} {level : Nat} (h : s.contextAt n level = true) :
    n.val ≤ s.dev.numAlt.val := by
  simp only [State.contextAt, Bool.and_eq_true, decide_eq_true_eq] at h
  exact h.1.2

/-- A context selected for a level exists. -/
theorem contextAt_of_contextFor {s : State} {level : Nat} {n : Fin 5} (h : s.contextFor level = some n) :
    s.contextAt n level = true := by
  unfold State.contextFor at h
  repeat' split at h
  all_goals cases h
  all_goals assumption

theorem contextOnEntry_le {s : State} (l : Option Nat) (h : s.cctxi.val ≤ s.dev.numAlt.val) :
    (s.contextOnEntry l).val ≤ s.dev.numAlt.val := by
  unfold State.contextOnEntry
  split
  next n hn =>
    obtain ⟨level, -, hl⟩ := Option.bind_eq_some_iff.mp hn
    exact contextAt_le (contextAt_of_contextFor hl)
  next =>
    split
    · exact Nat.zero_le _
    · exact h

theorem contextOnReturn_le {s : State} (h : s.mctxi.val ≤ s.dev.numAlt.val) :
    s.contextOnReturn.val ≤ s.dev.numAlt.val := by
  unfold State.contextOnReturn
  split
  next n hn => exact contextAt_le (contextAt_of_contextFor hn)
  next => exact h

theorem sound_enterMode (s : State) (e : Entry) : Sound s (s.enterMode e) := by
  cases e <;>
    exact ⟨rfl, rfl, rfl, fun i => { i with currentContext := contextOnEntry_le (s := s) _ i.currentContext }⟩

/-! Computations. -/

/-- What a computation answers is sound. -/
structure Keeps (m : M α) : Prop where
  sound : ∀ s a t, m s = .ok (a, t) → Sound s t

theorem Keeps.bind {m : M α} {f : α → M β} (hm : Keeps m) (hf : ∀ a, Keeps (f a)) : Keeps (m >>= f) := by
  refine ⟨fun s b u h => ?_⟩
  obtain ⟨a, t, h1, h2⟩ := bind_ok_inv h
  exact (hm.sound s a t h1).trans ((hf a).sound t b u h2)

theorem keeps_pure (a : α) : Keeps (pure a : M α) := by
  refine ⟨fun s b t h => ?_⟩
  cases h
  exact .refl s

theorem keeps_ask (f : State → α) : Keeps (ask f) := by
  refine ⟨fun s b t h => ?_⟩
  cases h
  exact .refl s

/-- What is read from the state decides how to go on. -/
theorem keeps_asking {f : State → α} {k : α → M β} (h : ∀ a, Keeps (k a)) : Keeps (ask f >>= k) := (keeps_ask f).bind h

theorem keeps_upd {f : State → State} (h : ∀ s, Sound s (f s)) : Keeps (upd f) := by
  refine ⟨fun s a t e => ?_⟩
  cases e
  exact h s

/-- An update outside the core. -/
theorem keeps_upd_core {f : State → State} (h : ∀ s, (f s).core = s.core) : Keeps (upd f) :=
  keeps_upd fun s => sound_of_core (h s)

theorem keeps_refuse (r : Refusal) : Keeps (refuse r : M α) := ⟨fun _ _ _ h => by cases h⟩

theorem keeps_stopReset (c : ResetCause) : Keeps (stopReset c : M α) := ⟨fun _ _ _ h => by cases h⟩

theorem keeps_drawBits (w : Nat) : Keeps (drawBits w) := by
  refine ⟨fun s b t h => ?_⟩
  cases h
  exact sound_of_core rfl

theorem keeps_drawBit : Keeps drawBit := by
  refine ⟨fun s b t h => ?_⟩
  cases h
  exact sound_of_core rfl

theorem keeps_raiseTrap (k : TrapKind) : Keeps (raiseTrap k) := keeps_upd fun s => sound_addPending s k

theorem keeps_ite {c : Prop} [Decidable c] {m n : M α} (hm : Keeps m) (hn : Keeps n) :
    Keeps (if c then m else n) := by
  split
  · exact hm
  · exact hn

theorem keeps_advance (n : Nat) : Keeps (advance n) := keeps_upd fun s => sound_advanced s n

theorem mask23_bit0 (p : ProgAddr) : (p &&& 0x7FFFFE#23).getLsbD 0 = false := by
  simp

theorem keeps_jump (p : ProgAddr) : Keeps (jump p) :=
  keeps_upd fun _ => ⟨rfl, rfl, rfl, fun i => { i with pcEven := mask23_bit0 p }⟩

/-! Registers. -/

theorem keeps_drawSat : Keeps drawSat :=
  keeps_drawBit.bind fun _ => keeps_drawBit.bind fun _ => keeps_upd fun s => sound_setDsp s _

theorem keeps_drawOvf : Keeps drawOvf :=
  keeps_drawBit.bind fun _ => keeps_drawBit.bind fun _ => keeps_upd fun s => sound_setDsp s _

theorem keeps_writeSrh (v : Word) : Keeps (writeSrh v) := by
  have dc : Keeps (upd fun s => s.writeDc v) := keeps_upd_core fun _ => rfl
  have sat : Keeps (upd fun s => s.writeSat v) := keeps_upd fun s => sound_setDsp s _
  have ovf : Keeps (upd fun s => s.writeOvf v) := keeps_upd fun s => sound_setDsp s _
  refine dc.bind fun _ => keeps_asking fun _ => keeps_ite (keeps_asking fun _ => keeps_ite ?_ ?_) (keeps_pure _)
  · exact keeps_drawSat.bind fun _ => keeps_asking fun _ => keeps_ite keeps_drawOvf ovf
  · exact sat.bind fun _ => keeps_asking fun _ => keeps_ite keeps_drawOvf ovf

theorem keeps_sfrRead (r : Sfr) : Keeps (sfrRead r) := by
  cases r
  case pcl | pch => exact keeps_drawBits 16
  case doendl | doendh => exact keeps_asking fun _ => keeps_ite (keeps_drawBits 16) (keeps_ask _)
  case intcon1 => exact (keeps_drawBits 6).bind fun _ => keeps_ask _
  case intcon3 => exact (keeps_drawBits 15).bind fun _ => keeps_ask _
  all_goals exact keeps_ask _

theorem keeps_sfrWrite (r : Sfr) (l : Lanes) (v : Word) : Keeps (sfrWrite r l v) := by
  cases r
  case sr =>
    have low : Keeps (upd fun s => s.writeSrl v) := keeps_upd_core fun _ => rfl
    cases l
    · exact low.bind fun _ => keeps_writeSrh v
    · exact low.bind fun _ => keeps_pure _
    · exact keeps_writeSrh v
  case w n => exact keeps_upd fun s => sound_writeWreg s n l v
  case corcon => exact keeps_upd fun s => sound_writeCorcon s l v
  case intcon1 | intcon3 => exact keeps_upd_core fun _ => rfl
  case splim => exact keeps_upd fun s => (sound_sfrStore s .splim _).trans (sound_of_core rfl)
  case doendl | doendh => exact keeps_upd_core fun _ => rfl
  case pcl | pch => exact keeps_refuse _
  case dostartl | dostarth | ctxtstat => exact keeps_pure _
  all_goals exact keeps_upd fun s => sound_sfrStore s _ _

/-! Memory. -/

theorem keeps_checkProg (addr : Nat) : Keeps (checkProg addr) :=
  keeps_asking fun _ => keeps_ite (keeps_pure _) (keeps_refuse _)

theorem keeps_progRead (addr : Nat) : Keeps (progRead addr) := (keeps_checkProg addr).bind fun _ => keeps_ask _

theorem keeps_drawOperand (byte : Bool) : Keeps (drawOperand byte) := (keeps_drawBits 16).bind fun _ => keeps_pure _

theorem keeps_sfrReadAt (via : Via) (addr : Nat) (byte : Bool) : Keeps (sfrReadAt via addr byte) := by
  refine keeps_asking fun dev => ?_
  cases sfrAt dev (addr - addr % 2) with
  | some r => exact (keeps_sfrRead r).bind fun _ => keeps_pure _
  | none => exact keeps_ite (keeps_drawOperand byte) (keeps_refuse _)

theorem keeps_sfrWriteAt (via : Via) (addr : Nat) (byte : Bool) (v : Word) :
    Keeps (sfrWriteAt via addr byte v) := by
  refine keeps_asking fun dev => ?_
  cases sfrAt dev (addr - addr % 2) with
  | some r => exact keeps_ite (keeps_ite (keeps_sfrWrite ..) (keeps_sfrWrite ..)) (keeps_sfrWrite ..)
  | none => exact keeps_ite (keeps_pure _) (keeps_refuse _)

theorem keeps_memRead (via : Via) (ea : Word) (byte : Bool) : Keeps (memRead via ea byte) := by
  refine keeps_ite ((keeps_raiseTrap _).bind fun _ => keeps_drawOperand byte) (keeps_asking fun target => ?_)
  cases target with
  | sfr a => exact keeps_sfrReadAt via a byte
  | ram lin => exact keeps_ask _
  | psvLow a | psvHigh a => exact (keeps_progRead _).bind fun _ => keeps_pure _
  | absent => exact (keeps_raiseTrap _).bind fun _ => keeps_drawOperand byte

/-- Where a data write reaches RAM, the address is in range, and even for an even address (R108, R110). -/
theorem writeTarget_ram {s : State} {via : Via} {ea : Word} {lin : Nat} (h : s.writeTarget via ea = .ram lin) :
    0x1000 ≤ lin ∧ lin < 2 ^ 24 ∧ lin % 2 = ea.toNat % 2 := by
  have ram : ∀ n, s.ramTarget n = .ram lin → 0x1000 ≤ lin ∧ n = lin := by
    intro n hn
    unfold State.ramTarget at hn
    split at hn
    next hi =>
      cases hn
      simp only [State.implemented, Bool.and_eq_true, decide_eq_true_eq] at hi
      exact ⟨hi.1, rfl⟩
    next => cases hn
  have hea := ea.isLt
  have hpage := s.dswpag.isLt
  unfold State.writeTarget at h
  split at h
  · cases h
  split at h
  · split at h
    · cases h
    · obtain ⟨h1, h2⟩ := ram _ h
      omega
  · obtain ⟨h1, h2⟩ := ram _ h
    omega

theorem keeps_memWrite (via : Via) (ea : Word) (byte : Bool) (v : Word) : Keeps (memWrite via ea byte v) := by
  refine ⟨fun s a t h => ?_⟩
  unfold memWrite at h
  rw [ite_apply_state] at h
  split at h
  · exact (keeps_raiseTrap _).sound s a t h
  next hm =>
  rw [ask_bind] at h
  cases hw : s.writeTarget via ea with
  | sfr addr => rw [hw] at h; exact (keeps_sfrWriteAt _ _ _ _).sound s a t h
  | ram lin =>
    obtain ⟨hlo, hhi, heven⟩ := writeTarget_ram hw
    rw [hw] at h
    cases h
    split
    next => exact sound_setRamByte s _ hlo hhi
    next hb =>
      have hbit : ea.getLsbD 0 = false := by simpa [hb] using hm
      rw [even_iff] at hbit
      exact sound_setRamWord s _ hlo (by omega)
  | psvLow _ | psvHigh _ | absent => rw [hw] at h; exact (keeps_raiseTrap _).sound s a t h

/-! The stack and operands. -/

theorem keeps_stackCheck (ea : Word) (carry read : Bool) : Keeps (stackCheck ea carry read) := by
  refine ⟨fun s a t h => ?_⟩
  obtain ⟨limit, n, h1, -⟩ := stackCheck_apply s ea carry read
  rw [h1] at h
  cases h
  exact (sound_checkedAgainst s limit ea carry).trans (sound_of_core rfl)

theorem keeps_checkCircular : Keeps checkCircular := keeps_asking fun _ => keeps_ite (keeps_refuse _) (keeps_pure _)

theorem keeps_push16 (v : Word) : Keeps (push16 v) :=
  keeps_checkCircular.bind fun _ => keeps_asking fun _ => (keeps_stackCheck ..).bind fun _ =>
    (keeps_memWrite ..).bind fun _ => keeps_upd fun s => sound_setWreg s _ _

theorem keeps_pop16 : Keeps pop16 :=
  keeps_checkCircular.bind fun _ => (keeps_upd fun s => sound_setWreg s _ _).bind fun _ => keeps_asking fun _ =>
    (keeps_stackCheck ..).bind fun _ => keeps_memRead ..

theorem keeps_checkVia (via : Via) (ea : Word) (carry read : Bool) : Keeps (checkVia via ea carry read) :=
  keeps_ite (keeps_stackCheck ..) (keeps_pure _)

theorem keeps_withEA {op : Operand} {wb : Reg} {step : Word} {read : Bool} {f : Via → Word → M α}
    (hf : ∀ via ea, Keeps (f via ea)) : Keeps (withEA op wb step read f) :=
  (keeps_asking fun _ => keeps_ite (keeps_pure _) (keeps_stopReset _)).bind fun _ => keeps_checkCircular.bind fun _ =>
    keeps_asking fun _ => (keeps_upd fun s => sound_preModified s op step).bind fun _ => keeps_asking fun _ =>
      keeps_asking fun _ => (keeps_checkVia ..).bind fun _ => (hf ..).bind fun _ =>
        (keeps_upd fun s => sound_postModified s op step).bind fun _ => keeps_pure _

theorem keeps_readOp (byte : Bool) (wb : Reg) (op : Operand) : Keeps (readOp byte wb op) :=
  keeps_ite (keeps_ask _) (keeps_withEA fun _ _ => keeps_memRead ..)

theorem keeps_writeOp (byte : Bool) (wb : Reg) (op : Operand) (v : Word) : Keeps (writeOp byte wb op v) :=
  keeps_ite ((keeps_upd fun s => sound_regDest s _ _ _).bind fun _ => keeps_pure _)
    (keeps_withEA fun _ _ => keeps_asking fun _ => (keeps_memWrite ..).bind fun _ => keeps_pure _)

theorem keeps_readFile (byte : Bool) (addr : Word) : Keeps (readFile byte addr) := keeps_memRead ..

theorem keeps_writeFileOrWreg (byte toFile : Bool) (addr v : Word) :
    Keeps (writeFileOrWreg byte toFile addr v) :=
  keeps_ite (keeps_asking fun _ => (keeps_memWrite ..).bind fun _ => keeps_pure _)
    ((keeps_upd fun s => sound_regDest s _ _ _).bind fun _ => keeps_pure _)

theorem keeps_drawFlags : Keeps drawFlags :=
  keeps_drawBit.bind fun _ => keeps_drawBit.bind fun _ => keeps_drawBit.bind fun _ => keeps_drawBit.bind fun _ =>
    keeps_drawBit.bind fun _ => keeps_pure _

theorem keeps_writeFlags (hit : Bool) (f : Flags → Flags) : Keeps (writeFlags hit f) :=
  keeps_ite (keeps_drawFlags.bind fun _ => keeps_upd_core fun _ => rfl) (keeps_upd_core fun _ => rfl)

/-- A computation that ends with the advance to the next instruction. -/
theorem Keeps.thenAdvance {m : M Unit} (h : Keeps m) (n : Nat) : Keeps (m >>= fun _ => advance n) :=
  h.bind fun _ => keeps_advance n

/-- A register write and the advance to the next instruction. -/
theorem keeps_setWregAdvance (r : Reg) (v : State → Word) (n : Nat) :
    Keeps (upd (fun s => s.setWreg r (v s)) >>= fun _ => advance n) :=
  (keeps_upd fun s => sound_setWreg s r _).thenAdvance n

end Sys2Proof.Machine
end

section
/-! Every step keeps the invariant, the program and the device: each meaning, then the step around it. -/

namespace Sys2Proof.Machine

/-! Arithmetic, moves, the stack. -/

theorem keeps_shiftFile (byte toFile : Bool) (f13 : BitVec 13) (f : Word → ShiftResult) :
    Keeps (shiftFile byte toFile f13 f) :=
  (keeps_readFile ..).bind fun _ => (keeps_writeFileOrWreg ..).bind fun _ => keeps_drawBit.bind fun _ =>
    (keeps_writeFlags ..).thenAdvance 1

theorem keeps_shiftReg (byte : Bool) (src dst : Operand) (f : Word → ShiftResult) : Keeps (shiftReg byte src dst f) :=
  (keeps_readOp ..).bind fun _ => (keeps_writeOp ..).bind fun _ => keeps_drawBit.bind fun _ =>
    (keeps_writeFlags ..).thenAdvance 1

theorem keeps_shiftMulti (wb wd : Reg) (count : State → Nat) (f : Word → Nat → Word) :
    Keeps (shiftMulti wb wd count f) :=
  keeps_asking fun _ => keeps_asking fun _ => (keeps_upd fun s => sound_setWreg s _ _).bind fun _ =>
    (keeps_writeFlags ..).thenAdvance 1

theorem keeps_bitRace (byte : Bool) (ea : Word) (bit : BitVec 4) : Keeps (bitRace byte ea bit) :=
  keeps_asking fun _ => keeps_ite keeps_drawSat (keeps_pure _)

theorem keeps_bsetMem (byte : Bool) (via : Via) (ea : Word) (bit : BitVec 4) : Keeps (bsetMem byte via ea bit) :=
  (keeps_memRead ..).bind fun _ => (keeps_memWrite ..).bind fun _ => keeps_bitRace ..

theorem keeps_skipIf (c : Bool) : Keeps (skipIf c) := keeps_ite (keeps_advance 2) (keeps_advance 1)

theorem keeps_mulToPair (signs : Signs) (wb : Reg) (src : Operand) (wd : Reg) : Keeps (mulToPair signs wb src wd) :=
  keeps_asking fun _ => (keeps_readOp ..).bind fun _ => (keeps_upd fun s => sound_setPair s _ _).thenAdvance 1

theorem keeps_mulLitToPair (signs : Signs) (wb : Reg) (lit : BitVec 5) (wd : Reg) :
    Keeps (mulLitToPair signs wb lit wd) :=
  keeps_asking fun _ => (keeps_upd fun s => sound_setPair s _ _).thenAdvance 1

theorem keeps_mulToWord (signs : Signs) (wb : Reg) (src : Operand) (wd : Reg) : Keeps (mulToWord signs wb src wd) :=
  keeps_asking fun _ => (keeps_readOp ..).bind fun _ => keeps_setWregAdvance ..

theorem keeps_readMulSrc (src : MulSrc) : Keeps (readMulSrc src) := by
  cases src
  · exact keeps_readOp ..
  · exact keeps_pure _

theorem keeps_requireDsp : Keeps requireDsp := keeps_asking fun _ => keeps_ite (keeps_pure _) (keeps_refuse _)

theorem keeps_drawAccStatus (x : AccId) : Keeps (drawAccStatus x) := by
  refine keeps_drawBit.bind fun _ => keeps_drawBit.bind fun _ => keeps_upd fun s => ?_
  cases x <;> exact sound_setDsp s _

theorem sound_divideDrawn (s : State) : Sound s s.divideDrawn :=
  ((sound_setWreg ..).trans (sound_setWreg ..)).trans (sound_of_core rfl)

theorem sound_divideWritten (s : State) (r : DivResult) : Sound s (s.divideWritten r) := by
  refine (sound_divideDrawn s).trans ?_
  cases r with
  | value q r n z => exact ((sound_setWreg ..).trans (sound_setWreg ..)).trans (sound_of_core rfl)
  | overflow | unknown => exact sound_of_core rfl

theorem sound_divideRan (s : State) (final : DivResult) : Sound s (s.divideRan final) := by
  have setDiv : ∀ d, Sound s { s with div := d } := fun d => sound_of_core rfl
  unfold State.divideRan
  split
  · exact (setDiv _).trans (sound_divideWritten ..)
  · exact (setDiv _).trans (sound_divideDrawn _)

theorem keeps_divideRun (final : State → DivResult) : Keeps (divideRun final) := by
  refine ⟨fun s a t h => ?_⟩
  rw [divideRun_apply] at h
  cases h
  exact sound_divideRan ..

theorem keeps_divide (wn : Reg) (result : State → DivResult) : Keeps (divide wn result) :=
  keeps_asking fun _ => keeps_ite
    (((keeps_upd_core fun _ => by rfl).bind fun _ => keeps_raiseTrap _ : Keeps raiseDiv0).bind fun _ =>
      (keeps_divideRun _).thenAdvance 1)
    ((keeps_divideRun _).thenAdvance 1)

theorem keeps_readDouble (src : Operand) : Keeps (readDouble src) :=
  keeps_ite (keeps_ask _) (keeps_withEA fun _ _ => (keeps_memRead ..).bind fun _ => (keeps_checkVia ..).bind fun _ =>
    (keeps_memRead ..).bind fun _ => keeps_pure _)

theorem keeps_writeDouble (dst : Operand) (lo hi : Word) : Keeps (writeDouble dst lo hi) :=
  keeps_ite (keeps_upd fun _ => (sound_setWreg ..).trans (sound_setWreg ..))
    (keeps_withEA fun _ _ => (keeps_memWrite ..).bind fun _ => (keeps_checkVia ..).bind fun _ => keeps_memWrite ..)

theorem keeps_setSfa (f : State → Bool) : Keeps (upd fun s => { s with sfa := f s }) := keeps_upd_core fun _ => by rfl

theorem keeps_lnkTail (lit : BitVec 14) : Keeps (do
    push16 (← ask fun s => s.wreg 14#4)
    upd fun s => s.setWreg 14#4 s.w15
    upd fun s => s.setWreg 15#4 (s.w15 + lit.zeroExtend 16)
    upd fun s => { s with sfa := true }
    advance 1) :=
  keeps_asking fun _ => (keeps_push16 _).bind fun _ => (keeps_upd fun s => sound_setWreg s _ _).bind fun _ =>
    (keeps_upd fun s => sound_setWreg s _ _).bind fun _ => (keeps_setSfa _).thenAdvance 1

theorem keeps_ulnkTail : Keeps (do
    upd fun s => s.setWreg 15#4 (s.wreg 14#4)
    let v ← pop16
    upd fun s => s.setWreg 14#4 v
    upd fun s => { s with sfa := false }
    advance 1) :=
  (keeps_upd fun s => sound_setWreg s _ _).bind fun _ => keeps_pop16.bind fun _ =>
    (keeps_upd fun s => sound_setWreg s _ _).bind fun _ => (keeps_setSfa _).thenAdvance 1

theorem keeps_tableRead (byte : Bool) (src : Operand) (pick : Bool → ProgWord → Word) :
    Keeps (tableRead byte src pick) :=
  keeps_withEA fun _ _ => keeps_ite ((keeps_raiseTrap _).bind fun _ => keeps_drawOperand byte)
    (keeps_asking fun _ => keeps_ite (keeps_refuse _) ((keeps_progRead _).bind fun _ => keeps_pure _))

/-! The DSP engine. -/

theorem keeps_multiply (m n : Reg) : Keeps (multiply m n) := by
  refine keeps_asking fun p => ?_
  cases p
  · exact keeps_refuse _
  · exact keeps_pure _

theorem keeps_accUpdate (x : AccId) (r : Int) : Keeps (accUpdate x r) := keeps_upd fun s => sound_accUpdated s x r

theorem keeps_prefetchRead (ySpace : Bool) (via : Via) (ea : Word) : Keeps (prefetchRead ySpace via ea) :=
  (keeps_memRead ..).bind fun _ => keeps_asking fun _ => keeps_ite (keeps_pure _) (keeps_drawBits 16)

theorem keeps_prefetchWord (ySpace : Bool) (a : PfAddr) : Keeps (prefetchWord ySpace a) :=
  keeps_withEA fun _ _ => keeps_prefetchRead ..

theorem keeps_prefetch (ySpace : Bool) (p : Prefetch) : Keeps (prefetch ySpace p) := by
  cases p with
  | off => exact keeps_pure _
  | on a dest =>
    exact (keeps_prefetchWord ..).bind fun _ => (keeps_upd fun s => sound_setWreg s _ _).bind fun _ =>
      keeps_upd fun s => sound_pfAdvance s ySpace a

theorem keeps_writeBack (x : AccId) (awb : Awb) : Keeps (writeBack x awb) := by
  cases awb with
  | none => exact keeps_pure _
  | w13 => exact keeps_upd fun s => sound_setWreg s _ _
  | indirect => exact keeps_asking fun _ => keeps_withEA fun _ _ => keeps_memWrite ..

theorem keeps_mulClass (m n : Reg) (x : AccId) (combine : Int → Int → Int) (px py : Prefetch) (awb : Awb) :
    Keeps (mulClass m n x combine px py awb) :=
  keeps_requireDsp.bind fun _ => (keeps_multiply ..).bind fun _ => keeps_asking fun _ => (keeps_accUpdate ..).bind fun _ =>
    (keeps_prefetch ..).bind fun _ => (keeps_prefetch ..).bind fun _ => (keeps_writeBack ..).thenAdvance 1

theorem keeps_distance (wm : BitVec 2) (acc : AccId) (combine : Int → Int → Int) (x y : PfAddr) (xd : BitVec 2) :
    Keeps (distance wm acc combine x y xd) :=
  keeps_requireDsp.bind fun _ => (keeps_multiply ..).bind fun _ => keeps_asking fun _ => (keeps_accUpdate ..).bind fun _ =>
    (keeps_prefetchWord ..).bind fun _ => (keeps_upd fun s => sound_pfAdvance s _ _).bind fun _ =>
      (keeps_prefetchWord ..).bind fun _ => (keeps_upd fun s => sound_pfAdvance s _ _).bind fun _ =>
        keeps_setWregAdvance ..

theorem keeps_shiftAcc (acc : AccId) (n : Int) : Keeps (shiftAcc acc n) :=
  keeps_ite ((keeps_upd_core fun _ => by rfl).bind fun _ => keeps_raiseTrap _)
    (keeps_asking fun _ => keeps_accUpdate ..)

/-! Program flow, loops, exceptions. -/

theorem keeps_branchIf (taken : Bool) (off : Word) : Keeps (branchIf taken off) :=
  keeps_ite (keeps_asking fun _ => keeps_jump _) (keeps_advance 1)

theorem keeps_branchAcc (bit : DspCtx → Bool) (off : Word) : Keeps (branchAcc bit off) :=
  keeps_requireDsp.bind fun _ => keeps_asking fun _ => keeps_branchIf ..

theorem keeps_doCall (next target : ProgAddr) : Keeps (doCall next target) :=
  (keeps_asking fun _ => (keeps_push16 _).bind fun _ => keeps_push16 _ : Keeps (pushPcCall next)).bind fun _ =>
    (keeps_setSfa _).bind fun _ => keeps_jump _

theorem keeps_subroutineReturn : Keeps subroutineReturn :=
  keeps_pop16.bind fun _ => keeps_pop16.bind fun _ => (keeps_setSfa _).bind fun _ => keeps_jump _

theorem sound_contextOnReturn (s : State) : Sound s { s with cctxi := s.contextOnReturn } :=
  ⟨rfl, rfl, rfl, fun i => { i with currentContext := contextOnReturn_le i.manualContext }⟩

theorem keeps_exceptionReturn : Keeps exceptionReturn :=
  keeps_asking fun _ => keeps_pop16.bind fun _ => keeps_pop16.bind fun _ => (keeps_upd_core fun _ => by rfl).bind fun _ =>
    (keeps_setSfa _).bind fun _ => (keeps_jump _).bind fun _ => keeps_upd sound_contextOnReturn

theorem keeps_pushPcExc (ret : ProgAddr) : Keeps (pushPcExc ret) :=
  keeps_asking fun _ => (keeps_push16 _).bind fun _ => keeps_asking fun _ => keeps_push16 _

theorem keeps_enter (e : Entry) : Keeps (enter e) := by
  have mode : ∀ later, Keeps (upd fun s => (s.enterMode e).entryHazards later) := fun later =>
    keeps_upd fun s => (sound_enterMode s e).trans (sound_of_core rfl)
  exact keeps_asking fun _ => (keeps_upd_core fun _ => by rfl).bind fun _ => keeps_asking fun _ =>
    (keeps_pushPcExc _).bind fun _ => (mode _).bind fun _ => keeps_asking fun _ => (keeps_progRead _).bind fun _ =>
      keeps_jump _

/-- The context that `CTXTSWP` selects exists (R341). -/
theorem keeps_contextSwap (n : Nat) : Keeps (contextSwap n) := by
  refine ⟨fun s a t h => ?_⟩
  unfold contextSwap at h
  rw [ask_bind] at h
  split at h
  next hn =>
    split at h
    next => cases h; exact ⟨rfl, rfl, rfl, fun i => { i with currentContext := hn, manualContext := hn }⟩
    next => cases h
  next => cases h

theorem keeps_repeatLoop (count : Word) : Keeps (repeatLoop count) := (keeps_upd_core fun _ => by rfl).thenAdvance 1

/-- A `DO` that starts below level 4 keeps the level in range (R320). -/
theorem sound_doStart (s : State) (count off : Word) (h : s.dl ≠ 4#3) : Sound s (s.doStart count off) := by
  have save : s.doSave.core = s.core := by
    unfold State.doSave
    dsimp only
    split <;> rfl
  refine (sound_of_core save).trans ⟨rfl, rfl, rfl, fun i => { i with loopLevel := ?_ }⟩
  have hdl : s.doSave.dl = s.dl := congrArg (fun c => c.2.2.2.2.2.2.2.1) save
  have hle : s.dl.toNat ≤ 4 := hdl ▸ i.loopLevel
  show (s.dl + 1#3).toNat ≤ 4
  bv_omega

theorem keeps_doLoop (count off : Word) : Keeps (doLoop count off) := by
  have tail : Keeps (do
      upd fun s => { s with hazNext := { s.hazNext with doend := true } }
      advance 2) := (keeps_upd_core fun _ => by rfl).thenAdvance 2
  have start : Keeps (ask State.dl >>= fun dl => if dl = 4#3 then raiseDoOverflow >>= fun _ => do
        upd fun s => { s with hazNext := { s.hazNext with doend := true } }
        advance 2
      else upd (fun s => s.doStart count off) >>= fun _ => do
        upd fun s => { s with hazNext := { s.hazNext with doend := true } }
        advance 2) := by
    refine ⟨fun s a t h => ?_⟩
    rw [ask_bind] at h
    split at h
    next =>
      exact (((keeps_upd_core fun _ => by rfl).bind fun _ => keeps_raiseTrap _ : Keeps raiseDoOverflow).bind
        fun _ => tail).sound s a t h
    next hdl => exact (sound_doStart s count off hdl).trans (tail.sound _ a t h)
  exact keeps_requireDsp.bind fun _ => keeps_asking fun _ => keeps_ite ((keeps_refuse _).bind fun _ => start) start

/-! The instructions. -/

theorem runInstr_sound {m : M Unit} {s t : State} (h : runInstr m s = .next t) (hm : Keeps m) : Sound s t := by
  rcases runInstr_next_inv h with h1 | ⟨c, -, rfl⟩
  · exact hm.sound s () t h1
  · exact sound_deviceReset c s

/-- Every instruction keeps the invariant, the program and the device. -/
theorem exec_sound {i : Instr} {s t : State} (h : exec i s = .next t) : Sound s t := by
  cases i
  case movReg => exact runInstr_sound h ((keeps_readOp ..).bind fun _ => (keeps_writeOp ..).bind fun _ => keeps_advance 1)
  case movLit =>
    unfold exec execMovLit at h
    exact runInstr_sound h (keeps_setWregAdvance ..)
  case movFileToW => exact runInstr_sound h ((keeps_readFile ..).bind fun _ => keeps_setWregAdvance ..)
  case movWToFile | movWregToFile =>
    exact runInstr_sound h (keeps_asking fun _ => (keeps_memWrite ..).thenAdvance 1)
  case movFile =>
    exact runInstr_sound h ((keeps_readFile ..).bind fun _ => (keeps_writeFileOrWreg ..).bind fun _ =>
      (keeps_writeFlags ..).thenAdvance 1)
  case movDLoad =>
    exact runInstr_sound h ((keeps_readDouble _).bind fun _ =>
      (keeps_upd fun _ => (sound_setWreg ..).trans (sound_setWreg ..)).thenAdvance 1)
  case movDStore =>
    exact runInstr_sound h (keeps_asking fun _ => keeps_asking fun _ => (keeps_writeDouble ..).thenAdvance 1)
  case pushFile => exact runInstr_sound h ((keeps_readFile ..).bind fun _ => (keeps_push16 _).thenAdvance 1)
  case popFile => exact runInstr_sound h (keeps_pop16.bind fun _ => (keeps_memWrite ..).thenAdvance 1)
  case pushS =>
    unfold exec execPushS at h
    exact runInstr_sound h ((keeps_upd sound_saveShadows).thenAdvance 1)
  case popS =>
    unfold exec execPopS at h
    exact runInstr_sound h ((keeps_upd sound_restoreShadows).thenAdvance 1)
  case lnk lit =>
    exact runInstr_sound h (keeps_asking fun _ => keeps_ite ((keeps_raiseTrap _).bind fun _ => keeps_lnkTail lit)
      (keeps_lnkTail lit))
  case ulnk =>
    exact runInstr_sound h (keeps_asking fun _ => keeps_ite ((keeps_raiseTrap _).bind fun _ => keeps_ulnkTail)
      keeps_ulnkTail)
  case se | ze =>
    exact runInstr_sound h ((keeps_readOp ..).bind fun _ => (keeps_upd fun s => sound_setWreg s _ _).bind fun _ =>
      (keeps_writeFlags ..).thenAdvance 1)
  case tblrdl | tblrdh =>
    exact runInstr_sound h ((keeps_tableRead ..).bind fun _ => (keeps_writeOp ..).bind fun _ => keeps_advance 1)
  case tblwtl | tblwth | bootswp | trap | fex | sstep | urun =>
    simp only [exec, execTblwtl, execTblwth, execBootswp, execTrap, execFex, execSstep, execUrun] at h
    exact runInstr_sound h (keeps_refuse _)
  case addReg =>
    exact runInstr_sound h (keeps_asking fun _ => (keeps_readOp ..).bind fun _ => (keeps_writeOp ..).bind fun _ =>
      (keeps_writeFlags ..).thenAdvance 1)
  case addLit5 =>
    exact runInstr_sound h (keeps_asking fun _ => (keeps_writeOp ..).bind fun _ => (keeps_writeFlags ..).thenAdvance 1)
  case addFile =>
    exact runInstr_sound h ((keeps_readFile ..).bind fun _ => keeps_asking fun _ => (keeps_writeFileOrWreg ..).bind fun _ =>
      (keeps_writeFlags ..).thenAdvance 1)
  case addLit10 =>
    unfold exec execAddLit10 at h
    exact runInstr_sound h (keeps_asking fun _ => (keeps_upd fun s => sound_regDest s _ _ _).bind fun _ =>
      (keeps_writeFlags ..).thenAdvance 1)
  case slFile | lsrFile | asrFile => exact runInstr_sound h (keeps_shiftFile ..)
  case slReg | lsrReg | asrReg => exact runInstr_sound h (keeps_shiftReg ..)
  case slLit4 | slW | lsrLit4 | lsrW | asrLit4 | asrW =>
    simp only [exec, execSlLit4, execSlW, execLsrLit4, execLsrW, execAsrLit4, execAsrW] at h
    exact runInstr_sound h (keeps_shiftMulti ..)
  case bsetFile => exact runInstr_sound h ((keeps_bsetMem ..).thenAdvance 1)
  case bsetReg =>
    exact runInstr_sound h (keeps_ite ((keeps_upd fun s => sound_regDest s _ _ _).thenAdvance 1)
      ((keeps_withEA fun _ _ => keeps_bsetMem ..).thenAdvance 1))
  case btscFile => exact runInstr_sound h ((keeps_readFile ..).bind fun _ => keeps_skipIf _)
  case btscReg => exact runInstr_sound h ((keeps_readOp ..).bind fun _ => keeps_skipIf _)
  case mulUU | mulUS | mulSU | mulSS => exact runInstr_sound h (keeps_mulToPair ..)
  case mulUULit5 | mulSULit5 =>
    simp only [exec, execMulUULit5, execMulSULit5] at h
    exact runInstr_sound h (keeps_mulLitToPair ..)
  case mulFile =>
    refine runInstr_sound h (keeps_asking fun _ => (keeps_readFile ..).bind fun _ =>
      (keeps_upd fun s => ?_).thenAdvance 1)
    split
    · exact sound_setWreg ..
    · exact sound_setPair ..
  case mulwSS | mulwSU | mulwUS | mulwUU => exact runInstr_sound h (keeps_mulToWord ..)
  case mulAcc =>
    exact runInstr_sound h (keeps_requireDsp.bind fun _ => keeps_asking fun _ => (keeps_readMulSrc _).bind fun _ =>
      (keeps_upd fun s => sound_setAcc s _ _).bind fun _ => (keeps_drawAccStatus _).thenAdvance 1)
  case divSW | divSD | divUW | divUD => exact runInstr_sound h (keeps_divide ..)
  case divF => exact runInstr_sound h (keeps_asking fun _ => keeps_ite (keeps_divide ..) (keeps_refuse _))
  case nop | nopr =>
    simp only [exec, execNop, execNopr] at h
    exact runInstr_sound h (keeps_advance 1)
  case bra =>
    unfold exec execBra at h
    exact runInstr_sound h (keeps_branchIf ..)
  case braCond => exact runInstr_sound h (keeps_asking fun _ => keeps_branchIf ..)
  case braOA | braOB | braSA | braSB => exact runInstr_sound h (keeps_branchAcc ..)
  case braW | gotoW =>
    simp only [exec, execBraW, execGotoW] at h
    exact runInstr_sound h (keeps_asking fun _ => keeps_jump _)
  case goto =>
    unfold exec execGoto at h
    exact runInstr_sound h (keeps_jump _)
  case call | callW | callL | rcall | rcallW => exact runInstr_sound h (keeps_doCall ..)
  case ret => exact runInstr_sound h keeps_subroutineReturn
  case retfie => exact runInstr_sound h keeps_exceptionReturn
  case retlw =>
    exact runInstr_sound h ((keeps_upd fun s => sound_regDest s _ _ _).bind fun _ => keeps_subroutineReturn)
  case repeatLit =>
    unfold exec execRepeatLit at h
    exact runInstr_sound h (keeps_repeatLoop _)
  case repeatW =>
    unfold exec execRepeatW at h
    exact runInstr_sound h (keeps_asking fun _ => keeps_repeatLoop _)
  case doLit => exact runInstr_sound h (keeps_doLoop ..)
  case doW => exact runInstr_sound h (keeps_asking fun _ => keeps_doLoop ..)
  case compareSkip => exact runInstr_sound h (keeps_drawBit.bind fun _ => keeps_skipIf _)
  case mac | macSq | msc | mpy | mpySq | mpyN => exact runInstr_sound h (keeps_mulClass ..)
  case ed | edac => exact runInstr_sound h (keeps_distance ..)
  case addAcc =>
    exact runInstr_sound h (keeps_requireDsp.bind fun _ => keeps_asking fun _ => (keeps_accUpdate ..).thenAdvance 1)
  case addToAcc =>
    exact runInstr_sound h (keeps_requireDsp.bind fun _ => (keeps_readOp ..).bind fun _ => keeps_asking fun _ =>
      (keeps_accUpdate ..).thenAdvance 1)
  case lac =>
    exact runInstr_sound h (keeps_requireDsp.bind fun _ => (keeps_readOp ..).bind fun _ =>
      (keeps_accUpdate ..).thenAdvance 1)
  case sac | sacR =>
    exact runInstr_sound h (keeps_requireDsp.bind fun _ => keeps_asking fun _ => (keeps_writeOp ..).bind fun _ =>
      keeps_advance 1)
  case sftacLit => exact runInstr_sound h (keeps_requireDsp.bind fun _ => (keeps_shiftAcc ..).thenAdvance 1)
  case sftacW =>
    exact runInstr_sound h (keeps_requireDsp.bind fun _ => keeps_asking fun _ => (keeps_shiftAcc ..).thenAdvance 1)
  case reset =>
    unfold exec execReset at h
    exact runInstr_sound h (keeps_stopReset _)
  case pwrsav | disi =>
    simp only [exec, execPwrsav, execDisi] at h
    exact runInstr_sound h ((keeps_upd_core fun _ => by rfl).thenAdvance 1)
  case ctxtswpLit => exact runInstr_sound h ((keeps_contextSwap _).thenAdvance 1)
  case ctxtswpW => exact runInstr_sound h (keeps_asking fun _ => (keeps_contextSwap _).thenAdvance 1)

/-! The step. -/

/-- The `REPEAT` action moves the pc back to the instruction that is repeated, or leaves it (R314). -/
theorem sound_repeatEnd {s t : State} (h : Sound s t) : Sound s (repeatEnd s t) := by
  unfold repeatEnd
  split
  · split
    · exact h.trans (sound_of_core rfl)
    · exact ⟨h.prog, h.asm, h.dev, fun i => { h.inv i with pcEven := i.pcEven }⟩
  · exact h

/-- The end of a loop lowers the level of an active loop (R323). -/
theorem sound_terminateDo (t : State) (h : t.dl ≠ 0#3) : Sound t t.terminateDo := by
  have level : t.dl.toNat ≤ 4 → (t.dl - 1#3).toNat ≤ 4 := by bv_omega
  unfold State.terminateDo
  dsimp only
  split <;> exact ⟨rfl, rfl, rfl, fun i => { i with loopLevel := level i.loopLevel }⟩

theorem sound_doLoopAction (t : State) (h : t.dl ≠ 0#3) : Sound t t.doLoopAction := by
  unfold State.doLoopAction
  split
  · exact sound_terminateDo t h
  · exact ⟨rfl, rfl, rfl, fun i => { i with pcEven := even_app t.dostart }⟩

theorem repeatEnd_dl (s t : State) : (repeatEnd s t).dl = t.dl := by
  unfold repeatEnd
  repeat' split
  all_goals rfl

/-- The loop action applies inside an active loop only (R322). -/
theorem dl_of_doActs {i : Instr} {s t : State} (h : doActs i s t = true) : t.dl ≠ 0#3 := by
  unfold doActs State.da at h
  simp only [Bool.and_eq_true, bne_iff_ne] at h
  exact h.1.1.1.2

theorem sound_finish {i : Instr} {s t : State} (h : Sound s t) : Sound s (finish i s t) := by
  have ticks : ∀ u : State, Sound u (u.disiTick i).hazardTick.handlerTick := by
    intro u
    unfold State.disiTick
    split <;> exact sound_of_core rfl
  have loops : Sound s (if doActs i s t then (repeatEnd s t).doLoopAction else repeatEnd s t) := by
    split
    next ha => exact (sound_repeatEnd h).trans (sound_doLoopAction _ (by rw [repeatEnd_dl]; exact dl_of_doActs ha))
    next => exact sound_repeatEnd h
  exact loops.trans (ticks _)

theorem runOne_sound {s t : State} (h : runOne s = .next t) : Sound s t := by
  unfold runOne at h
  split at h
  next cause _ => cases h; exact sound_deviceReset cause s
  next => cases h
  next i _ _ =>
    split at h
    · cases h
    split at h
    next u hu => cases h; exact sound_finish (exec_sound hu)
    all_goals cases h

/-- The request input is not part of the core. -/
theorem sound_irqs (s : State) (rest : List (Option Irq)) : Sound s { s with irqs := rest } := sound_of_core rfl

theorem sampleAndRun_sound {s t : State} (h : sampleAndRun s = .next t) : Sound s t := by
  unfold sampleAndRun at h
  split at h
  next => exact runOne_sound h
  next rest _ => exact (sound_irqs s rest).trans (runOne_sound h)
  next q rest _ =>
    split at h
    · exact (sound_irqs s rest).trans (runInstr_sound h (keeps_enter _))
    · exact (sound_irqs s rest).trans (runOne_sound h)

theorem boundary_sound {s t : State} (h : boundary s = .next t) : Sound s t := by
  unfold boundary at h
  split at h
  next k _ =>
    split at h
    · exact runInstr_sound h ((keeps_upd_core fun _ => by rfl).bind fun _ => keeps_enter _)
    · cases h; exact sound_deviceReset _ s
  next => exact sampleAndRun_sound h

theorem sleepStep_sound {s t : State} (h : sleepStep s = .next t) : Sound s t := by
  unfold sleepStep at h
  repeat' split at h
  all_goals cases h; exact sound_of_core rfl

/-- What a step keeps: the program, the device parameters and the invariant. -/
theorem step_sound {s t : State} (h : step s = .next t) : Sound s t := by
  unfold step stepState at h
  split at h
  · exact boundary_sound h
  · exact sleepStep_sound h

/-- Settles O7: `step_sound`, which says of every operation of a step that it keeps the invariant. -/
theorem stepKeepsInvariant : Obligations.StepKeepsInvariant := by
  unfold Obligations.StepKeepsInvariant
  intro s t hs h
  exact (step_sound h).inv hs

/-- Settles O8: `step_sound`, which says of every operation of a step that it leaves the program and the device. -/
theorem stepKeepsProgramAndDevice : Obligations.StepKeepsProgramAndDevice := by
  unfold Obligations.StepKeepsProgramAndDevice
  intro s t h
  exact ⟨(step_sound h).prog, (step_sound h).asm, (step_sound h).dev⟩

/-- Settles O6: each component of the reset state evaluates. -/
theorem resetHasInvariant : Obligations.ResetHasInvariant := by
  unfold Obligations.ResetHasInvariant
  exact ⟨reset_mem_wf, rfl, rfl, reset_stackEven, reset_limitEven, reset_pcEven, Nat.zero_le _, Nat.zero_le _,
    Nat.zero_le _⟩

end Sys2Proof.Machine
end

section
/-! The step around an instruction: what is fetched, what is refused, and what the boundary does. -/

namespace Sys2Proof.Machine

/-- Settles O1: each word is decoded by evaluation. -/
theorem writtenWordsDecode : Obligations.WrittenWordsDecode := by
  unfold Obligations.WrittenWordsDecode
  exact ⟨rfl, rfl, rfl, rfl, rfl, rfl, rfl, rfl, rfl, rfl, rfl, rfl, rfl, rfl, rfl, rfl⟩

/-- Settles O60: each of the seven meanings is a refusal. -/
theorem undescribedInstructionsStop : Obligations.UndescribedInstructionsStop := by
  unfold Obligations.UndescribedInstructionsStop
  intro s byte src dst
  exact ⟨rfl, rfl, rfl, rfl, rfl, rfl, rfl⟩

/-- Settles O14: one written byte is read back and leaves the others, and a word is two of them. -/
theorem ramReadsWhatWasWritten : Obligations.RamReadsWhatWasWritten := by
  unfold Obligations.RamReadsWhatWasWritten
  intro s lin b v
  have same : ∀ (t : State) (x : Nat) (c : Byte), (t.setRamByte x c).ramByte x = c := fun t x c => by
    simp [State.setRamByte, State.ramByte, assocGet_assocSet]
  have other : ∀ (t : State) (x : Nat) (c : Byte) (a : Nat), a ≠ x → (t.setRamByte x c).ramByte a = t.ramByte a :=
    fun t x c a h => by simp [State.setRamByte, State.ramByte, assocGet_assocSet_of_ne _ _ h]
  have low : (s.setRamWord lin v).ramByte lin = v.extractLsb' 0 8 := by
    unfold State.setRamWord
    rw [other _ _ _ _ (by omega), same]
  have high : (s.setRamWord lin v).ramByte (lin + 1) = v.extractLsb' 8 8 := by
    unfold State.setRamWord
    rw [same]
  refine ⟨same s lin b, other s lin b, ?_, low, ?_, setRamWord_wf s lin v⟩
  · unfold State.ramWord
    rw [low, high]
    exact BitVec.extractLsb'_append_extractLsb'_eq_extractLsb' (by rfl) |>.trans (by simp)
  · intro a ha
    unfold State.setRamWord
    rw [other _ _ _ _ (by omega), other _ _ _ _ (by omega)]

/-! Running the instruction at the pc. -/

/-- An instruction that is fetched and that no loop forbids is executed, and then come the actions at its end. -/
theorem runOne_of_next {s t : State} {i : Instr} (hf : fetch s = .ok (i, s)) (hl : s.loopRefusal i = none)
    (hx : exec i s = .next t) : runOne s = .next (finish i s t) := by
  unfold runOne
  simp only [hf, hl, hx]

/-- A refusal of the instruction is the step's. -/
theorem runOne_of_exec_refused {s : State} {i : Instr} {r : Refusal} (hf : fetch s = .ok (i, s))
    (hl : s.loopRefusal i = none) (hx : exec i s = .refused r) : runOne s = .refused r := by
  unfold runOne
  simp only [hf, hl, hx]

/-- An instruction that is fetched and that a loop forbids is refused. -/
theorem runOne_of_forbidden {s : State} {i : Instr} {r : Refusal} (hf : fetch s = .ok (i, s))
    (hl : s.loopRefusal i = some r) : runOne s = .refused r := by
  unfold runOne
  simp only [hf, hl]

/-- A fetch that is refused is the end of the step. -/
theorem runOne_of_refused {s : State} {r : Refusal} (hf : fetch s = .error (.refuse r)) : runOne s = .refused r := by
  unfold runOne
  rw [hf]

/-- A well-formed instruction that stands at the pc is fetched. -/
theorem fetch_sampled {s : State} {i : Instr} (hh : s.holds i) (hw : i.wf = true) :
    fetch s.sampled = .ok (i, s.sampled) := by
  have h : s.sampled.holds i := hh
  rw [fetch_of_holds h, if_pos hw]

/-- Settles O3: a quiet boundary runs the instruction, and that is `exec` followed by `finish`. -/
theorem stepRunsTheInstruction : Obligations.StepRunsTheInstruction := by
  unfold Obligations.StepRunsTheInstruction
  intro i s hq hh hw hl
  rw [step_of_quiet hq]
  exact ⟨fun t ht => runOne_of_next (fetch_sampled hh hw) hl ht,
    fun r hr => runOne_of_exec_refused (fetch_sampled hh hw) hl hr⟩

/-- Outside the end of a `DO` loop only `REPEAT`, `DISI` and the records act. -/
theorem finish_of_idle {i : Instr} {s t : State} (hdo : doActs i s t = false) (hd : (repeatEnd s t).disicnt = 0#14) :
    finish i s t =
      { repeatEnd s t with nest := (repeatEnd s t).nestKept, haz := (repeatEnd s t).hazNext, hazNext := Hazard.none } := by
  rw [finish_apply, hdo]
  simp [State.disiTick, hd]

/-- Away from DOEND the loop action does not apply. -/
theorem doActs_of_away {i : Instr} {s t : State} (h : (s.da && t.da) = false ∨ s.pc ≠ t.doendPc) :
    doActs i s t = false := by
  unfold doActs
  rcases h with h | h <;> simp [h]

/-- Settles O4: `finish` away from DOEND, in the three cases of `repeatEnd`. -/
theorem endOfInstruction : Obligations.EndOfInstruction := by
  unfold Obligations.EndOfInstruction
  intro i s t haway hdisi
  have idle := fun h => finish_of_idle (i := i) (s := s) (t := t) (doActs_of_away haway) h
  refine ⟨fun hr => ?_, fun hs ht hc => ?_, fun hs ht hc => ?_, fun f => mem_nestKept⟩
  · have e : repeatEnd s t = t := by unfold repeatEnd; rw [hr]; rfl
    rw [idle (by rw [e]; exact hdisi), e]
  · have e : repeatEnd s t = { t with rcount := t.rcount - 1#16, pc := s.pc, repeatNew := false } := by
      unfold repeatEnd; rw [hs, if_pos (by simp [ht]), if_neg hc]
    rw [idle (by rw [e]; exact hdisi), e]
    rfl
  · have e : repeatEnd s t = { t with ra := false, repeatNew := false } := by
      unfold repeatEnd; rw [hs, if_pos (by simp [ht]), if_pos hc]
    rw [idle (by rw [e]; exact hdisi), e]
    rfl

/-- Settles O5: the fetch refuses by name, and `loopRefusal` names the rule that a loop breaks. -/
theorem whatIsNoInstructionStops : Obligations.WhatIsNoInstructionStops := by
  unfold Obligations.WhatIsNoInstructionStops
  intro s hq
  have run := step_of_quiet hq
  refine ⟨fun i hh hw => ?_, fun e ha hf hd => ?_, fun hp => ?_, fun i hh hw hra hforb => ?_,
    fun i hh hw hra hda hend hforb => ?_⟩
  · have h : s.sampled.holds i := hh
    rw [run, runOne_of_refused (r := .illFormed i) (by rw [fetch_of_holds h, hw]; rfl)]
  · have ha' : s.sampled.asmAt s.sampled.pc.toNat = none := ha
    have hd' : decode (s.sampled.progWord s.sampled.pc.toNat) s.sampled.secondWord = .error e := hd
    rw [run, runOne_of_refused (r := .undecodable e) (by rw [fetch_of_words ha' hf, hd'])]
  · rw [run]
    exact runOne_of_refused (fetch_of_absent (s := s.sampled) hp)
  · have hl : s.sampled.loopRefusal i = some .repeatTarget := by
      have hra' : s.sampled.ra = true := hra
      unfold State.loopRefusal
      rw [hra', hforb]
      rfl
    rw [run, runOne_of_forbidden (fetch_sampled hh hw) hl]
  · have hl : s.sampled.loopRefusal i = some .doLoopEnd := by
      have hra' : s.sampled.ra = false := hra
      have hda' : s.sampled.da = true := hda
      have hend' : s.sampled.atLoopEnd = true := hend
      unfold State.loopRefusal
      rw [hra', hda', hend', hforb]
      rfl
    rw [run, runOne_of_forbidden (fetch_sampled hh hw) hl]

/-! The boundary. -/

theorem step_of_running {s : State} (h : s.power = .run) : step s = boundary s := by
  unfold step stepState
  rw [if_pos h]

theorem step_of_stopped {s : State} (h : s.power ≠ .run) : step s = sleepStep s := by
  unfold step stepState
  rw [if_neg h]

theorem boundary_of_no_trap {s : State} (h : s.urgentTrap = none) : boundary s = sampleAndRun s := by
  unfold boundary
  rw [h]

/-- A request that is not accepted is as no request. -/
theorem sampleAndRun_of_not_accepted {s : State} {q : Irq} {rest : List (Option Irq)} (hi : s.irqs = some q :: rest)
    (ha : s.accepts q = false) : sampleAndRun s = sampleAndRun { s with irqs := none :: rest } := by
  unfold sampleAndRun
  rw [hi]
  simp only [ha]
  rfl

/-- Settles O12, clause by clause along the branches of `stepState`. -/
theorem boundaryWithoutEntry : Obligations.BoundaryWithoutEntry := by
  unfold Obligations.BoundaryWithoutEntry
  intro s
  refine ⟨fun q rest hp hi hu hn => ?_, fun k hp hk hh hl => ?_, fun hp hu hi => ?_, fun rest hp hu hi => ?_,
    fun q rest hp hu hi hq => ?_, fun k hp hu => ?_⟩
  · have ha : s.accepts q = false := by
      unfold State.accepts
      rcases hn with h | ⟨h1, h2⟩
      · rw [decide_eq_false (Nat.not_lt.mpr h), Bool.false_and]
      · rw [beq_eq_false_iff_ne.mpr h1, beq_eq_false_iff_ne.mpr h2, Bool.or_false, Bool.and_false]
    have hu' : State.urgentTrap { s with irqs := none :: rest } = none := hu
    rw [step_of_running hp, step_of_running (s := { s with irqs := none :: rest }) hp, boundary_of_no_trap hu,
      boundary_of_no_trap hu', sampleAndRun_of_not_accepted hi ha]
  · have hu : s.urgentTrap = some k := by
      unfold State.urgentTrap
      rw [hk]
      simp [hh]
    rw [step_of_running hp]
    unfold boundary
    rw [hu]
    simp only
    rw [if_neg (by omega)]
  · rw [step_of_stopped hp]
    unfold sleepStep
    rw [hu, hi]
  · rw [step_of_stopped hp]
    unfold sleepStep
    rw [hu, hi]
  · rw [step_of_stopped hp]
    unfold sleepStep
    rw [hu, hi]
    exact if_neg hq
  · rw [step_of_stopped hp]
    unfold sleepStep
    rw [hu]

/-! Exceptions. -/

/-- The trap of the greatest level is taken when it is above the current level (R376). -/
theorem step_of_trap {s : State} {k : TrapKind} (hp : s.power = .run) (hk : s.pending.highest s.dev = some k)
    (hl : s.level < k.level s.dev) : step s = takeTrap k s := by
  have hu : s.urgentTrap = some k := by
    unfold State.urgentTrap
    rw [hk]
    simp [hl]
  rw [step_of_running hp]
  unfold boundary
  rw [hu]
  simp only
  rw [if_pos hl]

/-- An accepted request is entered (R377). -/
theorem step_of_accepted {s : State} {q : Irq} {rest : List (Option Irq)} (hp : s.power = .run)
    (hu : s.urgentTrap = none) (hi : s.irqs = some q :: rest) (ha : s.accepts q = true) :
    step s = runInstr (enter (.irq q)) { s with irqs := rest } := by
  rw [step_of_running hp, boundary_of_no_trap hu]
  unfold sampleAndRun
  rw [hi]
  simp only
  rw [if_pos ha]

/-- What the divides are. -/
theorem isDivide_iff (i : Instr) : isDivide i = true ↔
    ∃ hi wm wn : Reg, i ∈ [Instr.divSW wm wn, .divSD hi wm wn, .divUW wm wn, .divUD hi wm wn, .divF wm wn] := by
  constructor
  · intro h
    cases i <;> simp only [isDivide, Bool.false_eq_true] at h
    case divSW wm wn => exact ⟨0, wm, wn, by simp⟩
    case divSD hi wm wn => exact ⟨hi, wm, wn, by simp⟩
    case divUW wm wn => exact ⟨0, wm, wn, by simp⟩
    case divUD hi wm wn => exact ⟨hi, wm, wn, by simp⟩
    case divF wm wn => exact ⟨0, wm, wn, by simp⟩
  · rintro ⟨hi, wm, wn, hm⟩
    simp only [List.mem_cons, List.not_mem_nil, or_false] at hm
    rcases hm with rfl | rfl | rfl | rfl | rfl <;> rfl

/-- Settles O10: the greatest pending trap is taken, and `enter_apply` says what an entry does. -/
theorem trapEntry : Obligations.TrapEntry := by
  unfold Obligations.TrapEntry
  intro s k hp hk hmax hl hpush hv u v
  refine ⟨fun i hh => ?_, ?_⟩
  · unfold State.dividing
    rw [atDivide_of_holds hh, ← isDivide_iff]
    simp [and_assoc]
  · rw [step_of_trap hp (highest_of_greatest hk hmax) hl]
    have hu : u.canPush2 = true := hpush
    have run : (upd (fun s : State => { s with pending := s.pending.put k false, taken := .trap k :: s.taken }) >>=
        fun _ => enter (.trap k)) s = enter (.trap k) u := rfl
    unfold takeTrap
    rw [runInstr_of_ok (run.trans (enter_apply (.trap k) hu hv)), enterMode_trap, pushed_interrupted]
    simp only [v, pushed_dev, pushed_cctxi, pushed_nest]
    rfl

/-- The context that an entry at a level selects is the least one assigned that level (R381). -/
theorem contextFor_of_least {s : State} {level : Nat} {n : Fin 5} (hn : s.contextAt n level = true)
    (hmin : ∀ m : Fin 5, s.contextAt m level = true → n.val ≤ m.val) : s.contextFor level = some n := by
  have below : ∀ m : Fin 5, m.val < n.val → s.contextAt m level = false := by
    intro m hm
    rw [Bool.eq_false_iff]
    intro h
    have := hmin m h
    omega
  have zero : s.contextAt 0 level = false := by simp [State.contextAt]
  unfold State.contextFor
  match n, hn, below with
  | 0, hn, _ => rw [zero] at hn; cases hn
  | 1, hn, _ => simp [hn]
  | 2, hn, below => simp [hn, below 1 (by decide)]
  | 3, hn, below => simp [hn, below 1 (by decide), below 2 (by decide)]
  | 4, hn, below => simp [hn, below 1 (by decide), below 2 (by decide), below 3 (by decide)]

/-- Without a context assigned the level none is selected for it. -/
theorem contextFor_of_none {s : State} {level : Nat} (h : ∀ n : Fin 5, s.contextAt n level = false) :
    s.contextFor level = none := by
  simp [State.contextFor, h]

/-- Settles O11: the accepted request is entered, and the context is the first that `contextFor` finds. -/
theorem interruptEntry : Obligations.InterruptEntry := by
  unfold Obligations.InterruptEntry
  intro s q rest hp hu hi hl hd hpush hv u v
  have ha : s.accepts q = true := by
    unfold State.accepts
    rw [decide_eq_true hl, Bool.true_and]
    rcases hd with h | h <;> simp [h]
  have hpush' : u.canPush2 = true := hpush
  have hfor : v.contextFor = s.contextFor := contextFor_congr (by simp [v]; rfl)
  refine ⟨v.contextOnEntry (some q.prio.val), ?_, fun n hn hmin => ?_, fun hnone => ?_⟩
  · rw [step_of_accepted hp hu hi ha, runInstr_of_ok (enter_apply (.irq q) hpush' hv), enterMode_irq, pushed_interrupted]
    simp only [v, pushed_intcon, pushed_nest]
    rfl
  · unfold State.contextOnEntry
    simp only [Option.bind_some, hfor, contextFor_of_least hn hmin]
  · unfold State.contextOnEntry
    simp only [Option.bind_some, hfor, contextFor_of_none hnone]
    simp [v]
    rfl

/-- Every copy of the DSP state that reset leaves is the reset one, so the visible one is. -/
theorem dspCur_of_reset {t : State} (h : t.dsp = State.reset.dsp) : t.dspCur = DspCtx.atReset := by
  have all : ∀ c : Fin 5, State.reset.dsp[c] = DspCtx.atReset := by decide
  unfold State.dspCur
  rw [h]
  exact all _

/-- SR reads 0 with every status bit clear. -/
theorem sr_of_reset {t : State} (hd : t.dspCur = DspCtx.atReset) (hf : t.flags = Flags.cleared) (hi : t.ipl = 0#3)
    (hr : t.ra = false) (hl : t.dl = 0#3) : t.sfrWord .sr = 0#16 := by
  show t.srh ++ t.srl = 0#16
  simp [State.srh, State.srl, State.da, hd, hf, hi, hr, hl, DspCtx.atReset, Flags.cleared]

/-- CORCON reads SATDW set on a device with the DSP engine, and 0 on another. -/
theorem corcon_of_reset {t : State} (hd : t.dspCur = DspCtx.atReset) (hi : t.ipl3 = false) (hs : t.sfa = false)
    (hl : t.dl = 0#3) : t.corcon = if t.dev.hasDsp then 0x0020#16 else 0#16 := by
  unfold State.corcon
  rw [hd, hi, hs, hl]
  cases t.dev.hasDsp <;> rfl

/-- Settles O9: a device Reset leaves `State.reset` in every field that the spec gives a reset value; the words of the
status registers are those of cleared bits. -/
theorem resetValues : Obligations.ResetValues := by
  unfold Obligations.ResetValues
  intro s cause asReset t
  have ctx : ∀ c : Fin 5, State.reset.ctx[c] = WCtx.cleared := by decide
  have dsp : ∀ c : Fin 5, State.reset.dsp[c] = DspCtx.atReset := by decide
  have stat : (0#5 ++ BitVec.ofNat 3 0 ++ 0#5 ++ BitVec.ofNat 3 0 : Word) = 0#16 := by decide
  have modcon : (BitVec.ofBool false ++ BitVec.ofBool false ++ 0#2 ++ 0#4 ++ 0#4 ++ 0#4 : Word) = 0#16 := by decide
  have level : (BitVec.ofBool false ++ 0#3).toNat = 0 := by decide
  have hd : t.dspCur = DspCtx.atReset := dspCur_of_reset rfl
  refine ⟨⟨rfl, rfl, ctx, by decide⟩, rfl, rfl, ?_, rfl, rfl, rfl, rfl⟩
  exact ⟨rfl, rfl, ctx, sr_of_reset hd rfl rfl rfl rfl, corcon_of_reset hd rfl rfl rfl, congrArg DspCtx.acca hd,
    congrArg DspCtx.accb hd, level, rfl, rfl, rfl, modcon, rfl, stat, rfl, rfl, rfl, rfl, rfl, rfl, dsp⟩

/-- Two selected contexts agree when the device, the level and the manually selected context do (R386). -/
theorem contextOnReturn_congr {s t : State} (hdev : t.dev = s.dev) (hl : t.level = s.level) (hm : t.mctxi = s.mctxi) :
    t.contextOnReturn = s.contextOnReturn := by
  unfold State.contextOnReturn
  rw [contextFor_congr hdev, hl, hm]

/-- Equal memories read alike. -/
theorem ramByte_congr {s t : State} (h : t.mem = s.mem) (a : Nat) : t.ramByte a = s.ramByte a := by
  unfold State.ramByte
  rw [h]

/-- With no record of a frame that ends there, nothing is left out. -/
theorem nestBut_of_fresh {s : State} {frame : Word} (h : ∀ f ∈ s.nest, f.frame ≠ frame) : s.nestBut frame = s.nest :=
  List.filter_eq_self.mpr fun f hf => by simp [h f hf]

/-- What holds only of records of a frame that ends there holds of none of the others. -/
theorem any_nestBut {s : State} {frame : Word} {p : Suspended → Bool} (h : ∀ f, f.frame ≠ frame → p f = false) :
    (s.nestBut frame).any p = false := by
  rw [List.any_eq_false]
  intro f hf
  have hne : f.frame ≠ frame := by simpa using (List.mem_filter.mp hf).2
  simp [h f hne]

/-- The state an entry leaves: the frame pushed, the mode of the handler, the pc at its first instruction (R380). -/
def State.entered (s : State) (e : Entry) : State :=
  { (((s.pushed (s.retLow s.pc)).pushed (s.excHigh s.pc)).enterMode e) with
    pc := handlerAddr (s.progWord (e.vector s.dev)) }

theorem entered_w15 (s : State) (e : Entry) :
    (s.entered e).w15 = ((s.pushed (s.retLow s.pc)).pushed (s.excHigh s.pc)).w15 := by cases e <;> rfl

theorem entered_mem (s : State) (e : Entry) :
    (s.entered e).mem = ((s.pushed (s.retLow s.pc)).pushed (s.excHigh s.pc)).mem := by cases e <;> rfl

theorem entered_nest (s : State) (e : Entry) : (s.entered e).nest =
    ((s.pushed (s.retLow s.pc)).pushed (s.excHigh s.pc)).interrupted :: s.nestBut (s.entered e).w15 := by
  rw [entered_w15]
  cases e <;> simp [State.entered, enterMode_trap, enterMode_irq, State.nestBut]

@[simp] theorem entered_dev (s : State) (e : Entry) : (s.entered e).dev = s.dev := by
  cases e <;> simp [State.entered, State.enterMode]

@[simp] theorem entered_splimEnabled (s : State) (e : Entry) : (s.entered e).splimEnabled = s.splimEnabled := by
  cases e <;> simp [State.entered, State.enterMode]

@[simp] theorem entered_circular (s : State) (e : Entry) : (s.entered e).circular = s.circular := by
  cases e <;> simp [State.entered, State.enterMode, State.circular]

@[simp] theorem entered_flags (s : State) (e : Entry) : (s.entered e).flags = s.flags := by
  cases e <;> simp [State.entered, State.enterMode]

@[simp] theorem entered_mctxi (s : State) (e : Entry) : (s.entered e).mctxi = s.mctxi := by
  cases e <;> simp [State.entered, State.enterMode]

@[simp] theorem entered_rcount (s : State) (e : Entry) : (s.entered e).rcount = s.rcount := by
  cases e <;> simp [State.entered, State.enterMode]

@[simp] theorem entered_div (s : State) (e : Entry) : (s.entered e).div = s.div := by
  cases e <;> simp [State.entered, State.enterMode]

/-- What `RETFIE` leaves but for the context it selects: the two popped words h and l give the status, SFA and the pc, and
the record of the handler is taken back (R385). -/
def State.excReturned (s : State) : State :=
  { (s.popped.popped.restoreStatus s.top).leaveHandler s.w15 s.top s.popped.top with
    sfa := s.popped.top.getLsbD 0, pc := retTarget s.top s.popped.top }

theorem exec_retfie {s : State} (h : s.canPop2 = true) :
    exec .retfie s = .next { s.excReturned with cctxi := s.excReturned.contextOnReturn } :=
  runInstr_of_ok (exceptionReturn_apply h)

@[simp] theorem excReturned_dev (s : State) : s.excReturned.dev = s.dev := by
  simp [State.excReturned, State.leaveHandler, State.restoreStatus]

@[simp] theorem excReturned_mctxi (s : State) : s.excReturned.mctxi = s.mctxi := by
  simp [State.excReturned, State.leaveHandler, State.restoreStatus]

@[simp] theorem excReturned_rcount (s : State) : s.excReturned.rcount = s.rcount := by
  simp [State.excReturned, State.leaveHandler, State.restoreStatus]

@[simp] theorem excReturned_div (s : State) : s.excReturned.div = s.div := by
  simp [State.excReturned, State.leaveHandler, State.restoreStatus]

@[simp] theorem excReturned_mem (s : State) : s.excReturned.mem = s.mem := by
  simp [State.excReturned, State.leaveHandler, State.restoreStatus]

@[simp] theorem excReturned_w15 (s : State) : s.excReturned.w15 = s.popped.popped.w15 := by
  simp only [State.excReturned, State.leaveHandler, State.restoreStatus]

theorem excReturned_nest (s : State) : s.excReturned.nest = s.nestBut s.w15 := by
  simp [State.excReturned, State.leaveHandler, State.restoreStatus, State.nestBut]

theorem excReturned_repeatNew (s : State) : s.excReturned.repeatNew =
    s.nest.any fun f => f.repeatNew && f.frame == s.w15 && f.high == s.top && f.low == s.popped.top := by
  simp [State.excReturned, State.leaveHandler, State.restoreStatus]

theorem excReturned_flags (s : State) : s.excReturned.flags =
    { s.flags with c := s.top.getLsbD 8, z := s.top.getLsbD 9, ov := s.top.getLsbD 10, n := s.top.getLsbD 11 } := by
  simp [State.excReturned, State.leaveHandler, State.restoreStatus]

theorem excReturned_level (s : State) :
    s.excReturned.level = (BitVec.ofBool (s.top.getLsbD 7) ++ s.top.extractLsb' 13 3).toNat := by
  simp only [State.excReturned, State.leaveHandler, State.restoreStatus, State.level]

/-- Settles O13: `exceptionReturn_apply` on the frame that `enter_apply` pushed, whose words read back as `frame_pc`,
`low_of_append` and `excHigh_bits` say. -/
theorem returnUndoesEntry : Obligations.ReturnUndoesEntry := by
  unfold Obligations.ReturnUndoesEntry
  intro s u q hpush hen hpc hv he
  have hev : s.w15.getLsbD 0 = false := (canPush2_facts hpush).2.1
  have hu : s.entered (.irq q) = u := by
    rw [runInstr_of_ok (enter_apply (.irq q) hpush hv)] at he
    exact Host.Outcome.next.inj he
  have hframe := entered_w15 s (.irq q)
  obtain ⟨hpop, htop, htop2, hw15, hmem, hsame⟩ := pop2_of_push2 (s.retLow s.pc) (s.excHigh s.pc) hpush hen
    (s.entered (.irq q)) hframe (entered_mem s _) (entered_dev s _) ((entered_splimEnabled s _).trans hen)
    (entered_circular s _)
  obtain ⟨hc, hz, hov, hn, hra, hipl3, hipl⟩ := excHigh_bits s s.pc
  have hw4 : (s.entered (.irq q)).w15 = s.w15 + 4#16 := by
    have e := pushed_w15 s (s.retLow s.pc) hev
    rw [hframe, pushed_w15 _ _ (by rw [e]; exact even_add2 _ hev), e, BitVec.add_assoc]
    rfl
  have hnest := entered_nest s (.irq q)
  rw [hu] at hpop htop htop2 hw15 hsame hw4 hnest hframe
  have hflags : u.flags = s.flags := hu ▸ entered_flags s _
  have hdev : u.dev = s.dev := hu ▸ entered_dev s _
  have hmctxi : u.mctxi = s.mctxi := hu ▸ entered_mctxi s _
  have hrcount : u.rcount = s.rcount := hu ▸ entered_rcount s _
  have hdiv : u.div = s.div := hu ▸ entered_div s _
  refine ⟨_, exec_retfie hpop, ?_, ?_, ?_, ?_, ?_, ?_, (excReturned_w15 u).trans hw15, ?_, ?_, ?_, ?_, ?_, fun hfresh => ?_, fun a ha => ?_⟩
  · show retTarget u.top u.popped.top = s.pc
    rw [htop, htop2, frame_pc s s.pc hpc]
  · show u.popped.top.getLsbD 0 = s.sfa
    rw [htop2]
    exact low_of_append _ _
  · show u.top.getLsbD 12 = s.ra
    rw [htop, hra]
  · show u.top.extractLsb' 13 3 = s.ipl
    rw [htop, hipl]
  · show u.top.getLsbD 7 = s.ipl3
    rw [htop, hipl3]
  · show u.excReturned.flags = s.flags
    rw [excReturned_flags, htop, hc, hz, hov, hn, hflags]
  · show u.excReturned.contextOnReturn = s.contextOnReturn
    refine contextOnReturn_congr (by rw [excReturned_dev, hdev]) ?_ (by rw [excReturned_mctxi, hmctxi])
    rw [excReturned_level, htop, hipl3, hipl]
    rfl
  · show u.excReturned.mctxi = s.mctxi
    rw [excReturned_mctxi, hmctxi]
  · show u.excReturned.rcount = s.rcount
    rw [excReturned_rcount, hrcount]
  · show u.excReturned.div = s.div
    rw [excReturned_div, hdiv]
  · show u.excReturned.repeatNew = s.repeatNew
    rw [excReturned_repeatNew, htop, htop2, hnest, pushed_interrupted, ← hframe, List.any_cons,
      any_nestBut fun f hf => by simp [hf]]
    simp
  · show u.excReturned.nest = s.nest
    have hne : ∀ f ∈ s.nest, f.frame ≠ u.w15 := fun f hf h => hfresh f hf (h.trans hw4)
    rw [excReturned_nest]
    unfold State.nestBut
    rw [hnest, pushed_interrupted, ← hframe, List.filter_cons_of_neg (by simp), nestBut_of_fresh hne]
    exact nestBut_of_fresh hne
  · exact (ramByte_congr (excReturned_mem u) a).trans (hsame a ha)

end Sys2Proof.Machine
end

section
/-! Moves, the stack, and the registers at their data addresses. -/

namespace Sys2Proof.Machine

/-- `MOV` with a source that is read and a destination that is written without a trap (R171). -/
theorem exec_movReg {byte : Bool} {wb : Reg} {src dst : Operand} {s t u : State} {v : Word}
    (hs : s.source? byte wb src = some (v, t)) (hd : t.dest? byte wb dst v = some u) :
    exec (.movReg byte wb src dst) s = .next (u.advanced 1) :=
  runInstr_of_ok (by rw [bind_of_ok (readOp_of_source hs), bind_of_ok (writeOp_of_dest hd)]; rfl)

/-- Settles O25: each form reads its file register and then writes, by the lemmas of the accesses. -/
theorem moveFile : Obligations.MoveFile := by
  unfold Obligations.MoveFile
  intro s t v
  refine ⟨fun lit wd => rfl, fun f15 wd hr => ?_, fun ws f15 hw => ?_, fun byte f13 hw => ?_,
    fun byte toFile f13 hr hw hsr => ?_⟩
  · exact runInstr_of_ok (bind_of_ok (readFile_of_dataRead hr) _)
  · exact runInstr_of_ok (by rw [ask_bind, bind_of_ok (memWrite_of_dataWrite hw)]; rfl)
  · exact runInstr_of_ok (by rw [ask_bind, bind_of_ok (memWrite_of_dataWrite hw)]; rfl)
  · exact runInstr_of_ok (by
      rw [bind_of_ok (readFile_of_dataRead hr), bind_of_ok (writeFileOrWreg_of_fileDest hw), hsr,
        bind_of_ok (writeFlags_of_plain _ _)]
      rfl)

/-- Settles O26: the second word is checked and accessed in the state the first access left. -/
theorem moveDouble : Obligations.MoveDouble := by
  unfold Obligations.MoveDouble
  intro s r q
  refine ⟨rfl, rfl, ?_, ?_⟩
  · intro op a lo hi hop ha hlo t hhi
    obtain ⟨hsettled, hen, hhaz⟩ := settled_of_access ha
    have hcheck : checkVia a.via (a.ea + 2#16) (decide (0x10000 ≤ a.ea.toNat + 2)) true a.state = .ok ((), t) :=
      checkVia_of_settled _ _ _ _ (by rw [Bool.true_and, hen, hhaz]; exact hsettled)
    have hread : readDouble op s = .ok ((lo, hi), t.postModified op 4#16) := by
      unfold readDouble
      rw [if_neg hop]
      exact withEA_of_access ha (by
        rw [bind_of_ok (memRead_of_dataRead hlo), bind_of_ok hcheck, bind_of_ok (memRead_of_dataRead hhi)]; rfl)
    exact runInstr_of_ok (bind_of_ok hread _)
  · intro op a t u hop ha hlo hhi
    have hwrite : writeDouble op (s.wreg r) (s.wreg (r + 1#4)) s = .ok ((), u.postModified op 4#16) := by
      unfold writeDouble
      rw [if_neg hop]
      exact withEA_of_access ha (by
        rw [bind_of_ok (memWrite_of_dataWrite hlo), bind_of_ok (checkVia_of_settled _ _ _ _ (by simp))]
        exact memWrite_of_dataWrite hhi)
    exact runInstr_of_ok (by rw [ask_bind, ask_bind, bind_of_ok hwrite]; rfl)

/-- A register other than W15 reads the word that was written to it. -/
theorem wreg_setWreg_self {s : State} {r : Reg} (v : Word) (h : r ≠ 15#4) : (s.setWreg r v).wreg r = v := by
  have hlt : r.toNat < 15 := by
    have := r.isLt
    have : r.toNat ≠ 15 := fun e => h (BitVec.eq_of_toNat_eq e)
    omega
  rw [wreg_setWreg, if_pos hlt]

/-- In a state with the memory and the stack pointer a push left, the word it stored can be popped, and the pop gives the
stack pointer back. -/
theorem pop_of_push {s t : State} (v : Word) (h : s.canPush = true) (hw : t.w15 = (s.pushed v).w15)
    (hm : t.mem = (s.pushed v).mem) (hd : t.dev = s.dev) (hen : t.splimEnabled = false)
    (hc : t.circular = s.circular) : t.canPop = true ∧ t.top = v ∧ t.popped.w15 = s.w15 := by
  obtain ⟨heven, -, himpl⟩ := canPush_facts h
  have hw15 : t.w15 = s.w15 + 2#16 := hw.trans (pushed_w15 s v heven)
  have hback : t.w15 - 2#16 = s.w15 := by rw [hw15, BitVec.add_sub_cancel]
  have heven' : t.w15.getLsbD 0 = false := by rw [hw15]; exact even_add2 _ heven
  refine ⟨canPop_intro heven' ?_ hen (hc.trans (canPush_circular h)), ?_, ?_⟩
  · rw [hback]; simpa [State.implemented, hd] using himpl
  · unfold State.top State.ramWord
    rw [hback, ramByte_congr hm, ramByte_congr hm]
    exact ramWord_pushed s v h
  · rw [popped_w15 _ heven', hback]

/-- `POP Wd` in a state that can pop (R179). -/
theorem exec_pop {s : State} (q : Reg) (h : s.canPop = true) :
    exec (.movReg false 0#4 ⟨.preDec, 15#4⟩ ⟨.direct, q⟩) s = .next ((s.popped.setWreg q s.top).advanced 1) :=
  exec_movReg (stackRead h) rfl

/-- Settles O27: `stackWrite` and `stackRead` say that the two moves are a push and a pop; `pop_of_push` says that the
pop undoes the push. -/
theorem pushPop : Obligations.PushPop := by
  unfold Obligations.PushPop
  intro s
  refine ⟨fun r q hpush hc hen hr hq => ⟨?_, ?_⟩, fun f15 v hread hpush => ?_, fun f15 t hpop hwrite => ?_⟩
  · exact exec_movReg (t := s) rfl (stackWrite _ hpush)
  · generalize ht : (s.pushed (s.wreg r)).advanced 1 = t
    have hm : t.mem = (s.pushed (s.wreg r)).mem := by rw [← ht, advanced_mem]
    obtain ⟨hpop, htop, hw15⟩ := pop_of_push (t := t) (s.wreg r) hpush (by rw [← ht, advanced_w15]) hm
      (by rw [← ht]; simp) (by rw [← ht]; simpa using hen) (by rw [← ht]; simp [State.circular])
    refine ⟨_, exec_pop q hpop, ?_, ?_, ?_, fun a ha => ?_, ?_⟩
    · exact (wreg_setWreg_self _ hq).trans htop
    · exact (w15_setWreg_of_ne _ _ _ hq).trans hw15
    · have hpopped : sameRegistersBut s t.popped [] :=
        regs_of_eq (by simp [← ht]) (by simp [← ht]) hw15 _
      exact regs_trans hpopped (setWreg_regs _ q _) (by simp [← ht])
    · exact (ramByte_congr (by simp [hm]) a).trans (sameMem_pushed s (s.wreg r) hpush a ha)
    · simp [← ht]
  · exact runInstr_of_ok (by rw [bind_of_ok (readFile_of_dataRead hread), bind_of_ok (push16_of_canPush _ hpush)]; rfl)
  · exact runInstr_of_ok (by rw [bind_of_ok (pop16_of_canPop hpop), bind_of_ok (memWrite_of_dataWrite hwrite)]; rfl)

/-- `LNK` after the `StackError` it may raise (R184). -/
theorem lnk_apply {u : State} (lit : BitVec 14) (h : u.canPush = true) :
    (do push16 (← ask fun s => s.wreg 14#4)
        upd fun s => s.setWreg 14#4 s.w15
        upd fun s => s.setWreg 15#4 (s.w15 + lit.zeroExtend 16)
        upd fun s => { s with sfa := true }
        advance 1 : M Unit) u =
      let t := u.pushed (u.wreg 14#4)
      .ok ((), { (t.setWreg 14#4 t.w15).setWreg 15#4 (t.w15 + lit.zeroExtend 16) with sfa := true }.advanced 1) := by
  rw [ask_bind, bind_of_ok (push16_of_canPush _ h), upd_bind, upd_bind, w15_setWreg_of_ne _ _ _ (by decide)]
  rfl

/-- `ULNK` after the `StackError` it may raise (R185). -/
theorem ulnk_apply {s : State} (h : (s.setWreg 15#4 (s.wreg 14#4)).canPop = true) :
    (do upd fun s => s.setWreg 15#4 (s.wreg 14#4)
        let v ← pop16
        upd fun s => s.setWreg 14#4 v
        upd fun s => { s with sfa := false }
        advance 1 : M Unit) s =
      let u := s.setWreg 15#4 (s.wreg 14#4)
      .ok ((), { u.popped.setWreg 14#4 u.top with sfa := false }.advanced 1) := by
  rw [upd_bind, bind_of_ok (pop16_of_canPop h)]
  rfl

/-- Settles O31: the two cases of SFA, which decide on the `StackError`. -/
theorem stackFrames : Obligations.StackFrames := by
  unfold Obligations.StackFrames
  intro s
  refine ⟨?_, ?_⟩
  · intro lit hpush
    refine runInstr_of_ok ?_
    rw [ask_bind]
    cases s.sfa
    · exact lnk_apply lit hpush
    · exact lnk_apply (u := s.addPending .stackError) lit hpush
  · intro u hpop
    refine runInstr_of_ok ?_
    rw [ask_bind]
    revert u
    cases s.sfa
    · exact fun hpop => ulnk_apply (s := s.addPending .stackError) hpop
    · exact fun hpop => ulnk_apply hpop

/-- A byte that a data read delivers is zero-extended (R106). -/
theorem dataRead_byte {s : State} {via : Via} {ea v : Word} (h : s.dataRead? via ea true = some v) :
    v.toNat < 256 := by
  have hext : ∀ b : Byte, (b.zeroExtend 16).toNat < 256 := by
    intro b
    rw [BitVec.zeroExtend, BitVec.toNat_setWidth_of_le (by decide)]
    exact b.isLt
  have hlane : ∀ a w, (laneOf true a w).toNat < 256 := by
    intro a w
    unfold laneOf byteLane lowByte
    rw [if_pos rfl]
    split <;> exact hext _
  unfold State.dataRead? at h
  simp only [Bool.not_true, Bool.false_and, Bool.false_eq_true, if_false, if_true] at h
  split at h
  · split at h
    · split at h
      · cases h
      · cases h; exact hlane _ _
    · cases h
  · cases h; exact hext _
  · split at h
    · cases h; exact hlane _ _
    · cases h
  · split at h
    · cases h; exact hlane _ _
    · cases h
  · cases h

/-- A byte source operand is zero-extended (R120). -/
theorem source_byte {s t : State} {wb : Reg} {op : Operand} {v : Word} (h : s.source? true wb op = some (v, t)) :
    v.toNat < 256 := by
  unfold State.source? at h
  split at h
  · cases h; simp only [State.regSource, lowByte, if_true, BitVec.zeroExtend]
    rw [BitVec.toNat_setWidth_of_le (by decide)]
    exact BitVec.isLt _
  · split at h
    · split at h
      next hr => cases h; exact dataRead_byte hr
      · cases h
    · cases h

/-- The end of `SE` and `ZE`: the register, then the flags. -/
theorem writeExtended (wd : Reg) (r : Word) (t : State) :
    (upd (fun s => s.setWreg wd r) >>= fun _ => writeFlags false (extendFlags r) >>= fun _ => advance 1) t =
      .ok ((), ((t.setWreg wd r).withFlags (extendFlags r t.flags)).advanced 1) := by
  rw [upd_bind, bind_of_ok (writeFlags_of_plain _ _), setWreg_flags]
  rfl

/-- Settles O32: the extended byte is written and then the flags; a byte operand is below 256 (`source_byte`). -/
theorem byteExtension : Obligations.ByteExtension := by
  unfold Obligations.ByteExtension
  intro src wd s t b hs
  have hread := readOp_of_source hs
  refine ⟨runInstr_of_ok ((bind_of_ok hread _).trans (writeExtended wd _ t)), ?_⟩
  have hbit : b.getLsbD 15 = false := by
    rw [BitVec.getLsbD, Nat.testBit_lt_two_pow (Nat.lt_trans (source_byte hs) (by decide))]
  have hn : extendFlags b t.flags = { t.flags with n := false, z := b == 0#16, c := true } := by
    simp only [extendFlags, Flags.withNZ, msb, hbit, Bool.false_eq_true, if_false, Bool.not_false]
  rw [← hn]
  exact runInstr_of_ok ((bind_of_ok hread _).trans (writeExtended wd b t))

/-- A table read at an implemented program address delivers its part of the program word (R190). -/
theorem tableRead_of_access {byte : Bool} {src : Operand} {s : State} {a : Access} (pick : Bool → ProgWord → Word)
    (ha : s.access? src 0#4 (stepOf byte) true = some a) (hodd : byte = false → a.ea.getLsbD 0 = false)
    (hbit : (a.state.tblpag ++ a.ea).getLsbD 23 = false)
    (hprog : (a.state.tblpag ++ a.ea).toNat - (a.state.tblpag ++ a.ea).toNat % 2 < 2 * s.dev.progWords) :
    tableRead byte src pick s =
      .ok (pick ((a.state.tblpag ++ a.ea).getLsbD 0)
        (s.progWord ((a.state.tblpag ++ a.ea).toNat - (a.state.tblpag ++ a.ea).toNat % 2)),
        a.state.postModified src (stepOf byte)) := by
  obtain ⟨hdev, hp⟩ := access_dev ha
  refine withEA_of_access ha ?_
  have haligned : ¬ ((!byte && a.ea.getLsbD 0) = true) := by
    cases byte
    · rw [hodd rfl]; decide
    · exact Bool.false_ne_true
  have haddr : ∀ n, a.state.progWord n = s.progWord n := by intro n; unfold State.progWord; rw [hp]
  rw [ite_apply_state, if_neg haligned, ask_bind]
  unfold State.tableAddr
  rw [ite_apply_state, hbit, if_neg (by decide), bind_of_ok (by rw [progRead_apply, hdev, if_pos hprog]), haddr]
  rfl

/-- Settles O33: the two picks of `tableRead_of_access`. -/
theorem tableReads : Obligations.TableReads := by
  unfold Obligations.TableReads
  intro byte src dst s t a ha adr p hodd hbit hprog
  refine ⟨fun hd => runInstr_of_ok ?_, fun hd => runInstr_of_ok ?_⟩
  · exact (bind_of_ok (tableRead_of_access (tableLow byte) ha hodd hbit hprog) _).trans (bind_of_ok (writeOp_of_dest hd) _)
  · exact (bind_of_ok (tableRead_of_access (tableHigh byte) ha hodd hbit hprog) _).trans (bind_of_ok (writeOp_of_dest hd) _)

end Sys2Proof.Machine
end

section
/-! The registers: working registers, their data addresses, and what data writes to the others do. -/

namespace Sys2Proof.Machine

/-! Shadow registers. -/

/-- What `POP.S` leaves of the registers is what its four word writes leave (R183). -/
theorem restoreShadows_regs (s : State) : sameRegistersBut s s.restoreShadows [0#4, 1#4, 2#4, 3#4] := by
  have h01 := regs_trans (setWreg_regs s 0#4 s.shadowW[0]) (setWreg_regs _ 1#4 s.shadowW[1]) (by simp)
  have h02 := regs_trans h01 (setWreg_regs _ 2#4 s.shadowW[2]) (by simp)
  have h03 := regs_trans h02 (setWreg_regs _ 3#4 s.shadowW[3]) (by simp)
  have h := regs_trans h03 (regs_of_eq (t := s.restoreShadows) rfl rfl rfl []) (by simp)
  exact regs_mono h (by decide)

theorem elsewhere_restoreShadows (s : State) : sameElsewhere s s.restoreShadows :=
  elsewhere_trans (elsewhere_trans (elsewhere_trans (elsewhere_trans (elsewhere_setWreg s 0#4 _)
    (elsewhere_setWreg _ 1#4 _)) (elsewhere_setWreg _ 2#4 _)) (elsewhere_setWreg _ 3#4 _)) rfl

/-- What `POP.S` leaves in each of W0 to W3. -/
theorem restoreShadows_wreg (s : State) : s.restoreShadows.wreg 0#4 = s.shadowW[0] ∧
    s.restoreShadows.wreg 1#4 = s.shadowW[1] ∧ s.restoreShadows.wreg 2#4 = s.shadowW[2] ∧
    s.restoreShadows.wreg 3#4 = s.shadowW[3] := by
  have h : s.restoreShadows.wreg = ((((s.setWreg 0#4 s.shadowW[0]).setWreg 1#4 s.shadowW[1]).setWreg 2#4
    s.shadowW[2]).setWreg 3#4 s.shadowW[3]).wreg := rfl
  have hne : ∀ {a b : Reg}, a ≠ b → ∀ (t : State) v, (t.setWreg b v).wreg a = t.wreg a :=
    fun h t v => wreg_setWreg_of_ne t v h
  rw [h]
  refine ⟨?_, ?_, ?_, wreg_setWreg_self _ (by decide)⟩
  · rw [hne (by decide), hne (by decide), hne (by decide), wreg_setWreg_self _ (by decide)]
  · rw [hne (by decide), hne (by decide), wreg_setWreg_self _ (by decide)]
  · rw [hne (by decide), wreg_setWreg_self _ (by decide)]

/-- Settles O29: `POP.S` is four word writes and the flags. -/
theorem shadowRegisters : Obligations.ShadowRegisters := by
  unfold Obligations.ShadowRegisters
  intro s
  obtain ⟨h0, h1, h2, h3⟩ := restoreShadows_wreg s
  refine ⟨exec_pushS s, s.restoreShadows.advanced 1, rfl, rfl, h0, h1, h2, h3, restoreShadows_regs s, ?_, ?_, ?_, ?_, ?_,
    ?_⟩
  · simp [State.restoreShadows]
  · simp [State.restoreShadows]
  · simp [State.restoreShadows]
  · exact ramByte_congr (by simp [State.restoreShadows])
  · exact elsewhere_trans (elsewhere_restoreShadows s) rfl
  · simp [State.restoreShadows]

/-! Moves between a register and a memory-mapped register. -/

theorem wordAddr_toNat (f15 : BitVec 15) : (wordAddr f15).toNat = 2 * f15.toNat := by
  unfold wordAddr
  rw [BitVec.toNat_append]
  simp [Nat.shiftLeft_eq, Nat.mul_comm]

theorem wordAddr_bit0 (f15 : BitVec 15) : (wordAddr f15).getLsbD 0 = false :=
  (even_iff _).mpr (wordAddr_even f15)

/-- A word read at the address of a register (R114). -/
theorem dataRead_of_sfr {s : State} {f15 : BitVec 15} {q : Sfr} (hq : sfrAt s.dev (wordAddr f15).toNat = some q)
    (hclosed : s.opensOnRead q = false) : s.dataRead? .paged (wordAddr f15) false = some (s.sfrWord q) := by
  have heven := wordAddr_even f15
  unfold State.dataRead? State.readTarget
  rw [wordAddr_bit0, if_neg (by decide), if_pos (sfrAt_lt hq)]
  simp only [heven, Nat.sub_zero, hq, hclosed]
  rfl

/-- A word write at the address of a register (R114). -/
theorem dataWrite_of_sfr {s : State} {f15 : BitVec 15} {q : Sfr} (v : Word)
    (hq : sfrAt s.dev (wordAddr f15).toNat = some q) :
    s.dataWrite? .paged (wordAddr f15) false v = s.sfrWritten? q .word v := by
  have heven := wordAddr_even f15
  unfold State.dataWrite? State.writeTarget
  rw [wordAddr_bit0, if_neg (by decide), if_pos (sfrAt_lt hq)]
  simp only [heven, Nat.sub_zero, hq]
  rfl

/-- `MOV f, Wn` from a register (R173). -/
theorem exec_movFileToW_sfr {s : State} {f15 : BitVec 15} {q : Sfr} (r : Reg)
    (hq : sfrAt s.dev (wordAddr f15).toNat = some q) (hclosed : s.opensOnRead q = false) :
    exec (.movFileToW f15 r) s = .next ((s.setWreg r (s.sfrWord q)).advanced 1) :=
  runInstr_of_ok (bind_of_ok (readFile_of_dataRead (dataRead_of_sfr hq hclosed)) _)

/-- `MOV Wn, f` to a register (R174). -/
theorem exec_movWToFile_sfr {s t : State} {r : Reg} {f15 : BitVec 15} {q : Sfr}
    (hq : sfrAt s.dev (wordAddr f15).toNat = some q) (hw : s.sfrWritten? q .word (s.wreg r) = some t) :
    exec (.movWToFile r f15) s = .next (t.advanced 1) :=
  runInstr_of_ok (by rw [ask_bind, bind_of_ok (memWrite_of_dataWrite ((dataWrite_of_sfr _ hq).trans hw))]; rfl)

/-- Settles O18: the data addresses of the working registers come first in `sfrAt`. -/
theorem workingRegisters : Obligations.WorkingRegisters := by
  unfold Obligations.WorkingRegisters
  intro s r k v
  have hk : sfrAt s.dev (wordAddr (k.zeroExtend 15)).toNat = some (.w k) := by
    have hlt := k.isLt
    have hn : (wordAddr (k.zeroExtend 15)).toNat = 2 * k.toNat := by
      rw [wordAddr_toNat, BitVec.toNat_setWidth_of_le (by decide)]
    unfold sfrAt
    rw [hn, if_pos (by omega), Nat.mul_div_cancel_left _ (by decide), BitVec.ofNat_toNat, BitVec.setWidth_eq]
  refine ⟨wreg_setWreg_self v, ?_, ?_, setWreg_regs s r v, exec_movWToFile_sfr hk rfl, exec_movFileToW_sfr r hk rfl⟩
  · rw [wreg_setWreg, if_neg (by decide)]
  · unfold State.winit State.setWreg
    split <;> simp [State.curCtx]

end Sys2Proof.Machine
end

section
/-! Data writes to the memory-mapped registers: the map, SPLIM, the read-only ones, and what each register stores. -/

namespace Sys2Proof.Machine

/-! The register map (R93). -/

theorem mem_mapped {q : Sfr} (h : ∀ r, q ≠ .w r) : q ∈ Sfr.mapped := by
  cases q
  case w r => exact absurd rfl (h r)
  all_goals decide

/-- In a well-formed map the registers lie above the working registers, and no two at one address. -/
theorem mapWf_facts {m : SfrMap} (h : sfrMapWf m = true) {q : Sfr} (hq : q ∈ Sfr.mapped) :
    0x20 ≤ sfrAddr m q ∧ ∀ p ∈ Sfr.mapped, sfrAddr m p = sfrAddr m q → p = q := by
  unfold sfrMapWf at h
  simp only [List.all_eq_true, Bool.and_eq_true, decide_eq_true_eq, Bool.or_eq_true, beq_iff_eq, bne_iff_ne] at h
  obtain ⟨⟨-, hge⟩, hne⟩ := h q hq
  exact ⟨hge, fun p hp e => ((hne p hp).resolve_right fun hn => hn e.symm).symm⟩

theorem sfrAt_of_low {dev : Device} {a : Nat} (h : a < 0x20) : sfrAt dev a = some (.w (BitVec.ofNat 4 (a / 2))) := by
  unfold sfrAt; rw [if_pos h]

theorem sfrAt_of_high {dev : Device} {a : Nat} (h : ¬ a < 0x20) :
    sfrAt dev a = Sfr.mapped.find? fun r => hasSfr dev r && sfrAddr dev.sfrMap r == a := by
  unfold sfrAt; rw [if_neg h]

/-- A register the device has is found at its address. -/
theorem sfrAt_sfrAddr {dev : Device} {q : Sfr} (hwf : sfrMapWf dev.sfrMap = true) (hq : hasSfr dev q = true) :
    sfrAt dev (sfrAddr dev.sfrMap q) = some q := by
  by_cases hw : ∃ r, q = .w r
  · obtain ⟨r, rfl⟩ := hw
    have hlt := r.isLt
    have haddr : sfrAddr dev.sfrMap (.w r) = 2 * r.toNat := rfl
    rw [haddr, sfrAt_of_low (by omega), Nat.mul_div_cancel_left _ (by decide), BitVec.ofNat_toNat, BitVec.setWidth_eq]
  · have hmem := mem_mapped (not_exists.mp hw)
    obtain ⟨hge, huniq⟩ := mapWf_facts hwf hmem
    rw [sfrAt_of_high (by omega)]
    cases hf : Sfr.mapped.find? fun r => hasSfr dev r && sfrAddr dev.sfrMap r == sfrAddr dev.sfrMap q with
    | none => exact absurd (List.find?_eq_none.mp hf q hmem) (by simp [hq])
    | some p =>
      have hp := List.find?_some hf
      simp only [Bool.and_eq_true, beq_iff_eq] at hp
      rw [huniq p (List.mem_of_find?_eq_some hf) hp.2]

/-- What is found at an even address is the register the map places there. -/
theorem sfrAddr_of_sfrAt {dev : Device} {a : Nat} {q : Sfr} (heven : a % 2 = 0) (h : sfrAt dev a = some q) :
    sfrAddr dev.sfrMap q = a ∧ hasSfr dev q = true := by
  by_cases ha : a < 0x20
  · rw [sfrAt_of_low ha] at h
    cases h
    refine ⟨?_, rfl⟩
    show 2 * (BitVec.ofNat 4 (a / 2)).toNat = a
    rw [BitVec.toNat_ofNat]
    omega
  · rw [sfrAt_of_high ha] at h
    have hq := List.find?_some h
    simp only [Bool.and_eq_true, beq_iff_eq] at hq
    exact ⟨hq.2, hq.1⟩

/-! Byte writes at the address of a register. -/

/-- A byte write at one of the two addresses of a register (R114). -/
theorem dataWrite_byte_of_sfr {s : State} {ea : Word} {q : Sfr} (v : Word)
    (hq : sfrAt s.dev (ea.toNat - ea.toNat % 2) = some q) :
    s.dataWrite? .paged ea true v =
      if ea.toNat % 2 = 0 then s.sfrWritten? q .low v else s.sfrWritten? q .high (v <<< 8) := by
  have hlt := sfrAt_lt hq
  unfold State.dataWrite? State.writeTarget
  rw [if_neg (by simp), if_pos (by omega)]
  simp only [hq, if_true]

/-- `MOV.B WREG, f` to one byte of a register (R175). -/
theorem exec_movWregToFile_sfr {s t : State} {f13 : BitVec 13} {q : Sfr}
    (hq : sfrAt s.dev ((nearAddr f13).toNat - (nearAddr f13).toNat % 2) = some q)
    (hw : (if f13.getLsbD 0 then s.sfrWritten? q .high (lowByte (s.wreg 0#4) <<< 8)
      else s.sfrWritten? q .low (lowByte (s.wreg 0#4))) = some t) :
    exec (.movWregToFile true f13) s = .next (t.advanced 1) := by
  have hbit : f13.getLsbD 0 = decide ((nearAddr f13).toNat % 2 = 1) := by
    simp only [nearAddr, BitVec.getLsbD, Nat.testBit_zero, BitVec.toNat_setWidth_of_le (show 13 ≤ 16 by decide)]
  have hwrite : s.dataWrite? .paged (nearAddr f13) true (s.regSource true 0#4) = some t := by
    rw [dataWrite_byte_of_sfr _ hq, ← hw, hbit]
    by_cases h : (nearAddr f13).toNat % 2 = 0
    · rw [if_pos h, if_neg (by simp [h])]; rfl
    · rw [if_neg h, if_pos (by simp only [decide_eq_true_eq]; omega)]; rfl
  exact runInstr_of_ok (by rw [ask_bind, bind_of_ok (memWrite_of_dataWrite hwrite)]; rfl)

/-- A byte operand in the high lane is that of the whole register. -/
theorem lowByte_shift (v : Word) : lowByte v <<< 8 = v <<< 8 := by
  apply BitVec.eq_of_toNat_eq
  simp only [lowByte, BitVec.toNat_shiftLeft, BitVec.zeroExtend, BitVec.toNat_setWidth, BitVec.extractLsb'_toNat,
    Nat.shiftLeft_eq, Nat.shiftRight_zero]
  omega

theorem lowByte_getLsbD (v : Word) {i : Nat} (h : i < 8) : (lowByte v).getLsbD i = v.getLsbD i := by
  simp [-BitVec.getLsbD_eq_getElem, lowByte, h, show i < 16 by omega]

theorem lowByte_extract (v : Word) : (lowByte v).extractLsb' 0 8 = v.extractLsb' 0 8 := by
  apply BitVec.eq_of_toNat_eq
  simp [lowByte]

/-- A data write to PCL or PCH is refused (R35). -/
theorem exec_movWToFile_pc {s : State} {r : Reg} {f15 : BitVec 15} {q : Sfr} (hpc : q = .pcl ∨ q = .pch)
    (hq : sfrAt s.dev (wordAddr f15).toNat = some q) : exec (.movWToFile r f15) s = .refused .pcWrite := by
  have hmem : memWrite .paged (wordAddr f15) false (s.wreg r) s = .error (.refuse .pcWrite) := by
    have heven := wordAddr_even f15
    unfold memWrite State.writeTarget
    rw [ite_apply_state, wordAddr_bit0, if_neg (by decide), ask_bind, if_pos (sfrAt_lt hq)]
    show sfrWriteAt _ _ _ _ _ = _
    unfold sfrWriteAt
    rw [ask_bind]
    simp only [heven, Nat.sub_zero, hq]
    rcases hpc with rfl | rfl <;> rfl
  exact runInstr_of_refuse (by rw [ask_bind, bind_of_error hmem])

/-- Settles O21. -/
theorem stackLimitAndReadOnly : Obligations.StackLimitAndReadOnly := by
  unfold Obligations.StackLimitAndReadOnly
  refine ⟨fun dev a q hwf => ⟨sfrAt_sfrAddr hwf, sfrAddr_of_sfrAt⟩, ?_⟩
  intro s r f15 f13 target
  refine ⟨fun hq => ?_, fun hodd hq => ?_, fun hq => ?_, fun hq => ?_⟩
  · exact ⟨_, exec_movWToFile_sfr hq rfl, rfl, by simp [State.writeSplim], rfl, rfl, rfl, fun a => rfl⟩
  · have heven : (nearAddr f13).toNat % 2 = 0 := by
      have h := (even_iff _).mp hodd
      unfold nearAddr
      rwa [BitVec.toNat_setWidth_of_le (by decide)]
    refine ⟨_, exec_movWregToFile_sfr (by rw [heven]; exact hq) (by rw [hodd, if_neg (by decide)]; rfl), ?_, ?_⟩
    · rw [← lowByte_extract]; rfl
    · simp [State.writeSplim]
  · rcases hq with hq | hq
    · exact exec_movWToFile_pc (.inl rfl) hq
    · exact exec_movWToFile_pc (.inr rfl) hq
  · rcases hq with hq | hq | hq <;> exact exec_movWToFile_sfr hq rfl

/-! The bits a register stores. -/

/-- A field at the low end of a register reads back with zeros above it. -/
theorem lowField (v : Word) (n : Nat) (h : n ≤ 16) :
    (v.extractLsb' 0 n).zeroExtend 16 = v &&& BitVec.ofNat 16 (2 ^ n - 1) := by
  have hpow : 2 ^ n ≤ 2 ^ 16 := Nat.pow_le_pow_right (by decide) h
  have hpos : 0 < 2 ^ n := Nat.pow_pos (by decide)
  apply BitVec.eq_of_toNat_eq
  rw [BitVec.toNat_and, BitVec.toNat_ofNat, Nat.mod_eq_of_lt (by omega), Nat.and_two_pow_sub_one_eq_mod,
    BitVec.zeroExtend, BitVec.toNat_setWidth_of_le h, BitVec.extractLsb'_toNat, Nat.shiftRight_zero]

/-- The bits of a register whose bit 0 is not stored. -/
theorem upperField_bit (v : Word) (b : BitVec 1) {i : Nat} (hi : i < 16) :
    (v.extractLsb' 1 15 ++ b).getLsbD i = if i = 0 then b.getLsbD 0 else v.getLsbD i := by
  rw [BitVec.getLsbD_append]
  rcases Nat.eq_zero_or_pos i with rfl | hpos
  · rfl
  · rw [if_neg (by simp; omega), if_neg (by omega), BitVec.getLsbD_extractLsb', decide_eq_true (by omega),
      Bool.true_and, show 1 + (i - 1) = i by omega]

/-- A register whose bit 0 reads 0. -/
theorem evenField (v : Word) : v.extractLsb' 1 15 ++ 0#1 = v &&& 0xFFFE#16 := by
  have hmask : ∀ j : Fin 16, (0xFFFE#16).getLsbD j.val = decide (j.val ≠ 0) := by decide
  apply BitVec.eq_of_getLsbD_eq
  intro i hi
  rw [upperField_bit v _ hi, BitVec.getLsbD_and, hmask ⟨i, hi⟩]
  by_cases h : i = 0 <;> simp [h]

/-- A register whose bit 0 reads 1. -/
theorem oddField (v : Word) : v.extractLsb' 1 15 ++ 1#1 = v ||| 1#16 := by
  have hmask : ∀ j : Fin 16, (1#16).getLsbD j.val = decide (j.val = 0) := by decide
  apply BitVec.eq_of_getLsbD_eq
  intro i hi
  rw [upperField_bit v _ hi, BitVec.getLsbD_or, hmask ⟨i, hi⟩]
  by_cases h : i = 0 <;> simp [h]

/-- A word is its bits put together again. -/
theorem topBit_append (v : Word) : BitVec.ofBool (v.getLsbD 15) ++ v.extractLsb' 0 15 = v := by
  apply BitVec.eq_of_getLsbD_eq
  intro i hi
  rw [BitVec.getLsbD_append]
  by_cases h : i < 15
  · simp [-BitVec.getLsbD_eq_getElem, h]
  · obtain rfl : i = 15 := by omega
    simp

theorem below_sixteen {i : Nat} (h : i < 16) : i = 0 ∨ i = 1 ∨ i = 2 ∨ i = 3 ∨ i = 4 ∨ i = 5 ∨ i = 6 ∨ i = 7 ∨ i = 8 ∨
    i = 9 ∨ i = 10 ∨ i = 11 ∨ i = 12 ∨ i = 13 ∨ i = 14 ∨ i = 15 := by omega

/-- The registers whose stored bits are at neither end of the word. -/
theorem modcon_word (s : State) (v : Word) : (s.sfrStore .modcon v).sfrWord .modcon = v &&& 0xCFFF#16 := by
  have hmask : ∀ j : Fin 16, (0xCFFF#16).getLsbD j.val = decide (j.val < 12 ∨ 13 < j.val) := by decide
  apply BitVec.eq_of_getLsbD_eq
  intro i hi
  rw [BitVec.getLsbD_and, hmask ⟨i, hi⟩]
  simp only [State.sfrStore, State.sfrWord, BitVec.getLsbD_append, BitVec.getLsbD_extractLsb']
  rcases below_sixteen hi with rfl | rfl | rfl | rfl | rfl | rfl | rfl | rfl | rfl | rfl | rfl | rfl | rfl | rfl | rfl | rfl
  all_goals simp

theorem mstrpr_word (s : State) (v : Word) : (s.sfrStore .mstrpr v).sfrWord .mstrpr = v &&& 0x0029#16 := by
  have hmask : ∀ j : Fin 16, (0x0029#16).getLsbD j.val = decide (j.val = 0 ∨ j.val = 3 ∨ j.val = 5) := by decide
  apply BitVec.eq_of_getLsbD_eq
  intro i hi
  rw [BitVec.getLsbD_and, hmask ⟨i, hi⟩]
  simp only [State.sfrStore, State.sfrWord, BitVec.getLsbD_append]
  rcases below_sixteen hi with rfl | rfl | rfl | rfl | rfl | rfl | rfl | rfl | rfl | rfl | rfl | rfl | rfl | rfl | rfl | rfl
  all_goals simp

/-- A field of a concatenation that is its second part. -/
theorem extract_append_right {m n : Nat} (x : BitVec m) (v : BitVec n) : (x ++ v).extractLsb' 0 n = v := by
  apply BitVec.eq_of_getLsbD_eq
  intro i hi
  rw [BitVec.getLsbD_extractLsb', BitVec.getLsbD_append, Nat.zero_add, if_pos hi, decide_eq_true hi, Bool.true_and]

/-- A field of a concatenation that is its first part. -/
theorem extract_append_left {m n : Nat} (x : BitVec m) (v : BitVec n) : (x ++ v).extractLsb' n m = x := by
  apply BitVec.eq_of_getLsbD_eq
  intro i hi
  rw [BitVec.getLsbD_extractLsb', BitVec.getLsbD_append, if_neg (by omega), decide_eq_true hi, Bool.true_and,
    Nat.add_sub_cancel_left]

/-- A field of a concatenation of three that is its middle part. -/
theorem extract_append_middle {l m n : Nat} (x : BitVec l) (v : BitVec m) (y : BitVec n) :
    (x ++ v ++ y).extractLsb' n m = v := by
  apply BitVec.eq_of_getLsbD_eq
  intro i hi
  rw [BitVec.getLsbD_extractLsb', BitVec.getLsbD_append, if_neg (by omega), Nat.add_sub_cancel_left,
    BitVec.getLsbD_append, if_pos hi, decide_eq_true hi, Bool.true_and]

/-- The three registers of an accumulator read back what is stored in them (R60, R61). -/
theorem acc_words (s : State) (v : Word) :
    (s.sfrStore .accal v).sfrWord .accal = v ∧ (s.sfrStore .accah v).sfrWord .accah = v ∧
    (s.sfrStore .accbl v).sfrWord .accbl = v ∧ (s.sfrStore .accbh v).sfrWord .accbh = v ∧
    (s.sfrStore .accau v).sfrWord .accau = (v.extractLsb' 0 8).signExtend 16 ∧
    (s.sfrStore .accbu v).sfrWord .accbu = (v.extractLsb' 0 8).signExtend 16 := by
  simp only [State.sfrStore, State.sfrWord, acc_setAcc]
  exact ⟨extract_append_right _ v, extract_append_middle _ v _, extract_append_right _ v, extract_append_middle _ v _,
    congrArg _ (extract_append_left _ _), congrArg _ (extract_append_left _ _)⟩

/-- The low byte of INTCON1 takes the bits of the written byte. -/
theorem writeIntcon1_low (b : IntBits) (v : Word) : b.writeIntcon1 .low (lowByte v) =
    { b with sftacerr := b.sftacerr && v.getLsbD 7, div0err := b.div0err && v.getLsbD 6 } := by
  rw [← lowByte_getLsbD v (show 7 < 8 by decide), ← lowByte_getLsbD v (show 6 < 8 by decide)]
  rfl

/-- Settles O22: the word a store leaves, register by register; then the data writes to INTCON1 and INTCON3, lane by
lane. -/
theorem registersHoldTheirBits : Obligations.RegistersHoldTheirBits := by
  unfold Obligations.RegistersHoldTheirBits
  intro s v
  obtain ⟨hal, hah, hbl, hbh, hau, hbu⟩ := acc_words s v
  have hdoendh : (s.sfrStore .doendh v).sfrWord .doendh = v &&& 0x007F#16 := by
    show ((v.extractLsb' 0 7 ++ s.doend.extractLsb' 0 15).extractLsb' 15 7).zeroExtend 16 = _
    rw [extract_append_left]
    exact lowField v 7 (by decide)
  have hdoendl : (s.sfrStore .doendl v).sfrWord .doendl = v &&& 0xFFFE#16 := by
    show (s.doend.extractLsb' 15 7 ++ v.extractLsb' 1 15).extractLsb' 0 15 ++ 0#1 = _
    rw [extract_append_right, evenField]
  refine ⟨?_, rfl, hau, hbu, lowField v 10 (by decide), lowField v 9 (by decide), lowField v 8 (by decide), hdoendl,
    hdoendh, modcon_word s v, evenField v, oddField v, evenField v, oddField v, lowField v 14 (by decide),
    mstrpr_word s v, ?_⟩
  · simp only [List.forall_mem_cons]
    exact ⟨rfl, rfl, topBit_append v, hal, hah, hbl, hbh, fun _ h => nomatch h⟩
  · intro r f15 f13 b high low third becomes w0 even
    refine ⟨fun hq => exec_movWToFile_sfr (t := { s with intcon := _ }) hq rfl, fun hq => exec_movWToFile_sfr (t := { s with intcon := _ }) hq rfl, fun hq => ?_,
      fun hq => ?_⟩
    · refine exec_movWregToFile_sfr (t := { s with intcon := _ }) hq ?_
      cases f13.getLsbD 0
      · show some { s with intcon := b.writeIntcon1 .low (lowByte w0) } = _
        rw [writeIntcon1_low]
        rfl
      · show some { s with intcon := b.writeIntcon1 .high (lowByte w0 <<< 8) } = _
        rw [lowByte_shift]
        rfl
    · refine exec_movWregToFile_sfr (t := { s with intcon := _ }) hq ?_
      cases f13.getLsbD 0
      · show some { s with intcon := { b with doovr := b.doovr && (lowByte w0).getLsbD 4 } } = _
        rw [lowByte_getLsbD _ (by decide)]
        rfl
      · rfl

end Sys2Proof.Machine
end

section
/-! Data writes to SR and CORCON. -/

namespace Sys2Proof.Machine

/-- SRH after a write without a race, on a device with the DSP engine (R49). -/
theorem srhWritten_dspCur {s : State} (v : Word) (h : s.dev.hasDsp = true) : (s.srhWritten v).dspCur =
    { s.dspCur with
      sa := v.getLsbD 13 && !s.clearsSab v, sb := v.getLsbD 12 && !s.clearsSab v,
      oa := v.getLsbD 15 && !s.clearsOab v, ob := v.getLsbD 14 && !s.clearsOab v } := by
  have hwd : (s.writeDc v).dspCur = s.dspCur := rfl
  unfold State.srhWritten
  rw [if_pos h]
  simp only [State.writeOvf, State.writeSat, State.setOvf, State.setSat, State.clearsOab, State.clearsSab, dspCur_setDsp,
    hwd]

/-- SRH after a write changes the DSP state and DC only. -/
theorem srhWritten_rest (s : State) (v : Word) :
    s.srhWritten v = { s with flags := { s.flags with dc := v.getLsbD 8 }, dsp := (s.srhWritten v).dsp } := by
  unfold State.srhWritten
  split <;> rfl

/-- Without the DSP engine a write to SRH leaves the DSP state (R48). -/
theorem srhWritten_of_none {s : State} (v : Word) (h : s.dev.hasDsp = false) : (s.srhWritten v).dsp = s.dsp := by
  unfold State.srhWritten
  rw [h, if_neg (by decide)]
  rfl

/-- Settles O19: SR is written as SRL and then as SRH. -/
theorem statusWrite : Obligations.StatusWrite := by
  unfold Obligations.StatusWrite
  intro s r f15 hq hrace
  have hrace' : (s.writeSrl (s.wreg r)).srhRace (s.wreg r) = false := hrace
  have hw : s.sfrWritten? .sr .word (s.wreg r) = some ((s.writeSrl (s.wreg r)).srhWritten (s.wreg r)) := by
    show (if (s.writeSrl (s.wreg r)).srhRace (s.wreg r) = true then none else _) = _
    rw [hrace', if_neg (by decide)]
    rfl
  have hdsp := srhWritten_dspCur (s := s.writeSrl (s.wreg r)) (s.wreg r)
  have hnone := srhWritten_of_none (s := s.writeSrl (s.wreg r)) (s.wreg r)
  have hrest := srhWritten_rest (s.writeSrl (s.wreg r)) (s.wreg r)
  generalize (s.writeSrl (s.wreg r)).srhWritten (s.wreg r) = t at hw hdsp hnone hrest
  refine ⟨_, exec_movWToFile_sfr hq hw, congrArg State.flags hrest, congrArg State.ipl hrest, (congrArg State.ra hrest :),
    (congrArg State.dl hrest :), (congrArg (fun u : State => u.pc + 2#23) hrest :), fun hd => ?_, hnone, (congrArg State.ctx hrest :),
    (congrArg State.w15 hrest :), ramByte_congr (congrArg State.mem hrest :)⟩
  have e := hdsp hd
  exact ⟨(congrArg DspCtx.sa e :), (congrArg DspCtx.sb e :), (congrArg DspCtx.oa e :), (congrArg DspCtx.ob e :),
    (congrArg DspCtx.acca e :), (congrArg DspCtx.accb e :)⟩

/-! CORCON. -/

/-- The DSP control bits `d` written to the copy in use, or to every copy (R63, R86). -/
def State.controlWritten (s : State) (d : DspCtx) : State :=
  if s.dev.dspContexts then
    if s.cctxi = 0 then
      if s.corconReplicate then s.replicateControl d else s.setDsp d
    else { s.setDsp d with corconReplicate := false }
  else s.setDsp d

/-- What a word write to CORCON leaves of IPL3 and EDT, before the DSP control bits. -/
def State.corconStatus (s : State) (v : Word) : State :=
  if v.getLsbD 11 then State.writeEdt { s with ipl3 := s.ipl3 && v.getLsbD 3 } else { s with ipl3 := s.ipl3 && v.getLsbD 3 }

theorem writeCorcon_word {s : State} (v : Word) (h : s.dev.hasDsp = true) :
    s.writeCorcon .word v = (s.corconStatus v).controlWritten ((s.corconStatus v).dspCur.writeControl .word v) := by
  unfold State.writeCorcon
  simp only [Lanes.hasLow, Lanes.hasHigh, if_true, Bool.true_and, h]
  rfl

theorem writeEdt_rest (s : State) : s.writeEdt = { s with edt := s.writeEdt.edt } := by
  unfold State.writeEdt
  split <;> rfl

theorem corconStatus_rest (s : State) (v : Word) :
    s.corconStatus v = { s with ipl3 := s.ipl3 && v.getLsbD 3, edt := (s.corconStatus v).edt } := by
  unfold State.corconStatus
  split
  · rw [writeEdt_rest]
  · rfl

/-- What the control bits' write leaves of everything else, and that it ends the replication outside context 0 (R86). -/
theorem controlWritten_rest (s : State) (d : DspCtx) : s.controlWritten d =
    { s with dsp := (s.controlWritten d).dsp,
             corconReplicate := s.corconReplicate && !(s.dev.dspContexts && s.cctxi != 0) } := by
  unfold State.controlWritten
  by_cases hd : s.dev.dspContexts = true
  · rw [if_pos hd]
    by_cases hc : s.cctxi = 0
    · have hrep : (s.corconReplicate && !(s.dev.dspContexts && s.cctxi != 0)) = s.corconReplicate := by simp [hc]
      rw [if_pos hc, hrep]
      by_cases hr : s.corconReplicate = true
      · rw [if_pos hr]; rfl
      · rw [if_neg hr]; rfl
    · have hrep : (s.corconReplicate && !(s.dev.dspContexts && s.cctxi != 0)) = false := by simp [hd, hc]
      rw [if_neg hc, hrep]
      rfl
  · have hrep : (s.corconReplicate && !(s.dev.dspContexts && s.cctxi != 0)) = s.corconReplicate := by simp [hd]
    rw [if_neg hd, hrep]
    rfl

/-- Replacing the visible DSP state leaves the other copies. -/
theorem dsp_setDsp_of_ne (s : State) (d : DspCtx) {c : Fin 5} (h : c ≠ s.dspIdx) : (s.setDsp d).dsp[c] = s.dsp[c] :=
  Vector.getElem_set_ne s.dspIdx.isLt c.isLt fun e => h (Fin.ext e.symm)

/-- What the control bits' write leaves in each copy (R63): the copy in use takes them, the others when the write
replicates. -/
theorem controlWritten_dsp (s : State) {d : DspCtx} {i : Fin 5} (hi : s.dspIdx = i) (hd : s.dspCur.withControl d = d) :
    (s.controlWritten d).dsp[i] = d ∧
    ∀ c : Fin 5, c ≠ i → (s.controlWritten d).dsp[c] =
      if s.dev.dspContexts = true ∧ s.cctxi = 0 ∧ s.corconReplicate = true then s.dsp[c].withControl d else s.dsp[c] := by
  subst hi
  have hset := dspCur_setDsp s d
  unfold State.controlWritten
  by_cases hx : s.dev.dspContexts = true
  · rw [if_pos hx]
    by_cases hc : s.cctxi = 0
    · rw [if_pos hc]
      by_cases hr : s.corconReplicate = true
      · rw [if_pos hr]
        have hrep := (replicateControl_dsp s d).2
        exact ⟨(hrep s.dspIdx).trans hd, fun c _ => by rw [hrep, if_pos ⟨hx, hc, hr⟩]⟩
      · rw [if_neg hr]
        exact ⟨hset, fun c h => by rw [dsp_setDsp_of_ne s d h, if_neg fun e => hr e.2.2]⟩
    · rw [if_neg hc]
      exact ⟨hset, fun c h => (dsp_setDsp_of_ne s d h).trans (by rw [if_neg fun e => hc e.2.1])⟩
  · rw [if_neg hx]
    exact ⟨hset, fun c h => by rw [dsp_setDsp_of_ne s d h, if_neg fun e => hx e.1]⟩

theorem writeEdt_edt (s : State) : s.writeEdt.edt =
    if s.da then (if s.pc = s.doendPc ∨ s.pc = s.doendPc - 2#23 then .late else .armed) else s.edt := by
  unfold State.writeEdt
  split <;> rfl

/-- What a write to CORCON does to EDT (R326). -/
theorem corconStatus_edt (s : State) (v : Word) : (s.corconStatus v).edt =
    if v.getLsbD 11 = true ∧ s.dl ≠ 0#3 then
      (if s.pc = s.doendPc ∨ s.pc + 2#23 = s.doendPc then .late else .armed)
    else s.edt := by
  have hsub : (s.pc = s.doendPc - 2#23) = (s.pc + 2#23 = s.doendPc) := propext BitVec.eq_sub_iff_add_eq
  unfold State.corconStatus
  by_cases hv : v.getLsbD 11 = true
  · rw [if_pos hv, writeEdt_edt]
    show (if (s.dl != 0#3) = true then (if s.pc = s.doendPc ∨ s.pc = s.doendPc - 2#23 then Edt.late else .armed)
      else s.edt) = _
    simp only [hv, hsub, true_and, bne_iff_ne]
  · rw [if_neg hv, if_neg fun h => hv h.1]

/-- The visible DSP state, with its index known. -/
theorem dspCur_of_idx {s : State} {i : Fin 5} (h : s.dspIdx = i) : s.dspCur = s.dsp[i] := by
  subst h
  rfl

/-- Settles O20: `writeCorcon_word` in two parts, IPL3 and EDT, and the control bits. -/
theorem coreControlWrite : Obligations.CoreControlWrite := by
  unfold Obligations.CoreControlWrite
  intro s r f15 hq hdsp
  have hw : s.sfrWritten? .corcon .word (s.wreg r) = some _ := congrArg some (writeCorcon_word (s.wreg r) hdsp)
  have hedt := corconStatus_edt s (s.wreg r)
  have hstatus := corconStatus_rest s (s.wreg r)
  generalize s.corconStatus (s.wreg r) = u at hw hedt hstatus
  have hcur : u.dspCur = s.dspCur := by
    rw [hstatus]
    rfl
  have hidx : u.dspIdx = s.dspIdx := by
    rw [hstatus]
    rfl
  obtain ⟨hhere, hother⟩ := controlWritten_dsp u (d := u.dspCur.writeControl .word (s.wreg r)) hidx rfl
  have hrest := controlWritten_rest u (u.dspCur.writeControl .word (s.wreg r))
  rw [hcur] at hw hhere hother hrest
  generalize u.controlWritten (s.dspCur.writeControl .word (s.wreg r)) = t at hw hhere hother hrest
  have hidxt : t.dspIdx = s.dspIdx := by
    rw [hrest, hstatus]
    rfl
  have hrest' : t = { s with
      dsp := t.dsp
      ipl3 := s.ipl3 && (s.wreg r).getLsbD 3
      edt := u.edt
      corconReplicate := s.corconReplicate && !(s.dev.dspContexts && s.cctxi != 0) } := by
    rw [hstatus] at hrest ⊢
    exact hrest
  have ht : t.edt = _ := (congrArg State.edt hrest').trans hedt
  refine ⟨_, exec_movWToFile_sfr hq hw, ?_⟩
  refine ⟨rfl, ?_, hhere, fun c hc => ?_, (congrArg State.corconReplicate hrest' :), (congrArg State.ipl3 hrest' :),
    (congrArg State.dl hrest' :), (congrArg State.sfa hrest' :), (congrArg State.ipl hrest' :),
    (congrArg State.flags hrest' :), (congrArg State.ctx hrest' :), (congrArg State.cctxi hrest' :),
    (congrArg State.w15 hrest' :), (congrArg (fun u : State => u.pc + 2#23) hrest' :),
    ramByte_congr (congrArg State.mem hrest' :), fun h => ?_, fun h1 h2 => ⟨fun h3 => ?_, fun h3 h4 => ?_⟩⟩
  · exact dspCur_of_idx hidxt
  · rw [hstatus] at hother
    exact hother c hc
  · exact ht.trans (if_neg fun e => h.elim (fun h => by rw [h] at e; cases e.1) e.2)
  · exact ht.trans ((if_pos ⟨h1, h2⟩).trans (if_pos h3))
  · exact ht.trans ((if_pos ⟨h1, h2⟩).trans (if_neg (not_or.mpr ⟨h3, h4⟩)))

end Sys2Proof.Machine
end

section
/-! Additions, shifts, and the bit instructions. -/

namespace Sys2Proof.Machine

/-! Flags in integers. -/

@[simp] theorem width_word : width false = 16 := rfl

@[simp] theorem width_byte : width true = 8 := rfl

/-- The most significant bit of an operand of the operation width. -/
theorem msb_eq {byte : Bool} {v : Word} (h : byte = true → v.toNat < 256) :
    msb byte v = decide (2 ^ (width byte - 1) ≤ v.toNat) := by
  have hlt := v.isLt
  cases byte
  · show v.getLsbD 15 = _
    rw [BitVec.getLsbD, Nat.testBit_eq_decide_div_mod_eq]
    exact decide_eq_decide.mpr (by simp; omega)
  · have h := h rfl
    show v.getLsbD 7 = _
    rw [BitVec.getLsbD, Nat.testBit_eq_decide_div_mod_eq]
    exact decide_eq_decide.mpr (by simp; omega)

theorem addResult_toNat (byte : Bool) (a b : Word) :
    (addResult byte a b).toNat = (a.toNat + b.toNat) % 2 ^ width byte := by
  unfold addResult
  rw [BitVec.toNat_ofNat]
  cases byte
  · exact Nat.mod_mod _ _
  · rw [width_byte]; omega

theorem toNat_beq_zero (r : Word) : (r == 0#16) = decide (r.toNat = 0) := by
  rw [Bool.eq_iff_iff, beq_iff_eq, decide_eq_true_eq]
  exact ⟨fun h => by rw [h]; rfl, fun h => BitVec.eq_of_toNat_eq h⟩

/-- Settles O34: every flag is a comparison of the sum (`msb_eq`, `addResult_toNat`); OV is the two ways in which a
signed sum leaves the range. -/
theorem additionFlags : Obligations.AdditionFlags := by
  unfold Obligations.AdditionFlags
  intro byte a b hlt w signed r fl
  have hr : r.toNat = (a.toNat + b.toNat) % 2 ^ width byte := addResult_toNat byte a b
  have hwidth : w = width byte := rfl
  have hlt' : byte = true → r.toNat < 256 := by
    intro h
    rw [hr, h]
    exact Nat.mod_lt _ (by decide)
  have ha := msb_eq fun h => (hlt h).1
  have hb := msb_eq fun h => (hlt h).2
  have hn := msb_eq hlt'
  have hsigned : ∀ v, signed v =
      if v.toNat < 2 ^ (width byte - 1) then (v.toNat : Int) else (v.toNat : Int) - 2 ^ width byte := fun _ => rfl
  have hz : fl.z = decide (r.toNat = 0) := toNat_beq_zero r
  have hov : fl.ov = ((msb byte a == msb byte b) && (msb byte r != msb byte a)) := rfl
  refine ⟨hr, decide_eq_true_iff, by rw [hz, decide_eq_true_iff], ?_, ?_, decide_eq_true_iff⟩
  · show msb byte r = true ↔ _
    rw [hn, decide_eq_true_iff, hwidth]
  · rw [hov, ha, hb, hn]
    simp only [Bool.and_eq_true, beq_iff_eq, bne_iff_ne, ne_eq, decide_eq_decide, hsigned, hwidth]
    have h1 := a.isLt
    have h2 := b.isLt
    cases byte
    · simp only [width_word] at hr ⊢
      omega
    · obtain ⟨h3, h4⟩ := hlt rfl
      simp only [width_byte] at hr ⊢
      omega

/-! `ADD`. -/

/-- Settles O35: read, write, then the flags, which are plain unless the destination is SR. -/
theorem addForms : Obligations.AddForms := by
  unfold Obligations.AddForms
  intro byte s u
  refine ⟨fun wb src dst t b hs hd hsr => ?_, fun wb lit dst hd hsr => ?_, fun toFile f13 a hr hd => ⟨fun hsr => ?_,
    fun hsr => ?_⟩, fun lit wn hlit => ?_⟩
  · exact runInstr_of_ok (by
      rw [ask_bind, bind_of_ok (readOp_of_source hs), bind_of_ok (writeOp_of_dest hd), hsr,
        bind_of_ok (writeFlags_of_plain _ _)]
      rfl)
  · exact runInstr_of_ok (by
      rw [ask_bind, bind_of_ok (writeOp_of_dest hd), hsr, bind_of_ok (writeFlags_of_plain _ _)]
      rfl)
  · exact runInstr_of_ok (by
      rw [bind_of_ok (readFile_of_dataRead hr), ask_bind, bind_of_ok (writeFileOrWreg_of_fileDest hd), hsr,
        bind_of_ok (writeFlags_of_plain _ _)]
      rfl)
  · exact runInstr_of_ok (by
      rw [bind_of_ok (readFile_of_dataRead hr), ask_bind, bind_of_ok (writeFileOrWreg_of_fileDest hd), hsr]
      rfl)
  · have hb : (if byte then lowByte (lit.zeroExtend 16) else lit.zeroExtend 16 : Word) = lit.zeroExtend 16 := by
      cases byte
      · rfl
      · have h := hlit rfl
        apply BitVec.eq_of_toNat_eq
        simp only [lowByte, if_true, BitVec.zeroExtend, BitVec.toNat_setWidth, BitVec.extractLsb'_toNat,
          Nat.shiftRight_zero]
        omega
    show execAddLit10 byte lit wn s = _
    unfold execAddLit10
    refine runInstr_of_ok ?_
    simp only [hb]
    rw [ask_bind, upd_bind, bind_of_ok (writeFlags_of_plain _ _)]
    rfl

/-! Single-bit shifts. -/

/-- The flags of a single-bit shift after its result is written; OV is drawn first. -/
theorem shiftFlags_apply (byte : Bool) (r : ShiftResult) (u : State) :
    (drawBit >>= fun ov => writeFlags false (shiftFlags byte r ov) >>= fun _ => advance 1) u =
      .ok ((), ({ u with free := u.free + 1 }.withFlags
        { u.flags with n := msb byte r.value, z := r.value == 0#16, c := r.carry,
                       ov := Config.anyBit u.free }).advanced 1) := rfl

theorem shiftReg_apply {byte : Bool} {src dst : Operand} {f : Word → ShiftResult} {s t u : State} {v : Word}
    (hs : s.source? byte 0#4 src = some (v, t)) (hd : t.dest? byte 0#4 dst (f v).value = some u)
    (hsr : t.destIsSr byte 0#4 dst = false) : shiftReg byte src dst f s =
      .ok ((), ({ u with free := u.free + 1 }.withFlags
        { u.flags with n := msb byte (f v).value, z := (f v).value == 0#16, c := (f v).carry,
                       ov := Config.anyBit u.free }).advanced 1) := by
  unfold shiftReg
  rw [bind_of_ok (readOp_of_source hs)]
  show (writeOp _ _ _ _ >>= _) t = _
  rw [bind_of_ok (writeOp_of_dest hd), hsr]
  exact shiftFlags_apply byte (f v) u

theorem shiftFile_apply {byte toFile : Bool} {f13 : BitVec 13} {f : Word → ShiftResult} {s u : State} {v : Word}
    (hr : s.dataRead? .paged (nearAddr f13) byte = some v)
    (hd : s.fileDest? byte toFile (nearAddr f13) (f v).value = some u)
    (hsr : fileIsSr s.dev byte toFile (nearAddr f13) = false) : shiftFile byte toFile f13 f s =
      .ok ((), ({ u with free := u.free + 1 }.withFlags
        { u.flags with n := msb byte (f v).value, z := (f v).value == 0#16, c := (f v).carry,
                       ov := Config.anyBit u.free }).advanced 1) := by
  unfold shiftFile
  rw [bind_of_ok (readFile_of_dataRead hr)]
  show (writeFileOrWreg _ _ _ _ >>= _) s = _
  rw [bind_of_ok (writeFileOrWreg_of_fileDest hd), hsr]
  exact shiftFlags_apply byte (f v) u

/-- What the single-bit shifts compute, in integers. -/
theorem shift_values (byte : Bool) (v : Word) (h : byte = true → v.toNat < 256) :
    let w := width byte
    (shiftLeft1 byte v).value.toNat = 2 * v.toNat % 2 ^ w ∧
    ((shiftLeft1 byte v).carry = true ↔ 2 ^ (w - 1) ≤ v.toNat) ∧
    (shiftRight1 v).value.toNat = v.toNat / 2 ∧ ((shiftRight1 v).carry = true ↔ v.toNat % 2 = 1) ∧
    (shiftArith1 byte v).value.toNat = v.toNat / 2 + (if 2 ^ (w - 1) ≤ v.toNat then 2 ^ (w - 1) else 0) ∧
    ((shiftArith1 byte v).carry = true ↔ v.toNat % 2 = 1) := by
  intro w
  have hlt := v.isLt
  have hodd : v.getLsbD 0 = true ↔ v.toNat % 2 = 1 := by simp [BitVec.getLsbD, Nat.testBit_zero]
  have hright : (v >>> 1).toNat = v.toNat / 2 := by rw [BitVec.toNat_ushiftRight, Nat.shiftRight_eq_div_pow, Nat.pow_one]
  refine ⟨?_, ?_, hright, hodd, ?_, hodd⟩
  · show (BitVec.ofNat 16 _).toNat = _
    rw [BitVec.toNat_ofNat, Nat.mul_comm]
    cases byte
    · exact Nat.mod_mod _ _
    · simp only [w, width_byte]; omega
  · show msb byte v = true ↔ _
    rw [msb_eq h, decide_eq_true_iff]
  · show ((v >>> 1) ||| _ : Word).toNat = _
    have hor : ∀ n, v.toNat / 2 < 2 ^ n → (v.toNat / 2) ||| 2 ^ n = v.toNat / 2 + 2 ^ n := by
      intro n hn
      have e := Nat.two_pow_add_eq_or_of_lt hn 1
      rw [Nat.mul_one] at e
      rw [Nat.or_comm, ← e, Nat.add_comm]
    rw [msb_eq h, BitVec.toNat_or, hright]
    by_cases hm : 2 ^ (width byte - 1) ≤ v.toNat
    · simp only [hm, decide_true, if_true, w]
      cases byte
      · exact hor 15 (by omega)
      · exact hor 7 (by have := h rfl; omega)
    · simp [hm, w]

/-- Settles O36. -/
theorem singleBitShifts : Obligations.SingleBitShifts := by
  unfold Obligations.SingleBitShifts
  intro byte i f s t u v leaves w
  refine ⟨fun src dst hs hd hi hsr => ?_, fun toFile f13 hr hd hi hsr => ?_, fun h => shift_values byte v h⟩
  · simp only [List.mem_cons, List.not_mem_nil, or_false, Prod.mk.injEq] at hi
    rcases hi with ⟨rfl, rfl⟩ | ⟨rfl, rfl⟩ | ⟨rfl, rfl⟩ <;> exact runInstr_of_ok (shiftReg_apply hs hd hsr)
  · simp only [List.mem_cons, List.not_mem_nil, or_false, Prod.mk.injEq] at hi
    rcases hi with ⟨rfl, rfl⟩ | ⟨rfl, rfl⟩ | ⟨rfl, rfl⟩ <;> exact runInstr_of_ok (shiftFile_apply hr hd hsr)

end Sys2Proof.Machine
end

section
/-! Multi-bit shifts, bit instructions and multiplies. -/

namespace Sys2Proof.Machine

/-! Multi-bit shifts. -/

theorem shiftMulti_apply (wb wd : Reg) (count : State → Nat) (f : Word → Nat → Word) (s : State) :
    shiftMulti wb wd count f s =
      .ok ((), ((s.setWreg wd (f (s.wreg wb) (count s))).withFlags
        (s.flags.withNZ false (f (s.wreg wb) (count s)))).advanced 1) := by
  unfold shiftMulti
  rw [ask_bind, ask_bind]
  show (upd _ >>= _) s = _
  rw [upd_bind, bind_of_ok (writeFlags_of_plain _ _), setWreg_flags]
  rfl

theorem shiftLeftN_eq {v r : Word} {n : Nat} (h : r.toNat = v.toNat * 2 ^ n % 2 ^ 16) : shiftLeftN v n = r := by
  apply BitVec.eq_of_toNat_eq
  rw [h, shiftLeftN, BitVec.toNat_shiftLeft, Nat.shiftLeft_eq]

theorem shiftRightN_eq {v r : Word} {n : Nat} (h : r.toNat = v.toNat / 2 ^ n) : shiftRightN v n = r := by
  apply BitVec.eq_of_toNat_eq
  rw [h, shiftRightN, BitVec.toNat_ushiftRight, Nat.shiftRight_eq_div_pow]

theorem shiftArithN_eq {v r : Word} {n : Nat} (h : r.toInt = v.toInt / 2 ^ n) : shiftArithN v n = r := by
  apply BitVec.eq_of_toInt_eq
  rw [h, shiftArithN, BitVec.toInt_sshiftRight, Int.shiftRight_eq_div_pow]
  norm_cast

theorem shiftCount_eq (s : State) (wns : Reg) : s.shiftCount wns = (s.wreg wns).toNat % 32 := by
  unfold State.shiftCount
  rw [BitVec.extractLsb'_toNat, Nat.shiftRight_zero]

/-- Settles O37. -/
theorem multiBitShifts : Obligations.MultiBitShifts := by
  unfold Obligations.MultiBitShifts
  intro s wb wd n r i hi hr
  have does : ∀ (count : State → Nat) (f : Word → Nat → Word), count s = n → f (s.wreg wb) n = r →
      runInstr (shiftMulti wb wd count f) s =
        .next (((s.setWreg wd r).withFlags { s.flags with n := r.getLsbD 15, z := r == 0#16 }).advanced 1) := by
    intro count f hn hf
    exact runInstr_of_ok (by rw [shiftMulti_apply, hn, hf]; rfl)
  rcases hi with ⟨hn, hi⟩ | ⟨wns, hn, hi⟩
  · have hlit : (BitVec.ofNat 4 n).toNat = n := by
      rw [BitVec.toNat_ofNat]
      exact Nat.mod_eq_of_lt hn
    simp only [List.mem_cons, List.not_mem_nil, or_false] at hi
    rcases hi with rfl | rfl | rfl
    · exact does (fun _ => (BitVec.ofNat 4 n).toNat) shiftLeftN hlit (shiftLeftN_eq hr)
    · exact does (fun _ => (BitVec.ofNat 4 n).toNat) shiftRightN hlit (shiftRightN_eq hr)
    · exact does (fun _ => (BitVec.ofNat 4 n).toNat) shiftArithN hlit (shiftArithN_eq hr)
  · have hcount : s.shiftCount wns = n := (shiftCount_eq s wns).trans hn.symm
    simp only [List.mem_cons, List.not_mem_nil, or_false] at hi
    rcases hi with rfl | rfl | rfl
    · exact does (fun s => s.shiftCount wns) shiftLeftN hcount (shiftLeftN_eq hr)
    · exact does (fun s => s.shiftCount wns) shiftRightN hcount (shiftRightN_eq hr)
    · exact does (fun s => s.shiftCount wns) shiftArithN hcount (shiftArithN_eq hr)

/-! Bit instructions. -/

/-- Setting a bit of a location, but for the race on SRH (R213, R422). -/
theorem bsetMem_apply {byte : Bool} {via : Via} {ea v : Word} {bit : BitVec 4} {s t : State}
    (hr : s.dataRead? via ea byte = some v) (hw : s.dataWrite? via ea byte (setBit v bit) = some t) :
    bsetMem byte via ea bit s = bitRace byte ea bit t := by
  unfold bsetMem
  rw [bind_of_ok (memRead_of_dataRead hr), bind_of_ok (memWrite_of_dataWrite hw)]

theorem bitRace_of_none {byte : Bool} {ea : Word} {bit : BitVec 4} {t : State}
    (h : bitInSrh t.dev byte ea bit = false) : bitRace byte ea bit t = .ok ((), t) := by
  unfold bitRace
  rw [ask_bind, h]
  rfl

theorem bitRace_of_srh {byte : Bool} {ea : Word} {bit : BitVec 4} {t : State}
    (h : bitInSrh t.dev byte ea bit = true) (hd : t.dev.hasDsp = true) : bitRace byte ea bit t =
      .ok ((), { t with free := t.free + 2 }.setSat (Config.anyBit t.free) (Config.anyBit (t.free + 1))) := by
  unfold bitRace
  rw [ask_bind, h, hd]
  rfl

/-- Settles O38. -/
theorem bitSet : Obligations.BitSet := by
  unfold Obligations.BitSet
  intro byte bit s
  refine ⟨fun r => rfl, fun op a v t hop ha hr hw hsrh => ?_, fun f13 v t hr hw => ⟨fun hsrh => ?_, fun hsrh hd => ?_⟩⟩
  · have hdev : t.dev = s.dev := (dataWrite_dev hw).trans (access_dev ha).1
    have hm : withEA op 0#4 (stepOf byte) true (fun via ea => bsetMem byte via ea bit) s =
        .ok ((), t.postModified op (stepOf byte)) :=
      withEA_of_access ha (by rw [bsetMem_apply hr hw, bitRace_of_none (by rw [hdev]; exact hsrh)])
    exact runInstr_of_ok (by
      rw [ite_apply_state, if_neg hop, bind_of_ok hm]
      rfl)
  · exact runInstr_of_ok (by
      rw [bind_of_ok ((bsetMem_apply hr hw).trans (bitRace_of_none (by rw [dataWrite_dev hw]; exact hsrh)))]
      rfl)
  · have hdev := dataWrite_dev hw
    exact runInstr_of_ok (by
      rw [bind_of_ok ((bsetMem_apply hr hw).trans (bitRace_of_srh (by rw [hdev]; exact hsrh) (by rw [hdev]; exact hd)))]
      rfl)

theorem skipIf_apply (b : Bool) (t : State) :
    skipIf (!b) t = .ok ((), { t with pc := if b then t.pc + 2#23 else t.pc + 4#23 }) := by
  cases b <;> rfl

/-- Settles O39. -/
theorem bitTestSkips : Obligations.BitTestSkips := by
  unfold Obligations.BitTestSkips
  intro bit s t v
  exact ⟨fun op hs => runInstr_of_ok ((bind_of_ok (readOp_of_source hs) _).trans (skipIf_apply _ t)),
    fun byte f13 hr => runInstr_of_ok ((bind_of_ok (readFile_of_dataRead hr) _).trans (skipIf_apply _ s))⟩

/-! Multiplies. -/

/-- The bounds of a factor (R215). -/
theorem factor_bounds (signed : Bool) (v : Word) :
    (signed = true → -2 ^ 15 ≤ factor signed v ∧ factor signed v < 2 ^ 15) ∧
    (signed = false → 0 ≤ factor signed v ∧ factor signed v < 2 ^ 16) := by
  have hlt := v.isLt
  constructor <;> rintro rfl <;> simp only [factor, if_true, Bool.false_eq_true, if_false]
  · exact ⟨BitVec.le_toInt v, BitVec.toInt_lt⟩
  · omega

theorem natAbs_mul_le {x y : Int} {a b : Nat} (hx : x.natAbs ≤ a) (hy : y.natAbs ≤ b) : (x * y).natAbs ≤ a * b := by
  rw [Int.natAbs_mul]
  exact Nat.mul_le_mul hx hy

theorem natAbs_of_signed {x : Int} (h : -2 ^ 15 ≤ x ∧ x < 2 ^ 15) : x.natAbs ≤ 2 ^ 15 := by omega

theorem natAbs_of_unsigned {x : Int} (h : 0 ≤ x ∧ x < 2 ^ 16) : x.natAbs ≤ 2 ^ 16 - 1 := by omega

/-- A product with a signed factor fits 32 bits as a signed integer. -/
theorem product_signed {signs : Signs} (h : signs ≠ .uu) (a b : Word) :
    -2 ^ 31 ≤ product signs a b ∧ product signs a b < 2 ^ 31 := by
  obtain ⟨as, au⟩ := factor_bounds (firstSigned signs) a
  obtain ⟨bs, bu⟩ := factor_bounds (secondSigned signs) b
  unfold product
  generalize factor (firstSigned signs) a = x at *
  generalize factor (secondSigned signs) b = y at *
  cases signs
  case ss =>
    have h := natAbs_mul_le (a := 2 ^ 15) (b := 2 ^ 15) (natAbs_of_signed (as rfl)) (natAbs_of_signed (bs rfl))
    omega
  case su =>
    have h := natAbs_mul_le (a := 2 ^ 15) (b := 2 ^ 16 - 1) (natAbs_of_signed (as rfl)) (natAbs_of_unsigned (bu rfl))
    omega
  case us =>
    have h := natAbs_mul_le (a := 2 ^ 16 - 1) (b := 2 ^ 15) (natAbs_of_unsigned (au rfl)) (natAbs_of_signed (bs rfl))
    omega
  case uu => exact absurd rfl h

/-- The unsigned product fits 32 bits as a natural number. -/
theorem product_unsigned (a b : Word) : 0 ≤ product .uu a b ∧ product .uu a b < 2 ^ 32 := by
  have ha := (factor_bounds false a).2 rfl
  have hb := (factor_bounds false b).2 rfl
  show 0 ≤ factor false a * factor false b ∧ factor false a * factor false b < 2 ^ 32
  generalize factor false a = x at *
  generalize factor false b = y at *
  have hnonneg := Int.mul_nonneg ha.1 hb.1
  have h := natAbs_mul_le (natAbs_of_unsigned ha) (natAbs_of_unsigned hb)
  omega

theorem toNat_ofInt_of_bounds {w : Nat} {x : Int} (h1 : 0 ≤ x) (h2 : x < 2 ^ w) :
    ((BitVec.ofInt w x).toNat : Int) = x := by
  rw [BitVec.toNat_ofInt, Int.emod_eq_of_lt h1 (by exact_mod_cast h2), Int.toNat_of_nonneg h1]

/-- A destination of a 32-bit product and the register after it are two, neither of them W15. -/
theorem mulDest_facts {wd : Reg} (h : mulDestOk wd = true) : wd ≠ 15#4 ∧ wd + 1#4 ≠ 15#4 ∧ wd ≠ wd + 1#4 := by
  revert wd
  decide

/-- What a register pair holds after a product is written to it (R216). -/
theorem wreg_setPair {wd : Reg} (t : State) (p : BitVec 32) (h1 : wd ≠ 15#4) (h2 : wd + 1#4 ≠ 15#4)
    (h3 : wd ≠ wd + 1#4) : (t.setPair wd p).wreg wd = p.extractLsb' 0 16 ∧
      (t.setPair wd p).wreg (wd + 1#4) = p.extractLsb' 16 16 := by
  unfold State.setPair
  rw [wreg_setWreg_of_ne _ _ h3]
  exact ⟨wreg_setWreg_self _ h1, wreg_setWreg_self _ h2⟩

theorem halves_append (p : BitVec 32) : p.extractLsb' 16 16 ++ p.extractLsb' 0 16 = p := by
  rw [BitVec.extractLsb'_append_extractLsb'_eq_extractLsb' (by rfl)]
  exact BitVec.extractLsb'_eq_self

/-- The product that a pair holds, signed unless both factors are unsigned. -/
theorem product_read (signs : Signs) (a b : Word) :
    match signs with
      | .uu => ((BitVec.ofInt 32 (product signs a b)).toNat : Int) = product signs a b
      | _ => (BitVec.ofInt 32 (product signs a b)).toInt = product signs a b := by
  have signed : signs ≠ .uu → (BitVec.ofInt 32 (product signs a b)).toInt = product signs a b := fun h =>
    BitVec.toInt_ofInt_eq_self (by decide) (product_signed h a b).1 (product_signed h a b).2
  cases signs
  case uu => exact toNat_ofInt_of_bounds (product_unsigned a b).1 (product_unsigned a b).2
  all_goals exact signed (by decide)

/-- The product of R215 with the two readings of the factors written out. -/
theorem product_eq (signs : Signs) (a b : Word) : product signs a b =
    (match signs with | .ss | .su => a.toInt | .us | .uu => (a.toNat : Int)) *
    (match signs with | .ss | .us => b.toInt | .su | .uu => (b.toNat : Int)) := by
  cases signs <;> rfl

theorem mulToPair_apply {signs : Signs} {wb wd : Reg} {src : Operand} {s t : State} {b : Word}
    (hs : s.source? false 0#4 src = some (b, t)) : mulToPair signs wb src wd s =
      .ok ((), (t.setPair wd (BitVec.ofInt 32 (product signs (s.wreg wb) b))).advanced 1) := by
  unfold mulToPair
  rw [ask_bind, bind_of_ok (readOp_of_source hs)]
  rfl

theorem mulLitToPair_apply (signs : Signs) (wb wd : Reg) (lit : BitVec 5) (s : State) : mulLitToPair signs wb lit wd s =
      .ok ((), (s.setPair wd (BitVec.ofInt 32 (product signs (s.wreg wb) (lit.zeroExtend 16)))).advanced 1) := rfl

/-- What an instruction that writes a product to a pair leaves there. -/
theorem pair_holds_product {wd : Reg} (signs : Signs) (t : State) (a b : Word) (h : mulDestOk wd = true) :
    let u := (t.setPair wd (BitVec.ofInt 32 (product signs a b))).advanced 1
    (match signs with
      | .uu => ((u.wreg (wd + 1#4) ++ u.wreg wd).toNat : Int) = product signs a b
      | _ => (u.wreg (wd + 1#4) ++ u.wreg wd).toInt = product signs a b) ∧
      u = ((t.setWreg wd (u.wreg wd)).setWreg (wd + 1#4) (u.wreg (wd + 1#4))).advanced 1 := by
  obtain ⟨h1, h2, h3⟩ := mulDest_facts h
  obtain ⟨hlo, hhi⟩ := wreg_setPair t (BitVec.ofInt 32 (product signs a b)) h1 h2 h3
  intro u
  have hlo' : u.wreg wd = _ := hlo
  have hhi' : u.wreg (wd + 1#4) = _ := hhi
  rw [hlo', hhi']
  refine ⟨?_, rfl⟩
  rw [halves_append]
  exact product_read signs a b

/-- Settles O40. -/
theorem multiplyToPair : Obligations.MultiplyToPair := by
  unfold Obligations.MultiplyToPair
  intro wb wd s t b signs i hwd hi a x y
  have hxy : product signs a b = x * y := product_eq signs a b
  have hpair := pair_holds_product signs t a b hwd
  rw [hxy] at hpair
  refine ⟨(t.setPair wd (BitVec.ofInt 32 (product signs a b))).advanced 1, ?_, ?_⟩
  · rcases hi with ⟨src, hs, hi⟩ | ⟨lit, rfl, rfl, hi⟩
    · simp only [List.mem_cons, List.not_mem_nil, or_false, Prod.mk.injEq] at hi
      rcases hi with ⟨rfl, rfl⟩ | ⟨rfl, rfl⟩ | ⟨rfl, rfl⟩ | ⟨rfl, rfl⟩ <;> exact runInstr_of_ok (mulToPair_apply hs)
    · simp only [List.mem_cons, List.not_mem_nil, or_false, Prod.mk.injEq] at hi
      rcases hi with ⟨rfl, rfl⟩ | ⟨rfl, rfl⟩ <;> exact runInstr_of_ok (mulLitToPair_apply _ wb wd lit t)
  · rw [hxy]
    exact hpair

/-- The low word of a product does not depend on how the factors are read (R221). -/
theorem product_low (signs : Signs) (a b : Word) : BitVec.ofInt 16 (product signs a b) = a * b := by
  have hf : ∀ signed v, BitVec.ofInt 16 (factor signed v) = v := by
    intro signed v
    cases signed
    · exact (BitVec.ofInt_natCast 16 v.toNat).trans (by rw [BitVec.ofNat_toNat, BitVec.setWidth_eq])
    · exact BitVec.ofInt_toInt
  rw [product, BitVec.ofInt_mul, hf, hf]

/-- The state in which the status bits of an accumulator have become free values (R222). -/
def State.accStatusDrawn (s : State) : AccId → State
  | .a => { s with free := s.free + 2 }.setDsp
      { s.dspCur with oa := Config.anyBit s.free, sa := Config.anyBit (s.free + 1) }
  | .b => { s with free := s.free + 2 }.setDsp
      { s.dspCur with ob := Config.anyBit s.free, sb := Config.anyBit (s.free + 1) }

theorem drawAccStatus_apply (x : AccId) (s : State) : drawAccStatus x s = .ok ((), s.accStatusDrawn x) := by
  cases x <;> rfl

theorem accStatusDrawn_acc (s : State) (x y : AccId) : (s.accStatusDrawn x).acc y = s.acc y := by
  cases x <;> cases y <;> simp [State.accStatusDrawn, State.acc]

/-- Drawing the status bits changes the DSP state and the count of free values only. -/
theorem accStatusDrawn_rest (s : State) (x : AccId) :
    s.accStatusDrawn x = { s with free := s.free + 2, dsp := (s.accStatusDrawn x).dsp } := by
  cases x <;> rfl

theorem requireDsp_of_dsp {s : State} (h : s.dev.hasDsp = true) : requireDsp s = .ok ((), s) := by
  unfold requireDsp
  rw [ask_bind, h]
  rfl

/-- A multiply into an accumulator, with its second factor read (R222). -/
theorem exec_mulAcc {signs : Signs} {wb : Reg} {m : MulSrc} {acc : AccId} {s t : State} {b : Word}
    (hd : s.dev.hasDsp = true) (hm : readMulSrc m s = .ok (b, t)) : exec (.mulAcc signs wb m acc) s =
      .next (((t.setAcc acc (BitVec.ofInt 40 (product signs (s.wreg wb) b))).accStatusDrawn acc).advanced 1) :=
  runInstr_of_ok (by
    rw [bind_of_ok (requireDsp_of_dsp hd), ask_bind, bind_of_ok hm, upd_bind, bind_of_ok (drawAccStatus_apply _ _)]
    rfl)

/-- A product fits an accumulator (R222). -/
theorem product_acc (signs : Signs) (a b : Word) :
    (BitVec.ofInt 40 (product signs a b)).toInt = product signs a b := by
  have h : -2 ^ 39 ≤ product signs a b ∧ product signs a b < 2 ^ 39 := by
    by_cases hu : signs = .uu
    · subst hu
      obtain ⟨h1, h2⟩ := product_unsigned a b
      omega
    · obtain ⟨h1, h2⟩ := product_signed hu a b
      omega
  exact BitVec.toInt_ofInt_eq_self (by decide) h.1 h.2

/-- `MUL f` in byte mode: the product of two bytes fits a word (R220). -/
theorem byteProduct (a b : Word) (h : b.toNat < 256) :
    ((BitVec.ofInt 32 (product .uu (lowByte a) b)).extractLsb' 0 16).toNat = a.toNat % 256 * b.toNat := by
  have ha : (lowByte a).toNat = a.toNat % 256 := by
    simp only [lowByte, BitVec.zeroExtend, BitVec.toNat_setWidth, BitVec.extractLsb'_toNat, Nat.shiftRight_zero]
    omega
  have hp : product .uu (lowByte a) b = ((a.toNat % 256 * b.toNat : Nat) : Int) := by
    rw [product_eq, ← ha]
    push_cast
    rfl
  have hlt : a.toNat % 256 * b.toNat < 2 ^ 16 := by
    have : a.toNat % 256 < 256 := Nat.mod_lt _ (by decide)
    exact (Nat.mul_lt_mul'' this h : _ < 256 * 256)
  rw [BitVec.extractLsb'_toNat, Nat.shiftRight_zero, hp, BitVec.ofInt_natCast, BitVec.toNat_ofNat,
    Nat.mod_mod_of_dvd _ (by decide), Nat.mod_eq_of_lt hlt]

theorem exec_mulw {wn wd : Reg} {src : Operand} {s t : State} {v : Word} {i : Instr}
    (hs : s.source? false 0#4 src = some (v, t))
    (hi : i ∈ [Instr.mulwSS wn src wd, .mulwSU wn src wd, .mulwUS wn src wd, .mulwUU wn src wd]) :
    exec i s = .next ((t.setWreg wd (s.wreg wn * v)).advanced 1) := by
  have does : ∀ signs, runInstr (mulToWord signs wn src wd) s = .next ((t.setWreg wd (s.wreg wn * v)).advanced 1) :=
    fun signs => runInstr_of_ok (by rw [mulToWord, ask_bind, bind_of_ok (readOp_of_source hs), ← product_low signs]; rfl)
  simp only [List.mem_cons, List.not_mem_nil, or_false] at hi
  rcases hi with rfl | rfl | rfl | rfl
  · exact does .ss
  · exact does .su
  · exact does .us
  · exact does .uu

/-- Settles O41. -/
theorem multiplyOtherForms : Obligations.MultiplyOtherForms := by
  unfold Obligations.MultiplyOtherForms
  intro wb s t b
  refine ⟨fun f13 hr => ?_, fun f13 hr => ?_, fun src wd hs i hi => ?_, fun signs m acc hd hm => ?_⟩
  · have hpair := pair_holds_product .uu s (s.wreg 0#4) b (wd := 2#4) (by decide)
    refine ⟨(s.setPair 2#4 (BitVec.ofInt 32 (product .uu (s.wreg 0#4) b))).advanced 1, runInstr_of_ok (by
      rw [ask_bind, bind_of_ok (readFile_of_dataRead hr)]; rfl), ?_, hpair.2⟩
    have h : ((_ : Nat) : Int) = ((s.wreg 0#4).toNat : Int) * (b.toNat : Int) := hpair.1
    exact_mod_cast h
  · refine ⟨(s.setWreg 2#4 ((BitVec.ofInt 32 (product .uu (lowByte (s.wreg 0#4)) b)).extractLsb' 0 16)).advanced 1,
      runInstr_of_ok (by rw [ask_bind, bind_of_ok (readFile_of_dataRead hr)]; rfl), ?_, ?_⟩
    · exact (congrArg BitVec.toNat (wreg_setWreg_self _ (by decide))).trans (byteProduct _ b (dataRead_byte hr))
    · exact congrArg (fun v => (s.setWreg 2#4 v).advanced 1) (wreg_setWreg_self _ (by decide)).symm
  · exact exec_mulw hs hi
  · intro x y
    have hread : readMulSrc m s = .ok (b, t) := by
      rcases hm with ⟨src, rfl, hs⟩ | ⟨k, rfl, rfl, rfl⟩
      · exact readOp_of_source hs
      · rfl
    have hxy : product signs (s.wreg wb) b = x * y := product_eq signs _ b
    have hrest := (accStatusDrawn_rest (t.setAcc acc (BitVec.ofInt 40 (product signs (s.wreg wb) b))) acc)
    have hacc := accStatusDrawn_acc (t.setAcc acc (BitVec.ofInt 40 (product signs (s.wreg wb) b))) acc
    refine ⟨_, exec_mulAcc hd hread, ?_, ?_, ?_, ?_, ?_, ?_, ?_⟩
    · exact (congrArg BitVec.toInt ((hacc acc).trans (acc_setAcc t acc _))).trans ((product_acc _ _ _).trans hxy)
    · exact (hacc (otherAcc acc)).trans (acc_setAcc_other t acc _)
    · exact (congrArg State.flags hrest :).trans (setAcc_flags t acc _)
    · exact (congrArg State.ctx hrest :).trans (setAcc_ctx t acc _)
    · exact (congrArg State.w15 hrest :).trans (setAcc_w15 t acc _)
    · exact (congrArg (fun u : State => u.pc + 2#23) hrest :).trans (congrArg (· + 2#23) (setAcc_pc t acc _))
    · exact ramByte_congr ((congrArg State.mem hrest :).trans (setAcc_mem t acc _))

end Sys2Proof.Machine
end

section
/-! The DSP engine: the accumulator update, the multiplier, and the accumulator instructions. -/

namespace Sys2Proof.Machine

/-! What an accumulator update stores, in integers (R247 to R250). -/

theorem toInt_acc (v : Acc40) : v.toInt = if v.toNat < 2 ^ 39 then (v.toNat : Int) else v.toNat - 2 ^ 40 := by
  have := v.isLt
  rw [BitVec.toInt_eq_toNat_cond]
  split <;> split <;> omega

/-- The guard bits are in use when the value does not fit 32 bits. -/
theorem guardInUse_iff (v : Acc40) : guardInUse v = true ↔ v.toInt < -2 ^ 31 ∨ 2 ^ 31 - 1 < v.toInt := by
  have hlt := v.isLt
  have hfield : (v.extractLsb' 31 9).toNat = v.toNat / 2 ^ 31 := by
    rw [BitVec.extractLsb'_toNat, Nat.shiftRight_eq_div_pow]
    omega
  have hne : ∀ c : BitVec 9, (v.extractLsb' 31 9 != c) = true ↔ v.toNat / 2 ^ 31 ≠ c.toNat := by
    intro c
    rw [bne_iff_ne, ne_eq, ← hfield, ← BitVec.toNat_inj]
  unfold guardInUse
  rw [Bool.and_eq_true, hne, hne, toInt_acc]
  show v.toNat / 2 ^ 31 ≠ 0 ∧ v.toNat / 2 ^ 31 ≠ 511 ↔ _
  omega

theorem accResult_wide (r : Int) : (accResult true true r).value.toInt = max (-2 ^ 39) (min (2 ^ 39 - 1) r) ∧
    ((accResult true true r).s = true ↔ r < -2 ^ 39 ∨ 2 ^ 39 - 1 < r) ∧
    (accResult true true r).o = guardInUse (accResult true true r).value := by
  have hmin : (0x8000000000#40).toInt = -2 ^ 39 := by decide
  have hmax : (0x7FFFFFFFFF#40).toInt = 2 ^ 39 - 1 := by decide
  unfold accResult
  rw [if_pos (by decide)]
  by_cases h1 : 2 ^ 39 - 1 < r
  · simp only [if_pos h1, hmax, true_iff, and_true]
    omega
  · by_cases h2 : r < -2 ^ 39
    · simp only [if_neg h1, if_pos h2, hmin, true_iff, and_true]
      omega
    · simp only [if_neg h1, if_neg h2, Bool.false_eq_true, false_iff, and_true]
      rw [BitVec.toInt_ofInt_eq_self (by decide) (by omega) (by omega)]
      omega

theorem accResult_narrow (r : Int) : (accResult true false r).value.toInt = max (-2 ^ 31) (min (2 ^ 31 - 1) r) ∧
    ((accResult true false r).s = true ↔ r < -2 ^ 31 ∨ 2 ^ 31 - 1 < r) ∧ (accResult true false r).o = false := by
  have hmin : (0xFF80000000#40).toInt = -2 ^ 31 := by decide
  have hmax : (0x007FFFFFFF#40).toInt = 2 ^ 31 - 1 := by decide
  unfold accResult
  rw [if_neg (by decide), if_pos rfl]
  by_cases h1 : 2 ^ 31 - 1 < r
  · simp only [if_pos h1, hmax, true_iff, and_true]
    omega
  · by_cases h2 : r < -2 ^ 31
    · simp only [if_neg h1, if_pos h2, hmin, true_iff, and_true]
      omega
    · simp only [if_neg h1, if_neg h2, Bool.false_eq_true, false_iff, and_true]
      rw [BitVec.toInt_ofInt_eq_self (by decide) (by omega) (by omega)]
      omega

theorem accResult_off (wide : Bool) (r : Int) : accResult false wide r =
    { value := BitVec.ofInt 40 r, s := decide (2 ^ 39 - 1 < r) || decide (r < -(2 ^ 39)),
      o := guardInUse (BitVec.ofInt 40 r) } := by
  cases wide <;> rfl

/-! What an accumulator update changes (R247, R250, R251, R365). -/

/-- The update of the accumulator and its bits, as a change of the visible DSP state. -/
def DspCtx.accStored (d : DspCtx) (out : AccOut) : AccId → DspCtx
  | .a => { d with acca := out.value, oa := out.o, sa := d.sa || out.s }
  | .b => { d with accb := out.value, ob := out.o, sb := d.sb || out.s }

theorem storeAcc_eq (s : State) (x : AccId) (out : AccOut) : s.storeAcc x out = s.setDsp (s.dspCur.accStored out x) := by
  cases x <;> rfl

/-- The error bits after an update, and whether it raises `MathError` (R365). -/
theorem accTraps_eq (s : State) (x : AccId) (sat : Bool) (out : AccOut) :
    let ovf := out.o && (match x with | .a => s.intcon.ovate | .b => s.intcon.ovbte)
    let cat := !sat && out.s && s.intcon.covte
    s.accTraps x sat out = { s with
      intcon := (match x with
        | .a => { s.intcon with ovaerr := s.intcon.ovaerr || ovf, covaerr := s.intcon.covaerr || cat }
        | .b => { s.intcon with ovberr := s.intcon.ovberr || ovf, covberr := s.intcon.covberr || cat })
      pending := s.pending.put .mathError (s.pending.mathError || ovf || cat) } := by
  intro ovf cat
  have hput : s.pending.put .mathError (s.pending.mathError || ovf || cat) =
      if (ovf || cat) = true then s.pending.put .mathError true else s.pending := by
    rw [Bool.or_assoc]
    cases ovf || cat
    · rw [Bool.or_false]; rfl
    · rw [Bool.or_true]; rfl
  rw [hput]
  unfold State.accTraps
  cases x <;> dsimp only <;> split <;> rfl

/-- Settles O45: `accResult_wide`, `accResult_narrow`, `accResult_off` for what is stored, `storeAcc_eq` and
`accTraps_eq` for what changes. -/
theorem accumulatorUpdate : Obligations.AccumulatorUpdate := by
  unfold Obligations.AccumulatorUpdate
  intro s x r wide sat out t o h ovf cat
  obtain ⟨wvalue, ws, wo⟩ := accResult_wide r
  obtain ⟨nvalue, ns, no⟩ := accResult_narrow r
  have ht : t = _ := accTraps_eq (s.storeAcc x out) x sat out
  rw [storeAcc_eq] at ht
  have hcur : t.dspCur = s.dspCur.accStored out x := by
    rw [ht]
    exact dspCur_setDsp s _
  have hoff : ((accResult false wide r).s = true ↔ r < -2 ^ 39 ∨ 2 ^ 39 - 1 < r) := by
    rw [accResult_off]
    simp only [Bool.or_eq_true, decide_eq_true_eq]
    exact Or.comm
  refine ⟨wvalue, nvalue, by rw [accResult_off], ws, ns, hoff, no, fun st hst => ?_, ?_, ?_, ?_, ?_, ?_, ?_,
    (congrArg State.flags ht :), (congrArg State.pc ht :), (congrArg State.mem ht :), (congrArg State.ctx ht :),
    (congrArg State.w15 ht :), fun c hc => ?_, (congrArg State.intcon ht :), (congrArg State.pending ht :)⟩
  · rw [← guardInUse_iff]
    cases st
    · rw [accResult_off]
    · cases wide
      · cases hst
      · rw [wo]
  · unfold State.acc
    rw [hcur]
    cases x <;> rfl
  · show o t.dspCur x = _
    rw [hcur]
    cases x <;> rfl
  · show h t.dspCur x = _
    rw [hcur]
    cases x <;> rfl
  · unfold State.acc
    rw [hcur]
    cases x <;> rfl
  · show o t.dspCur (otherAcc x) = _
    rw [hcur]
    cases x <;> rfl
  · show h t.dspCur (otherAcc x) = _
    rw [hcur]
    cases x <;> rfl
  · rw [show t.dsp = (s.setDsp (s.dspCur.accStored out x)).dsp from (congrArg State.dsp ht :)]
    exact dsp_setDsp_of_ne s _ hc

end Sys2Proof.Machine
end

section
/-! The DSP instructions. -/

namespace Sys2Proof.Machine

theorem requireDsp_of_none {s : State} (h : s.dev.hasDsp = false) : requireDsp s = .error (.refuse .noDsp) := by
  unfold requireDsp
  rw [ask_bind, h]
  rfl

/-! The multiplier (R242, R243). -/

theorem opval_signed {s : State} (r : Reg) (h : s.dspCur.us = 0#2) : s.opval r = some (factor true (s.wreg r)) := by
  unfold State.opval; simp [h]

theorem opval_unsigned {s : State} (r : Reg) (h : s.dspCur.us = 1#2) : s.opval r = some (factor false (s.wreg r)) := by
  unfold State.opval; simp [h]

theorem opval_mixed {s : State} (r : Reg) (h : s.dspCur.us = 2#2) :
    s.opval r = some (factor (r.getLsbD 0) (s.wreg r)) := by
  unfold State.opval; simp [h]

theorem opval_reserved {s : State} (r : Reg) (h : s.dspCur.us = 3#2) : s.opval r = none := by
  unfold State.opval; simp [h]

theorem prod_of_opval {s : State} {m n : Reg} {a b : Int} (ha : s.opval m = some a) (hb : s.opval n = some b) :
    s.prod m n = some ((if s.dspCur.intMode then 1 else 2) * (a * b)) := by
  unfold State.prod
  rw [ha, hb]
  cases s.dspCur.intMode <;> simp

theorem dspReg_bit0 (k : BitVec 2) : (dspReg k).getLsbD 0 = k.getLsbD 0 := by
  revert k; decide

theorem multiply_of_prod {s : State} {m n : Reg} {p : Int} (h : s.prod m n = some p) : multiply m n s = .ok (p, s) := by
  unfold multiply
  rw [ask_bind, h]
  rfl

theorem multiply_of_reserved {s : State} (m n : Reg) (h : s.dspCur.us = 3#2) :
    multiply m n s = .error (.refuse .reservedMultiplierMode) := by
  have hp : s.prod m n = none := by
    unfold State.prod
    rw [opval_reserved m h]
  unfold multiply
  rw [ask_bind, hp]
  rfl

/-- What stops every multiply: no DSP engine, or the reserved mode (R11, R52). -/
theorem multiply_stops {s : State} {e : Stop} {m n : Reg} {β : Type} (f : Int → M β)
    (h : requireDsp s = .error e ∨ requireDsp s = .ok ((), s) ∧ multiply m n s = .error e) :
    (requireDsp >>= fun _ => multiply m n >>= f) s = .error e := by
  rcases h with h | ⟨h1, h2⟩
  · rw [bind_of_error h]
  · rw [bind_of_ok h1, bind_of_error h2]

/-- Settles O47. -/
theorem multiplierModes : Obligations.MultiplierModes := by
  unfold Obligations.MultiplierModes
  intro s m n f val
  refine ⟨fun h => prod_of_opval (opval_signed _ h) (opval_signed _ h),
    fun h => prod_of_opval (opval_unsigned _ h) (opval_unsigned _ h), fun h => ?_, ?_⟩
  · have hm := opval_mixed (dspReg m) h
    have hn := opval_mixed (dspReg n) h
    rw [dspReg_bit0] at hm hn
    exact prod_of_opval hm hn
  · intro pair acc x y awb px py i hi
    have stops : ∀ e : Refusal, (∀ m n, requireDsp s = .error (.refuse e) ∨
        requireDsp s = .ok ((), s) ∧ multiply m n s = .error (.refuse e)) → exec i s = .refused e := by
      intro e he
      simp only [List.mem_cons, List.not_mem_nil, or_false] at hi
      rcases hi with rfl | rfl | rfl | rfl | rfl | rfl | rfl | rfl <;>
        exact runInstr_of_refuse (multiply_stops _ (he _ _))
    exact ⟨fun hd hus => stops _ fun m n => .inr ⟨requireDsp_of_dsp hd, multiply_of_reserved m n hus⟩,
      fun hd => stops _ fun _ _ => .inl (requireDsp_of_none hd)⟩

/-! Prefetches and the write-back (R246, R255). -/

theorem prefetchWord_of_some {ySpace : Bool} {a : PfAddr} {s t : State} {v : Word}
    (h : s.prefetchWord? ySpace a = some (v, t)) : prefetchWord ySpace a s = .ok (v, t) := by
  have hpost : ∀ u : State, u.postModified (pfOperand ySpace a) 2#16 = u := by
    intro u
    cases a <;> rfl
  unfold State.prefetchWord? at h
  split at h
  next acc ha =>
    split at h
    next w hw =>
      split at h
      next hspace =>
        cases h
        unfold prefetchWord
        refine (withEA_of_access ha ?_).trans (by rw [hpost])
        unfold prefetchRead
        rw [bind_of_ok (memRead_of_dataRead hw), ask_bind, if_pos hspace]
        rfl
      · cases h
    · cases h
  · cases h

theorem prefetch_of_some {ySpace : Bool} {p : Prefetch} {s t : State} (h : s.prefetched? ySpace p = some t) :
    prefetch ySpace p s = .ok ((), t) := by
  cases p with
  | off => cases h; rfl
  | on a dest =>
    unfold State.prefetched? at h
    dsimp only at h
    split at h
    next v u hv =>
      cases h
      unfold prefetch
      dsimp only
      rw [bind_of_ok (prefetchWord_of_some hv)]
      rfl
    · cases h

theorem writeBack_of_some {x : AccId} {awb : Awb} {s t : State} (h : s.wroteBack? x awb = some t) :
    writeBack x awb s = .ok ((), t) := by
  cases awb with
  | none => cases h; rfl
  | w13 => cases h; rfl
  | indirect =>
    unfold State.wroteBack? State.dest? at h
    dsimp only at h
    rw [if_neg (by decide)] at h
    split at h
    next a ha =>
      split at h
      next u hu =>
        cases h
        unfold writeBack
        dsimp only
        rw [ask_bind]
        exact withEA_of_access ha (memWrite_of_dataWrite hu)
      · cases h
    · cases h

/-- A multiply-class instruction (R258 to R262). -/
theorem mulClass_apply {m n : Reg} {acc : AccId} {combine : Int → Int → Int} {x y : Prefetch} {awb : Awb} {s u : State}
    {p : Int} (hd : s.dev.hasDsp = true) (hp : s.prod m n = some p)
    (ht : (s.accUpdated acc (combine (s.acc acc).toInt p)).transfers? acc x y awb = some u) :
    mulClass m n acc combine x y awb s = .ok ((), u.advanced 1) := by
  unfold State.transfers? at ht
  split at ht
  next t1 h1 =>
    split at ht
    next t2 h2 =>
      unfold mulClass accUpdate
      rw [bind_of_ok (requireDsp_of_dsp hd), bind_of_ok (multiply_of_prod hp), ask_bind, upd_bind,
        bind_of_ok (prefetch_of_some h1), bind_of_ok (prefetch_of_some h2), bind_of_ok (writeBack_of_some ht)]
      rfl
    · cases ht
  · cases ht

/-- A Euclidean distance instruction (R263, R264). -/
theorem distance_apply {wm xd : BitVec 2} {acc : AccId} {combine : Int → Int → Int} {x y : PfAddr} {s t u : State}
    {p : Int} {a b : Word} (hd : s.dev.hasDsp = true) (hp : s.prod (dspReg wm) (dspReg wm) = some p)
    (hx : (s.accUpdated acc (combine (s.acc acc).toInt p)).prefetchWord? false x = some (a, t))
    (hy : (t.pfAdvance false x).prefetchWord? true y = some (b, u)) :
    distance wm acc combine x y xd s = .ok ((), ((u.pfAdvance true y).setWreg (dspReg xd) (a - b)).advanced 1) := by
  unfold distance accUpdate
  rw [bind_of_ok (requireDsp_of_dsp hd), bind_of_ok (multiply_of_prod hp), ask_bind, upd_bind,
    bind_of_ok (prefetchWord_of_some hx), upd_bind, bind_of_ok (prefetchWord_of_some hy)]
  rfl

/-- Settles O46. -/
theorem multiplyAccumulate : Obligations.MultiplyAccumulate := by
  unfold Obligations.MultiplyAccumulate
  intro pair wm acc s u p hd old
  refine ⟨?_, ?_⟩
  · intro x y awb does
    refine ⟨fun hp => ⟨fun h => ?_, fun h => ?_, fun h => ?_, fun h => ?_⟩, fun hp => ⟨fun h => ?_, fun h => ?_⟩⟩ <;>
      exact runInstr_of_ok (mulClass_apply hd hp h)
  · intro x y xd t a b hp does
    exact ⟨fun hx hy => runInstr_of_ok (distance_apply hd hp hx hy),
      fun hx hy => runInstr_of_ok (distance_apply hd hp hx hy)⟩

/-! The other accumulator instructions. -/

/-- Settles O48. -/
theorem accumulatorAddAndLoad : Obligations.AccumulatorAddAndLoad := by
  unfold Obligations.AccumulatorAddAndLoad
  intro acc wb src shift s t v hd
  have hdsp := requireDsp_of_dsp hd
  refine ⟨runInstr_of_ok (bind_of_ok hdsp _), fun hs => ⟨?_, ?_⟩⟩
  · exact runInstr_of_ok ((bind_of_ok hdsp _).trans (bind_of_ok (readOp_of_source hs) _))
  · exact runInstr_of_ok ((bind_of_ok hdsp _).trans (bind_of_ok (readOp_of_source hs) _))

/-- An accumulator shift within its range (R270). -/
theorem shiftAcc_in {n : Int} (acc : AccId) (s : State) (h1 : -16 ≤ n) (h2 : n ≤ 16) :
    shiftAcc acc n s = .ok ((), s.accUpdated acc (shiftExact (s.acc acc).toInt n)) := by
  unfold shiftAcc
  rw [ite_apply_state, if_neg (by omega)]
  rfl

/-- An accumulator shift beyond its range (R270). -/
theorem shiftAcc_out {n : Int} (acc : AccId) (s : State) (h : n < -16 ∨ 16 < n) : shiftAcc acc n s =
    .ok ((), { s with intcon := { s.intcon with sftacerr := true } }.addPending .mathError) := by
  unfold shiftAcc
  rw [ite_apply_state, if_pos h.symm]
  rfl

/-- Settles O50. -/
theorem shiftAccumulator : Obligations.ShiftAccumulator := by
  unfold Obligations.ShiftAccumulator
  intro acc k wb s hd v does
  have all : ∀ (i : Instr) (n : Int), (∀ t, shiftAcc acc n s = .ok ((), t) → exec i s = .next (t.advanced 1)) →
      does i n := by
    intro i n hi
    have hin := fun h1 h2 => hi _ (shiftAcc_in acc s (n := n) h1 h2)
    unfold shiftExact at hin
    refine ⟨fun h1 h2 => ?_, fun h1 h2 => ?_, fun h => hi _ (shiftAcc_out acc s h)⟩
    · rw [hin (by omega) h2, if_pos h1]
    · rw [hin h1 (by omega), if_neg (by omega)]
  exact ⟨all _ _ fun t h => runInstr_of_ok ((bind_of_ok (requireDsp_of_dsp hd) _).trans (bind_of_ok h _)),
    all _ _ fun t h => runInstr_of_ok ((bind_of_ok (requireDsp_of_dsp hd) _).trans
      ((ask_bind _ _ _).trans (bind_of_ok h _)))⟩

end Sys2Proof.Machine
end

section
/-! Program flow and the system instructions. -/

namespace Sys2Proof.Machine

/-! Jumps and branches. -/

theorem jump_of_even {target : ProgAddr} (s : State) (h : target.getLsbD 0 = false) :
    jump target s = .ok ((), { s with pc := target }) := by
  rw [jump_apply, mask23 _ h]

/-- A jump to a relative target (R283). -/
theorem jump_relTarget (off : Word) {s : State} (h : s.pc.getLsbD 0 = false) : jump (s.relTarget off) s =
    .ok ((), { s with pc := BitVec.ofInt 23 ((s.pc.toNat : Int) + 2 + 2 * off.toInt) }) := by
  rw [jump_of_even s (relTarget_even s off h), relTarget_eq]

/-- A jump to a register's target (R283). -/
theorem jump_regTarget (w : Reg) (s : State) : jump (s.regTarget w) s =
    .ok ((), { s with pc := ((s.wreg w).extractLsb' 1 15 ++ 0#1).zeroExtend 23 }) := by
  rw [jump_of_even s (regTarget_even s w), regTarget_eq]

/-- A relative branch (R283, R288). -/
theorem branchIf_apply (b : Bool) (off : Word) {s : State} (h : s.pc.getLsbD 0 = false) : branchIf b off s =
    .ok ((), { s with pc := if b then BitVec.ofInt 23 ((s.pc.toNat : Int) + 2 + 2 * off.toInt) else s.pc + 2#23 }) := by
  cases b
  · rfl
  · exact jump_relTarget off h

theorem branchAcc_apply (bit : DspCtx → Bool) (off : Word) {s : State} (hd : s.dev.hasDsp = true)
    (h : s.pc.getLsbD 0 = false) : branchAcc bit off s = .ok ((), { s with
      pc := if bit s.dspCur then BitVec.ofInt 23 ((s.pc.toNat : Int) + 2 + 2 * off.toInt) else s.pc + 2#23 }) := by
  unfold branchAcc
  rw [bind_of_ok (requireDsp_of_dsp hd), ask_bind]
  exact branchIf_apply _ off h

/-- The condition table of R288. -/
theorem holds_table (fl : Flags) :
    (fl.holds .ov = true ↔ fl.ov = true) ∧ (fl.holds .nov = true ↔ fl.ov = false) ∧
    (fl.holds .c = true ↔ fl.c = true) ∧ (fl.holds .nc = true ↔ fl.c = false) ∧
    (fl.holds .z = true ↔ fl.z = true) ∧ (fl.holds .nz = true ↔ fl.z = false) ∧
    (fl.holds .n = true ↔ fl.n = true) ∧ (fl.holds .nn = true ↔ fl.n = false) ∧
    (fl.holds .le = true ↔ fl.z = true ∨ fl.n ≠ fl.ov) ∧ (fl.holds .gt = true ↔ fl.z = false ∧ fl.n = fl.ov) ∧
    (fl.holds .lt = true ↔ fl.n ≠ fl.ov) ∧ (fl.holds .ge = true ↔ fl.n = fl.ov) ∧
    (fl.holds .leu = true ↔ fl.c = false ∨ fl.z = true) ∧ (fl.holds .gtu = true ↔ fl.c = true ∧ fl.z = false) := by
  simp [Flags.holds]

/-- Settles O51: each form is one of the jumps and branches above. -/
theorem jumpsAndBranches : Obligations.JumpsAndBranches := by
  unfold Obligations.JumpsAndBranches
  intro s off t w cond fl rel
  refine ⟨fun he => ⟨rfl, rfl, ?_, ?_, ?_, ?_, ?_, fun hd => ⟨?_, ?_, ?_, ?_⟩⟩, holds_table fl⟩
  · exact runInstr_of_ok (branchIf_apply true off he)
  · exact runInstr_of_ok (m := ask (fun s => s.relTarget (s.wreg w)) >>= jump) (jump_relTarget (s.wreg w) he)
  · exact runInstr_of_ok ((ask_bind _ _ _).trans (branchIf_apply _ off he))
  · exact runInstr_of_ok (jump_of_even s (even_app t))
  · exact runInstr_of_ok (m := ask (fun s => s.regTarget w) >>= jump) (jump_regTarget w s)
  · exact runInstr_of_ok (branchAcc_apply DspCtx.oa off hd he)
  · exact runInstr_of_ok (branchAcc_apply DspCtx.ob off hd he)
  · exact runInstr_of_ok (branchAcc_apply DspCtx.sa off hd he)
  · exact runInstr_of_ok (branchAcc_apply DspCtx.sb off hd he)

/-! Calls and returns. -/

/-- Settles O52: each form is `doCall_apply` at its target. -/
theorem calls : Obligations.Calls := by
  unfold Obligations.Calls
  intro s t off hi w hpush he after rel
  refine ⟨?_, ?_, ?_, ?_, ?_⟩
  · exact runInstr_of_ok (doCall_apply _ _ hpush (even_app t))
  · exact runInstr_of_ok ((doCall_apply _ _ hpush (regTarget_even s w)).trans (by rw [regTarget_eq]; rfl))
  · exact runInstr_of_ok (doCall_apply _ _ hpush (even_app _))
  · exact runInstr_of_ok ((doCall_apply _ _ hpush (relTarget_even s off he)).trans (by rw [relTarget_eq]; rfl))
  · exact runInstr_of_ok ((doCall_apply _ _ hpush (relTarget_even s _ he)).trans (by rw [relTarget_eq]; rfl))

/-- `RETURN` (R296). -/
theorem exec_ret {s : State} (h : s.canPop2 = true) : exec .ret s =
    .next { s.popped.popped with sfa := s.popped.top.getLsbD 0, pc := retTarget s.top s.popped.top } :=
  runInstr_of_ok (subroutineReturn_apply h)

/-- What two pops read depends on W15, data memory, and what the checks of a pop look at. -/
theorem pops_congr {s t : State} (hw : t.w15 = s.w15) (hm : t.mem = s.mem) (hd : t.dev = s.dev)
    (hc : t.circular = s.circular) (he : t.splimEnabled = s.splimEnabled) (hh : t.haz = s.haz) :
    t.canPop2 = s.canPop2 ∧ t.top = s.top ∧ t.popped.top = s.popped.top := by
  have hw2 : t.popped.w15 = s.popped.w15 := by simp [State.popped, setWreg_w15, hw]
  have hm2 : t.popped.mem = s.popped.mem := by rw [popped_mem, popped_mem, hm]
  refine ⟨?_, ?_, ?_⟩
  · simp only [State.canPop2, State.canPop, State.implemented, hw, hd, hc, he, hh]
  · simp only [State.top, State.ramWord, State.ramByte, hw, hm]
  · simp only [State.top, State.ramWord, State.ramByte, hw2, hm2]

/-- `RETLW` to a register other than W15 (R297). -/
theorem exec_retlw {s : State} (byte : Bool) (lit : BitVec 10) {wn : Reg} (hr : wn ≠ 15#4) (h : s.canPop2 = true) :
    exec (.retlw byte lit wn) s = .next { (s.regDest byte wn (lit.zeroExtend 16)).popped.popped with
      sfa := s.popped.top.getLsbD 0, pc := retTarget s.top s.popped.top } := by
  have hw : (s.regDest byte wn (lit.zeroExtend 16)).w15 = s.w15 := by
    cases byte
    · exact w15_setWreg_of_ne s wn _ hr
    · exact w15_setWregKeep_of_ne s wn _ hr
  obtain ⟨hpop, htop, htop2⟩ := pops_congr hw (regDest_mem s byte wn _) (by simp) (by simp [State.circular]) (by simp)
    (by simp)
  have hret := subroutineReturn_apply (hpop.trans h)
  rw [htop, htop2] at hret
  exact runInstr_of_ok ((upd_bind _ _ _).trans hret)

/-- The low byte of a ten-bit literal. -/
theorem literal_byte (lit : BitVec 10) : (lit.zeroExtend 16).extractLsb' 0 8 = lit.extractLsb' 0 8 := by
  apply BitVec.eq_of_toNat_eq
  rw [BitVec.extractLsb'_toNat, BitVec.extractLsb'_toNat, BitVec.zeroExtend, BitVec.toNat_setWidth_of_le (by decide)]

/-- Settles O53, form by form. -/
theorem returns : Obligations.Returns := by
  unfold Obligations.Returns
  intro s hpop h l back
  refine ⟨exec_ret hpop, fun lit wn hr => ⟨exec_retlw false lit hr hpop, ?_⟩, ?_⟩
  · rw [← literal_byte]
    exact exec_retlw true lit hr hpop
  · intro t
    have ht : t = s.excReturned := by
      unfold State.excReturned State.leaveHandler State.restoreStatus State.nestBut
      simp only [popped_flags, popped_nest]
      rfl
    rw [ht]
    exact exec_retfie hpop

/-- `CALL` (R289, R290). -/
theorem exec_call {s : State} (t : BitVec 22) (h : s.canPush2 = true) : exec (.call t) s =
    .next { (s.pushed (s.retLow (s.pc + 4#23))).pushed (((s.pc + 4#23).extractLsb' 16 7).zeroExtend 16) with
      sfa := false, pc := t ++ 0#1 } :=
  runInstr_of_ok (doCall_apply _ _ h (even_app t))

/-- The return address of a call reads back. -/
theorem callFrame_pc (s : State) (ret : ProgAddr) (h : ret.getLsbD 0 = false) :
    retTarget ((ret.extractLsb' 16 7).zeroExtend 16) (s.retLow ret) = ret := by
  have hlow : ((ret.extractLsb' 16 7).zeroExtend 16 : Word).extractLsb' 0 7 = (s.excHigh ret).extractLsb' 0 7 := by
    rw [show (s.excHigh ret).extractLsb' 0 7 = ret.extractLsb' 16 7 from extract_append_right _ _]
    apply BitVec.eq_of_toNat_eq
    rw [BitVec.extractLsb'_toNat, BitVec.zeroExtend, BitVec.toNat_setWidth_of_le (by decide), Nat.shiftRight_zero]
    exact Nat.mod_eq_of_lt (BitVec.isLt _)
  refine Eq.trans ?_ (frame_pc s ret h)
  unfold retTarget
  rw [hlow]

/-- Settles O54: `pop2_of_push2` on the two words a call pushes. -/
theorem callThenReturn : Obligations.CallThenReturn := by
  unfold Obligations.CallThenReturn
  intro s u t hpush hen he hu
  rw [exec_call t hpush] at hu
  have hu := Host.Outcome.next.inj hu
  have hret : (s.pc + 4#23).getLsbD 0 = false := even_add_k s.pc 4 (by decide) he
  have hw15 : u.w15 = _ := (congrArg State.w15 hu.symm :)
  have hmem : u.mem = _ := (congrArg State.mem hu.symm :)
  have hctx : u.ctx = s.ctx := by simp [← hu]
  have hflags : u.flags = s.flags := by simp [← hu]
  have hdev : u.dev = s.dev := by simp [← hu]
  have hen' : u.splimEnabled = false := by simp [← hu, hen]
  have hcirc : u.circular = s.circular := by simp [← hu, State.circular]
  obtain ⟨hpop, htop, htop2, hback, hmem2, hsame⟩ := pop2_of_push2 _ _ hpush hen u hw15 hmem hdev hen' hcirc
  refine ⟨(congrArg State.pc hu.symm :), _, exec_ret hpop, ?_, hback, ?_, ?_, ?_, ?_⟩
  · show retTarget u.top u.popped.top = _
    rw [htop, htop2]
    exact callFrame_pc s _ hret
  · show u.popped.top.getLsbD 0 = _
    rw [htop2]
    exact low_of_append _ _
  · exact (popped_ctx _).trans ((popped_ctx _).trans hctx)
  · exact (popped_flags _).trans ((popped_flags _).trans hflags)
  · intro a ha
    exact (ramByte_congr hmem2 a).trans (hsame a ha)

end Sys2Proof.Machine
end

section
/-! The system instructions, the loops, and the end of an instruction. -/

namespace Sys2Proof.Machine

/-! The system instructions. -/

/-- The end of a loop touches the loop registers only (R323). -/
theorem terminateDo_rest (u : State) : u.terminateDo = { u with
    dl := u.dl - 1#3, edt := .clear
    dostart := u.terminateDo.dostart, doend := u.terminateDo.doend, dcount := u.terminateDo.dcount } := by
  unfold State.terminateDo
  dsimp only
  split <;> rfl

/-- The record of the handlers and the read hazards leave DISICNT; only the count-down changes it (R344). -/
theorem finish_disicnt (i : Instr) (s t : State) :
    (finish i s t).disicnt = if isDisi i || t.disicnt == 0#14 then t.disicnt else t.disicnt - 1#14 := by
  have tick : ∀ u : State, u.disicnt = t.disicnt →
      (u.disiTick i).disicnt = if isDisi i || t.disicnt == 0#14 then t.disicnt else t.disicnt - 1#14 := by
    intro u hu
    unfold State.disiTick
    rw [← hu]
    split <;> rfl
  have hloop : ∀ u : State, u.doLoopAction.disicnt = u.disicnt := by
    intro u
    unfold State.doLoopAction
    split
    · exact (congrArg State.disicnt (terminateDo_rest u) :)
    · rfl
  have hrepeat : (repeatEnd s t).disicnt = t.disicnt := by
    unfold repeatEnd
    repeat' split
    all_goals rfl
  rw [finish_apply]
  refine tick _ ?_
  split
  · rw [hloop, hrepeat]
  · exact hrepeat

theorem contextSwap_of_le {s : State} {c : Fin 5} (h : c.val ≤ s.dev.numAlt.val) :
    contextSwap c.val s = .ok ((), { s with cctxi := c, mctxi := c }) := by
  unfold contextSwap
  rw [ask_bind, if_pos h, dif_pos c.isLt]
  rfl

theorem contextSwap_of_gt {s : State} {n : Nat} (h : s.dev.numAlt.val < n) :
    contextSwap n s = .error (.refuse (.reservedContext n)) := by
  unfold contextSwap
  rw [ask_bind, if_neg (by omega)]
  rfl

/-- The context number of `CTXTSWP Wn` is the register's low three bits. -/
theorem lowContext_toNat (v : Word) : (v.extractLsb' 0 3).toNat = v.toNat % 8 := by
  rw [BitVec.extractLsb'_toNat, Nat.shiftRight_zero]

/-- Both forms of `CTXTSWP` swap to a context number and go on. -/
theorem exec_ctxtswp {s : State} {l : BitVec 3} {w : Reg} {i : Instr} {n : Nat}
    (h : (i, n) ∈ [(Instr.ctxtswpLit l, l.toNat), (.ctxtswpW w, (s.wreg w).toNat % 8)]) :
    exec i s = runInstr (contextSwap n >>= fun _ => advance 1) s := by
  simp only [List.mem_cons, Prod.mk.injEq, List.not_mem_nil, or_false] at h
  obtain ⟨rfl, rfl⟩ | ⟨rfl, rfl⟩ := h
  · rfl
  · rw [← lowContext_toNat]
    rfl

/-- Settles O59: each instruction is its update and an advance; the count-down is `finish_disicnt`. -/
theorem systemInstructions : Obligations.SystemInstructions := by
  unfold Obligations.SystemInstructions
  intro s d l w idle
  refine ⟨rfl, fun i t => ?_, fun i n hi => ⟨fun c hc hn => ?_, fun hn => ?_⟩, rfl, ?_⟩
  · rw [finish_disicnt]
    cases isDisi i
    · by_cases h0 : t.disicnt = 0#14
      · simp [h0]
      · have : 1 ≤ t.disicnt.toNat := by bv_omega
        simp only [Bool.false_or, beq_iff_eq, h0, if_false, Bool.false_eq_true]
        bv_omega
    · rfl
  · subst hc
    rw [exec_ctxtswp hi]
    exact runInstr_of_ok (bind_of_ok (contextSwap_of_le hn) _)
  · rw [exec_ctxtswp hi]
    exact runInstr_of_refuse (bind_of_error (contextSwap_of_gt hn) _)
  · refine runInstr_of_ok ((drawBit_bind _ _).trans ?_)
    cases Config.anyBit s.free <;> rfl

/-! `DO`. -/

/-- The last address of a loop (R319). -/
theorem doLast_eq (s : State) (off : Word) : s.doLast off = BitVec.ofInt 23 ((s.pc.toNat : Int) + 4 + 2 * off.toInt) :=
  rel_eq s.pc 4 off

/-- The last address of a loop is even. -/
theorem doLast_even {s : State} (off : Word) (h : s.pc.getLsbD 0 = false) : (s.doLast off).getLsbD 0 = false := by
  have := even_rel (s.pc + 2#23) off (even_add_k s.pc 2 (by decide) h)
  rwa [BitVec.add_assoc s.pc] at this

/-- The forbidden lengths, as offsets (R329). -/
theorem badLoopLength_iff (s : State) (off : Word) :
    s.badLoopLength off = true ↔ off.toInt = 0 ∨ off.toInt = -1 ∨ off.toInt = -2 := by
  have hoff : off.toInt = if 2 * off.toNat < 2 ^ 16 then (off.toNat : Int) else off.toNat - 2 ^ 16 := BitVec.toInt_eq_toNat_cond off
  have hext : (off.signExtend 23).toNat = if 2 * off.toNat < 2 ^ 16 then off.toNat else off.toNat + (2 ^ 23 - 2 ^ 16) := by
    rw [BitVec.toNat_signExtend, BitVec.toNat_setWidth_of_le (by decide), BitVec.msb_eq_decide]
    split <;> rename_i h <;> simp only [decide_eq_true_eq] at h <;> split <;> omega
  have hdist : (off.signExtend 23 <<< 1).toNat = 2 * (off.signExtend 23).toNat % 2 ^ 23 := by
    rw [BitVec.toNat_shiftLeft, Nat.shiftLeft_eq, Nat.mul_comm]
  have hlt := off.isLt
  have hfirst := s.doFirst.isLt
  unfold State.badLoopLength State.doLast
  simp only [Bool.or_eq_true, beq_iff_eq, BitVec.toNat_eq, BitVec.toNat_add, BitVec.toNat_sub, hdist, BitVec.toNat_ofNat]
  split at hoff
  next hs =>
    rw [if_pos hs] at hext
    omega
  next hs =>
    rw [if_neg hs] at hext
    omega

theorem badLoopLength_of_ne {s : State} {off : Word} (h0 : off.toInt ≠ 0) (h1 : off.toInt ≠ -1) (h2 : off.toInt ≠ -2) :
    s.badLoopLength off = false := by
  rw [Bool.eq_false_iff, Ne, badLoopLength_iff]
  omega

/-- What a started loop changes (R320). -/
theorem doStart_apply (s : State) (count off : Word) : s.doStart count off = { s with
    dostack := s.doSave.dostack, dl := s.dl + 1#3, dcount := count
    dostart := s.doFirst.extractLsb' 1 22, doend := (s.doLast off).extractLsb' 1 22 } := by
  unfold State.doStart State.doSave
  dsimp only
  split <;> rfl

/-- `DO` below the fourth level (R320). -/
theorem doLoop_of_room {s : State} {off : Word} (count : Word) (hd : s.dev.hasDsp = true)
    (hlen : s.badLoopLength off = false) (hdl : s.dl ≠ 4#3) : doLoop count off s =
    .ok ((), { s with
      dostack := s.doSave.dostack, dl := s.dl + 1#3, dcount := count
      dostart := s.doFirst.extractLsb' 1 22, doend := (s.doLast off).extractLsb' 1 22
      hazNext := { s.hazNext with doend := true }, pc := s.pc + 4#23 }) := by
  unfold doLoop
  rw [bind_of_ok (requireDsp_of_dsp hd), ask_bind, hlen]
  simp only [Bool.false_eq_true, if_false, ask_bind, hdl, doStart_apply]
  rfl

/-- `DO` at the fourth level (R320, R367). -/
theorem doLoop_of_full {s : State} {off : Word} (count : Word) (hd : s.dev.hasDsp = true)
    (hlen : s.badLoopLength off = false) (hdl : s.dl = 4#3) : doLoop count off s =
    .ok ((), { s.addPending .softTrap with
      intcon := { s.intcon with doovr := true }, hazNext := { s.hazNext with doend := true } }.advanced 2) := by
  unfold doLoop
  rw [bind_of_ok (requireDsp_of_dsp hd), ask_bind, hlen]
  simp only [Bool.false_eq_true, if_false, ask_bind, hdl, if_true]
  rfl

theorem doLoop_of_bad {s : State} {off : Word} (count : Word) (hd : s.dev.hasDsp = true)
    (hlen : s.badLoopLength off = true) : doLoop count off s = .error (.refuse .doLoopLength) := by
  unfold doLoop
  rw [bind_of_ok (requireDsp_of_dsp hd), ask_bind, hlen]
  rfl

/-- Both forms of `DO` start a loop and differ only in where the count comes from. -/
theorem exec_do {s : State} {lit : BitVec 15} {w : Reg} {off : BitVec 16} {i : Instr} {count : Word}
    (h : (i, count) ∈ [(Instr.doLit lit off, lit.zeroExtend 16), (.doW w off, s.wreg w)]) :
    exec i s = runInstr (doLoop count off) s := by
  simp only [List.mem_cons, Prod.mk.injEq, List.not_mem_nil, or_false] at h
  obtain ⟨rfl, rfl⟩ | ⟨rfl, rfl⟩ := h <;> rfl

/-- The DO stack after the loop registers are saved (R320). -/
theorem doSave_dostack (s : State) (h : s.dl.toNat < 4) (k : Fin 3) : s.doSave.dostack[k] =
    if s.dl.toNat = k.val + 1 then { start := s.dostart, stop := s.doend, count := s.dcount } else s.dostack[k] := by
  have hk : s.dl.toNat - 1 = k.val ∧ s.dl.toNat ≠ 0 ↔ s.dl.toNat = k.val + 1 := by omega
  by_cases h0 : s.dl = 0#3
  · have e : s.doSave = s := if_pos h0
    have hne : ¬s.dl.toNat = k.val + 1 := by simp [h0]
    rw [if_neg hne, e]
  · have hne : s.dl.toNat ≠ 0 := fun e => h0 (BitVec.eq_of_toNat_eq e)
    unfold State.doSave
    dsimp only
    rw [if_neg h0]
    simp only [Fin.getElem_fin, Vector.getElem_setIfInBounds, ← hk, hne, ne_eq, not_false_eq_true, and_true]

/-- An even word is its upper bits with a 0 appended. -/
theorem half_append {n : Nat} {a : BitVec (n + 1)} (h : a.getLsbD 0 = false) : a.extractLsb' 1 n ++ 0#1 = a := by
  apply BitVec.eq_of_getLsbD_eq
  intro i hi
  cases i with
  | zero => exact (even_app _).trans h.symm
  | succ i => simp [-BitVec.getLsbD_eq_getElem, BitVec.getLsbD_append, Nat.add_comm 1 i]; omega

/-- Settles O57: the four ends of `doLoop`. -/
theorem doStarts : Obligations.DoStarts := by
  unfold Obligations.DoStarts
  intro s lit w off i count hi first last
  rw [exec_do hi]
  refine ⟨fun hd hdl he h0 h1 h2 => ?_, fun hd hdl h0 h1 h2 => ?_, fun hd hlen => ?_, fun hd => ?_⟩
  · have hne : s.dl ≠ 4#3 := fun e => by rw [e] at hdl; exact absurd hdl (by decide)
    have hlen := badLoopLength_of_ne (s := s) h0 h1 h2
    have hfirst : s.doFirst.getLsbD 0 = false := even_add_k s.pc 4 (by decide) he
    refine ⟨_, runInstr_of_ok (doLoop_of_room count hd hlen hne), ?_⟩
    refine ⟨rfl, half_append hfirst, (half_append (doLast_even off he)).trans (doLast_eq s off), rfl, rfl, rfl, ?_, rfl⟩
    exact doSave_dostack s hdl
  · exact runInstr_of_ok (doLoop_of_full count hd (badLoopLength_of_ne h0 h1 h2) hdl)
  · exact runInstr_of_refuse (doLoop_of_bad count hd ((badLoopLength_iff s off).mpr hlen))
  · exact runInstr_of_refuse (bind_of_error (requireDsp_of_none hd) _)

/-! The end of an instruction in a `DO` loop. -/

/-- The jumps of R280, one by one. -/
theorem isJump_iff (i : Instr) : isJump i = true ↔
    ∃ (a : BitVec 22) (off : BitVec 16) (hi w : Reg) (b : Bool) (k : BitVec 10),
      i ∈ [.bra off, .braW w, .goto a, .gotoW w, .call a, .callW w, .callL hi w, .rcall off, .rcallW w, .ret, .retfie,
           .retlw b k w] := by
  simp only [List.mem_cons, List.not_mem_nil, or_false]
  constructor
  · intro h
    cases i with
    | bra off => exact ⟨0, off, 0, 0, false, 0, by simp⟩
    | braW w => exact ⟨0, 0, 0, w, false, 0, by simp⟩
    | goto a => exact ⟨a, 0, 0, 0, false, 0, by simp⟩
    | gotoW w => exact ⟨0, 0, 0, w, false, 0, by simp⟩
    | call a => exact ⟨a, 0, 0, 0, false, 0, by simp⟩
    | callW w => exact ⟨0, 0, 0, w, false, 0, by simp⟩
    | callL hi w => exact ⟨0, 0, hi, w, false, 0, by simp⟩
    | rcall off => exact ⟨0, off, 0, 0, false, 0, by simp⟩
    | rcallW w => exact ⟨0, 0, 0, w, false, 0, by simp⟩
    | ret => exact ⟨0, 0, 0, 0, false, 0, by simp⟩
    | retfie => exact ⟨0, 0, 0, 0, false, 0, by simp⟩
    | retlw b k w => exact ⟨0, 0, 0, w, b, k, by simp⟩
    | _ => cases h
  · rintro ⟨a, off, hi, w, b, k, h⟩
    rcases h with h | h | h | h | h | h | h | h | h | h | h | h <;> (subst h; rfl)

/-- Sequential advance (R280, R322). -/
theorem endsSequentially_iff (i : Instr) (s t : State) : endsSequentially i s t = true ↔
    ¬isJump i = true ∧ t.pc = s.pc + BitVec.ofNat 23 (2 * i.words) := by
  unfold endsSequentially State.nextPc
  simp only [Bool.and_eq_true, Bool.not_eq_true', beq_iff_eq, Bool.not_eq_true]

theorem repeatEnd_of_free {s t : State} (h : s.ra = false) : repeatEnd s t = t := by
  unfold repeatEnd
  rw [h]
  rfl

/-- At DOEND the loop acts exactly after sequential advance. -/
theorem doActs_of_doend {i : Instr} {s t : State} (hs : s.da = true) (ht : t.da = true) (hr : s.ra = false)
    (hpc : s.pc = t.doendPc) : doActs i s t = endsSequentially i s t := by
  unfold doActs repeatHeld
  rw [hs, ht, hr, beq_iff_eq.mpr hpc]
  simp

/-- The loop action reaches the registers that `finish` does not touch afterwards. -/
theorem finish_of_acts {i : Instr} {s t : State} (hr : s.ra = false) (ha : doActs i s t = true) :
    (finish i s t).pc = t.doLoopAction.pc ∧ (finish i s t).dl = t.doLoopAction.dl ∧
    (finish i s t).edt = t.doLoopAction.edt ∧ (finish i s t).dostart = t.doLoopAction.dostart ∧
    (finish i s t).doend = t.doLoopAction.doend ∧ (finish i s t).dcount = t.doLoopAction.dcount := by
  have tick : ∀ u : State, u.disiTick i = { u with disicnt := (u.disiTick i).disicnt } := by
    intro u
    unfold State.disiTick
    split <;> rfl
  rw [finish_apply, ha, repeatEnd_of_free hr]
  simp only [if_true]
  rw [tick]
  exact ⟨rfl, rfl, rfl, rfl, rfl, rfl⟩

/-- Another iteration (R322). -/
theorem doLoopAction_of_again {t : State} (hc : t.dcount ≠ 0#16) (he : t.edt ≠ .armed) : t.doLoopAction = { t with
    dcount := t.dcount - 1#16, pc := t.dostart ++ 0#1, edt := if t.edt = .late then .armed else t.edt } := by
  unfold State.doLoopAction
  rw [if_neg (by simp [hc, he])]

/-- The last iteration (R323). -/
theorem doLoopAction_of_last {t : State} (h : t.dcount = 0#16 ∨ t.edt = .armed) : t.doLoopAction = t.terminateDo := by
  unfold State.doLoopAction
  rw [if_pos h]

/-- The end of the outermost loop leaves the loop registers (R323). -/
theorem terminateDo_of_outer {t : State} (h : t.dl = 1#3) : t.terminateDo = { t with dl := 0#3, edt := .clear } := by
  have hnone : t.doSaved (t.dl - 1#3) = none := by rw [h]; rfl
  unfold State.terminateDo
  simp only [hnone]
  rw [h]
  rfl

/-- The end of an inner loop brings back the enclosing loop's registers (R323). -/
theorem terminateDo_of_inner {t : State} {k : Fin 3} (h : t.dl.toNat = k.val + 2) : t.terminateDo = { t with
    dl := t.dl - 1#3, edt := .clear, dostart := t.dostack[k].start, doend := t.dostack[k].stop
    dcount := t.dostack[k].count } := by
  have hlevel : (t.dl - 1#3).toNat = k.val + 1 := by bv_omega
  have hsome : t.doSaved (t.dl - 1#3) = some t.dostack[k] := by
    unfold State.doSaved
    rw [if_neg (fun e => by rw [e] at hlevel; cases hlevel), hlevel]
    exact Vector.getElem?_eq_getElem k.isLt
  unfold State.terminateDo
  simp only [hsome]

/-- Settles O58: the loop acts only at DOEND after sequential advance, and then by `doLoopAction`. -/
theorem doLoopEnds : Obligations.DoLoopEnds := by
  unfold Obligations.DoLoopEnds
  intro i s t hs ht hr hdisi u nothing jump
  have hidle : doActs i s t = false → u = nothing := fun h => by
    have e := repeatEnd_of_free (t := t) hr
    have hu := finish_of_idle h (by rw [e]; exact hdisi)
    rwa [e] at hu
  refine ⟨?_, fun h => hidle (doActs_of_away (.inr h)), fun hpc hdl => ⟨fun h => ?_, fun h hc he => ?_, fun h hlast => ?_⟩⟩
  · rw [endsSequentially_iff, isJump_iff]
  · exact hidle ((doActs_of_doend hs ht hr hpc).trans h)
  · obtain ⟨e1, e2, e3, e4, e5, e6⟩ := finish_of_acts hr ((doActs_of_doend hs ht hr hpc).trans h)
    rw [doLoopAction_of_again hc he] at e1 e2 e3 e4 e5 e6
    exact ⟨e1, e6, e2, e4, e5, e3⟩
  · obtain ⟨e1, e2, e3, e4, e5, e6⟩ := finish_of_acts hr ((doActs_of_doend hs ht hr hpc).trans h)
    rw [doLoopAction_of_last hlast] at e1 e2 e3 e4 e5 e6
    have hrest := terminateDo_rest t
    refine ⟨e1.trans (congrArg State.pc hrest :), e2.trans (congrArg State.dl hrest :),
      e3.trans (congrArg State.edt hrest :), fun hone => ?_, fun k hk => ?_⟩
    · rw [terminateDo_of_outer hone] at e4 e5 e6
      exact ⟨e4, e5, e6⟩
    · rw [terminateDo_of_inner hk] at e4 e5 e6
      exact ⟨e4, e5, e6⟩

/-! A repeated `NOP`. -/

/-- Forgetting the handlers left is done once and for all. -/
theorem nestKept_nestKept (s : State) (u : State) (hu : u.nest = s.nestKept) (hw : u.w15 = s.w15)
    (hl : u.level = s.level) : u.nestKept = s.nestKept := by
  have hin : ∀ f : Suspended, u.inHandlerOf f = s.inHandlerOf f := fun f => by
    unfold State.inHandlerOf
    rw [hw, hl]
  have hid : ∀ f ∈ s.nestKept, { f with divides := f.divides && s.inHandlerOf f } = f := fun f hf => by
    obtain ⟨_, g, _, rfl⟩ := mem_nestKept.mp hf
    show { g with divides := (g.divides && s.inHandlerOf g) && s.inHandlerOf g } = _
    rw [Bool.and_assoc, Bool.and_self]
  have hmap : (s.nestKept.map fun f => { f with divides := f.divides && s.inHandlerOf f }) = s.nestKept := by
    rw [List.map_congr_left hid, List.map_id']
  have hfilter : (s.nestKept.filter fun f => f.divides || f.repeatNew) = s.nestKept :=
    List.filter_eq_self.mpr fun f hf => by
      obtain ⟨h, _⟩ := mem_nestKept.mp hf
      simpa using h
  show (u.nest.map fun f => { f with divides := f.divides && u.inHandlerOf f }).filter _ = _
  simp only [hin]
  rw [hu, hmap, hfilter]

theorem sampled_of_none {s : State} (h : s.irqs = []) : s.sampled = s := by
  unfold State.sampled
  rw [h]
  exact congrArg (fun l => { s with irqs := l }) h.symm

/-- A machine on which nothing is pending and nothing requests runs its next instruction. -/
theorem quiet_of_calm {s : State} (hp : s.power = .run) (hpend : s.pending = Pending.empty) (hirq : s.irqs = []) :
    s.quiet = true := by
  unfold State.quiet State.urgentTrap
  rw [hp, hpend, hirq]
  rfl

/-- What is left of the loop after an execution that is not the last (R314). -/
def State.repeatedOnce (s : State) : State :=
  { s with rcount := s.rcount - 1#16, repeatNew := false, nest := s.nestKept, haz := s.hazNext, hazNext := Hazard.none }

/-- One execution of a `NOP` that `REPEAT` repeats (R314). -/
theorem step_repeatedNop {s : State} (hp : s.power = .run) (hpend : s.pending = Pending.empty) (hirq : s.irqs = [])
    (hra : s.ra = true) (hda : s.da = false) (hdisi : s.disicnt = 0#14) (hh : s.holds .nop) : step s = .next
    (if s.rcount = 0#16 then
      { s with pc := s.pc + 2#23, ra := false, repeatNew := false, nest := s.nestKept, haz := s.hazNext,
               hazNext := Hazard.none }
    else s.repeatedOnce) := by
  have hsampled : s.sampled = s := sampled_of_none hirq
  have hloop : s.loopRefusal .nop = none := by
    unfold State.loopRefusal
    rw [hda, show repeatForbidden .nop = false from rfl, Bool.and_false]
    rfl
  have hrun := endOfInstruction .nop s { s with pc := s.pc + 2#23 } (.inl (by rw [hda]; rfl)) hdisi
  obtain ⟨_, hmore, hend, _⟩ := hrun
  rw [step_of_quiet (quiet_of_calm hp hpend hirq), hsampled,
    runOne_of_next (t := { s with pc := s.pc + 2#23 }) ((fetch_of_holds hh).trans rfl) hloop rfl]
  split
  next hc => rw [hend hra hra hc]; rfl
  next hc => rw [hmore hra hra hc]; rfl

theorem run_succ {n : Nat} {s t : State} (h : step s = .next t) :
    Host.Core.run Sys2Proof.core (n + 1) s = Host.Core.run Sys2Proof.core n t := by
  have h' : Sys2Proof.core.step s = .next t := h
  simp only [Host.Core.run, h']

/-- Settles O56, by induction on RCOUNT: each step is `step_repeatedNop`. -/
theorem repeatExecutesCountPlusOne : Obligations.RepeatExecutesCountPlusOne := by
  unfold Obligations.RepeatExecutesCountPlusOne
  intro n
  induction n with
  | zero =>
    intro s hp hpend hirq hra hda hdisi hhaz hnext hh hn
    have hc : s.rcount = 0#16 := BitVec.eq_of_toNat_eq hn
    have hstep := step_repeatedNop hp hpend hirq hra hda hdisi hh
    rw [if_pos hc] at hstep
    rw [run_succ hstep, ← hc]
    simp only [hnext, ← hhaz]
    rfl
  | succ n ih =>
    intro s hp hpend hirq hra hda hdisi hhaz hnext hh hn
    have hc : s.rcount ≠ 0#16 := fun e => by rw [e] at hn; cases hn
    have hstep := step_repeatedNop hp hpend hirq hra hda hdisi hh
    rw [if_neg hc] at hstep
    have hlast : s.rcount.toNat - 1 = (s.rcount - 1#16).toNat := by bv_omega
    have hrest := ih s.repeatedOnce hp hpend hirq hra hda hdisi hnext rfl hh (hlast.symm.trans (by omega))
    rw [run_succ hstep, hrest, nestKept_nestKept s s.repeatedOnce rfl rfl rfl]
    simp only [State.repeatedOnce, hnext, hhaz]

end Sys2Proof.Machine
end

section
/-! The divides: what they compute, what one execution does, and a complete operation under `REPEAT`. -/

namespace Sys2Proof.Machine

/-! The arithmetic (R225 to R230). -/

theorem divResult_of_out {n d lo hi : Int} (h : n.tdiv d < lo ∨ hi < n.tdiv d) : divResult n d lo hi = .overflow := by
  unfold divResult
  exact if_pos h

/-- A quotient that fits, with the remainder of the truncating division. -/
theorem divResult_of_in {n d lo hi : Int} (h : ¬(n.tdiv d < lo ∨ hi < n.tdiv d)) : divResult n d lo hi =
    .value (BitVec.ofInt 16 (n.tdiv d)) (BitVec.ofInt 16 (n.tmod d)) (decide (n.tmod d < 0)) (decide (n.tmod d = 0)) := by
  have hr : n - n.tdiv d * d = n.tmod d := by rw [Int.tmod_def, Int.mul_comm]
  unfold divResult
  dsimp only
  rw [if_neg h, hr]

theorem divResult_overflow_iff (n d lo hi : Int) :
    divResult n d lo hi = .overflow ↔ (n.tdiv d < lo ∨ hi < n.tdiv d) := by
  refine ⟨fun h => Classical.byContradiction fun hin => ?_, divResult_of_out⟩
  rw [divResult_of_in hin] at h
  cases h

/-- What a result with a value says. -/
theorem divResult_value {n d lo hi : Int} {q r : Word} {neg zero : Bool} (h : divResult n d lo hi = .value q r neg zero) :
    (lo ≤ n.tdiv d ∧ n.tdiv d ≤ hi) ∧ q = BitVec.ofInt 16 (n.tdiv d) ∧ r = BitVec.ofInt 16 (n.tmod d) ∧
      (neg = true ↔ n.tmod d < 0) ∧ (zero = true ↔ n.tmod d = 0) := by
  by_cases hin : n.tdiv d < lo ∨ hi < n.tdiv d
  · rw [divResult_of_out hin] at h
    cases h
  · rw [divResult_of_in hin] at h
    injection h with hq hr hn hz
    exact ⟨by omega, hq.symm, hr.symm, by simp [← hn], by simp [← hz]⟩

/-- The remainder of the truncating division is smaller than the divisor and has the dividend's sign. -/
theorem tmod_bounds (n : Int) {d : Int} (hd : d ≠ 0) :
    (n.tmod d).natAbs < d.natAbs ∧ (0 ≤ n → 0 ≤ n.tmod d) ∧ (n ≤ 0 → n.tmod d ≤ 0) := by
  refine ⟨?_, Int.tmod_nonneg d, fun h => ?_⟩
  · rw [Int.natAbs_tmod]
    exact Nat.mod_lt _ (by omega)
  · have := Int.tmod_nonneg d (a := -n) (by omega)
    rw [Int.neg_tmod] at this
    omega

/-- What a signed divide delivers (R225, R226, R230). -/
theorem divSigned_value {n d : Int} (h0 : d ≠ 0) (hlo : -32768 ≤ d) (hhi : d ≤ 32767) {q r : Word} {neg zero : Bool}
    (h : divSigned n d = .value q r neg zero) : q.toInt = n.tdiv d ∧ r.toInt = n.tmod d ∧
      (neg = true ↔ r.toInt < 0) ∧ (zero = true ↔ r = 0#16) := by
  obtain ⟨hb, rfl, rfl, hn, hz⟩ := divResult_value h
  have hq : (BitVec.ofInt 16 (n.tdiv d)).toInt = n.tdiv d := BitVec.toInt_ofInt_eq_self (by decide) (by omega) (by omega)
  have hm := (tmod_bounds n h0).1
  have hr : (BitVec.ofInt 16 (n.tmod d)).toInt = n.tmod d := BitVec.toInt_ofInt_eq_self (by decide) (by omega) (by omega)
  refine ⟨hq, hr, by rw [hr]; exact hn, hz.trans ?_⟩
  rw [← BitVec.toInt_inj, hr]
  rfl

/-- What an unsigned divide delivers (R227, R229). -/
theorem divUnsigned_value {n d : Int} (hn : 0 ≤ n) (h0 : 0 < d) (hhi : d ≤ 65535) {q r : Word} {neg zero : Bool}
    (h : divUnsigned n d = .value q r neg zero) : (q.toNat : Int) = n.tdiv d ∧ (r.toNat : Int) = n.tmod d ∧
      neg = false ∧ (zero = true ↔ r = 0#16) := by
  obtain ⟨hb, rfl, rfl, hneg, hz⟩ := divResult_value h
  obtain ⟨hm, hpos, _⟩ := tmod_bounds n (d := d) (by omega)
  have hpos := hpos hn
  have hq : ((BitVec.ofInt 16 (n.tdiv d)).toNat : Int) = n.tdiv d := toNat_ofInt_of_bounds (by omega) (by omega)
  have hr : ((BitVec.ofInt 16 (n.tmod d)).toNat : Int) = n.tmod d := toNat_ofInt_of_bounds (by omega) (by omega)
  refine ⟨hq, hr, ?_, hz.trans ?_⟩
  · rw [Bool.eq_false_iff, Ne, hneg]
    omega
  · rw [← BitVec.toNat_inj, ← Int.natCast_inj, hr]
    rfl

/-- Settles O43: the quotient and the remainder of the truncating division of integers. -/
theorem divideArithmetic : Obligations.DivideArithmetic := by
  unfold Obligations.DivideArithmetic
  intro n d h0
  refine ⟨fun hlo hhi => ⟨divResult_overflow_iff n d _ _, fun q r neg zero h => ?_⟩,
    fun hn hpos hhi => ⟨?_, fun q r neg zero h => ?_⟩⟩
  · obtain ⟨hq, hr, hneg, hzero⟩ := divSigned_value h0 hlo hhi h
    obtain ⟨hm, hp, hm'⟩ := tmod_bounds n h0
    rw [hr] at hneg
    rw [hq, hr]
    exact ⟨(Int.tdiv_mul_add_tmod n d).symm, hm, hp, hm', hneg, hzero⟩
  · have hdiv : 0 ≤ n.tdiv d := Int.tdiv_nonneg hn (by omega)
    rw [← Int.tdiv_eq_ediv_of_nonneg hn]
    refine (divResult_overflow_iff n d _ _).trans ?_
    omega
  · obtain ⟨hq, hr, hneg, hzero⟩ := divUnsigned_value hn hpos hhi h
    have hm := (tmod_bounds n h0).1
    refine ⟨?_, ?_, hneg, hzero⟩
    · rw [hq, hr]
      exact (Int.tdiv_mul_add_tmod n d).symm
    · omega

/-! One execution of a divide (R228 to R231). -/

/-- What every execution of a divide may change: W0, W1, the flags but DC, the divide in progress, and free values. -/
structure Divided (s t : State) : Prop where
  regs : sameRegistersBut s t [0#4, 1#4]
  dc : t.flags.dc = s.flags.dc
  rest : t = { s with ctx := t.ctx, flags := t.flags, div := t.div, free := t.free }

theorem Divided.trans {s t u : State} (h : Divided s t) (k : Divided t u) : Divided s u where
  regs := regs_mono (regs_trans h.regs k.regs (congrArg State.cctxi h.rest :)) (by simp)
  dc := k.dc.trans h.dc
  rest := by
    have hk := k.rest
    rw [h.rest] at hk
    exact hk

/-- The state in which W0, W1 and the flags have new values. -/
def State.resultWritten (s : State) (q r : Word) (fl : Flags) : State :=
  { (s.setWreg 0#4 q).setWreg 1#4 r with flags := fl }

theorem resultWritten_divided (s : State) (q r : Word) {fl : Flags} (h : fl.dc = s.flags.dc) :
    Divided s (s.resultWritten q r fl) where
  regs := regs_mono (regs_trans (setWreg_regs s 0#4 q) (setWreg_regs _ 1#4 r) (setWreg_cctxi ..)) (by simp)
  dc := h
  rest := rfl

theorem resultWritten_w0 (s : State) (q r : Word) (fl : Flags) : (s.resultWritten q r fl).wreg 0#4 = q :=
  (wreg_setWreg_of_ne (s.setWreg 0#4 q) r (by decide)).trans (wreg_setWreg s 0#4 q)

theorem resultWritten_w1 (s : State) (q r : Word) (fl : Flags) : (s.resultWritten q r fl).wreg 1#4 = r :=
  wreg_setWreg (s.setWreg 0#4 q) 1#4 r

theorem divideDrawn_divided (s : State) : Divided s s.divideDrawn where
  regs := (resultWritten_divided s _ _ (fl := s.flags) rfl).regs
  dc := rfl
  rest := rfl

theorem divideWritten_divided (s : State) (r : DivResult) : Divided s (s.divideWritten r) := by
  have hdrawn := divideDrawn_divided s
  cases r with
  | value q r n z => exact hdrawn.trans (resultWritten_divided _ q r rfl)
  | overflow => exact hdrawn.trans ⟨regs_of_eq rfl rfl rfl _, rfl, rfl⟩
  | unknown => exact hdrawn

theorem divideRan_divided (s : State) (final : DivResult) : Divided s (s.divideRan final) := by
  have hdiv : ∀ d, Divided s { s with div := d } := fun d => ⟨regs_of_eq rfl rfl rfl _, rfl, rfl⟩
  unfold State.divideRan
  split
  · exact (hdiv _).trans (divideWritten_divided _ _)
  · exact (hdiv _).trans (divideDrawn_divided _)

/-- The free values an execution without a result leaves. -/
theorem divideDrawn_values (s : State) : s.divideDrawn.wreg 0#4 = Config.anyBits 16 s.free ∧
    s.divideDrawn.wreg 1#4 = Config.anyBits 16 (s.free + 1) ∧
    s.divideDrawn.flags.n = Config.anyBit (s.free + 3) ∧ s.divideDrawn.flags.ov = Config.anyBit (s.free + 4) ∧
    s.divideDrawn.flags.z = Config.anyBit (s.free + 5) ∧ s.divideDrawn.flags.c = Config.anyBit (s.free + 6) ∧
    s.divideDrawn.div = s.div :=
  ⟨resultWritten_w0 s _ _ s.flags, resultWritten_w1 s _ _ s.flags, rfl, rfl, rfl, rfl, rfl⟩

/-- An execution under `REPEAT` of a divide without a result. -/
theorem divideRan_unknown {s : State} (h : s.ra = true) :
    s.divideRan .unknown = { s with div := s.divAfter .unknown }.divideDrawn := by
  unfold State.divideRan
  rw [if_pos h, ite_self]
  rfl

/-- The divide in progress, after an execution under `REPEAT`. -/
theorem divideRan_div {s : State} (final : DivResult) (h : s.ra = true) : (s.divideRan final).div = s.divAfter final := by
  unfold State.divideRan
  rw [if_pos h]
  cases (if s.rcount == 0#16 then final else .unknown) <;> rfl

/-- The last execution under `REPEAT`. -/
theorem divideRan_last {s : State} (final : DivResult) (h : s.ra = true) (hc : s.rcount = 0#16) :
    s.divideRan final = { s with div := none }.divideWritten final := by
  unfold State.divideRan State.divAfter
  rw [if_pos h, if_pos hc, hc]
  rfl

/-- What the last execution of a divide with a value leaves. -/
theorem divideRan_value {s : State} (q r : Word) (n z : Bool) (h : s.ra = true) (hc : s.rcount = 0#16) :
    let t := s.divideRan (.value q r n z)
    t.wreg 0#4 = q ∧ t.wreg 1#4 = r ∧ t.flags.n = n ∧ t.flags.z = z ∧ t.flags.ov = false ∧ t.div = none := by
  rw [divideRan_last _ h hc]
  exact ⟨resultWritten_w0 _ q r _, resultWritten_w1 _ q r _, rfl, rfl, rfl, rfl⟩

/-- The divide that starts on its operands as they are (R228). -/
theorem divFinal_of_first {s : State} (result : DivResult) (hnew : s.repeatNew = true) (hc : s.rcount = 17#16)
    (hdiv : s.div = none) (hnest : ∀ f ∈ s.nest, f.divides = false) : s.divFinal result = result := by
  have hblocked : s.divBlocked = false := by
    rw [Bool.eq_false_iff, Ne, divBlocked_iff, hdiv]
    rintro (⟨f, hf, h⟩ | ⟨r, h, _⟩)
    · rw [hnest f hf] at h
      cases h
    · cases h
  rw [divFinal_of_none _ (divNow_of_first hnew), if_pos ⟨hnew, hc, hblocked⟩]

/-- A divide under `REPEAT` keeps no result where R228 gives none. -/
theorem divFinal_of_open {s : State} {wn : Reg} (result : DivResult)
    (h : (s.repeatNew = true ∧ s.rcount ≠ 17#16) ∨ (s.repeatNew = true ∧ ∃ f ∈ s.nest, f.divides = true) ∨
      (s.repeatNew = true ∧ ∃ r, s.div = some r ∧ r.result ≠ .unknown) ∨
      (s.repeatNew = true ∧ (wn = 0#4 ∨ wn = 1#4)) ∨
      (s.repeatNew = false ∧ ((∀ final, s.div ≠ some ⟨s.pc, s.rcount.toNat + 1, final⟩) ∨
        s.div = some ⟨s.pc, s.rcount.toNat + 1, .unknown⟩))) :
    s.divFinal (if wn = 0#4 ∨ wn = 1#4 then .unknown else result) = .unknown := by
  rcases h with ⟨hn, hc⟩ | ⟨hn, hf⟩ | ⟨hn, hr⟩ | ⟨hn, hw⟩ | ⟨hn, hnone | hsome⟩
  · rw [divFinal_of_none _ (divNow_of_first hn), if_neg fun h => hc h.2.1]
  · have hb := divBlocked_iff.mpr (.inl hf)
    rw [divFinal_of_none _ (divNow_of_first hn), hb, if_neg fun h => nomatch h.2.2]
  · have hb := divBlocked_iff.mpr (.inr hr)
    rw [divFinal_of_none _ (divNow_of_first hn), hb, if_neg fun h => nomatch h.2.2]
  · rw [divFinal_of_none _ (divNow_of_first hn), if_pos hw, ite_self]
  · have hnow : s.divNow = none := by
      unfold State.divNow
      rw [hn, if_neg Bool.false_ne_true, Option.filter_eq_none_iff]
      rintro ⟨a, k, final⟩ hd
      simp only [Bool.and_eq_true, beq_iff_eq]
      rintro ⟨rfl, rfl⟩
      exact hnone final hd
    rw [divFinal_of_none _ hnow, if_neg fun h => by rw [hn] at h; exact nomatch h.1]
  · exact divFinal_of_run _ (divNow_of_div hn hsome rfl rfl)

/-- All five divides are `divide` on their divisor, with the result their operands give. -/
theorem exec_divide {s : State} {hi wm wn : Reg} {i : Instr} {result : DivResult}
    (h : (i, result) ∈ [(Instr.divSW wm wn, divSigned (s.wreg wm).toInt (s.wreg wn).toInt),
        (.divSD hi wm wn, divSigned (s.wreg hi ++ s.wreg wm).toInt (s.wreg wn).toInt),
        (.divUW wm wn, divUnsigned (s.wreg wm).toNat (s.wreg wn).toNat),
        (.divUD hi wm wn, divUnsigned (s.wreg hi ++ s.wreg wm).toNat (s.wreg wn).toNat)] ∨
      (i = .divF wm wn ∧ s.dev.hasDivf = true ∧
        result = divSigned ((s.wreg wm).toInt * 2 ^ 15) (s.wreg wn).toInt)) :
    ∃ f : State → DivResult, f s = result ∧ exec i s = runInstr (divide wn f) s := by
  simp only [List.mem_cons, Prod.mk.injEq, List.not_mem_nil, or_false] at h
  rcases h with (⟨rfl, rfl⟩ | ⟨rfl, rfl⟩ | ⟨rfl, rfl⟩ | ⟨rfl, rfl⟩) | ⟨rfl, hd, rfl⟩
  · exact ⟨_, rfl, rfl⟩
  · exact ⟨_, rfl, rfl⟩
  · exact ⟨_, rfl, rfl⟩
  · exact ⟨_, rfl, rfl⟩
  · refine ⟨fun s => divSigned ((s.wreg wm).toInt * 32768) (s.wreg wn).toInt, rfl, ?_⟩
    show execDivF wm wn s = _
    unfold execDivF runInstr
    rw [ask_bind, hd]
    rfl

/-- An execution changes what `Divided` says, and goes on. -/
theorem divided_advanced {s t : State} (h : Divided s t) : sameRegistersBut s (t.advanced 1) [0#4, 1#4] ∧
    sameMemory s (t.advanced 1) ∧ (t.advanced 1).flags.dc = s.flags.dc ∧ (t.advanced 1).pc = s.pc + 2#23 := by
  refine ⟨regs_mono (regs_trans h.regs (regs_of_eq rfl rfl rfl []) (congrArg State.cctxi h.rest :)) (by simp), fun a => ?_, h.dc, ?_⟩
  · exact ramByte_congr (congrArg State.mem h.rest :) a
  · have hpc : t.pc = s.pc := (congrArg State.pc h.rest :)
    show t.pc + 2#23 = _
    rw [hpc]

/-- The rest of the state after an execution from `x`, which is `s` but for the error bits. -/
theorem divided_rest {s x t : State} (h : Divided x t) (hx : x = { s with intcon := x.intcon, pending := x.pending }) :
    t.advanced 1 = { s with
      ctx := t.ctx, flags := t.flags, pc := (t.advanced 1).pc, div := t.div, intcon := t.intcon, pending := t.pending
      free := t.free } := by
  obtain ⟨c, fl, d, n, rfl⟩ : ∃ c fl d n, t = { x with ctx := c, flags := fl, div := d, free := n } := ⟨_, _, _, _, h.rest⟩
  obtain ⟨i, p, rfl⟩ : ∃ i p, x = { s with intcon := i, pending := p } := ⟨_, _, hx⟩
  rfl

/-- An execution under `REPEAT` without a result leaves free values, and the divide in progress without one. -/
theorem divideRan_open {s : State} (hra : s.ra = true) :
    let t := (s.divideRan .unknown).advanced 1
    t.wreg 0#4 = Config.anyBits 16 s.free ∧ t.wreg 1#4 = Config.anyBits 16 (s.free + 1) ∧
    t.flags.n = Config.anyBit (s.free + 3) ∧ t.flags.ov = Config.anyBit (s.free + 4) ∧
    t.flags.z = Config.anyBit (s.free + 5) ∧ t.flags.c = Config.anyBit (s.free + 6) ∧
    t.div = if s.rcount = 0#16 then none else some ⟨s.pc, s.rcount.toNat, .unknown⟩ := by
  rw [divideRan_unknown hra]
  exact divideDrawn_values { s with div := s.divAfter .unknown }

/-- An execution outside `REPEAT` leaves free values and spoils the divide in progress. -/
theorem divideRan_alone {s : State} (final : DivResult) (hra : s.ra = false) :
    let t := (s.divideRan final).advanced 1
    t.wreg 0#4 = Config.anyBits 16 s.free ∧ t.wreg 1#4 = Config.anyBits 16 (s.free + 1) ∧
    t.div = s.div.map fun r => { r with result := .unknown } := by
  have e : s.divideRan final = { s with div := s.div.map DivRun.spoiled }.divideDrawn := by
    unfold State.divideRan
    rw [hra]
    rfl
  obtain ⟨h0, h1, _, _, _, _, hd⟩ := divideDrawn_values { s with div := s.div.map DivRun.spoiled }
  rw [e]
  exact ⟨h0, h1, hd⟩

/-- The divide in progress of a well-formed divide under `REPEAT`, from its first execution to its last. -/
theorem divideRan_runs {s : State} {wn : Reg} (result : DivResult) (hra : s.ra = true) (h0 : wn ≠ 0#4) (h1 : wn ≠ 1#4) :
    let t := (s.divideRan (s.divFinal (if wn = 0#4 ∨ wn = 1#4 then .unknown else result))).advanced 1
    (s.repeatNew = true → s.rcount = 17#16 → s.div = none → (∀ f ∈ s.nest, f.divides = false) →
      t.div = some ⟨s.pc, 17, result⟩) ∧
    (s.repeatNew = false →
      (∀ final n, s.div = some ⟨s.pc, n + 2, final⟩ → s.rcount.toNat = n + 1 → t.div = some ⟨s.pc, n + 1, final⟩) ∧
      (∀ q r n z, s.div = some ⟨s.pc, 1, .value q r n z⟩ → s.rcount = 0#16 →
        t.wreg 0#4 = q ∧ t.wreg 1#4 = r ∧ t.flags.n = n ∧ t.flags.z = z ∧ t.flags.ov = false ∧ t.div = none) ∧
      (s.div = some ⟨s.pc, 1, .overflow⟩ → s.rcount = 0#16 → t.flags.ov = true ∧ t.div = none)) := by
  rw [if_neg (by simp [h0, h1])]
  have hlast : ∀ final, s.repeatNew = false → s.div = some ⟨s.pc, 1, final⟩ → s.rcount = 0#16 →
      s.divFinal result = final :=
    fun final hn hd hc => divFinal_of_run result (divNow_of_div hn hd rfl (by rw [hc]; rfl))
  refine ⟨fun hn hc hd hf => ?_, fun hn => ⟨fun final n hd hc => ?_, fun q r n z hd hc => ?_, fun hd hc => ?_⟩⟩
  · rw [divFinal_of_first result hn hc hd hf]
    refine (divideRan_div result hra).trans ?_
    unfold State.divAfter
    rw [hc]
    rfl
  · rw [divFinal_of_run result (divNow_of_div hn hd rfl (by rw [hc]))]
    refine (divideRan_div final hra).trans ?_
    have hne : s.rcount ≠ 0#16 := fun e => by rw [e] at hc; cases hc
    unfold State.divAfter
    rw [if_neg hne, hc]
  · rw [hlast _ hn hd hc]
    exact divideRan_value q r n z hra hc
  · rw [hlast _ hn hd hc, divideRan_last _ hra hc]
    exact ⟨rfl, rfl⟩

/-- The pending `MathError` and DIV0ERR that a divisor of 0 leaves (R231). -/
def State.dividedByZero (s : State) : State :=
  { s.addPending .mathError with intcon := { s.intcon with div0err := true } }

/-- Settles O42: `divide_of_ne` and `divide_of_zero`, and what `divideRan` leaves in each case. -/
theorem divideExecutions : Obligations.DivideExecutions := by
  unfold Obligations.DivideExecutions
  intro s hi wm wn i result hi run
  obtain ⟨f, rfl, hexec⟩ := exec_divide hi
  rw [hexec]
  by_cases hz : s.wreg wn = 0#16
  · have hd := divideRan_divided s.dividedByZero .unknown
    obtain ⟨hregs, hmem, hdc, hpc⟩ := divided_advanced hd
    refine ⟨_, runInstr_of_ok (divide_of_zero f hz), ?_, hmem, hdc, hpc, ?_, fun _ => ⟨?_, ?_⟩, fun h => absurd hz h,
      fun h => absurd hz h, fun hra _ => ?_, fun hra => ?_⟩
    · exact hregs
    · exact divided_rest hd rfl
    · exact (congrArg State.intcon hd.rest :)
    · have hp := (congrArg State.pending hd.rest :)
      show (s.dividedByZero.divideRan .unknown).pending.mathError = true
      rw [hp]
      rfl
    · exact divideRan_open (s := s.dividedByZero) hra
    · exact divideRan_alone (s := s.dividedByZero) .unknown hra
  · have hd := divideRan_divided s (s.divFinal (if wn = 0#4 ∨ wn = 1#4 then .unknown else f s))
    obtain ⟨hregs, hmem, hdc, hpc⟩ := divided_advanced hd
    refine ⟨_, runInstr_of_ok (divide_of_ne f hz), hregs, hmem, hdc, hpc, ?_, fun h => absurd h hz, fun _ => ⟨?_, ?_⟩,
      fun _ hra h0 h1 => divideRan_runs (f s) hra h0 h1, fun hra hopen => ?_, fun hra => divideRan_alone _ hra⟩
    · exact divided_rest hd rfl
    · exact (congrArg State.intcon hd.rest :)
    · exact (congrArg State.pending hd.rest :)
    · rw [divFinal_of_open (f s) (hopen.resolve_left hz)]
      exact divideRan_open hra

/-! A complete operation: eighteen executions under `REPEAT` (R228, R310, R314). -/

/-- A machine that runs `DIV.SW` as the target of a `REPEAT` loop, with nothing pending and a divisor other than 0. -/
structure RepeatsDivide (s : State) (wm wn : Reg) : Prop where
  power : s.power = .run
  pending : s.pending = Pending.empty
  irqs : s.irqs = []
  ra : s.ra = true
  da : s.da = false
  there : s.holds (.divSW wm wn)
  ne0 : wn ≠ 0#4
  ne1 : wn ≠ 1#4
  divisor : s.wreg wn ≠ 0#16

/-- The result its operands give. -/
def State.signedQuotient (s : State) (wm wn : Reg) : DivResult := divSigned (s.wreg wm).toInt (s.wreg wn).toInt

/-- The state after its execution, before the end-of-instruction actions. -/
def State.divideExecuted (s : State) (wm wn : Reg) : State :=
  (s.divideRan (s.divFinal (if wn = 0#4 ∨ wn = 1#4 then .unknown else s.signedQuotient wm wn))).advanced 1

theorem divideExecuted_divided {s : State} (wm wn : Reg) : ∃ t : State, Divided s t ∧
    s.divideExecuted wm wn = t.advanced 1 :=
  ⟨_, divideRan_divided s _, rfl⟩

/-- A step is one execution of the divide (R314). -/
theorem step_of_repeatsDivide {s : State} {wm wn : Reg} (h : RepeatsDivide s wm wn) :
    step s = .next (finish (.divSW wm wn) s (s.divideExecuted wm wn)) := by
  have hsampled : s.sampled = s := sampled_of_none h.irqs
  have hloop : s.loopRefusal (.divSW wm wn) = none := by
    unfold State.loopRefusal
    rw [h.da, show repeatForbidden (.divSW wm wn) = false from rfl, Bool.and_false]
    rfl
  rw [step_of_quiet (quiet_of_calm h.power h.pending h.irqs), hsampled]
  exact runOne_of_next ((fetch_of_holds h.there).trans rfl) hloop
    (runInstr_of_ok (divide_of_ne (fun s => s.signedQuotient wm wn) h.divisor))

/-- Away from the end of a `DO` loop only `REPEAT` touches the pc, RA and RCOUNT. -/
theorem finish_rest {i : Instr} {s t : State} (h : doActs i s t = false) : ∃ d n z, finish i s t =
    { repeatEnd s t with disicnt := d, nest := n, haz := z, hazNext := Hazard.none } := by
  have tick : ∀ u : State, u.disiTick i = { u with disicnt := (u.disiTick i).disicnt } := by
    intro u
    unfold State.disiTick
    split <;> rfl
  rw [finish_apply, h]
  simp only [Bool.false_eq_true, if_false]
  rw [tick]
  exact ⟨_, _, _, rfl⟩

/-- An execution that is not the last: the loop goes on with the divide at its pc. -/
theorem repeatsDivide_next {s : State} {wm wn : Reg} (h : RepeatsDivide s wm wn) (hc : s.rcount ≠ 0#16) :
    ∃ u, step s = .next u ∧ RepeatsDivide u wm wn ∧ u.rcount = s.rcount - 1#16 ∧ u.pc = s.pc ∧ u.repeatNew = false ∧
      u.div = (s.divideExecuted wm wn).div := by
  obtain ⟨t, hd, ht⟩ := divideExecuted_divided (s := s) wm wn
  have hdivisor : t.wreg wn = s.wreg wn := hd.regs.1 wn (by simp [h.ne0, h.ne1])
  have hstep := step_of_repeatsDivide h
  rw [ht] at hstep ⊢
  obtain ⟨c, fl, d, n, rfl⟩ : ∃ c fl d n, t = { s with ctx := c, flags := fl, div := d, free := n } := ⟨_, _, _, _, hd.rest⟩
  obtain ⟨di, ne, hz, hfin⟩ := finish_rest (i := .divSW wm wn) (s := s)
    (t := State.advanced { s with ctx := c, flags := fl, div := d, free := n } 1) (doActs_of_away (.inl (by rw [h.da]; rfl)))
  rw [hfin] at hstep
  have hend : repeatEnd s (State.advanced { s with ctx := c, flags := fl, div := d, free := n } 1) =
      { s with ctx := c, flags := fl, div := d, free := n, rcount := s.rcount - 1#16, repeatNew := false } := by
    unfold repeatEnd
    rw [h.ra, Bool.true_and]
    refine (if_pos ?_).trans (if_neg ?_)
    · rfl
    · exact hc
  rw [hend] at hstep
  exact ⟨_, hstep, ⟨h.power, h.pending, h.irqs, h.ra, h.da, h.there, h.ne0, h.ne1, by
    have e : ({ s with ctx := c, flags := fl, div := d, free := n } : State).wreg wn ≠ 0#16 := by
      rw [hdivisor]; exact h.divisor
    exact e⟩, rfl, rfl, rfl, rfl⟩

/-- The last execution: the loop ends with the result written. -/
theorem repeatsDivide_last {s : State} {wm wn : Reg} {q r : Word} {n z : Bool} (h : RepeatsDivide s wm wn)
    (hc : s.rcount = 0#16) (hnew : s.repeatNew = false) (hdiv : s.div = some ⟨s.pc, 1, .value q r n z⟩) :
    ∃ u, step s = .next u ∧ u.pc = s.pc + 2#23 ∧ u.ra = false ∧ u.rcount = 0#16 ∧ u.wreg 0#4 = q ∧ u.wreg 1#4 = r ∧
      u.flags.n = n ∧ u.flags.z = z ∧ u.flags.ov = false := by
  obtain ⟨t, hd, ht⟩ := divideExecuted_divided (s := s) wm wn
  obtain ⟨h0, h1, hn, hz, hov, _⟩ : (s.divideExecuted wm wn).wreg 0#4 = q ∧ (s.divideExecuted wm wn).wreg 1#4 = r ∧
      (s.divideExecuted wm wn).flags.n = n ∧ (s.divideExecuted wm wn).flags.z = z ∧
      (s.divideExecuted wm wn).flags.ov = false ∧ (s.divideExecuted wm wn).div = none :=
    ((divideRan_runs (s.signedQuotient wm wn) h.ra h.ne0 h.ne1).2 hnew).2.1 q r n z hdiv hc
  have hstep := step_of_repeatsDivide h
  have hpc := (divided_advanced hd).2.2.2
  have hra : (t.advanced 1).ra = true := (congrArg State.ra hd.rest :).trans h.ra
  have hcount : (t.advanced 1).rcount = 0#16 := (congrArg State.rcount hd.rest :).trans hc
  have hda : (s.da && (t.advanced 1).da) = false := by rw [h.da]; rfl
  rw [ht] at hstep h0 h1 hn hz hov
  obtain ⟨di, ne, hz', hfin⟩ := finish_rest (i := .divSW wm wn) (doActs_of_away (.inl hda))
  have hend : repeatEnd s (t.advanced 1) = { t.advanced 1 with ra := false, repeatNew := false } := by
    unfold repeatEnd
    rw [h.ra, Bool.true_and]
    exact (if_pos hra).trans (if_pos hcount)
  rw [hfin, hend] at hstep
  exact ⟨_, hstep, hpc, rfl, hcount, h0, h1, hn, hz, hov⟩

/-- The executions that are left of a divide with a value, by induction on RCOUNT. -/
theorem repeatsDivide_runs {wm wn : Reg} {q r : Word} {n z : Bool} : ∀ (k : Nat) {s : State}, RepeatsDivide s wm wn →
    s.rcount.toNat = k → s.repeatNew = false → s.div = some ⟨s.pc, k + 1, .value q r n z⟩ →
    ∃ t, Host.Core.run Sys2Proof.core (k + 1) s = .next t ∧ t.pc = s.pc + 2#23 ∧ t.ra = false ∧ t.rcount = 0#16 ∧
      t.wreg 0#4 = q ∧ t.wreg 1#4 = r ∧ t.flags.n = n ∧ t.flags.z = z ∧ t.flags.ov = false := by
  intro k
  induction k with
  | zero =>
    intro s h hk hnew hdiv
    obtain ⟨u, hstep, hu⟩ := repeatsDivide_last h (BitVec.eq_of_toNat_eq hk) hnew hdiv
    exact ⟨u, run_succ hstep, hu⟩
  | succ k ih =>
    intro s h hk hnew hdiv
    have hc : s.rcount ≠ 0#16 := fun e => by rw [e] at hk; cases hk
    obtain ⟨u, hstep, hu, hcount, hpc, hunew, hudiv⟩ := repeatsDivide_next h hc
    have hruns := ((divideRan_runs (s.signedQuotient wm wn) h.ra h.ne0 h.ne1).2 hnew).1 _ k hdiv hk
    have hk' : u.rcount.toNat = k := by
      rw [hcount]
      bv_omega
    obtain ⟨t, hrun, ht⟩ := ih hu hk' hunew (by rw [hudiv, hpc]; exact hruns)
    rw [hpc] at ht
    exact ⟨t, (run_succ hstep).trans hrun, ht⟩

/-- A 16-bit dividend and a divisor other than 0 give a value, unless the quotient is 2^15. -/
theorem signedQuotient_value {a b : Word} (hb : b ≠ 0#16) (h : a = 0x8000#16 → b ≠ 0xFFFF#16) :
    ∃ q r n z, divSigned a.toInt b.toInt = .value q r n z := by
  have hb0 : b.toInt ≠ 0 := fun e => hb (BitVec.eq_of_toInt_eq e)
  have hlo := BitVec.le_toInt a
  have hhi := BitVec.toInt_lt (x := a)
  have habs : (a.toInt.tdiv b.toInt).natAbs ≤ a.toInt.natAbs := by
    rw [Int.natAbs_tdiv]
    exact Nat.div_le_self _ _
  have hne : a.toInt.tdiv b.toInt ≠ 32768 := by
    intro e
    have hdiv : a.toInt.natAbs / b.toInt.natAbs = 32768 :=
      (Int.natAbs_tdiv a.toInt b.toInt).symm.trans (congrArg Int.natAbs e)
    have hmul : 32768 * b.toInt.natAbs ≤ a.toInt.natAbs := by
      rw [← hdiv]
      exact Nat.div_mul_le_self ..
    have ha : a.toInt = -32768 := by omega
    have hb1 : b.toInt = 1 ∨ b.toInt = -1 := by omega
    rcases hb1 with hb1 | hb1
    · rw [ha, hb1] at e
      cases e
    · exact h (BitVec.eq_of_toInt_eq ha) (BitVec.eq_of_toInt_eq hb1)
  exact ⟨_, _, _, _, divResult_of_in (by omega)⟩

/-- Settles O44: the first execution starts the divide, and `repeatsDivide_runs` does the other seventeen. -/
theorem completeSignedDivide : Obligations.CompleteSignedDivide := by
  unfold Obligations.CompleteSignedDivide
  refine ⟨fun s => ⟨_, exec_repeatLit 17#15 s, rfl, rfl, by simp [State.repeatStarted], rfl, rfl⟩, ?_⟩
  intro s wm wn hp hpend hirq hra hda hc hdiv hnew hnest hh h0 h1 _ _ hz hov
  have h : RepeatsDivide s wm wn := ⟨hp, hpend, hirq, hra, hda, hh, h0, h1, hz⟩
  obtain ⟨q, r, n, z, hval⟩ := signedQuotient_value hz hov
  obtain ⟨u, hstep, hu, hcount, hpc, hunew, hudiv⟩ := repeatsDivide_next h (by rw [hc]; decide)
  have hfirst := (divideRan_runs (s.signedQuotient wm wn) h.ra h.ne0 h.ne1).1 hnew hc hdiv hnest
  have hstart : u.div = some ⟨u.pc, 16 + 1, .value q r n z⟩ := by
    rw [hudiv, hpc, ← hval]
    exact hfirst
  obtain ⟨t, hrun, htpc, htra, htc, ht0, ht1, htn, htz, htov⟩ := repeatsDivide_runs 16 hu (by rw [hcount, hc]; rfl) hunew hstart
  obtain ⟨hq, hr, hneg, hzero⟩ := divSigned_value (fun e => hz (BitVec.eq_of_toInt_eq e))
    (by have := BitVec.le_toInt (s.wreg wn); omega) (by have := BitVec.toInt_lt (x := s.wreg wn); omega) hval
  refine ⟨t, (run_succ hstep).trans hrun, by rw [htpc, hpc], htra, htc, ?_, ?_, htov, ?_, ?_⟩
  · rw [ht0, hq]
  · rw [ht1, hr]
  · rw [htn, ht1, hneg]
  · rw [htz, ht1, hzero]

end Sys2Proof.Machine
end

section
/-! The decoder undoes the encoder (R140 to R142, R150 to R159). An encoding is a concatenation of fields, so a field read
at a position of the concatenation is a field of one of its parts; the lemmas about codes turn a part back into what was
encoded. What is left are the rows whose fixed bits are read together with an operand. -/

namespace Sys2Proof

/-! Reading fields of a concatenation. The width of the word, a numeral, is not looked at. -/

@[simp] theorem extract_low {a b lo n : Nat} (x : BitVec a) (y : BitVec b) (h : lo + n ≤ b) :
    @BitVec.extractLsb' (no_index (a + b)) lo n (x ++ y) = y.extractLsb' lo n :=
  BitVec.extractLsb'_append_eq_of_add_le h

@[simp] theorem extract_high {a b lo n : Nat} (x : BitVec a) (y : BitVec b) (h : b ≤ lo) :
    @BitVec.extractLsb' (no_index (a + b)) lo n (x ++ y) = x.extractLsb' (lo - b) n :=
  BitVec.extractLsb'_append_eq_of_le h

@[simp] theorem bit_low {a b i : Nat} (x : BitVec a) (y : BitVec b) (h : i < b) :
    @BitVec.getLsbD (no_index (a + b)) (x ++ y) i = y.getLsbD i := by
  rw [BitVec.getLsbD_append, if_pos h]

@[simp] theorem bit_high {a b i : Nat} (x : BitVec a) (y : BitVec b) (h : b ≤ i) :
    @BitVec.getLsbD (no_index (a + b)) (x ++ y) i = x.getLsbD (i - b) := by
  rw [BitVec.getLsbD_append, if_neg (by omega)]

@[simp] theorem field_eq (w : ProgWord) (lo n : Nat) : field w lo n = w.extractLsb' lo n := rfl

@[simp] theorem operandAt_eq (w : ProgWord) (mlo rlo : Nat) :
    operandAt w mlo rlo = { mode := modeOfCode (field w mlo 3), reg := field w rlo 4 } := rfl

@[simp] theorem bitField_eq (b : Bool) : bitField b = BitVec.ofBool b := rfl

@[simp] theorem srcCode_eq (o : Operand) : o.srcCode = o.mode.code ++ o.reg := rfl

/-! Codes. -/

@[simp] theorem modeOfCode_code (m : Mode) : modeOfCode m.code = m := by cases m <;> rfl

@[simp] theorem condOfCode_code (cond : Cond) : condOfCode cond.code = some cond := by cases cond <;> rfl

/-- Condition code 7 is the unconditional branch (R156). -/
@[simp] theorem condCode_ne (cond : Cond) : cond.code ≠ 7#4 := by cases cond <;> decide

@[simp] theorem accOfBit_code (x : AccId) : accOfBit (x.code.getLsbD 0) = x := by cases x <;> rfl

@[simp] theorem mulPairOfCode_code (p : MulPair) : mulPairOfCode p.code = some p := by cases p <;> rfl

@[simp] theorem awbOfCode_code (a : Awb) : awbOfCode a.code = a := by cases a <;> rfl

/-- Write-back code 3 selects another instruction (R149). -/
@[simp] theorem awbCode_ne (a : Awb) : a.code ≠ 3#2 := by cases a <;> decide

@[simp] theorem pfAddrOfCode_code (a : PfAddr) : pfAddrOfCode a.code = some a := by
  cases a with
  | offset => rfl
  | pointer second step => cases second <;> cases step <;> rfl

@[simp] theorem prefetchOf_code (p : Prefetch) : prefetchOf p.code p.dest = p := by
  cases p with
  | off => rfl
  | on a d => simp [prefetchOf, Prefetch.code, Prefetch.dest]

/-- Modes 6 and 7, whose upper two bits mark a literal in some rows, are the register offset. -/
theorem modeCode_high_ne {m : Mode} (h : m ≠ .offset) : m.code.extractLsb' 1 2 ≠ 3#2 := by
  cases m with
  | offset => exact absurd rfl h
  | _ => decide

theorem mode_of_plain {o : Operand} (h : o.plain = true) : o.mode ≠ .offset := by
  unfold Operand.plain at h
  intro e
  rw [e] at h
  cases h

/-! Operands whose lowest bit the encoding leaves out, and fields split over the word. -/

theorem even_of_evenReg {r : Reg} (h : evenReg r = true) : r.getLsbD 0 = false := by
  simpa [-BitVec.getLsbD_eq_getElem, evenReg] using h

/-- The bit number of a file register form, from its bit 3 and its lower bits (R153). -/
theorem bitNumber_append (bit : BitVec 4) : BitVec.ofBool (bit.getLsbD 3) ++ bit.extractLsb' 0 3 = bit := by
  revert bit
  decide

/-- `LNK`'s fixed bits with its literal are not the word of `ULNK`. -/
theorem lnkWord_ne (lit : BitVec 14) : ((0xFA#8 ++ 0#2) ++ lit).extractLsb' 0 16 ≠ 0x8000#16 := by
  intro h
  have hbit := congrArg (BitVec.getLsbD · 15) h
  simp (disch := decide) [-Nat.reduceAdd, -BitVec.getLsbD_eq_getElem] at hbit

/-- The fixed bits of `MOV.D Wns, Wd`, with its mode, are not those of `MOV.D Ws, Wnd`. -/
theorem movDStoreWord_ne (m : Mode) : ((0xBE#8 ++ 0b10#2) ++ m.code).extractLsb' 0 5 ≠ 0#5 := by cases m <;> decide

/-! Every instruction. -/

/-- Whether the decoder gives the instruction back. -/
def decodesBack (i : Instr) : Bool :=
  match decodeWords (encode i) with
  | .ok j => decide (j = i)
  | .error _ => false

theorem decodesBack_iff {i : Instr} : decodesBack i = true ↔ decodeWords (encode i) = .ok i := by
  unfold decodesBack
  cases decodeWords (encode i) with
  | ok j => exact decide_eq_true_iff.trans ⟨congrArg _, Except.ok.inj⟩
  | error e => exact ⟨fun h => (nomatch h), fun h => (nomatch h)⟩

/-- The decoder undoes the encoder on every well-formed instruction that has an encoding. -/
theorem decode_encode (i : Instr) (hw : i.wf = true) (ha : i.assemblyOnly = false) : decodeWords (encode i) = .ok i := by
  cases i with
  | pwrsav lit => cases lit <;> rfl
  | ctxtswpLit lit =>
    have h : ∀ lit, decodesBack (.ctxtswpLit lit) = true := by decide
    exact decodesBack_iff.mp (h lit)
  | ctxtswpW wn =>
    have h : ∀ wn, decodesBack (.ctxtswpW wn) = true := by decide
    exact decodesBack_iff.mp (h wn)
  | movDLoad src wd =>
    simp only [Instr.wf, Bool.and_eq_true] at hw
    have hwd := Machine.half_append (even_of_evenReg hw.2)
    simp (disch := decide) [-Nat.reduceAdd, -BitVec.getLsbD_eq_getElem, encode, decodeWords, decode, decodeB, decodeMovD,
      hwd]
  | movDStore ws dst =>
    simp only [Instr.wf, Bool.and_eq_true] at hw
    have hws := Machine.half_append (even_of_evenReg hw.1)
    have hne := movDStoreWord_ne dst.mode
    simp (disch := decide) [-Nat.reduceAdd, -BitVec.getLsbD_eq_getElem, encode, decodeWords, decode, decodeB, decodeMovD,
      hws, show ¬(762#10 ++ dst.mode.code).extractLsb' 0 5 = 0#5 from hne]
  | lnk lit =>
    have hlit : lit.getLsbD 0 = false := by simpa [-BitVec.getLsbD_eq_getElem, Instr.wf] using hw
    have hne := lnkWord_ne lit
    simp (disch := decide) [-Nat.reduceAdd, -BitVec.getLsbD_eq_getElem, encode, decodeWords, decode, decodeF, hlit,
      show ¬(1000#10 ++ lit).extractLsb' 0 16 = 0x8000#16 from hne]
  | addReg byte wb src dst =>
    simp only [Instr.wf, Bool.and_eq_true] at hw
    have hne := modeCode_high_ne (mode_of_plain hw.1)
    simp (disch := decide) [-Nat.reduceAdd, -BitVec.getLsbD_eq_getElem, encode, decodeWords, decode, regForm, hne]
  | mulUU wb src wd =>
    simp only [Instr.wf, Bool.and_eq_true] at hw
    have hne := modeCode_high_ne (mode_of_plain hw.1)
    simp (disch := decide) [-Nat.reduceAdd, -BitVec.getLsbD_eq_getElem, encode, decodeWords, decode, decodeB, hne]
  | mulSU wb src wd =>
    simp only [Instr.wf, Bool.and_eq_true] at hw
    have hne := modeCode_high_ne (mode_of_plain hw.1)
    simp (disch := decide) [-Nat.reduceAdd, -BitVec.getLsbD_eq_getElem, encode, decodeWords, decode, decodeB, hne]
  | bsetFile byte f13 bit =>
    cases byte with
    | true => cases ha
    | false =>
      have hf : f13.getLsbD 0 = false := by simpa [-BitVec.getLsbD_eq_getElem, Instr.wf, fileOk, bitOk] using hw
      have haddr := Machine.half_append hf
      have hbit := bitNumber_append bit
      simp (disch := decide) [-Nat.reduceAdd, -BitVec.getLsbD_eq_getElem, encode, decodeWords, decode, decodeA, bitForm,
        haddr, hbit]
  | btscFile byte f13 bit =>
    cases byte with
    | true => cases ha
    | false =>
      have hf : f13.getLsbD 0 = false := by simpa [-BitVec.getLsbD_eq_getElem, Instr.wf, fileOk, bitOk] using hw
      have haddr := Machine.half_append hf
      have hbit := bitNumber_append bit
      simp (disch := decide) [-Nat.reduceAdd, -BitVec.getLsbD_eq_getElem, encode, decodeWords, decode, decodeA, bitForm,
        haddr, hbit]
  | mulwSS | mulwSU | mulwUS | mulwUU | mulAcc | compareSkip | trap | fex | sstep | urun => cases ha
  | _ =>
    simp (disch := decide) [-Nat.reduceAdd, -BitVec.getLsbD_eq_getElem, encode, decodeWords, decode, decode0, decodeFlowReg,
      decodeTarget, decodeDo, decode3, decodeA, decodeB, decodeC, decodeMac, decodeSftac, decodeD, decodeDiv, decodeF,
      decodeSquare, decodeFE, regForm, fileForm, dspForm]

theorem encode_length (i : Instr) (ha : i.assemblyOnly = false) : (encode i).length = i.words := by
  cases i with
  | mulwSS | mulwSU | mulwUS | mulwUU | mulAcc | compareSkip | trap | fex | sstep | urun => cases ha
  | _ => rfl

/-- A word whose upper byte is 0 decodes to `NOP` (R141). -/
theorem decode_of_zero {w : ProgWord} (w2 : ProgWord) (h1 : field w 20 4 = 0#4) (h2 : field w 16 4 = 0#4) :
    decode w w2 = .ok .nop := by
  unfold decode decode0
  rw [h1, h2]
  rfl

/-- The second word of `GOTO`, `CALL` and `DO` has the upper byte 0. -/
theorem decode_secondWord {i : Instr} {w1 w2 : ProgWord} (w : ProgWord) (h : encode i = [w1, w2]) :
    decode w2 w = .ok .nop := by
  cases i with
  | goto target | call target =>
    obtain ⟨_, rfl⟩ : _ ∧ 0#17 ++ target.extractLsb' 15 7 = w2 := by simpa [encode] using h
    apply decode_of_zero <;> simp (disch := decide) [-Nat.reduceAdd]
  | doLit _ off | doW _ off =>
    obtain ⟨_, rfl⟩ : _ ∧ 0x00#8 ++ off = w2 := by simpa [encode] using h
    apply decode_of_zero <;> simp (disch := decide) [-Nat.reduceAdd]
  | _ => cases h

/-- Settles O2: `decode_encode`, the encoding's length, and the second words. -/
theorem decodeOfEncode : Obligations.DecodeOfEncode := by
  unfold Obligations.DecodeOfEncode
  intro i hw ha
  exact ⟨decode_encode i hw ha, encode_length i ha, fun w1 w2 w h => decode_secondWord w h⟩

end Sys2Proof
end

section
/-! The paged window of the data space. -/

namespace Sys2Proof.Machine

/-! Addresses outside the window, and inside. -/

theorem bit15_iff (ea : Word) : ea.getLsbD 15 = true ↔ 0x8000 ≤ ea.toNat := by
  have := ea.isLt
  rw [BitVec.getLsbD, Nat.testBit_eq_decide_div_mod_eq, decide_eq_true_iff]
  omega

theorem windowed_of_ne {via : Via} (ea : Word) (h : via ≠ .paged) : windowed via ea = false := by
  unfold windowed
  rw [beq_eq_false_iff_ne.mpr h, Bool.and_false]

theorem windowed_of_low {ea : Word} (via : Via) (h : ea.toNat < 0x8000) : windowed via ea = false := by
  have h15 : ea.getLsbD 15 = false := by
    rw [Bool.eq_false_iff, Ne, bit15_iff]
    omega
  unfold windowed
  rw [h15, Bool.false_and]

theorem windowed_of_high {ea : Word} (h : 0x8000 ≤ ea.toNat) : windowed .paged ea = true := by
  unfold windowed
  rw [(bit15_iff ea).mpr h]
  rfl

section

variable {s : State} {via : Via} {ea : Word} (hea : 0x1000 ≤ ea.toNat)

include hea

theorem readTarget_of_unwindowed (hw : windowed via ea = false) : s.readTarget via ea = s.ramTarget ea.toNat := by
  unfold State.readTarget
  rw [if_neg (by omega), hw]
  rfl

theorem writeTarget_of_unwindowed (hw : windowed via ea = false) : s.writeTarget via ea = s.ramTarget ea.toNat := by
  unfold State.writeTarget
  rw [if_neg (by omega), hw]
  rfl

/-- Where a read through the window goes, by its page (R109). -/
theorem readTarget_of_windowed (hw : windowed via ea = true) : s.readTarget via ea =
    if s.dsrpag.toNat = 0 then .absent
    else if s.dsrpag.toNat < 0x200 then s.ramTarget (s.dsrpag.toNat * 0x8000 + ea.toNat % 0x8000)
    else if s.dsrpag.toNat < 0x300 then .psvLow ((s.dsrpag.toNat - 0x200) * 0x8000 + ea.toNat % 0x8000)
    else .psvHigh ((s.dsrpag.toNat - 0x300) * 0x8000 + ea.toNat % 0x8000) := by
  unfold State.readTarget
  rw [if_neg (by omega), hw]
  rfl

/-- Where a write through the window goes (R110). -/
theorem writeTarget_of_windowed (hw : windowed via ea = true) : s.writeTarget via ea =
    if s.dswpag.toNat = 0 then .absent else s.ramTarget (s.dswpag.toNat * 0x8000 + ea.toNat % 0x8000) := by
  unfold State.writeTarget
  rw [if_neg (by omega), hw]
  rfl

/-- With the read page at its reset value every address leads to itself (R116). -/
theorem readTarget_of_resetPage (hp : s.dsrpag = 1#10) : s.readTarget via ea = s.ramTarget ea.toNat := by
  cases hw : windowed via ea
  · exact readTarget_of_unwindowed hea hw
  · have h15 := (bit15_iff ea).mp (by unfold windowed at hw; exact (Bool.and_eq_true_iff.mp hw).1)
    have hlt := ea.isLt
    have hself : 1 * 0x8000 + ea.toNat % 0x8000 = ea.toNat := by omega
    have hpage : s.dsrpag.toNat = 1 := by rw [hp]; rfl
    rw [readTarget_of_windowed hea hw, hpage, if_neg (by decide), if_pos (by decide), hself]

/-- With the write page at its reset value every address leads to itself (R116). -/
theorem writeTarget_of_resetPage (hp : s.dswpag = 1#9) : s.writeTarget via ea = s.ramTarget ea.toNat := by
  cases hw : windowed via ea
  · exact writeTarget_of_unwindowed hea hw
  · have h15 := (bit15_iff ea).mp (by unfold windowed at hw; exact (Bool.and_eq_true_iff.mp hw).1)
    have hlt := ea.isLt
    have hself : 1 * 0x8000 + ea.toNat % 0x8000 = ea.toNat := by omega
    have hpage : s.dswpag.toNat = 1 := by rw [hp]; rfl
    rw [writeTarget_of_windowed hea hw, hpage, if_neg (by decide), hself]

end

/-- A page and an offset in the window, as one address. -/
theorem paged_toNat {n : Nat} (page : BitVec n) (ea : Word) :
    (page ++ ea.extractLsb' 0 15).toNat = page.toNat * 0x8000 + ea.toNat % 0x8000 := by
  rw [BitVec.toNat_append, ← Nat.shiftLeft_add_eq_or_of_lt (BitVec.isLt _), BitVec.extractLsb'_toNat, Nat.shiftRight_zero,
    Nat.shiftLeft_eq]

/-! The file register moves through the window. -/

/-- A word read from implemented RAM. -/
theorem dataRead_of_ram {s : State} {via : Via} {ea : Word} {lin : Nat} (he : ea.getLsbD 0 = false)
    (ht : s.readTarget via ea = .ram lin) : s.dataRead? via ea false = some (s.ramWord lin) := by
  unfold State.dataRead?
  rw [he, ht]
  rfl

/-- A word written to implemented RAM. -/
theorem dataWrite_of_ram {s : State} {via : Via} {ea : Word} {lin : Nat} (v : Word) (he : ea.getLsbD 0 = false)
    (ht : s.writeTarget via ea = .ram lin) : s.dataWrite? via ea false v = some (s.setRamWord lin v) := by
  unfold State.dataWrite?
  rw [he, ht]
  rfl

theorem ramTarget_of_implemented {s : State} {lin : Nat} (h : s.implemented lin = true) : s.ramTarget lin = .ram lin :=
  if_pos h

/-- A word read from the low words of program memory (R109). -/
theorem dataRead_of_psvLow {s : State} {via : Via} {ea : Word} {a : Nat} (he : ea.getLsbD 0 = false)
    (ht : s.readTarget via ea = .psvLow a) (ha : a % 2 = 0) (hp : a < 2 * s.dev.progWords) :
    s.dataRead? via ea false = some ((s.progWord a).extractLsb' 0 16) := by
  unfold State.dataRead?
  rw [he, ht]
  simp only [ha, Nat.sub_zero, hp, if_true]
  rfl

/-- A word read from the most significant bytes of program memory (R109). -/
theorem dataRead_of_psvHigh {s : State} {via : Via} {ea : Word} {a : Nat} (he : ea.getLsbD 0 = false)
    (ht : s.readTarget via ea = .psvHigh a) (ha : a % 2 = 0) (hp : a < 2 * s.dev.progWords) :
    s.dataRead? via ea false = some (((s.progWord a).extractLsb' 16 8).zeroExtend 16) := by
  unfold State.dataRead?
  rw [he, ht]
  simp only [ha, Nat.sub_zero, hp, if_true]
  rfl

theorem exec_movFileToW {s : State} {f15 : BitVec 15} {v : Word} (q : Reg)
    (h : s.dataRead? .paged (wordAddr f15) false = some v) :
    exec (.movFileToW f15 q) s = .next ((s.setWreg q v).advanced 1) :=
  runInstr_of_ok (bind_of_ok (readFile_of_dataRead h) _)

theorem exec_movWToFile {s t : State} {f15 : BitVec 15} {q : Reg}
    (h : s.dataWrite? .paged (wordAddr f15) false (s.wreg q) = some t) :
    exec (.movWToFile q f15) s = .next (t.advanced 1) :=
  runInstr_of_ok (by rw [ask_bind, bind_of_ok (memWrite_of_dataWrite h)]; rfl)

/-- Settles O17: the targets by page, and the moves through them. -/
theorem pagedWindow : Obligations.PagedWindow := by
  unfold Obligations.PagedWindow
  intro s via ea hea
  refine ⟨readTarget_of_unwindowed hea (windowed_of_ne ea (by decide)),
    writeTarget_of_unwindowed hea (windowed_of_ne ea (by decide)),
    readTarget_of_unwindowed hea (windowed_of_ne ea (by decide)),
    writeTarget_of_unwindowed hea (windowed_of_ne ea (by decide)),
    fun hlow => ⟨readTarget_of_unwindowed hea (windowed_of_low via hlow),
      writeTarget_of_unwindowed hea (windowed_of_low via hlow)⟩,
    readTarget_of_resetPage hea, writeTarget_of_resetPage hea, ?_⟩
  intro hhigh off edsRead edsWrite psv
  have hr := readTarget_of_windowed (s := s) hea (windowed_of_high hhigh)
  have hw := writeTarget_of_windowed (s := s) hea (windowed_of_high hhigh)
  have hpage := s.dsrpag.isLt
  have hread : edsRead = s.dsrpag.toNat % 0x200 * 0x8000 + ea.toNat % 0x8000 := by
    refine (paged_toNat _ _).trans ?_
    rw [BitVec.extractLsb'_toNat, Nat.shiftRight_zero]
  have hwrite : edsWrite = s.dswpag.toNat * 0x8000 + ea.toNat % 0x8000 := paged_toNat _ _
  have hpsv : psv = s.dsrpag.toNat % 0x100 * 0x8000 + ea.toNat % 0x8000 := by
    refine (paged_toNat _ _).trans ?_
    rw [BitVec.extractLsb'_toNat, Nat.shiftRight_zero]
  have heds : s.dsrpag ≠ 0#10 → s.dsrpag.toNat < 0x200 → s.readTarget .paged ea = s.ramTarget edsRead := fun h0 h1 => by
    have hne : s.dsrpag.toNat ≠ 0 := fun e => h0 (BitVec.eq_of_toNat_eq e)
    rw [hr, if_neg hne, if_pos h1, hread, Nat.mod_eq_of_lt h1]
  have hedsw : s.dswpag ≠ 0#9 → s.writeTarget .paged ea = s.ramTarget edsWrite := fun h0 => by
    have hne : s.dswpag.toNat ≠ 0 := fun e => h0 (BitVec.eq_of_toNat_eq e)
    rw [hw, if_neg hne, hwrite]
  have hlow : 0x200 ≤ s.dsrpag.toNat → s.dsrpag.toNat < 0x300 → s.readTarget .paged ea = .psvLow psv := fun h0 h1 => by
    have hmod : s.dsrpag.toNat - 0x200 = s.dsrpag.toNat % 0x100 := by omega
    rw [hr, if_neg (by omega), if_neg (by omega), if_pos h1, hpsv, hmod]
  have hhi : 0x300 ≤ s.dsrpag.toNat → s.readTarget .paged ea = .psvHigh psv := fun h0 => by
    have hmod : s.dsrpag.toNat - 0x300 = s.dsrpag.toNat % 0x100 := by omega
    rw [hr, if_neg (by omega), if_neg (by omega), if_neg (by omega), hpsv, hmod]
  refine ⟨fun h => by rw [hr, h]; rfl, fun h => by rw [hw, h]; rfl, heds, hedsw, hlow, hhi, ?_⟩
  rintro f15 q rfl
  have he := wordAddr_bit0 f15
  have heven : psv % 2 = 0 := by
    have := wordAddr_even f15
    omega
  refine ⟨fun h0 h1 hi => ?_, fun h0 hi => ?_, fun h0 h1 hp => ?_, fun h0 hp => ?_⟩
  · exact exec_movFileToW q (dataRead_of_ram he ((heds h0 h1).trans (ramTarget_of_implemented hi)))
  · exact exec_movWToFile (dataWrite_of_ram _ he ((hedsw h0).trans (ramTarget_of_implemented hi)))
  · exact exec_movFileToW q (dataRead_of_psvLow he (hlow h0 h1) heven hp)
  · exact exec_movFileToW q (dataRead_of_psvHigh he (hhi h0) heven hp)

end Sys2Proof.Machine
end

section
/-! Accesses that fail: misaligned and absent addresses, pointers that may not be used, and the stack checks. -/

namespace Sys2Proof.Machine

/-! Misaligned and absent addresses (R107, R111 to R113, R369). -/

/-- A word write that cannot be made raises `AddressError` and stores nothing. -/
theorem memWrite_of_bad {s : State} {via : Via} {ea : Word} (v : Word)
    (h : ea.getLsbD 0 = true ∨ s.writeTarget via ea = .absent) :
    memWrite via ea false v s = .ok ((), s.addPending .addressError) := by
  unfold memWrite
  cases he : ea.getLsbD 0
  · have ht := h.resolve_left (by rw [he]; decide)
    simp only [Bool.not_false, Bool.true_and, Bool.false_eq_true, if_false]
    rw [ask_bind, ht]
    rfl
  · rfl

/-- A word read that cannot be made raises `AddressError` and delivers an open value. -/
theorem memRead_of_bad {s : State} {via : Via} {ea : Word}
    (h : ea.getLsbD 0 = true ∨ s.readTarget via ea = .absent) : memRead via ea false s =
    .ok (Config.anyBits 16 s.free, { s.addPending .addressError with free := s.free + 1 }) := by
  unfold memRead
  cases he : ea.getLsbD 0
  · have ht := h.resolve_left (by rw [he]; decide)
    simp only [Bool.not_false, Bool.true_and, Bool.false_eq_true, if_false]
    rw [ask_bind, ht]
    rfl
  · rfl

theorem source_direct (s : State) (byte : Bool) (wb r : Reg) :
    s.source? byte wb ⟨.direct, r⟩ = some (s.regSource byte r, s) := if_pos rfl

/-- Settles O15: the access is made with the pointer modified, and raises. -/
theorem badWordAccessRaisesAddressError : Obligations.BadWordAccessRaisesAddressError := by
  unfold Obligations.BadWordAccessRaisesAddressError
  intro s op r a hop
  refine ⟨fun ha hbad => ?_, fun ha hbad => ?_⟩
  · have hwrite : writeOp false 0#4 op (s.regSource false r) s =
        .ok (hitsSr a.state.dev false a.ea, (a.state.addPending .addressError).postModified op 2#16) := by
      unfold writeOp
      rw [if_neg hop]
      exact withEA_of_access ha (by rw [ask_bind, bind_of_ok (memWrite_of_bad _ hbad)]; rfl)
    exact runInstr_of_ok (by rw [bind_of_ok (readOp_of_source (source_direct ..)), bind_of_ok hwrite]; rfl)
  · have hread : readOp false 0#4 op s = .ok (Config.anyBits 16 s.free,
        ({ a.state.addPending .addressError with free := s.free + 1 }).postModified op 2#16) := by
      unfold readOp
      rw [if_neg hop, ← access_free ha]
      exact withEA_of_access ha (memRead_of_bad hbad)
    exact runInstr_of_ok (bind_of_ok hread _)

/-! What the accesses leave unchanged, as a relation between the states before and after. -/

variable {α β : Type}

/-- Where a computation ends, the relation holds; and it never resets the device. -/
structure Relates (R : State → State → Prop) (m : M α) : Prop where
  of_ok : ∀ s a t, m s = .ok (a, t) → R s t
  noReset : ∀ s c, m s ≠ .error (.reset c)

/-- A relation that a data read keeps: it may draw free values and raise `AddressError`. -/
structure ReadRel (R : State → State → Prop) : Prop where
  refl : ∀ s, R s s
  trans : ∀ {s t u}, R s t → R t u → R s u
  drawn : ∀ s n, R s { s with free := n }
  raised : ∀ s, R s (s.addPending .addressError)

section

variable {R : State → State → Prop} (hR : ReadRel R)

include hR

theorem relates_bind {m : M α} {f : α → M β} (hm : Relates R m) (hf : ∀ a, Relates R (f a)) : Relates R (m >>= f) where
  of_ok s b u h := by
    obtain ⟨a, t, h1, h2⟩ := bind_ok_inv h
    exact hR.trans (hm.of_ok s a t h1) ((hf a).of_ok t b u h2)
  noReset s c h := by
    rw [bind_apply] at h
    split at h
    next p _ => exact (hf p.1).noReset p.2 c h
    next e he =>
      cases h
      exact hm.noReset s c he

theorem relates_pure (a : α) : Relates R (pure a : M α) where
  of_ok s b t h := by cases h; exact hR.refl s
  noReset s c h := by cases h

theorem relates_ask (f : State → α) : Relates R (ask f) where
  of_ok s b t h := by cases h; exact hR.refl s
  noReset s c h := by cases h

theorem relates_asking {f : State → α} {k : α → M β} (h : ∀ a, Relates R (k a)) : Relates R (ask f >>= k) :=
  relates_bind hR (relates_ask hR f) h

theorem relates_drawBits (w : Nat) : Relates R (drawBits w) where
  of_ok s b t h := by cases h; exact hR.drawn s _
  noReset s c h := by cases h

theorem relates_drawBit : Relates R drawBit where
  of_ok s b t h := by cases h; exact hR.drawn s _
  noReset s c h := by cases h

theorem relates_drawOperand (byte : Bool) : Relates R (drawOperand byte) :=
  relates_bind hR (relates_drawBits hR 16) fun _ => relates_pure hR _

end

theorem relates_upd {R : State → State → Prop} {f : State → State} (h : ∀ s, R s (f s)) : Relates R (upd f) where
  of_ok s a t e := by cases e; exact h s
  noReset s c e := by cases e

theorem relates_refuse {R : State → State → Prop} (r : Refusal) : Relates R (refuse r : M α) where
  of_ok s a t h := by cases h
  noReset s c h := by cases h

theorem relates_ite {R : State → State → Prop} {c : Prop} [Decidable c] {m n : M α} (hm : Relates R m) (hn : Relates R n) :
    Relates R (if c then m else n) := by
  split
  · exact hm
  · exact hn

section

variable {R : State → State → Prop} (hR : ReadRel R)

include hR

theorem relates_sfrRead (r : Sfr) : Relates R (sfrRead r) := by
  cases r
  case pcl | pch => exact relates_drawBits hR 16
  case doendl | doendh => exact relates_asking hR fun _ => relates_ite (relates_drawBits hR 16) (relates_ask hR _)
  case intcon1 => exact relates_bind hR (relates_drawBits hR 6) fun _ => relates_ask hR _
  case intcon3 => exact relates_bind hR (relates_drawBits hR 15) fun _ => relates_ask hR _
  all_goals exact relates_ask hR _

theorem relates_sfrReadAt (via : Via) (addr : Nat) (byte : Bool) : Relates R (sfrReadAt via addr byte) := by
  refine relates_asking hR fun dev => ?_
  cases sfrAt dev (addr - addr % 2) with
  | some r => exact relates_bind hR (relates_sfrRead hR r) fun _ => relates_pure hR _
  | none => exact relates_ite (relates_drawOperand hR byte) (relates_refuse _)

theorem relates_progRead (addr : Nat) : Relates R (progRead addr) :=
  relates_bind hR (relates_asking hR fun _ => relates_ite (relates_pure hR _) (relates_refuse _) : Relates R (checkProg addr))
    fun _ => relates_ask hR _

/-- A data read keeps what drawing and raising `AddressError` keep. -/
theorem relates_memRead (via : Via) (ea : Word) (byte : Bool) : Relates R (memRead via ea byte) := by
  have raised : Relates R (raiseTrap .addressError >>= fun _ => drawOperand byte) :=
    relates_bind hR (relates_upd hR.raised) fun _ => relates_drawOperand hR byte
  refine relates_ite raised (relates_asking hR fun target => ?_)
  cases target with
  | sfr a => exact relates_sfrReadAt hR via a byte
  | ram lin => exact relates_ask hR _
  | psvLow a | psvHigh a => exact relates_bind hR (relates_progRead hR _) fun _ => relates_pure hR _
  | absent => exact raised

end

/-- No `StackError` comes or goes. -/
def stackErrorKept (s t : State) : Prop := t.pending.stackError = s.pending.stackError

theorem stackErrorKept_read : ReadRel stackErrorKept where
  refl _ := rfl
  trans h k := Eq.trans k h
  drawn _ _ := rfl
  raised _ := rfl

theorem stackErrorKept_of_pending {s t : State} (h : t.pending = s.pending) : stackErrorKept s t := by
  unfold stackErrorKept
  rw [h]

theorem sfrStore_pending (s : State) (r : Sfr) (v : Word) : (s.sfrStore r v).pending = s.pending := by
  cases r
  case accal | accah | accau | accbl | accbh | accbu => exact setAcc_pending ..
  all_goals rfl

theorem writeCorcon_pending (s : State) (l : Lanes) (v : Word) : (s.writeCorcon l v).pending = s.pending := by
  have edt : ∀ u : State, u.writeEdt.pending = u.pending := by
    intro u
    unfold State.writeEdt
    split <;> rfl
  unfold State.writeCorcon
  dsimp only
  repeat' split
  all_goals first | rfl | exact edt _

theorem stackErrorKept_writeSrh (v : Word) : Relates stackErrorKept (writeSrh v) := by
  have hR := stackErrorKept_read
  have sat : Relates stackErrorKept drawSat :=
    relates_bind hR (relates_drawBit hR) fun _ => relates_bind hR (relates_drawBit hR) fun _ => relates_upd fun _ => rfl
  have ovf : Relates stackErrorKept drawOvf :=
    relates_bind hR (relates_drawBit hR) fun _ => relates_bind hR (relates_drawBit hR) fun _ => relates_upd fun _ => rfl
  have last : Relates stackErrorKept (ask (fun s => s.ovfRace v) >>= fun b =>
      if b then drawOvf else upd fun s => s.writeOvf v) :=
    relates_asking hR fun _ => relates_ite ovf (relates_upd fun _ => rfl)
  have first : Relates stackErrorKept (upd fun s => s.writeDc v) := relates_upd fun _ => rfl
  refine relates_bind hR first fun _ => relates_asking hR fun _ => relates_ite (relates_asking hR fun _ =>
    relates_ite ?_ ?_) (relates_pure hR _)
  · exact relates_bind hR sat fun _ => last
  · exact relates_bind hR (relates_upd fun _ => rfl) fun _ => last

theorem stackErrorKept_sfrWrite (r : Sfr) (l : Lanes) (v : Word) : Relates stackErrorKept (sfrWrite r l v) := by
  have hR := stackErrorKept_read
  cases r
  case sr =>
    have low : Relates stackErrorKept (upd fun s => s.writeSrl v) := relates_upd fun _ => rfl
    cases l
    · exact relates_bind hR low fun _ => stackErrorKept_writeSrh v
    · exact relates_bind hR low fun _ => relates_pure hR _
    · exact stackErrorKept_writeSrh v
  case w n =>
    refine relates_upd fun s => stackErrorKept_of_pending ?_
    cases l
    · exact setWreg_pending ..
    · exact setWregKeep_pending ..
    · exact setWregKeep_pending ..
  case corcon => exact relates_upd fun s => stackErrorKept_of_pending (writeCorcon_pending s l v)
  case pcl | pch => exact relates_refuse _
  case dostartl | dostarth | ctxtstat => exact relates_pure hR _
  case intcon1 | intcon3 | splim | doendl | doendh => exact relates_upd fun _ => rfl
  all_goals exact relates_upd fun s => stackErrorKept_of_pending (sfrStore_pending s _ _)

theorem stackErrorKept_memWrite (via : Via) (ea : Word) (byte : Bool) (v : Word) :
    Relates stackErrorKept (memWrite via ea byte v) := by
  have hR := stackErrorKept_read
  refine relates_ite (relates_upd hR.raised) (relates_asking hR fun target => ?_)
  cases target with
  | sfr a =>
    refine relates_asking hR fun dev => ?_
    cases sfrAt dev (a - a % 2) with
    | some r =>
      exact relates_ite (relates_ite (stackErrorKept_sfrWrite ..) (stackErrorKept_sfrWrite ..)) (stackErrorKept_sfrWrite ..)
    | none => exact relates_ite (relates_pure hR _) (relates_refuse _)
  | ram lin =>
    refine relates_upd fun s => stackErrorKept_of_pending ?_
    split <;> rfl
  | psvLow _ | psvHigh _ | absent => exact relates_upd hR.raised

/-! The stack checks (R127 to R129). -/

theorem sfrRead_ok (r : Sfr) (s : State) : ∃ v t, sfrRead r s = .ok (v, t) := by
  cases r
  case doendl | doendh =>
    simp only [sfrRead, ask_bind]
    cases s.haz.doend <;> exact ⟨_, _, rfl⟩
  all_goals exact ⟨_, _, rfl⟩

/-- Where an access through W15 goes: it is not paged (R126). -/
theorem readTarget_stack (s : State) (ea : Word) :
    s.readTarget .stack ea = .sfr ea.toNat ∨ s.readTarget .stack ea = .ram ea.toNat ∨ s.readTarget .stack ea = .absent := by
  by_cases hea : ea.toNat < 0x1000
  · exact .inl (if_pos hea)
  · rw [readTarget_of_unwindowed (by omega) (windowed_of_ne ea (by decide))]
    unfold State.ramTarget
    split
    · exact .inr (.inl rfl)
    · exact .inr (.inr rfl)

/-- A read through W15 is never refused: below 0x1000 it needs no register at its address (R128). -/
theorem memRead_stack (s : State) (ea : Word) : ∃ v t, memRead .stack ea false s = .ok (v, t) := by
  unfold memRead
  rw [ite_apply_state]
  split
  · exact ⟨_, _, rfl⟩
  · rw [ask_bind]
    rcases readTarget_stack s ea with h | h | h
    · rw [h]
      show ∃ v t, sfrReadAt .stack ea.toNat false s = .ok (v, t)
      unfold sfrReadAt
      rw [ask_bind]
      cases sfrAt s.dev (ea.toNat - ea.toNat % 2) with
      | some r =>
        obtain ⟨v, t, hr⟩ := sfrRead_ok r s
        exact ⟨_, _, bind_of_ok hr _⟩
      | none => exact ⟨_, _, rfl⟩
    · rw [h]
      exact ⟨_, _, rfl⟩
    · rw [h]
      exact ⟨_, _, rfl⟩

theorem checkedAgainst_stackError (s : State) (limit ea : Word) (carry : Bool) :
    (s.checkedAgainst limit ea carry).pending.stackError =
      (s.pending.stackError || decide (ea.toNat < 0x1000) || (s.splimEnabled && overLimit limit ea carry)) := by
  unfold State.checkedAgainst
  cases h : decide (ea.toNat < 0x1000) || (s.splimEnabled && overLimit limit ea carry)
  · rw [if_neg Bool.false_ne_true, Bool.or_assoc, h, Bool.or_false]
  · rw [if_pos rfl, Bool.or_assoc, h, Bool.or_true]
    rfl

/-- An access through an operand of W15 is made at its address, after a check against SPLIM, or for a read in the shadow
of a write to SPLIM the old limit (R127 to R129, R421). -/
theorem withEA_stack {s : State} {op : Operand} {wb : Reg} {step : Word} {read : Bool} {f : Via → Word → M α}
    (hreg : op.reg = 15#4) (hp : s.pointerReady op wb = true) (hc : s.circular = false) :
    let ea := (s.preModified op step).eaOf op wb
    ∃ u limit, withEA op wb step read f s = (f .stack ea >>= fun r => upd (·.postModified op step) >>= fun _ => pure r) u ∧
      u.pending.stackError = (s.pending.stackError || decide (ea.toNat < 0x1000) ||
        (s.splimEnabled && overLimit limit ea (s.eaCarry op wb step))) ∧
      (limit = s.splim ∨ read = true ∧ s.splimEnabled = true ∧ s.haz.splimOld = some limit) := by
  intro ea
  have hvia : (s.preModified op step).viaOf op wb = .stack := if_pos (.inl hreg)
  obtain ⟨u, hu, hcase⟩ := withEA_apply (f := f) (read := read) (step := step) hp hc
  obtain ⟨hne, _⟩ | ⟨_, limit, n, rfl, hlimit⟩ := hcase
  · exact absurd hvia hne
  · rw [hvia] at hu
    refine ⟨_, limit, hu, ?_, hlimit⟩
    have := checkedAgainst_stackError (s.preModified op step) limit ea (s.eaCarry op wb step)
    rwa [preModified_pending, preModified_splimEnabled] at this

/-- A push that stores its word, and whether it leaves a `StackError` (R127). -/
theorem pushed_pending {s : State} (v : Word) (h : s.canPush = true) : (s.pushed v).pending =
    if s.splimEnabled = true ∧ (s.splim.toNat + 2 < s.w15.toNat ∨ 0x10000 ≤ s.w15.toNat + 2) then
      s.pending.put .stackError true
    else s.pending := by
  have hea : ¬s.w15.toNat < 0x1000 := by have := (canPush_facts h).2.1; omega
  have hcheck : (s.pushed v).pending = (s.stackChecked s.w15 (decide (0x10000 ≤ s.w15.toNat + 2))).pending := by
    simp only [State.pushed, setWreg_pending, setRamWord_pending]
  rw [hcheck]
  unfold State.stackChecked State.checkedAgainst overLimit
  simp only [hea, decide_false, Bool.false_or, Bool.and_eq_true, Bool.or_eq_true, decide_eq_true_eq]
  split <;> rfl

/-- A word write below 0x1000 through W15 where no register is, is lost (R128). -/
theorem memWrite_lost {s : State} {ea : Word} (v : Word) (hlow : ea.toNat < 0x1000) (heven : ea.getLsbD 0 = false)
    (hno : sfrAt s.dev ea.toNat = none) : memWrite .stack ea false v s = .ok ((), s) := by
  have ht : s.writeTarget .stack ea = .sfr ea.toNat := if_pos hlow
  have h0 : ea.toNat - ea.toNat % 2 = ea.toNat := by rw [(even_iff ea).mp heven, Nat.sub_zero]
  unfold memWrite
  rw [heven, ite_apply_state, if_neg (by decide), ask_bind, ht]
  show sfrWriteAt .stack ea.toNat false v s = _
  unfold sfrWriteAt
  rw [ask_bind, h0, hno]
  rfl

/-- What is left of a push whose word is lost: the check, and the new stack pointer. -/
def pushLost (s : State) : State :=
  (s.stackChecked s.w15 (decide (0x10000 ≤ s.w15.toNat + 2))).setWreg 15#4 (s.w15 + 2#16)

theorem writeOp_lost {s : State} (v : Word) (hc : s.circular = false) (hlow : s.w15.toNat < 0x1000)
    (heven : s.w15.getLsbD 0 = false) (hno : sfrAt s.dev s.w15.toNat = none) :
    ∃ hit, writeOp false 0#4 ⟨.postInc, 15#4⟩ v s = .ok (hit, pushLost s) := by
  have ha : s.access? ⟨.postInc, 15#4⟩ 0#4 2#16 false =
      some ⟨.stack, s.w15, s.stackChecked s.w15 (decide (0x10000 ≤ s.w15.toNat + 2))⟩ := by
    unfold State.access?
    rw [hc]
    rfl
  have hback : (s.stackChecked s.w15 (decide (0x10000 ≤ s.w15.toNat + 2))).postModified ⟨.postInc, 15#4⟩ 2#16 =
      pushLost s := by
    show State.setWreg _ 15#4 (State.w15 _ + 2#16) = _
    rw [stackChecked_w15]
    rfl
  refine ⟨hitsSr (s.stackChecked s.w15 (decide (0x10000 ≤ s.w15.toNat + 2))).dev false s.w15, ?_⟩
  unfold writeOp
  rw [if_neg (by decide), ← hback]
  exact withEA_of_access ha (by
    rw [ask_bind, bind_of_ok (memWrite_lost v hlow heven (by simpa using hno))]
    rfl)

/-- A word write through an operand of W15: the `StackError` of the check, and no Reset. -/
theorem writeOp_stack {s : State} {op : Operand} {wb : Reg} (v : Word) (hreg : op.reg = 15#4) (hmode : op.mode ≠ .direct)
    (hp : s.pointerReady op wb = true) (hc : s.circular = false) :
    let ea := (s.preModified op 2#16).eaOf op wb
    (∀ hit t, writeOp false wb op v s = .ok (hit, t) → t.pending.stackError = (s.pending.stackError ||
      decide (ea.toNat < 0x1000) || (s.splimEnabled && overLimit s.splim ea (s.eaCarry op wb 2#16)))) ∧
    ∀ c, writeOp false wb op v s ≠ .error (.reset c) := by
  intro ea
  obtain ⟨u, limit, hrun, herr, hlim⟩ := withEA_stack (step := 2#16) (read := false)
    (f := fun via ea => ask (fun s => hitsSr s.dev false ea) >>= fun hit =>
      memWrite via ea false v >>= fun _ => pure hit) hreg hp hc
  obtain rfl : limit = s.splim := hlim.resolve_right fun h => nomatch h.1
  have hR := stackErrorKept_read
  have hpost : ∀ hit : Bool, Relates stackErrorKept (upd (·.postModified op 2#16) >>= fun _ => pure hit) := fun hit =>
    relates_bind hR (relates_upd fun s => stackErrorKept_of_pending (postModified_pending s op 2#16)) fun _ =>
      relates_pure hR hit
  have hwrite : Relates stackErrorKept (ask (fun s => hitsSr s.dev false ea) >>= fun hit =>
      memWrite .stack ea false v >>= fun _ => pure hit) :=
    relates_asking hR fun hit => relates_bind hR (stackErrorKept_memWrite .stack ea false v) fun _ => relates_pure hR hit
  have hrel := relates_bind hR hwrite hpost
  have hop : writeOp false wb op v s = _ := (congrFun (if_neg hmode) s).trans hrun
  rw [hop]
  exact ⟨fun hit t ht => (hrel.of_ok u hit t ht).trans herr, hrel.noReset u⟩

section

variable {s : State} {op : Operand} {wb : Reg} (r : Reg) (hreg : op.reg = 15#4) (hmode : op.mode ≠ .direct)
  (hp : s.pointerReady op wb = true) (hc : s.circular = false)

include hreg hmode hp hc

/-- A load through W15 completes, with the `StackError` of the check. -/
theorem movReg_load_stackError :
    let ea := (s.preModified op 2#16).eaOf op wb
    ∃ x limit, exec (.movReg false wb op ⟨.direct, r⟩) s = .next x ∧
      x.pending.stackError = (s.pending.stackError || decide (ea.toNat < 0x1000) ||
        (s.splimEnabled && overLimit limit ea (s.eaCarry op wb 2#16))) ∧
      (limit = s.splim ∨ s.splimEnabled = true ∧ s.haz.splimOld = some limit) := by
  intro ea
  obtain ⟨u, limit, hrun, herr, hlim⟩ := withEA_stack (step := 2#16) (read := true)
    (f := fun via ea => memRead via ea false) hreg hp hc
  obtain ⟨v, t, hread⟩ := memRead_stack u ea
  have hkept : t.pending.stackError = u.pending.stackError :=
    (relates_memRead stackErrorKept_read .stack ea false).of_ok u v t hread
  have hop : readOp false wb op s = .ok (v, t.postModified op 2#16) := by
    unfold readOp
    rw [if_neg hmode]
    refine hrun.trans ?_
    rw [bind_of_ok hread]
    rfl
  have hexec : exec (.movReg false wb op ⟨.direct, r⟩) s =
      .next (((t.postModified op 2#16).setWreg r v).advanced 1) := runInstr_of_ok (bind_of_ok hop _)
  have hend : (((t.postModified op 2#16).setWreg r v).advanced 1).pending = t.pending := by simp
  refine ⟨_, limit, hexec, ?_, hlim.imp_right And.right⟩
  rw [hend, hkept]
  exact herr

/-- A store through W15 that answers a next state leaves the `StackError` of the check. -/
theorem movReg_store_stackError {x : State} (hx : exec (.movReg false wb ⟨.direct, r⟩ op) s = .next x) :
    let ea := (s.preModified op 2#16).eaOf op wb
    x.pending.stackError = (s.pending.stackError || decide (ea.toNat < 0x1000) ||
      (s.splimEnabled && overLimit s.splim ea (s.eaCarry op wb 2#16))) := by
  intro ea
  obtain ⟨herr, hreset⟩ := writeOp_stack (s.regSource false r) hreg hmode hp hc
  have hread : readOp false wb ⟨.direct, r⟩ s = .ok (s.regSource false r, s) := readOp_of_source (source_direct ..)
  rcases runInstr_next_inv hx with hok | ⟨c, hstop, _⟩
  · obtain ⟨hit, u, hw, hadv⟩ := bind_ok_inv ((bind_of_ok hread _).symm.trans hok)
    cases hadv
    exact herr hit u hw
  · rw [bind_of_ok hread, bind_apply] at hstop
    split at hstop
    next => cases hstop
    next e he =>
      cases hstop
      exact absurd he (hreset c)

end

/-- A push below 0x1000 where no register is: the word is lost, the stack pointer goes on, and a `StackError` is
pending (R128). -/
theorem push_lost {s : State} {r : Reg} (hc : s.circular = false) (hlow : s.w15.toNat < 0x1000)
    (heven : s.w15.getLsbD 0 = false) (hno : sfrAt s.dev s.w15.toNat = none) :
    exec (.movReg false 0#4 ⟨.direct, r⟩ ⟨.postInc, 15#4⟩) s = .next ((pushLost s).advanced 1) ∧
      (pushLost s).pending = s.pending.put .stackError true := by
  obtain ⟨hit, hwrite⟩ := writeOp_lost (s.wreg r) hc hlow heven hno
  have hpend : (s.stackChecked s.w15 (decide (0x10000 ≤ s.w15.toNat + 2))).pending = s.pending.put .stackError true := by
    unfold State.stackChecked State.checkedAgainst
    rw [if_pos (by simp [hlow])]
    rfl
  refine ⟨runInstr_of_ok (by rw [bind_of_ok (readOp_of_source (source_direct ..))]; exact bind_of_ok hwrite _), ?_⟩
  simpa [pushLost] using hpend

/-- Settles O28: a `StackError` comes from the stack check and from nothing else of the access. -/
theorem stackErrors : Obligations.StackErrors := by
  unfold Obligations.StackErrors
  intro s r hc push
  refine ⟨fun hpush => ?_, fun hlow heven hno => ?_, ?_⟩
  · have hexec : exec push s = .next ((s.pushed (s.wreg r)).advanced 1) :=
      exec_movReg (source_direct s false 0#4 r) (stackWrite _ hpush)
    have hpend := pushed_pending (s.wreg r) hpush
    refine ⟨_, hexec, ramWord_pushed s _ hpush, pushed_w15 s (s.wreg r) (canPush_facts hpush).1,
      fun hen hover => hpend.trans (if_pos ⟨hen, hover⟩), fun hnot => hpend.trans (if_neg ?_)⟩
    rintro ⟨hen, hover⟩
    rcases hnot with hoff | hin
    · rw [hoff] at hen
      cases hen
    · omega
  · obtain ⟨hexec, hpend⟩ := push_lost (r := r) hc hlow heven hno
    exact ⟨_, hexec, hpend, mask_even _ (even_add2 _ heven), fun a => ramByte_congr (by simp [pushLost]) a⟩
  · rintro ⟨mode, reg⟩ wb hmode rfl hp ea carries checked
    have hea : (s.preModified ⟨mode, 15#4⟩ 2#16).eaOf ⟨mode, 15#4⟩ wb = ea := by cases mode <;> rfl
    have hcarry : s.eaCarry ⟨mode, 15#4⟩ wb 2#16 = true ↔ carries := by
      cases mode with
      | preInc | postInc | offset => exact decide_eq_true_iff
      | direct | indirect | preDec | postDec => exact ⟨fun h => (nomatch h), False.elim⟩
    have hlimit : overLimit s.splim ea (s.eaCarry ⟨mode, 15#4⟩ wb 2#16) = true ↔
        s.splim.toNat + 2 < ea.toNat ∨ carries := by
      unfold overLimit
      rw [Bool.or_eq_true, decide_eq_true_iff, hcarry]
    have hchecked : ∀ t : State, t.pending.stackError = (s.pending.stackError || decide (ea.toNat < 0x1000) ||
        (s.splimEnabled && overLimit s.splim ea (s.eaCarry ⟨mode, 15#4⟩ wb 2#16))) → checked t := by
      intro t ht
      refine ⟨fun hen hover => ?_, fun hhigh hnot => ?_⟩
      · rw [ht, hen, hlimit.mpr hover, Bool.true_and, Bool.or_true]
      · have hno : (s.splimEnabled && overLimit s.splim ea (s.eaCarry ⟨mode, 15#4⟩ wb 2#16)) = false := by
          rcases hnot with hoff | ⟨hin, hcar⟩
          · rw [hoff, Bool.false_and]
          · rw [Bool.eq_false_iff.mpr fun h => (hlimit.mp h).elim (by omega) hcar, Bool.and_false]
        rw [ht, hno, decide_eq_false (by omega), Bool.or_false, Bool.or_false]
    have hlow : ∀ (t : State) (b : Bool), t.pending.stackError = (s.pending.stackError || decide (ea.toNat < 0x1000) || b) →
        ea.toNat < 0x1000 → t.pending.stackError = true := by
      intro t b ht h
      rw [ht, decide_eq_true h, Bool.or_true, Bool.true_or]
    constructor
    · obtain ⟨x, limit, hexec, herr, hlim⟩ := movReg_load_stackError r rfl hmode hp hc
      rw [hea] at herr
      refine ⟨x, hexec, hlow x _ herr, fun hset => hchecked x ?_⟩
      rw [herr]
      rcases hlim with rfl | ⟨hen, hold⟩
      · rfl
      · rcases hset with hoff | hnone
        · rw [hoff] at hen
          cases hen
        · rw [hnone] at hold
          cases hold
    · intro t ht
      have herr := movReg_store_stackError r rfl hmode hp hc ht
      rw [hea] at herr
      exact ⟨hlow t _ herr, hchecked t herr⟩

end Sys2Proof.Machine
end

section
/-! What forming an address, reading a source and writing a destination leave unchanged. -/

namespace Sys2Proof.Machine

/-- Only the listed working registers, data memory, the pending traps and the count of free values differ. -/
structure Touches (s t : State) (l : List Reg) : Prop where
  regs : sameRegistersBut s t l
  rest : t = { s with ctx := t.ctx, w15 := t.w15, mem := t.mem, pending := t.pending, free := t.free }

theorem Touches.trans {s t u : State} {l m : List Reg} (h : Touches s t l) (k : Touches t u m) : Touches s u (m ++ l) where
  regs := regs_trans h.regs k.regs (congrArg State.cctxi h.rest :)
  rest := by
    have hk := k.rest
    rw [h.rest] at hk
    exact hk

theorem Touches.mono {s t : State} {l m : List Reg} (h : Touches s t l) (hlm : ∀ r, r ∈ l → r ∈ m) : Touches s t m where
  regs := regs_mono h.regs hlm
  rest := h.rest

theorem touches_of_memory {s t : State} (h : t = { s with mem := t.mem, pending := t.pending, free := t.free })
    (l : List Reg) : Touches s t l where
  regs := regs_of_eq (congrArg State.ctx h :) (congrArg State.cctxi h :) (congrArg State.w15 h :) l
  rest := by
    rw [h]

theorem touches_refl (s : State) (l : List Reg) : Touches s s l := touches_of_memory rfl l

theorem touches_setWreg (s : State) (r : Reg) (v : Word) : Touches s (s.setWreg r v) [r] where
  regs := setWreg_regs s r v
  rest := by unfold State.setWreg; split <;> rfl

theorem touches_setWregKeep (s : State) (r : Reg) (v : Word) : Touches s (s.setWregKeep r v) [r] where
  regs := setWregKeep_regs s r v
  rest := by unfold State.setWregKeep; split <;> rfl

theorem touches_regDest (s : State) (byte : Bool) (r : Reg) (v : Word) : Touches s (s.regDest byte r v) [r] := by
  cases byte
  · exact touches_setWreg s r v
  · exact touches_setWregKeep s r _

theorem touches_preModified (s : State) (op : Operand) (step : Word) :
    Touches s (s.preModified op step) (modifiedBy op) := by
  unfold State.preModified modifiedBy
  cases op.mode with
  | preInc | preDec => exact touches_setWreg ..
  | direct | indirect | postDec | postInc | offset => exact touches_refl s _

theorem touches_postModified (s : State) (op : Operand) (step : Word) :
    Touches s (s.postModified op step) (modifiedBy op) := by
  unfold State.postModified modifiedBy
  cases op.mode with
  | postInc | postDec => exact touches_setWreg ..
  | direct | indirect | preDec | preInc | offset => exact touches_refl s _

section

variable {s t : State} {l : List Reg} (h : Touches s t l)

include h

theorem Touches.flags_eq : t.flags = s.flags := (congrArg State.flags h.rest :)

theorem Touches.advanced_pc : (t.advanced 1).pc = s.pc + 2#23 := (congrArg (fun u : State => u.pc + 2#23) h.rest :)

end

/-- The state in which an operand's memory is accessed: the pointer is modified before the access, traps may be pending
and free values drawn. -/
def Formed (s : State) (op : Operand) (step : Word) (u : State) : Prop :=
  u = { s.preModified op step with pending := u.pending, free := u.free }

section

variable {s u : State} {op : Operand} {step : Word} (h : Formed s op step u)

include h

theorem Formed.mem_eq : u.mem = s.mem := (congrArg State.mem h :).trans (preModified_mem s op step)

theorem Formed.wreg_eq : u.wreg = (s.preModified op step).wreg :=
  wreg_congr (congrArg State.ctx h :) (congrArg State.cctxi h :) (congrArg State.w15 h :)

theorem Formed.touches : Touches s u (modifiedBy op) :=
  (touches_preModified s op step).trans (touches_of_memory (by rw [h]) [])

theorem Formed.readTarget_eq (via : Via) (ea : Word) : u.readTarget via ea = s.readTarget via ea := by
  rw [h]
  unfold State.readTarget State.ramTarget State.implemented
  simp only [preModified_dev, preModified_dsrpag]

theorem Formed.writeTarget_eq (via : Via) (ea : Word) : u.writeTarget via ea = s.writeTarget via ea := by
  rw [h]
  unfold State.writeTarget State.ramTarget State.implemented
  simp only [preModified_dev, preModified_dswpag]

end

theorem formed_checkedAgainst (s : State) (op : Operand) (step limit ea : Word) (carry : Bool) (n : Nat) :
    Formed s op step { (s.preModified op step).checkedAgainst limit ea carry with free := n } := by
  unfold Formed State.checkedAgainst
  split <;> rfl

theorem formed_of_access {s : State} {op : Operand} {wb : Reg} {step : Word} {read : Bool} {a : Access}
    (h : s.access? op wb step read = some a) : Formed s op step a.state := by
  unfold State.access? at h
  simp only at h
  split at h
  · cases h
  split at h
  · cases h
  cases h
  unfold State.viaChecked State.stackChecked
  split
  · exact formed_checkedAgainst s op step _ _ _ _
  · rfl

/-- An operand's memory is accessed at its address, and then the pointer is modified. -/
theorem withEA_formed {α : Type} {s : State} {op : Operand} {wb : Reg} {step : Word} {read : Bool}
    {f : Via → Word → M α} (hp : s.pointerReady op wb = true) (hc : s.circular = false) :
    ∃ u, Formed s op step u ∧ withEA op wb step read f s =
      (f ((s.preModified op step).viaOf op wb) ((s.preModified op step).eaOf op wb) >>= fun r =>
        upd (·.postModified op step) >>= fun _ => pure r) u := by
  obtain ⟨u, hu, ⟨_, rfl⟩ | ⟨_, limit, n, rfl, _⟩⟩ := withEA_apply (f := f) (read := read) (step := step) hp hc
  · exact ⟨s.preModified op step, (rfl : Formed s op step (s.preModified op step)), hu⟩
  · exact ⟨_, formed_checkedAgainst .., hu⟩

/-! What a store to RAM leaves. -/

/-- A byte or a word stored in RAM. -/
def State.stored (s : State) (byte : Bool) (lin : Nat) (v : Word) : State :=
  if byte then s.setRamByte lin (v.extractLsb' 0 8) else s.setRamWord lin v

section

variable (s : State) (byte : Bool) (lin : Nat) (v : Word)

theorem stored_rest : s.stored byte lin v = { s with mem := (s.stored byte lin v).mem } := by
  cases byte <;> rfl

theorem stored_wreg : (s.stored byte lin v).wreg = s.wreg := by
  cases byte <;> rfl

theorem stored_memory : sameMemoryBut s (s.stored byte lin v) lin (if byte then 1 else 2) := by
  obtain ⟨_, other, _, _, word, _⟩ := ramReadsWhatWasWritten s lin (v.extractLsb' 0 8) v
  cases byte
  · exact word
  · intro a ha
    exact other a (by simp only [if_true] at ha; omega)

theorem stored_ramWord : (s.stored false lin v).ramWord lin = v := (ramReadsWhatWasWritten s lin 0#8 v).2.2.1

theorem stored_ramByte : (s.stored true lin v).ramByte lin = v.extractLsb' 0 8 :=
  (ramReadsWhatWasWritten s lin (v.extractLsb' 0 8) v).1

end

theorem ramWord_congr {s t : State} (h : t.mem = s.mem) (lin : Nat) : t.ramWord lin = s.ramWord lin := by
  unfold State.ramWord
  rw [ramByte_congr h, ramByte_congr h]

/-- The state after a store to RAM through an operand, in which the access was made from `u`. -/
def State.storedThrough (u : State) (op : Operand) (byte : Bool) (lin : Nat) (v : Word) : State :=
  (u.stored byte lin v).postModified op (stepOf byte)

section

variable {s u : State} {op : Operand} {byte : Bool} (h : Formed s op (stepOf byte) u) (lin : Nat) (v : Word)

include h

theorem touches_storedThrough : Touches s (u.storedThrough op byte lin v) (modifiedBy op) :=
  ((h.touches.trans (touches_of_memory (by rw [stored_rest]) [])).trans (touches_postModified _ op _)).mono (by simp)

theorem storedThrough_memory :
    sameMemoryBut s (u.storedThrough op byte lin v) lin (if byte then 1 else 2) := fun a ha =>
  (ramByte_congr (postModified_mem ..) a).trans ((stored_memory u byte lin v a ha).trans (ramByte_congr h.mem_eq a))

end

theorem storedThrough_ramWord (u : State) (op : Operand) (lin : Nat) (v : Word) :
    (u.storedThrough op false lin v).ramWord lin = v :=
  (ramWord_congr (postModified_mem ..) lin).trans (stored_ramWord u lin v)

theorem storedThrough_ramByte (u : State) (op : Operand) (lin : Nat) (v : Word) :
    (u.storedThrough op true lin v).ramByte lin = v.extractLsb' 0 8 :=
  (ramByte_congr (postModified_mem ..) lin).trans (stored_ramByte u lin v)

/-! Operands. -/

theorem source_touches {s t : State} {byte : Bool} {wb : Reg} {op : Operand} {v : Word}
    (h : s.source? byte wb op = some (v, t)) : Touches s t (modifiedBy op) ∧ t.mem = s.mem := by
  unfold State.source? at h
  split at h
  · cases h
    exact ⟨touches_refl s _, rfl⟩
  split at h
  next a ha =>
    have hform := formed_of_access ha
    split at h
    · cases h
      exact ⟨(hform.touches.trans (touches_postModified _ op _)).mono (by simp),
        (postModified_mem ..).trans hform.mem_eq⟩
    · cases h
  · cases h

theorem dest_of_direct {s u : State} {byte : Bool} {wb : Reg} {op : Operand} {v : Word} (hop : op.mode = .direct)
    (h : s.dest? byte wb op v = some u) : u = s.regDest byte op.reg v := by
  unfold State.dest? at h
  rw [if_pos hop] at h
  exact (Option.some.inj h).symm

/-- A destination in RAM is a store there. -/
theorem dest_of_ram {s u : State} {byte : Bool} {wb : Reg} {op : Operand} {v : Word} {a : Access} {lin : Nat}
    (hop : op.mode ≠ .direct) (ha : s.access? op wb (stepOf byte) false = some a)
    (ht : a.state.writeTarget a.via a.ea = .ram lin) (h : s.dest? byte wb op v = some u) :
    u = a.state.storedThrough op byte lin v := by
  unfold State.dest? at h
  simp only [if_neg hop, ha] at h
  split at h
  next w hw =>
    cases h
    unfold State.dataWrite? at hw
    simp only [ht] at hw
    split at hw
    · cases hw
    · cases hw
      rfl
  · cases h

end Sys2Proof.Machine
end

section
/-! Operands: what the addressing modes form, and what the instructions with two operands leave unchanged. -/

namespace Sys2Proof.Machine

theorem wreg_setWreg_even (s : State) (r : Reg) (v : Word) :
    (s.setWreg r v).wreg r = if r = 15#4 then v &&& 0xFFFE#16 else v := by
  split
  next h => rw [h]; rfl
  next h => exact wreg_setWreg_self v h

theorem preModified_viaOf (s : State) (op : Operand) (wb : Reg) (step : Word) :
    (s.preModified op step).viaOf op wb = s.viaOf op wb := by
  unfold State.viaOf
  rw [preModified_sfa]

/-- What a read of RAM delivers. -/
def State.loaded (s : State) (byte : Bool) (lin : Nat) : Word :=
  if byte then (s.ramByte lin).zeroExtend 16 else s.ramWord lin

theorem memRead_loaded {s : State} {via : Via} {ea : Word} {byte : Bool} {lin : Nat}
    (he : byte = false → ea.getLsbD 0 = false) (ht : s.readTarget via ea = .ram lin) :
    memRead via ea byte s = .ok (s.loaded byte lin, s) := by
  refine memRead_of_dataRead ?_
  unfold State.dataRead?
  cases byte
  · rw [he rfl, ht]; rfl
  · rw [ht]; rfl

theorem memWrite_stored {s : State} {via : Via} {ea : Word} {byte : Bool} {lin : Nat} (v : Word)
    (he : byte = false → ea.getLsbD 0 = false) (ht : s.writeTarget via ea = .ram lin) :
    memWrite via ea byte v s = .ok ((), s.stored byte lin v) := by
  refine memWrite_of_dataWrite ?_
  unfold State.dataWrite?
  cases byte
  · rw [he rfl, ht]; rfl
  · rw [ht]; rfl

theorem loaded_congr {s t : State} (h : t.mem = s.mem) (byte : Bool) (lin : Nat) : t.loaded byte lin = s.loaded byte lin := by
  unfold State.loaded
  rw [ramByte_congr h, ramWord_congr h]

section

variable {s : State} {byte : Bool} {wb q : Reg} {op : Operand} {lin : Nat} (hop : op.mode ≠ .direct)
  (hp : s.pointerReady op wb = true) (hc : s.circular = false)
  (he : byte = false → ((s.preModified op (stepOf byte)).eaOf op wb).getLsbD 0 = false)

include hop hp hc he

/-- `MOV` from RAM to a register. -/
theorem exec_movReg_load (ht : s.readTarget (s.viaOf op wb) ((s.preModified op (stepOf byte)).eaOf op wb) = .ram lin) :
    ∃ u, Formed s op (stepOf byte) u ∧ exec (.movReg byte wb op ⟨.direct, q⟩) s =
      .next (((u.postModified op (stepOf byte)).regDest byte q (s.loaded byte lin)).advanced 1) := by
  obtain ⟨u, hu, hrun⟩ := withEA_formed (step := stepOf byte) (read := true)
    (f := fun via ea => memRead via ea byte) hp hc
  refine ⟨u, hu, runInstr_of_ok ?_⟩
  have hread : readOp byte wb op s = .ok (s.loaded byte lin, u.postModified op (stepOf byte)) := by
    unfold readOp
    rw [if_neg hop, hrun, preModified_viaOf, bind_of_ok (memRead_loaded he ((hu.readTarget_eq ..).trans ht)),
      loaded_congr hu.mem_eq]
    rfl
  rw [bind_of_ok hread]
  rfl

/-- `MOV` from a register to RAM. -/
theorem exec_movReg_store (ht : s.writeTarget (s.viaOf op wb) ((s.preModified op (stepOf byte)).eaOf op wb) = .ram lin) :
    ∃ u, Formed s op (stepOf byte) u ∧ exec (.movReg byte wb ⟨.direct, q⟩ op) s =
      .next ((u.storedThrough op byte lin (s.regSource byte q)).advanced 1) := by
  obtain ⟨u, hu, hrun⟩ := withEA_formed (step := stepOf byte) (read := false)
    (f := fun via ea => ask (fun s => hitsSr s.dev byte ea) >>= fun hit =>
      memWrite via ea byte (s.regSource byte q) >>= fun _ => pure hit) hp hc
  refine ⟨u, hu, runInstr_of_ok ?_⟩
  have hwrite : writeOp byte wb op (s.regSource byte q) s = .ok
      (hitsSr u.dev byte ((s.preModified op (stepOf byte)).eaOf op wb),
        u.storedThrough op byte lin (s.regSource byte q)) := by
    unfold writeOp
    rw [if_neg hop]
    refine hrun.trans ?_
    rw [preModified_viaOf, bind_apply, ask_bind, bind_of_ok (memWrite_stored _ he ((hu.writeTarget_eq ..).trans ht))]
    rfl
  rw [bind_of_ok (readOp_of_source (source_direct ..)), bind_of_ok hwrite]
  rfl

end

/-- A byte written to a register leaves its high byte. -/
theorem regDest_byte_wreg {s : State} {r : Reg} (v : Word) (h : r ≠ 15#4) :
    (s.regDest true r v).wreg r = (s.wreg r).extractLsb' 8 8 ++ v.extractLsb' 0 8 := by
  have hlt : r.toNat < 15 := by
    have := r.isLt
    have : r.toNat ≠ 15 := fun e => h (BitVec.eq_of_toNat_eq e)
    omega
  exact (wreg_setWregKeep s r _).trans (if_pos hlt)

theorem eq_reg_of_modifiedBy {op : Operand} {r : Reg} (h : r ∈ modifiedBy op) : r = op.reg := by
  unfold modifiedBy at h
  cases hm : op.mode <;> simp_all

theorem extract_zeroExtend (b : Byte) : (b.zeroExtend 16).extractLsb' 0 8 = b := by
  apply BitVec.eq_of_toNat_eq
  have := b.isLt
  simp only [BitVec.extractLsb'_toNat, BitVec.zeroExtend, BitVec.toNat_setWidth, Nat.shiftRight_zero]
  omega

/-- Settles O23: an operand's access is made in a state that has only its pointer modified, and the pointer's value
before and after is by cases on the mode. -/
theorem moveOperands : Obligations.MoveOperands := by
  unfold Obligations.MoveOperands
  intro byte wb src dst s t u v
  refine ⟨exec_movReg, ?_⟩
  intro m p q hm op even ea after
  have hea : ∀ step, (s.preModified op step).eaOf op wb = ea step := by
    intro step
    cases m with
    | preInc | preDec => exact wreg_setWreg_even ..
    | offset => exact BitVec.eq_of_toNat_eq (by simp [op, ea, State.eaOf, State.preModified])
    | direct | indirect | postInc | postDec => rfl
  have hafter : ∀ (step : Word) (u : State), u.wreg = (s.preModified op step).wreg →
      (u.postModified op step).wreg p = after step := by
    intro step u hu
    cases m with
    | preInc | preDec => exact (congrFun hu p).trans (wreg_setWreg_even ..)
    | postInc | postDec => exact (wreg_setWreg_even ..).trans (by rw [hu]; rfl)
    | direct | indirect | offset => exact congrFun hu p
  refine ⟨fun step read a ha => ⟨(preModified_viaChecked_ea ha).trans (hea step),
    hafter step _ (formed_of_access ha).wreg_eq⟩, ?_⟩
  intro hp hc step heven
  rw [show step = stepOf byte from rfl, ← hea] at heven
  constructor
  · intro lin ht
    rw [show step = stepOf byte from rfl, ← hea] at ht
    obtain ⟨u, hu, hx⟩ := exec_movReg_load (q := q) hm hp hc heven ht
    have hpost := (hu.touches.trans (touches_postModified u op (stepOf byte)))
    have hmem : ((u.postModified op (stepOf byte)).regDest byte q (s.loaded byte lin)).mem = s.mem :=
      (regDest_mem ..).trans ((postModified_mem ..).trans hu.mem_eq)
    have hend := (hpost.trans (touches_regDest _ byte q (s.loaded byte lin))).mono (m := [p, q]) ?_
    · refine ⟨_, hx, hend.advanced_pc, hend.flags_eq, ?_, ?_, ?_, hend.regs, fun a => ramByte_congr hmem a⟩
      · rintro rfl hq
        exact wreg_setWreg_self _ hq
      · rintro rfl hq hne
        have hkept : (u.postModified op (stepOf true)).wreg q = s.wreg q :=
          hpost.regs.1 q fun hin => hne (eq_reg_of_modifiedBy (by simpa using hin))
        exact (regDest_byte_wreg _ hq).trans (by rw [hkept, State.loaded, if_pos rfl, extract_zeroExtend])
      · intro hne
        exact ((touches_regDest _ byte q _).regs.1 p (by simpa using Ne.symm hne)).trans (hafter _ u hu.wreg_eq)
    · intro r hr
      simp only [List.cons_append, List.nil_append, List.mem_cons, List.mem_append, or_self] at hr
      rcases hr with rfl | hr
      · exact List.mem_cons_of_mem p (List.mem_singleton_self r)
      · rw [eq_reg_of_modifiedBy hr]
        exact List.mem_cons_self
  · intro lin ht
    rw [show step = stepOf byte from rfl, ← hea] at ht
    obtain ⟨u, hu, hx⟩ := exec_movReg_store (q := q) hm hp hc heven ht
    have hend := touches_storedThrough hu lin (s.regSource byte q)
    refine ⟨_, hx, hend.advanced_pc, hend.flags_eq, ?_, ?_, ?_, ?_, storedThrough_memory hu lin _⟩
    · rintro rfl
      exact storedThrough_ramWord ..
    · rintro rfl
      exact (storedThrough_ramByte ..).trans (lowByte_extract _)
    · exact hafter _ _ ((stored_wreg ..).trans hu.wreg_eq)
    · exact regs_mono hend.regs fun r hr => List.mem_singleton.mpr (eq_reg_of_modifiedBy hr)

end Sys2Proof.Machine
end

section
/-! What the instructions with a source and a destination operand leave unchanged. -/

namespace Sys2Proof.Machine

/-- The instruction ends with its destination written, at the next instruction, and may have written flags. -/
def endsAfter (u x : State) : Prop := ∃ fl n, x = ({ u with flags := fl, free := n } : State).advanced 1

theorem writeFlags_endsAfter (hit : Bool) (f : Flags → Flags) (u : State) :
    ∃ x, (writeFlags hit f >>= fun _ => advance 1) u = .ok ((), x) ∧ endsAfter u x := by
  cases hit
  · exact ⟨_, rfl, f u.flags, u.free, rfl⟩
  · exact ⟨_, rfl, _, _, rfl⟩

section

variable {byte : Bool} {src dst : Operand} {s t u : State} {v : Word} (hs : s.source? byte 0#4 src = some (v, t))

include hs

theorem addReg_endsAfter {wn : Reg} (hd : t.dest? byte 0#4 dst (addResult byte (s.regSource byte wn) v) = some u) :
    ∃ x, exec (.addReg byte wn src dst) s = .next x ∧ endsAfter u x := by
  obtain ⟨x, hx, hend⟩ := writeFlags_endsAfter (t.destIsSr byte 0#4 dst)
    (fun _ => addFlags byte (s.regSource byte wn) v) u
  exact ⟨x, runInstr_of_ok (by
    rw [ask_bind, bind_of_ok (readOp_of_source hs), bind_of_ok (writeOp_of_dest hd)]; exact hx), hend⟩

theorem shiftReg_endsAfter {f : Word → ShiftResult} (hd : t.dest? byte 0#4 dst (f v).value = some u) :
    ∃ x, runInstr (shiftReg byte src dst f) s = .next x ∧ endsAfter u x := by
  obtain ⟨x, hx, fl, n, rfl⟩ := writeFlags_endsAfter (t.destIsSr byte 0#4 dst)
    (shiftFlags byte (f v) (Config.anyBit u.free)) { u with free := u.free + 1 }
  have hrun : shiftReg byte src dst f s = .ok ((), ({ u with flags := fl, free := n } : State).advanced 1) := by
    unfold shiftReg
    rw [bind_of_ok (readOp_of_source hs)]
    exact (bind_of_ok (writeOp_of_dest hd) _).trans hx
  exact ⟨_, runInstr_of_ok hrun, fl, n, rfl⟩

end

/-- What the flags and the end of an instruction leave is all that its operands touched. -/
theorem endsAfter_elsewhere {s u x : State} {l : List Reg} (h : Touches s u l) (hx : endsAfter u x) :
    sameRegistersBut s x l ∧ sameElsewhere s x := by
  obtain ⟨fl, n, rfl⟩ := hx
  refine ⟨h.regs, ?_⟩
  have hrest := h.rest
  unfold sameElsewhere
  show ({ u with flags := fl, free := n } : State).advanced 1 = _
  unfold State.advanced
  rw [hrest]

theorem endsAfter_mem {u x : State} (hx : endsAfter u x) : x.mem = u.mem := by
  obtain ⟨fl, n, rfl⟩ := hx
  rfl

theorem endsAfter_wreg {u x : State} (hx : endsAfter u x) : x.wreg = u.wreg := by
  obtain ⟨fl, n, rfl⟩ := hx
  rfl

/-- Settles O24: the operands touch their registers and the stored bytes, and the instruction ends after them. -/
theorem operandFrame : Obligations.OperandFrame := by
  unfold Obligations.OperandFrame
  intro byte wb src dst s t u x v r i hs hd hi hx
  have hsrc := source_touches hs
  have hends : (x = u.advanced 1) ∨ endsAfter u x ∧ ¬(i = .movReg byte wb src dst ∨ ∃ wn, i ∈
      [Instr.mulwSS wn src dst.reg, .mulwSU wn src dst.reg, .mulwUS wn src dst.reg, .mulwUU wn src dst.reg]) := by
    rcases hi with ⟨rfl, rfl⟩ | ⟨rfl, wn, rfl, rfl⟩ | ⟨rfl, hi⟩ | ⟨rfl, rfl, hdir, wn, rfl, hi⟩
    · exact .inl (Host.Outcome.next.inj (hx.symm.trans (exec_movReg hs hd)))
    · obtain ⟨y, hy, hend⟩ := addReg_endsAfter hs hd
      obtain rfl : x = y := Host.Outcome.next.inj (hx.symm.trans hy)
      exact .inr ⟨hend, by simp⟩
    · simp only [List.mem_cons, List.not_mem_nil, or_false, Prod.mk.injEq] at hi
      rcases hi with ⟨rfl, rfl⟩ | ⟨rfl, rfl⟩ | ⟨rfl, rfl⟩
      all_goals
        obtain ⟨y, hy, hend⟩ := shiftReg_endsAfter hs hd
        obtain rfl : x = y := Host.Outcome.next.inj (hx.symm.trans hy)
        exact .inr ⟨hend, by simp⟩
    · rw [dest_of_direct hdir hd]
      exact .inl (Host.Outcome.next.inj (hx.symm.trans (exec_mulw hs hi)))
  have hend : endsAfter u x := hends.elim (fun h => ⟨u.flags, u.free, h⟩) And.left
  refine ⟨fun hdir => ?_, fun a lin hind ha ht => ?_, fun hdst hmove => ?_⟩
  · obtain rfl := dest_of_direct hdir hd
    have hto := (hsrc.1.trans (touches_regDest t byte dst.reg r))
    obtain ⟨hregs, helse⟩ := endsAfter_elsewhere hto hend
    have hmem : x.mem = s.mem := (endsAfter_mem hend).trans ((regDest_mem ..).trans hsrc.2)
    refine ⟨by rwa [changedBy, if_pos hdir], fun a => ramByte_congr hmem a, helse, ?_⟩
    rintro rfl hne hnot
    rw [endsAfter_wreg hend, regDest_byte_wreg _ hne, hsrc.1.regs.1 _ hnot, extract_append_left]
  · obtain rfl := dest_of_ram hind ha ht hd
    have hform := formed_of_access ha
    obtain ⟨hregs, helse⟩ := endsAfter_elsewhere (hsrc.1.trans (touches_storedThrough hform lin r)) hend
    refine ⟨by rwa [changedBy, if_neg hind], fun b hb => ?_, helse⟩
    exact (ramByte_congr (endsAfter_mem hend) b).trans
      ((storedThrough_memory hform lin r b hb).trans (ramByte_congr hsrc.2 b))
  · obtain rfl := hends.resolve_right fun h => h.2 hmove
    have hdest : u.flags = t.flags := by
      rcases hdst with hdir | ⟨a, lin, ha, ht⟩
      · rw [dest_of_direct hdir hd, regDest_flags]
      · by_cases hdir : dst.mode = .direct
        · rw [dest_of_direct hdir hd, regDest_flags]
        · rw [dest_of_ram hdir ha ht hd]
          exact (touches_storedThrough (formed_of_access ha) lin r).flags_eq
    exact hdest.trans hsrc.1.flags_eq

end Sys2Proof.Machine
end

section
/-! Storing an accumulator: rounding, write saturation, and the frame. -/

namespace Sys2Proof.Machine

/-! Rounding (R253), in integers. -/

theorem acc_low_word (v : Acc40) : ((v.extractLsb' 0 16).toNat : Int) = v.toInt % 2 ^ 16 := by
  have h := toInt_acc v
  rw [BitVec.extractLsb'_toNat, Nat.shiftRight_zero]
  split at h <;> omega

theorem acc_bit16 (v : Acc40) : v.getLsbD 16 = decide (v.toInt / 2 ^ 16 % 2 = 1) := by
  have h := toInt_acc v
  rw [BitVec.getLsbD, Nat.testBit_eq_decide_div_mod_eq, decide_eq_decide]
  split at h <;> omega

/-- Whether rounding adds one to the value rounded down. -/
def roundsUp (conventional : Bool) (x : Int) : Bool :=
  if conventional then decide (2 ^ 15 ≤ x % 2 ^ 16)
  else decide (2 ^ 15 < x % 2 ^ 16) || (decide (x % 2 ^ 16 = 2 ^ 15) && decide (x / 2 ^ 16 % 2 = 1))

theorem roundAcc_eq (conventional : Bool) (v : Acc40) :
    roundAcc conventional v = v.toInt / 2 ^ 16 + if roundsUp conventional v.toInt then 1 else 0 := by
  have hlow := acc_low_word v
  have hge : (0x8000 ≤ (v.extractLsb' 0 16).toNat) ↔ 2 ^ 15 ≤ v.toInt % 2 ^ 16 := by omega
  have hgt : (0x8000 < (v.extractLsb' 0 16).toNat) ↔ 2 ^ 15 < v.toInt % 2 ^ 16 := by omega
  have heq : ((v.extractLsb' 0 16).toNat = 0x8000) ↔ v.toInt % 2 ^ 16 = 2 ^ 15 := by omega
  unfold roundAcc roundsUp truncAcc
  simp only [hge, hgt, heq, acc_bit16]

/-- Conventional rounding adds one half and rounds down. -/
theorem roundAcc_conventional (v : Acc40) : roundAcc true v = (v.toInt + 2 ^ 15) / 2 ^ 16 := by
  have hup : roundsUp true v.toInt = true ↔ 2 ^ 15 ≤ v.toInt % 2 ^ 16 := decide_eq_true_iff
  rw [roundAcc_eq]
  simp only [hup]
  split <;> omega

theorem roundsUp_convergent (x : Int) : roundsUp false x = true ↔
    2 ^ 15 < x % 2 ^ 16 ∨ x % 2 ^ 16 = 2 ^ 15 ∧ x / 2 ^ 16 % 2 = 1 := by
  simp only [roundsUp, Bool.false_eq_true, if_false, Bool.or_eq_true, Bool.and_eq_true, decide_eq_true_eq]

/-- Convergent rounding is to the nearest value. -/
theorem roundAcc_nearest (v : Acc40) (h : v.toInt % 2 ^ 16 ≠ 2 ^ 15) :
    roundAcc false v = (v.toInt + 2 ^ 15) / 2 ^ 16 := by
  have hup := roundsUp_convergent v.toInt
  rw [roundAcc_eq]
  simp only [hup]
  split <;> omega

/-- A tie goes to the even value. -/
theorem roundAcc_tie (v : Acc40) (h : v.toInt % 2 ^ 16 = 2 ^ 15) : roundAcc false v % 2 = 0 ∧
    (roundAcc false v = v.toInt / 2 ^ 16 ∨ roundAcc false v = v.toInt / 2 ^ 16 + 1) := by
  have hup := roundsUp_convergent v.toInt
  rw [roundAcc_eq]
  simp only [hup]
  split <;> omega

/-! Write saturation (R254), and the stored value. -/

theorem saturateWrite_eq (satdw : Bool) (u : Int) :
    saturateWrite satdw u = BitVec.ofInt 16 (if satdw then max (-0x8000) (min 0x7FFF u) else u) := by
  unfold saturateWrite
  cases satdw
  · rfl
  · simp only [Bool.true_and, decide_eq_true_eq, if_true]
    split
    · rw [show max (-0x8000) (min 0x7FFF u) = 0x7FFF by omega]; rfl
    split
    · rw [show max (-0x8000) (min 0x7FFF u) = -0x8000 by omega]; rfl
    · rw [show max (-0x8000) (min 0x7FFF u) = u by omega]

/-- A value in 40 bits, in integers. -/
theorem toInt_ofInt_acc (x : Int) : (BitVec.ofInt 40 x).toInt = (x + 2 ^ 39) % 2 ^ 40 - 2 ^ 39 := by
  rw [BitVec.toInt_ofInt, Int.bmod_def]
  split <;> omega

theorem storeValue_eq (s : State) (v : Acc40) (n : Int) (rounded : Bool) :
    let kept := (BitVec.ofInt 40 (shiftExact v.toInt n)).toInt
    let u := kept / 2 ^ 16 + if rounded && roundsUp s.dspCur.rnd kept then 1 else 0
    s.storeValue v n rounded = BitVec.ofInt 16 (if s.dspCur.satdw then max (-0x8000) (min 0x7FFF u) else u) := by
  intro kept u
  rw [← saturateWrite_eq]
  unfold State.storeValue
  cases rounded
  · exact congrArg (saturateWrite _) (Int.add_zero _).symm
  · exact congrArg (saturateWrite _) (roundAcc_eq _ _)

/-! The store. -/

theorem exec_sac {s t : State} {acc : AccId} {shift : BitVec 4} {wb : Reg} {dst : Operand} (rounded : Bool)
    (hdsp : s.dev.hasDsp = true)
    (hd : s.dest? false wb dst (s.storeValue (s.acc acc) shift.toInt rounded) = some t) :
    exec (if rounded then .sacR acc shift wb dst else .sac acc shift wb dst) s = .next (t.advanced 1) := by
  cases rounded
  all_goals exact runInstr_of_ok (by
    rw [bind_of_ok (requireDsp_of_dsp hdsp), ask_bind, bind_of_ok (writeOp_of_dest hd)]; rfl)

/-- Settles O49: the store is that of a destination operand, and its value by the lemmas on rounding and saturation. -/
theorem accumulatorStore : Obligations.AccumulatorStore := by
  unfold Obligations.AccumulatorStore
  intro acc shift wb dst rounded s t v
  refine ⟨fun hdsp hd => ?_, ?_, rfl, roundAcc_conventional v, roundAcc_nearest v, roundAcc_tie v⟩
  · intro x
    have hend : endsAfter t x := ⟨t.flags, t.free, rfl⟩
    refine ⟨exec_sac rounded hdsp hd, fun hdir => ?_, fun a lin hind ha ht => ?_⟩
    · obtain rfl := dest_of_direct hdir hd
      have hto := touches_regDest s false dst.reg (s.storeValue (s.acc acc) shift.toInt rounded)
      obtain ⟨hregs, helse⟩ := endsAfter_elsewhere hto hend
      exact ⟨wreg_setWreg_self _, hregs, fun a => ramByte_congr (regDest_mem ..) a, helse, hto.flags_eq,
        regDest_pending ..⟩
    · obtain rfl := dest_of_ram (byte := false) hind ha ht hd
      have hform : Formed s dst (stepOf false) a.state := formed_of_access ha
      have hto := touches_storedThrough (byte := false) hform lin (s.storeValue (s.acc acc) shift.toInt rounded)
      obtain ⟨hregs, helse⟩ := endsAfter_elsewhere hto hend
      exact ⟨storedThrough_ramWord .., hregs, storedThrough_memory (byte := false) hform lin _, helse, hto.flags_eq⟩
  · intro n scaled kept down rest up u
    have hscaled : shiftExact v.toInt n = scaled := rfl
    have hkept : (BitVec.ofInt 40 (shiftExact v.toInt n)).toInt = kept := by
      rw [toInt_ofInt_acc, hscaled]
    have hu : u = kept / 2 ^ 16 + if rounded && roundsUp s.dspCur.rnd kept then 1 else 0 := by
      show (if up then down + 1 else down) = down + if up then 1 else 0
      split
      · rfl
      · exact (Int.add_zero _).symm
    rw [hu, ← hkept]
    exact storeValue_eq s v n rounded

end Sys2Proof.Machine
end

section
/-! Pointers that may not be used: the Reset of an uninitialized one, and circular addressing. -/

namespace Sys2Proof.Machine

variable {α β : Type}

/-- How an access through a pointer stops: refused when the pointer is initialized, otherwise with a Reset. -/
def pointerStop (ready : Bool) : Stop := if ready then .refuse .circularAddressing else .reset .uninitializedW

theorem runInstr_of_pointerStop {m : M Unit} {s : State} {ready : Bool} (h : m s = .error (pointerStop ready)) :
    runInstr m s = if ready then .refused .circularAddressing else .next (deviceReset .uninitializedW s) := by
  cases ready
  · exact runInstr_of_reset h
  · exact runInstr_of_refuse h

/-! The operand accesses stop. -/

section

variable {s : State} {op : Operand} {wb : Reg} (hop : op.mode ≠ .direct)
  (h : s.pointerReady op wb = false ∨ s.circular = true)

include hop h

theorem readOp_stops (byte : Bool) : readOp byte wb op s = .error (pointerStop (s.pointerReady op wb)) := by
  unfold readOp
  rw [if_neg hop]
  exact withEA_stops h

theorem writeOp_stops (byte : Bool) (v : Word) :
    writeOp byte wb op v s = .error (pointerStop (s.pointerReady op wb)) := by
  unfold writeOp
  rw [if_neg hop]
  exact withEA_stops h

end

section

variable {s : State} {op : Operand} (hop : op.mode ≠ .direct)
  (h : s.pointerReady op 0#4 = false ∨ s.circular = true)

include hop h

theorem readDouble_stops : readDouble op s = .error (pointerStop (s.pointerReady op 0#4)) := by
  unfold readDouble
  rw [if_neg hop]
  exact withEA_stops h

theorem writeDouble_stops (lo hi : Word) : writeDouble op lo hi s = .error (pointerStop (s.pointerReady op 0#4)) := by
  unfold writeDouble
  rw [if_neg hop]
  exact withEA_stops h

end

/-! What the transfers before an access leave of the initialized registers. -/

/-- Every register but those listed is as initialized as before. -/
def initKept (l : List Reg) (s t : State) : Prop := ∀ r, r ∉ l → t.winit r = s.winit r

theorem initKept_read (l : List Reg) : ReadRel (initKept l) where
  refl _ _ _ := rfl
  trans h k r hr := (k r hr).trans (h r hr)
  drawn _ _ _ _ := rfl
  raised _ _ _ := rfl

theorem initKept_mono {l m : List Reg} {s t : State} (h : initKept l s t) (hlm : ∀ r, r ∈ l → r ∈ m) : initKept m s t :=
  fun r hr => h r fun hin => hr (hlm r hin)

theorem initKept_of_eq {s t : State} (h1 : t.ctx = s.ctx) (h2 : t.cctxi = s.cctxi) (l : List Reg) : initKept l s t := by
  obtain ⟨⟩ := s
  obtain ⟨⟩ := t
  simp only at h1 h2
  subst h1 h2
  exact fun _ _ => rfl

theorem winit_setWreg (s : State) (r q : Reg) (v : Word) : (s.setWreg r v).winit q = (decide (q = r) || s.winit q) := by
  have hne : q ≠ r → r.toNat ≠ q.toNat := fun hqr e => hqr (BitVec.eq_of_toNat_eq e.symm)
  unfold State.setWreg State.winit State.curCtx
  by_cases hqr : q = r
  · subst hqr
    split <;> simp_all
  · rw [decide_eq_false hqr, Bool.false_or]
    split
    · split
      · simp [hne hqr]
      · rfl
    · rfl

theorem initKept_setWreg {l : List Reg} {r : Reg} (s : State) (v : Word) (h : r ∈ l ∨ s.winit r = true) :
    initKept l s (s.setWreg r v) := by
  intro q hq
  rw [winit_setWreg]
  by_cases hqr : q = r
  · rw [hqr, h.resolve_left (hqr ▸ hq), Bool.or_true]
  · rw [decide_eq_false hqr, Bool.false_or]

theorem initKept_preModified {op : Operand} {s : State} (step : Word) (h : s.winit op.reg = true) :
    initKept [] s (s.preModified op step) := by
  unfold State.preModified
  cases op.mode with
  | preInc | preDec => exact initKept_setWreg s _ (.inr h)
  | direct | indirect | postDec | postInc | offset => exact (initKept_read []).refl s

theorem initKept_postModified {op : Operand} {s : State} (step : Word) (h : s.winit op.reg = true) :
    initKept [] s (s.postModified op step) := by
  unfold State.postModified
  cases op.mode with
  | postInc | postDec => exact initKept_setWreg s _ (.inr h)
  | direct | indirect | preDec | preInc | offset => exact (initKept_read []).refl s

/-! Computations that keep a relation, and reset the device only for an uninitialized pointer. -/

structure Passes (R : State → State → Prop) (m : M α) : Prop where
  of_ok : ∀ s a t, m s = .ok (a, t) → R s t
  reset : ∀ s c, m s = .error (.reset c) → c = .uninitializedW

theorem Relates.passes {R : State → State → Prop} {m : M α} (h : Relates R m) : Passes R m where
  of_ok := h.of_ok
  reset s c hc := absurd hc (h.noReset s c)

theorem Passes.mono {R Q : State → State → Prop} {m : M α} (h : Passes R m) (hRQ : ∀ s t, R s t → Q s t) : Passes Q m where
  of_ok s a t hm := hRQ s t (h.of_ok s a t hm)
  reset := h.reset

theorem passes_bind {R : State → State → Prop} {m : M α} {f : α → M β} (hR : ReadRel R) (hm : Passes R m)
    (hf : ∀ a, Passes R (f a)) : Passes R (m >>= f) where
  of_ok s b u h := by
    obtain ⟨a, t, h1, h2⟩ := bind_ok_inv h
    exact hR.trans (hm.of_ok s a t h1) ((hf a).of_ok t b u h2)
  reset s c h := by
    rw [bind_apply] at h
    split at h
    next p _ => exact (hf p.1).reset p.2 c h
    next e he =>
      cases h
      exact hm.reset s c he

theorem passes_withEA {op : Operand} {wb : Reg} {step : Word} {read : Bool} {f : Via → Word → M α}
    (hf : ∀ via ea, Relates (initKept []) (f via ea)) : Passes (initKept []) (withEA op wb step read f) := by
  have ready : ∀ s a t, withEA op wb step read f s = .ok (a, t) → s.pointerReady op wb = true ∧ s.circular = false := by
    intro s a t h
    refine ⟨eq_true_of_ne_false fun hp => ?_, eq_false_of_ne_true fun hc => ?_⟩
    · rw [withEA_of_uninit hp] at h
      cases h
    · rw [withEA_stops (.inr hc)] at h
      cases h
  constructor
  · intro s a t h
    obtain ⟨hp, hc⟩ := ready s a t h
    obtain ⟨u, hu, hrun⟩ := withEA_formed (step := step) (read := read) (f := f) hp hc
    obtain ⟨r, v, hacc, hend⟩ := bind_ok_inv (hrun.symm.trans h)
    cases hend
    have hreg : s.winit op.reg = true := (Bool.and_eq_true_iff.mp hp).1
    have hR := initKept_read []
    have hv : initKept [] s v := hR.trans (hR.trans (initKept_preModified step hreg)
      (initKept_of_eq (congrArg State.ctx hu :) (congrArg State.cctxi hu :) [])) ((hf _ _).of_ok u _ v hacc)
    exact hR.trans hv (initKept_postModified step ((hv op.reg List.not_mem_nil).trans hreg))
  · intro s c h
    cases hp : s.pointerReady op wb
    · rw [withEA_of_uninit hp] at h
      cases h
      rfl
    cases hc : s.circular
    · obtain ⟨u, hu, hrun⟩ := withEA_formed (step := step) (read := read) (f := f) hp hc
      have herr := hrun.symm.trans h
      rw [bind_apply] at herr
      split at herr
      next => cases herr
      next e he =>
        cases herr
        exact absurd he ((hf _ _).noReset u c)
    · rw [withEA_of_circular hp hc] at h
      cases h

theorem passes_readOp (byte : Bool) (wb : Reg) (op : Operand) : Passes (initKept []) (readOp byte wb op) := by
  unfold readOp
  split
  · exact (relates_ask (initKept_read []) _).passes
  · exact passes_withEA fun via ea => relates_memRead (initKept_read []) via ea byte

theorem passes_tableRead (byte : Bool) (op : Operand) (pick : Bool → ProgWord → Word) :
    Passes (initKept []) (tableRead byte op pick) := by
  have hR := initKept_read []
  refine passes_withEA fun via ea => relates_ite ?_ (relates_asking hR fun a => relates_ite (relates_refuse _) ?_)
  · exact relates_bind hR (relates_upd hR.raised) fun _ => relates_drawOperand hR byte
  · exact relates_bind hR (relates_progRead hR _) fun _ => relates_pure hR _

/-! A computation with no next state but that Reset. -/

/-- The computation is refused, or resets the device for an uninitialized pointer. -/
def onlyUninit (m : M β) (s : State) : Prop :=
  (∃ r, m s = .error (.refuse r)) ∨ m s = .error (.reset .uninitializedW)

theorem next_of_onlyUninit {m : M Unit} {s t : State} (h : onlyUninit m s) (ht : runInstr m s = .next t) :
    t = deviceReset .uninitializedW s := by
  rcases h with ⟨r, hr⟩ | hr
  · rw [runInstr_of_refuse hr] at ht
    cases ht
  · rw [runInstr_of_reset hr] at ht
    exact (Host.Outcome.next.inj ht).symm

theorem onlyUninit_of_stop {m : M α} {s : State} {op : Operand} {wb : Reg} (k : α → M β)
    (hm : m s = .error (pointerStop (s.pointerReady op wb))) (h : s.pointerReady op wb = false) :
    onlyUninit (m >>= k) s := by
  rw [h] at hm
  exact .inr (bind_of_error hm _)

theorem onlyUninit_bind {R : State → State → Prop} {m : M α} {f : α → M β} {s : State} (hm : Passes R m)
    (hf : ∀ a t, R s t → onlyUninit (f a) t) : onlyUninit (m >>= f) s := by
  unfold onlyUninit
  cases h : m s with
  | ok p =>
    rw [bind_of_ok h]
    exact hf p.1 p.2 (hm.of_ok s p.1 p.2 h)
  | error e =>
    rw [bind_of_error h]
    cases e with
    | reset c => exact .inr (by rw [hm.reset s c h])
    | refuse r => exact .inl ⟨r, rfl⟩

theorem pointerReady_of_initKept {l : List Reg} {s t : State} {op : Operand} {wb : Reg} (h : initKept l s t)
    (hreg : op.reg ∉ l) (hwb : wb ∉ l) : t.pointerReady op wb = s.pointerReady op wb := by
  unfold State.pointerReady
  rw [h op.reg hreg, h wb hwb]

/-- A write behind a source, through a pointer that is not initialized. -/
theorem onlyUninit_write {m : M Word} {byte : Bool} {wb : Reg} {op : Operand} {s : State}
    (hm : Passes (initKept []) m) (hop : op.mode ≠ .direct) (h : s.pointerReady op wb = false) (g : Word → Word)
    (k : Word → Bool → M Unit) : onlyUninit (m >>= fun v => writeOp byte wb op (g v) >>= k v) s :=
  onlyUninit_bind hm fun v t ht => by
    have hready : t.pointerReady op wb = false :=
      (pointerReady_of_initKept ht List.not_mem_nil List.not_mem_nil).trans h
    exact onlyUninit_of_stop _ (writeOp_stops hop (.inl hready) byte (g v)) hready

/-! The multiplies (R246, R255). -/

theorem initKept_accUpdated (l : List Reg) (s : State) (x : AccId) (r : Int) : initKept l s (s.accUpdated x r) :=
  initKept_of_eq (accUpdated_ctx ..) (accUpdated_cctxi ..) l

theorem accUpdated_circular (s : State) (x : AccId) (r : Int) : (s.accUpdated x r).circular = s.circular := by
  simp [State.circular]

theorem accUpdated_pointerReady (s : State) (x : AccId) (r : Int) (op : Operand) (wb : Reg) :
    (s.accUpdated x r).pointerReady op wb = s.pointerReady op wb :=
  pointerReady_of_initKept (initKept_accUpdated [] s x r) List.not_mem_nil List.not_mem_nil

section

variable {l : List Reg}

theorem passes_requireDsp (l : List Reg) : Passes (initKept l) requireDsp :=
  (relates_asking (initKept_read l) fun _ => relates_ite (relates_pure (initKept_read l) _) (relates_refuse _)).passes

theorem passes_multiply (l : List Reg) (m n : Reg) : Passes (initKept l) (multiply m n) := by
  refine (relates_asking (initKept_read l) fun p => ?_ : Relates (initKept l) (multiply m n)).passes
  cases p with
  | some p => exact relates_pure (initKept_read l) p
  | none => exact relates_refuse _

theorem passes_prefetchWord (ySpace : Bool) (a : PfAddr) : Passes (initKept l) (prefetchWord ySpace a) := by
  have hR := initKept_read []
  refine Passes.mono (passes_withEA fun via ea => ?_) fun s t h => initKept_mono h fun r hr => nomatch hr
  exact relates_bind hR (relates_memRead hR via ea false) fun _ =>
    relates_asking hR fun _ => relates_ite (relates_pure hR _) (relates_drawBits hR 16)

theorem initKept_pfAdvance (s : State) {ySpace : Bool} {a : PfAddr} (h : pfReg ySpace a ∈ l) :
    initKept l s (s.pfAdvance ySpace a) := by
  unfold State.pfAdvance
  split
  · exact (initKept_read l).refl s
  · exact initKept_setWreg s _ (.inl h)
  · exact (initKept_read l).refl s

theorem passes_prefetch {ySpace : Bool} (p : Prefetch) (hdest : ∀ d, dspReg d ∈ l) (hreg : ∀ a, pfReg ySpace a ∈ l) :
    Passes (initKept l) (prefetch ySpace p) := by
  have hR := initKept_read l
  cases p with
  | off => exact (relates_pure hR ()).passes
  | on a dest =>
    exact passes_bind hR (passes_prefetchWord ySpace a) fun v => passes_bind hR
      (relates_upd fun s => initKept_setWreg s v (.inl (hdest dest))).passes fun _ =>
        (relates_upd fun s => initKept_pfAdvance s (hreg a)).passes

/-- What a multiply does before its transfers. -/
theorem onlyUninit_multiplied {m n : Reg} {x : AccId} {combine : Int → Int → Int} {k : M Unit} {s : State}
    (h : ∀ t, initKept l s t → onlyUninit k t) :
    onlyUninit (requireDsp >>= fun _ => multiply m n >>= fun p => ask (fun s => (s.acc x).toInt) >>= fun old =>
      accUpdate x (combine old p) >>= fun _ => k) s := by
  have hR := initKept_read l
  refine onlyUninit_bind (passes_requireDsp l) fun _ t ht => onlyUninit_bind (passes_multiply l m n) fun p u hu =>
    onlyUninit_bind (relates_ask hR _).passes fun old v hv =>
      onlyUninit_bind (relates_upd fun s => initKept_accUpdated l s x _).passes fun _ w hw => h w ?_
  exact hR.trans (hR.trans (hR.trans ht hu) hv) hw

end

/-- The registers an X prefetch writes. -/
def xTouched : List Reg := [4#4, 5#4, 6#4, 7#4, 8#4, 9#4]

/-- The registers an X and a Y prefetch write. -/
def xyTouched : List Reg := [4#4, 5#4, 6#4, 7#4, 8#4, 9#4, 10#4, 11#4]

theorem dspReg_xTouched : ∀ d, dspReg d ∈ xTouched := by decide

theorem dspReg_xyTouched : ∀ d, dspReg d ∈ xyTouched := by decide

theorem pfReg_x (a : PfAddr) : pfReg false a = 8#4 ∨ pfReg false a = 9#4 := by
  cases a with
  | pointer second _ => cases second <;> simp [pfReg]
  | offset => exact .inr rfl

theorem pfReg_y (a : PfAddr) : pfReg true a = 10#4 ∨ pfReg true a = 11#4 := by
  cases a with
  | pointer second _ => cases second <;> simp [pfReg]
  | offset => exact .inr rfl

theorem pfReg_xTouched (a : PfAddr) : pfReg false a ∈ xTouched := by
  rcases pfReg_x a with h | h <;> rw [h] <;> decide

theorem pfReg_x_xyTouched (a : PfAddr) : pfReg false a ∈ xyTouched := by
  rcases pfReg_x a with h | h <;> rw [h] <;> decide

theorem pfReg_y_xyTouched (a : PfAddr) : pfReg true a ∈ xyTouched := by
  rcases pfReg_y a with h | h <;> rw [h] <;> decide

theorem pfReg_y_not_touched (a : PfAddr) : pfReg true a ∉ xTouched := by
  rcases pfReg_y a with h | h <;> rw [h] <;> decide

theorem prefetchWord_stops {s : State} {ySpace : Bool} {a : PfAddr}
    (h : s.pointerReady (pfOperand ySpace a) 12#4 = false ∨ s.circular = true) :
    prefetchWord ySpace a s = .error (pointerStop (s.pointerReady (pfOperand ySpace a) 12#4)) := withEA_stops h

theorem writeBack_stops {s : State} {x : AccId} (h : s.winit 13#4 = false ∨ s.circular = true) :
    writeBack x .indirect s = .error (pointerStop (s.winit 13#4)) := by
  have hready : s.pointerReady ⟨.postInc, 13#4⟩ 0#4 = s.winit 13#4 := Bool.and_true _
  rw [← hready] at h ⊢
  exact withEA_stops h

theorem opval_of_us {s : State} (r : Reg) (h : s.dspCur.us ≠ 3#2) : ∃ a, s.opval r = some a := by
  have hus : s.dspCur.us = 0#2 ∨ s.dspCur.us = 1#2 ∨ s.dspCur.us = 2#2 := by
    revert h
    generalize s.dspCur.us = us
    revert us
    decide
  rcases hus with h | h | h
  · exact ⟨_, opval_signed r h⟩
  · exact ⟨_, opval_unsigned r h⟩
  · exact ⟨_, opval_mixed r h⟩

section

variable {m n : Reg} {x : AccId} {combine : Int → Int → Int} {awb : Awb} {s : State}

theorem onlyUninit_mulClass_y {px : Prefetch} {b : PfAddr} {xd : BitVec 2}
    (h : s.pointerReady (pfOperand true b) 12#4 = false) :
    onlyUninit (mulClass m n x combine px (.on b xd) awb) s := by
  refine onlyUninit_multiplied (l := xTouched) fun t ht =>
    onlyUninit_bind (passes_prefetch px dspReg_xTouched pfReg_xTouched) fun _ u hu => ?_
  have hready : u.pointerReady (pfOperand true b) 12#4 = false :=
    (pointerReady_of_initKept ((initKept_read _).trans ht hu) (pfReg_y_not_touched b) (by decide)).trans h
  refine .inr (bind_of_error (bind_of_error ?_ _) _)
  rw [prefetchWord_stops (.inl hready), hready]
  rfl

theorem onlyUninit_mulClass_awb {px py : Prefetch} (h : s.winit 13#4 = false) :
    onlyUninit (mulClass m n x combine px py .indirect) s := by
  refine onlyUninit_multiplied (l := xyTouched) fun t ht =>
    onlyUninit_bind (passes_prefetch px dspReg_xyTouched pfReg_x_xyTouched) fun _ u hu =>
      onlyUninit_bind (passes_prefetch py dspReg_xyTouched pfReg_y_xyTouched) fun _ w hw => ?_
  have hready : w.winit 13#4 = false :=
    ((initKept_read _).trans ((initKept_read _).trans ht hu) hw 13#4 (by decide)).trans h
  refine .inr (bind_of_error ?_ _)
  rw [writeBack_stops (.inl hready), hready]
  rfl

theorem onlyUninit_distance {wm xd : BitVec 2} {a b : PfAddr} (h : s.pointerReady (pfOperand true b) 12#4 = false) :
    onlyUninit (distance wm x combine a b xd) s := by
  refine onlyUninit_multiplied (l := xTouched) fun t ht =>
    onlyUninit_bind (passes_prefetchWord (l := xTouched) false a) fun v u hu => onlyUninit_bind
      (relates_upd fun s => initKept_pfAdvance s (pfReg_xTouched a)).passes fun _ w hw => ?_
  have hready : w.pointerReady (pfOperand true b) 12#4 = false := (pointerReady_of_initKept
    ((initKept_read _).trans ((initKept_read _).trans ht hu) hw) (pfReg_y_not_touched b) (by decide)).trans h
  exact onlyUninit_of_stop _ (prefetchWord_stops (.inl hready)) hready

variable (hd : s.dev.hasDsp = true) (hus : s.dspCur.us ≠ 3#2)

include hd hus

/-- A multiply forms its product and updates its accumulator before its transfers. -/
theorem multiplied_apply (k : M Unit) : ∃ r, (requireDsp >>= fun _ => multiply m n >>= fun p =>
    ask (fun s => (s.acc x).toInt) >>= fun old => accUpdate x (combine old p) >>= fun _ => k) s = k (s.accUpdated x r) := by
  obtain ⟨a, ha⟩ := opval_of_us m hus
  obtain ⟨b, hb⟩ := opval_of_us n hus
  have hp := prod_of_opval ha hb
  exact ⟨combine (s.acc x).toInt _, by
    rw [bind_of_ok (requireDsp_of_dsp hd), bind_of_ok (multiply_of_prod hp), ask_bind]; rfl⟩

theorem mulClass_stops_x {a : PfAddr} {xd : BitVec 2} {py : Prefetch}
    (h : s.pointerReady (pfOperand false a) 12#4 = false ∨ s.circular = true) :
    mulClass m n x combine (.on a xd) py awb s = .error (pointerStop (s.pointerReady (pfOperand false a) 12#4)) := by
  obtain ⟨r, hr⟩ := multiplied_apply (m := m) (n := n) (x := x) (combine := combine) hd hus
    (prefetch false (.on a xd) >>= fun _ => prefetch true py >>= fun _ => writeBack x awb >>= fun _ => advance 1)
  have hready := accUpdated_pointerReady s x r (pfOperand false a) 12#4
  exact hr.trans (bind_of_error (bind_of_error (by
    rw [prefetchWord_stops (by rwa [hready, accUpdated_circular]), hready]) _) _)

theorem mulClass_stops_y {b : PfAddr} {xd : BitVec 2}
    (h : s.pointerReady (pfOperand true b) 12#4 = false ∨ s.circular = true) :
    mulClass m n x combine .off (.on b xd) awb s = .error (pointerStop (s.pointerReady (pfOperand true b) 12#4)) := by
  obtain ⟨r, hr⟩ := multiplied_apply (m := m) (n := n) (x := x) (combine := combine) hd hus
    (prefetch false .off >>= fun _ => prefetch true (.on b xd) >>= fun _ => writeBack x awb >>= fun _ => advance 1)
  have hready := accUpdated_pointerReady s x r (pfOperand true b) 12#4
  exact hr.trans ((pure_bind_apply () _ _).trans (bind_of_error (bind_of_error (by
    rw [prefetchWord_stops (by rwa [hready, accUpdated_circular]), hready]) _) _))

theorem mulClass_stops_awb (h : s.winit 13#4 = false ∨ s.circular = true) :
    mulClass m n x combine .off .off .indirect s = .error (pointerStop (s.winit 13#4)) := by
  obtain ⟨r, hr⟩ := multiplied_apply (m := m) (n := n) (x := x) (combine := combine) hd hus
    (prefetch false .off >>= fun _ => prefetch true .off >>= fun _ => writeBack x .indirect >>= fun _ => advance 1)
  have hready : (s.accUpdated x r).winit 13#4 = s.winit 13#4 := initKept_accUpdated [] s x r 13#4 List.not_mem_nil
  exact hr.trans ((pure_bind_apply () _ _).trans ((pure_bind_apply () _ _).trans (bind_of_error (by
    rw [writeBack_stops (by rwa [hready, accUpdated_circular]), hready]) _)))

theorem distance_stops {wm xd : BitVec 2} {a b : PfAddr}
    (h : s.pointerReady (pfOperand false a) 12#4 = false ∨ s.circular = true) :
    distance wm x combine a b xd s = .error (pointerStop (s.pointerReady (pfOperand false a) 12#4)) := by
  obtain ⟨r, hr⟩ := multiplied_apply (m := dspReg wm) (n := dspReg wm) (x := x) (combine := combine) hd hus
    (prefetchWord false a >>= fun v => upd (·.pfAdvance false a) >>= fun _ => prefetchWord true b >>= fun w =>
      upd (·.pfAdvance true b) >>= fun _ => upd (·.setWreg (dspReg xd) (v - w)) >>= fun _ => advance 1)
  have hready := accUpdated_pointerReady s x r (pfOperand false a) 12#4
  exact hr.trans (bind_of_error (by
    rw [prefetchWord_stops (by rwa [hready, accUpdated_circular]), hready]) _)

end

/-! Pushes and pops (R124). -/

theorem circular_read : ReadRel fun s t : State => t.circular = s.circular where
  refl _ := rfl
  trans h k := k.trans h
  drawn _ _ := rfl
  raised _ := rfl

section

variable {s : State} (hc : s.circular = true)

include hc

theorem doCall_circular (next target : ProgAddr) : doCall next target s = .error (.refuse .circularAddressing) := by
  refine bind_of_error ?_ _
  unfold pushPcCall
  rw [ask_bind]
  exact bind_of_error (push16_of_circular _ hc) _

theorem subroutineReturn_circular : subroutineReturn s = .error (.refuse .circularAddressing) :=
  bind_of_error (pop16_of_circular hc) _

theorem enter_circular (e : Entry) : enter e s = .error (.refuse .circularAddressing) := by
  have hc' : State.circular { s with hazNext := Hazard.none } = true := hc
  unfold enter pushPcExc
  rw [ask_bind, upd_bind, ask_bind]
  refine bind_of_error ?_ _
  rw [ask_bind]
  exact bind_of_error (push16_of_circular _ hc') _

theorem exec_lnk_circular (lit : BitVec 14) : exec (.lnk lit) s = .refused .circularAddressing := by
  refine runInstr_of_refuse ?_
  rw [ask_bind]
  cases s.sfa
  · rw [if_neg (by decide)]
    exact (ask_bind ..).trans (bind_of_error (push16_of_circular _ hc) _)
  · rw [if_pos rfl, raiseTrap, upd_bind]
    exact (ask_bind ..).trans (bind_of_error (push16_of_circular (s := s.addPending .stackError) _ hc) _)

theorem exec_ulnk_circular : exec .ulnk s = .refused .circularAddressing := by
  have back : ∀ (t : State) (v : Word), t.circular = true → (t.setWreg 15#4 v).circular = true := fun t v h => by
    simpa [State.circular] using h
  refine runInstr_of_refuse ?_
  rw [ask_bind]
  cases s.sfa
  · rw [if_pos (by decide), raiseTrap, upd_bind]
    exact (upd_bind ..).trans (bind_of_error (pop16_of_circular (back (s.addPending .stackError) _ hc)) _)
  · rw [if_neg (by decide)]
    exact (upd_bind ..).trans (bind_of_error (pop16_of_circular (back s _ hc)) _)

theorem exec_retlw_circular (byte : Bool) (k : BitVec 10) (r : Reg) :
    exec (.retlw byte k r) s = .refused .circularAddressing := by
  have hc' : (s.regDest byte r (k.zeroExtend 16)).circular = true := by simpa [State.circular] using hc
  exact runInstr_of_refuse (subroutineReturn_circular hc')

theorem exec_pushFile_circular {f15 : BitVec 15} {v : Word} (h : s.dataRead? .paged (wordAddr f15) false = some v) :
    exec (.pushFile f15) s = .refused .circularAddressing :=
  runInstr_of_refuse ((bind_of_ok (readFile_of_dataRead h) _).trans (bind_of_error (push16_of_circular v hc) _))

theorem exec_pushFile_not_next (f15 : BitVec 15) (t : State) : exec (.pushFile f15) s ≠ .next t := by
  intro ht
  have hread := relates_memRead circular_read .paged (wordAddr f15) false
  rcases runInstr_next_inv ht with hok | ⟨c, herr, _⟩
  · obtain ⟨v, u, hr, hpush⟩ := bind_ok_inv hok
    rw [bind_of_error (push16_of_circular v ((hread.of_ok s v u hr).trans hc))] at hpush
    cases hpush
  · rw [bind_apply] at herr
    split at herr
    next p hp =>
      rw [bind_of_error (push16_of_circular p.1 ((hread.of_ok s p.1 p.2 hp).trans hc))] at herr
      cases herr
    next e he =>
      cases herr
      exact hread.noReset s c he

end

end Sys2Proof.Machine
end

section
/-! The pointer checks of every instruction with an indirect operand (R29, R122, R368). -/

namespace Sys2Proof.Machine

/-- What an instruction whose pointer is checked first answers. -/
def pointerOutcome (ready : Bool) (s : State) : Host.Outcome State Fault Refusal :=
  if ready then .refused .circularAddressing else .next (deviceReset .uninitializedW s)

/-- `ADD{.B} Wb, Ws, Wd` with Wb read: read, add, write, then the flags. -/
def addTo (byte : Bool) (x : Word) (src dst : Operand) : M Unit :=
  readOp byte 0#4 src >>= fun v => writeOp byte 0#4 dst (addResult byte x v) >>= fun hit =>
    writeFlags hit (fun _ => addFlags byte x v) >>= fun _ => advance 1

theorem exec_addReg (byte : Bool) (wb : Reg) (src dst : Operand) (s : State) :
    exec (.addReg byte wb src dst) s = runInstr (addTo byte (s.regSource byte wb) src dst) s := by
  show runInstr (ask (fun s => s.regSource byte wb) >>= fun x => addTo byte x src dst) s = _
  unfold runInstr
  rw [ask_bind]

theorem tableRead_stops {s : State} {op : Operand} (h : s.pointerReady op 0#4 = false ∨ s.circular = true) (byte : Bool)
    (pick : Bool → ProgWord → Word) (k : Word → M Unit) :
    runInstr (tableRead byte op pick >>= k) s = pointerOutcome (s.pointerReady op 0#4) s :=
  runInstr_of_pointerStop (bind_of_error (withEA_stops h) k)

section

variable {s : State} {op : Operand} {wb : Reg} (hop : op.mode ≠ .direct)
  (h : s.pointerReady op wb = false ∨ s.circular = true)

include hop h

/-- A meaning that begins with reading the operand. -/
theorem runInstr_read_stops (byte : Bool) (k : Word → M Unit) :
    runInstr (readOp byte wb op >>= k) s = pointerOutcome (s.pointerReady op wb) s :=
  runInstr_of_pointerStop (bind_of_error (readOp_stops hop h byte) k)

/-- The same after another register was read. -/
theorem runInstr_ask_read_stops {α : Type} (byte : Bool) (f : State → α) (k : α → Word → M Unit) :
    runInstr (ask f >>= fun a => readOp byte wb op >>= k a) s = pointerOutcome (s.pointerReady op wb) s :=
  runInstr_read_stops hop h byte (k (f s))

/-- A meaning that reads a register and then writes the operand. -/
theorem runInstr_write_stops (byte : Bool) (r : Reg) (g : Word → Word) (k : Word → Bool → M Unit) :
    runInstr (readOp byte wb ⟨.direct, r⟩ >>= fun v => writeOp byte wb op (g v) >>= k v) s =
      pointerOutcome (s.pointerReady op wb) s :=
  runInstr_of_pointerStop (by
    rw [bind_of_ok (readOp_of_source (source_direct ..))]
    exact bind_of_error (writeOp_stops hop h byte _) _)

end

section

variable {s : State} {op : Operand} (hop : op.mode ≠ .direct) (h : s.pointerReady op 0#4 = false ∨ s.circular = true)

include hop h

theorem shiftReg_stops_src (byte : Bool) (d : Operand) (f : Word → ShiftResult) :
    runInstr (shiftReg byte op d f) s = pointerOutcome (s.pointerReady op 0#4) s :=
  runInstr_read_stops hop h byte _

theorem shiftReg_stops_dst (byte : Bool) (r : Reg) (f : Word → ShiftResult) :
    runInstr (shiftReg byte ⟨.direct, r⟩ op f) s = pointerOutcome (s.pointerReady op 0#4) s :=
  runInstr_write_stops hop h byte r (fun v => (f v).value) _

theorem mulToPair_stops (signs : Signs) (wb wd : Reg) :
    runInstr (mulToPair signs wb op wd) s = pointerOutcome (s.pointerReady op 0#4) s :=
  runInstr_ask_read_stops hop h false (fun s => s.wreg wb) _

theorem mulToWord_stops (signs : Signs) (wb wd : Reg) :
    runInstr (mulToWord signs wb op wd) s = pointerOutcome (s.pointerReady op 0#4) s :=
  runInstr_ask_read_stops hop h false (fun s => s.wreg wb) _

theorem addReg_stops_src (byte : Bool) (wb : Reg) (d : Operand) :
    exec (.addReg byte wb op d) s = pointerOutcome (s.pointerReady op 0#4) s :=
  (exec_addReg ..).trans (runInstr_read_stops hop h byte _)

theorem addReg_stops_dst (byte : Bool) (wb r : Reg) :
    exec (.addReg byte wb ⟨.direct, r⟩ op) s = pointerOutcome (s.pointerReady op 0#4) s :=
  (exec_addReg ..).trans (runInstr_write_stops hop h byte r (addResult byte (s.regSource byte wb)) _)

theorem addLit5_stops (byte : Bool) (wb : Reg) (lit : BitVec 5) :
    exec (.addLit5 byte wb lit op) s = pointerOutcome (s.pointerReady op 0#4) s :=
  runInstr_of_pointerStop ((ask_bind ..).trans (bind_of_error (writeOp_stops hop h byte _) _))

theorem movDLoad_stops (r : Reg) : exec (.movDLoad op r) s = pointerOutcome (s.pointerReady op 0#4) s :=
  runInstr_of_pointerStop (bind_of_error (readDouble_stops hop h) _)

theorem movDStore_stops (r : Reg) : exec (.movDStore r op) s = pointerOutcome (s.pointerReady op 0#4) s :=
  runInstr_of_pointerStop ((ask_bind ..).trans ((ask_bind ..).trans (bind_of_error (writeDouble_stops hop h _ _) _)))

theorem bsetReg_stops (byte : Bool) (bit : BitVec 4) :
    exec (.bsetReg byte bit op) s = pointerOutcome (s.pointerReady op 0#4) s := by
  refine runInstr_of_pointerStop ?_
  rw [if_neg hop]
  exact bind_of_error (withEA_stops h) _

end

section

variable {s : State} {op : Operand} {wb : Reg} (hop : op.mode ≠ .direct) (hd : s.dev.hasDsp = true)

include hop hd

theorem dsp_read_stops (h : s.pointerReady op wb = false ∨ s.circular = true) (k : Word → M Unit) :
    runInstr (requireDsp >>= fun _ => readOp false wb op >>= k) s = pointerOutcome (s.pointerReady op wb) s :=
  runInstr_of_pointerStop ((bind_of_ok (requireDsp_of_dsp hd) _).trans (bind_of_error (readOp_stops hop h false) k))

theorem mulAcc_stops (h : s.pointerReady op 0#4 = false ∨ s.circular = true) (signs : Signs) (acc : AccId) :
    exec (.mulAcc signs wb (.op op) acc) s = pointerOutcome (s.pointerReady op 0#4) s :=
  runInstr_of_pointerStop ((bind_of_ok (requireDsp_of_dsp hd) _).trans ((ask_bind ..).trans
    (bind_of_error (readOp_stops hop h false) _)))

theorem sac_stops (h : s.pointerReady op wb = false ∨ s.circular = true) (rounded : Bool) (acc : AccId)
    (shift : BitVec 4) : runInstr (requireDsp >>= fun _ =>
      ask (fun s => s.storeValue (s.acc acc) shift.toInt rounded) >>= fun v => writeOp false wb op v >>= fun _ => advance 1)
      s = pointerOutcome (s.pointerReady op wb) s :=
  runInstr_of_pointerStop ((bind_of_ok (requireDsp_of_dsp hd) _).trans ((ask_bind ..).trans
    (bind_of_error (writeOp_stops hop h false _) _)))

end

/-- Behind a source that could be read, an uninitialized destination pointer gives the Reset. -/
theorem runInstr_write_resets {byte : Bool} {wb : Reg} {src op : Operand} {s t : State} {v : Word}
    (hs : s.source? byte wb src = some (v, t)) (hop : op.mode ≠ .direct) (h : t.pointerReady op wb = false)
    (g : Word → Word) (k : Word → Bool → M Unit) :
    runInstr (readOp byte wb src >>= fun v => writeOp byte wb op (g v) >>= k v) s =
      .next (deviceReset .uninitializedW s) := by
  have hstop := writeOp_stops hop (.inl h) byte (g v)
  rw [h] at hstop
  exact runInstr_of_reset ((bind_of_ok (readOp_of_source hs) _).trans (bind_of_error hstop _))

/-- Settles O16: each instruction comes to its pointer check with the pointers as initialized as they were. -/
theorem pointerChecks : Obligations.PointerChecks := by
  unfold Obligations.PointerChecks
  intro s op src wb r byte lit5 b4 acc signs pair wm xd x y a b awb hop d uninit stops resets mults
  refine ⟨fun h => ?_, fun h => ?_, fun t v hs hready => ?_, fun t v hs hready => ?_, fun hready => ?_, fun hready => ?_,
    fun hd => ⟨fun h => ?_, fun h => ?_, fun hus => ⟨fun h => ?_, fun h => ?_, fun h => ?_⟩, fun hready => ?_,
      fun hready => ?_⟩, fun hc e a22 off hi lit f15 k => ⟨?_, ?_, ?_, ?_⟩⟩
  · simp only [List.forall_mem_cons]
    exact ⟨runInstr_read_stops hop h byte _, runInstr_write_stops hop h byte r id _, fun _ hi => nomatch hi⟩
  · simp only [List.forall_mem_cons]
    exact ⟨movDLoad_stops hop h r, movDStore_stops hop h r, runInstr_read_stops hop h true _,
      runInstr_read_stops hop h true _, tableRead_stops h byte _ _, tableRead_stops h byte _ _,
      addReg_stops_src hop h byte wb d, addReg_stops_dst hop h byte wb r, addLit5_stops hop h byte wb lit5,
      shiftReg_stops_src hop h byte d _, shiftReg_stops_dst hop h byte r _, shiftReg_stops_src hop h byte d _,
      shiftReg_stops_dst hop h byte r _, shiftReg_stops_src hop h byte d _, shiftReg_stops_dst hop h byte r _,
      bsetReg_stops hop h byte b4, runInstr_read_stops hop h false _, mulToPair_stops hop h .uu wb r,
      mulToPair_stops hop h .us wb r, mulToPair_stops hop h .su wb r, mulToPair_stops hop h .ss wb r,
      mulToWord_stops hop h .ss wb r, mulToWord_stops hop h .su wb r, mulToWord_stops hop h .us wb r,
      mulToWord_stops hop h .uu wb r, fun _ hi => nomatch hi⟩
  · exact runInstr_write_resets hs hop hready id _
  · simp only [List.forall_mem_cons]
    exact ⟨(exec_addReg ..).trans (runInstr_write_resets hs hop hready (addResult byte (s.regSource byte wb)) _),
      runInstr_write_resets hs hop hready (fun v => (shiftLeft1 byte v).value) _,
      runInstr_write_resets hs hop hready (fun v => (shiftRight1 v).value) _,
      runInstr_write_resets hs hop hready (fun v => (shiftArith1 byte v).value) _, fun _ hi => nomatch hi⟩
  · simp only [List.forall_mem_cons]
    exact ⟨fun t => next_of_onlyUninit (onlyUninit_write (passes_readOp byte wb src) hop hready id _),
      fun _ hi => nomatch hi⟩
  · have shifts : ∀ f t, runInstr (shiftReg byte src op f) s = .next t → t = uninit := fun f t =>
      next_of_onlyUninit (onlyUninit_write (passes_readOp byte 0#4 src) hop hready (fun v => (f v).value) _)
    simp only [List.forall_mem_cons]
    exact ⟨fun t ht => next_of_onlyUninit (onlyUninit_write (passes_readOp byte 0#4 src) hop hready
        (addResult byte (s.regSource byte wb)) _) ((exec_addReg ..).symm.trans ht),
      shifts _, shifts _, shifts _,
      fun t => next_of_onlyUninit (onlyUninit_write (passes_tableRead byte src (tableLow byte)) hop hready id _),
      fun t => next_of_onlyUninit (onlyUninit_write (passes_tableRead byte src (tableHigh byte)) hop hready id _),
      fun _ hi => nomatch hi⟩
  · simp only [List.forall_mem_cons]
    exact ⟨dsp_read_stops hop hd h _, dsp_read_stops hop hd h _, sac_stops hop hd h false acc b4,
      sac_stops hop hd h true acc b4, fun _ hi => nomatch hi⟩
  · simp only [List.forall_mem_cons]
    exact ⟨mulAcc_stops hop hd h signs acc, fun _ hi => nomatch hi⟩
  · have mul : ∀ m n c w, runInstr (mulClass m n acc c (.on a xd) y w) s = _ := fun m n c w =>
      runInstr_of_pointerStop (mulClass_stops_x hd hus h)
    simp only [mults, List.forall_mem_cons]
    exact ⟨runInstr_of_pointerStop (distance_stops hd hus h), runInstr_of_pointerStop (distance_stops hd hus h),
      mul _ _ _ _, mul _ _ _ _, mul _ _ _ _, mul _ _ _ _, mul _ _ _ _, mul _ _ _ _, fun _ hi => nomatch hi⟩
  · have mul : ∀ m n c w, runInstr (mulClass m n acc c .off (.on b xd) w) s = _ := fun m n c w =>
      runInstr_of_pointerStop (mulClass_stops_y hd hus h)
    simp only [mults, List.forall_mem_cons]
    exact ⟨mul _ _ _ _, mul _ _ _ _, mul _ _ _ _, mul _ _ _ _, mul _ _ _ _, mul _ _ _ _, fun _ hi => nomatch hi⟩
  · simp only [List.forall_mem_cons]
    exact ⟨runInstr_of_pointerStop (mulClass_stops_awb hd hus h), runInstr_of_pointerStop (mulClass_stops_awb hd hus h),
      fun _ hi => nomatch hi⟩
  · have mul : ∀ m n c w t, runInstr (mulClass m n acc c x (.on b xd) w) s = .next t → t = uninit :=
      fun m n c w t => next_of_onlyUninit (onlyUninit_mulClass_y hready)
    simp only [mults, List.forall_mem_cons]
    exact ⟨fun t => next_of_onlyUninit (onlyUninit_distance hready), fun t => next_of_onlyUninit (onlyUninit_distance hready),
      mul _ _ _ _, mul _ _ _ _, mul _ _ _ _, mul _ _ _ _, mul _ _ _ _, mul _ _ _ _, fun _ hi => nomatch hi⟩
  · simp only [List.forall_mem_cons]
    exact ⟨fun t => next_of_onlyUninit (onlyUninit_mulClass_awb hready),
      fun t => next_of_onlyUninit (onlyUninit_mulClass_awb hready), fun _ hi => nomatch hi⟩
  · exact runInstr_of_refuse (enter_circular hc e)
  · have calls : ∀ next target, runInstr (doCall next target) s = .refused .circularAddressing := fun next target =>
      runInstr_of_refuse (doCall_circular hc next target)
    simp only [List.forall_mem_cons]
    exact ⟨calls _ _, calls _ _, calls _ _, calls _ _, calls _ _, runInstr_of_refuse (subroutineReturn_circular hc),
      runInstr_of_refuse ((ask_bind ..).trans (bind_of_error (pop16_of_circular hc) _)), exec_retlw_circular hc byte k r,
      exec_lnk_circular hc lit, exec_ulnk_circular hc, runInstr_of_refuse (bind_of_error (pop16_of_circular hc) _),
      fun _ hi => nomatch hi⟩
  · exact exec_pushFile_not_next hc f15
  · exact fun v => exec_pushFile_circular hc

end Sys2Proof.Machine
end
